-- ==== Sys2Proof/Word.lean ====
section
/-! DEFINITION. The word types of the batterytester frame engine.

Bits are numbered from 0 at the least significant end and every number is unsigned (spec/00_scope.md R12). -/

namespace Sys2Proof

/-- One byte of the wire, of a name or of a table (R12). -/
abbrev Byte := BitVec 8

/-- A 16-bit field: `magic`, `length`, `chunk_index`, `chunk_size` (30_encoding.md R200, R214). -/
abbrev Half := BitVec 16

/-- A host register (10_state.md R73) or a u32 payload field (30_encoding.md R210, R213). -/
abbrev Word := BitVec 32

end Sys2Proof
end

