-- ==== Sys2Proof/Config.lean ====
section
/-! DEFINITION. The implementation parameters (spec/00_scope.md R10).

R10 says that a model takes each parameter as an argument and gives the value this hardware takes.
Every row of R10's table is a field of `Config`; the machine carries one `Config` and no step writes it
(assumption log 4).
`Config.legal` says which values the rules of the spec have a meaning for: those the spec leaves open range freely
(92_eei_decisions.md D2, D3, D7, D21; 93_implementation_defined.md I1, I2, I7, I8, I10; 00_scope.md R9), and those a
field layout of the spec fixes have their one value (90_conflicts.md C8; assumption log 25). -/

namespace Sys2Proof

/-- The parameters of R10. -/
structure Config where
  /-- `MAGIC` (D2). -/
  magic : Half
  /-- `CMD_HANDSHAKE` (D3). -/
  cmdHandshake : Byte
  /-- `CMD_FILE_LIST` (D3). -/
  cmdFileList : Byte
  /-- `CMD_FILE_DATA` (D3). -/
  cmdFileData : Byte
  /-- `CMD_FILE_END` (D3). -/
  cmdFileEnd : Byte
  /-- `CMD_ACK` (D3). -/
  cmdAck : Byte
  /-- `CMD_NACK` (D3). -/
  cmdNack : Byte
  /-- `HDR_BYTES`: the bytes of a frame header. -/
  hdrBytes : Nat
  /-- `MAX_PAYLOAD`: the most payload bytes of a frame, and the size of `PAYBUF`. -/
  maxPayload : Nat
  /-- `NAME_SLOT`: the bytes of a name slot on the wire and of a name in the tables. -/
  nameSlot : Nat
  /-- `MAX_FILES`: the entries of the `DESC` and `RXNAME` tables. -/
  maxFiles : Nat
  /-- `CHUNK_SIZE`; legal range 1..65531 (R10, I7). -/
  chunkSize : Nat
  /-- `SEPARATORS` (D21, I10). -/
  separators : List Byte
  /-- `TICK_HZ`; no rule depends on a duration, so no definition reads it (D7, 70_reset_and_hazards.md R730). -/
  tickHz : Nat
  /-- `HS_TIMEOUT_RESET`, in ticks. -/
  hsTimeoutReset : Word
  /-- `FR_TIMEOUT_RESET`, in ticks. -/
  frTimeoutReset : Word
  /-- The register width, in bits (D23); the width of `Word`. -/
  registerBits : Nat
  /-- The host address width, in bits (D23); the width of a host access's address. -/
  hostAddressBits : Nat
  /-- The width of a file size, in bits; the width of `cur_size`. -/
  sizeBits : Nat
  /-- The width of a chunk index, in bits; the width of `chunk_idx`. -/
  chunkIndexBits : Nat
deriving DecidableEq, Repr

/-- Where SIZE stands in a `DESC` entry: after the name (10_state.md R101: +0x40). -/
def Config.descSizeAt (c : Config) : Nat := c.nameSlot

/-- Where INDEX stands in a `DESC` entry: after SIZE (10_state.md R101: +0x44). -/
def Config.descIndexAt (c : Config) : Nat := c.nameSlot + 4

/-- The bytes of one `DESC` entry: a name, SIZE, the word of INDEX, and two reserved words (10_state.md R101: 0x50;
assumption log 25). -/
def Config.descBytes (c : Config) : Nat := c.nameSlot + 16

/-- The values this hardware takes (R10). -/
def Config.default : Config where
  magic := 0xAA55#16
  cmdHandshake := 0x01#8
  cmdFileList := 0x02#8
  cmdFileData := 0x03#8
  cmdFileEnd := 0x04#8
  cmdAck := 0x05#8
  cmdNack := 0x06#8
  hdrBytes := 6
  maxPayload := 65535
  nameSlot := 64
  maxFiles := 255
  chunkSize := 512
  separators := [0x2F#8, 0x5C#8]
  tickHz := 1000
  hsTimeoutReset := 30000#32
  frTimeoutReset := 5000#32
  registerBits := 32
  hostAddressBits := 16
  sizeBits := 32
  chunkIndexBits := 16

/-- The six command codes in the order of 30_encoding.md R204. -/
def Config.codes (c : Config) : List Byte :=
  [c.cmdHandshake, c.cmdFileList, c.cmdFileData, c.cmdFileEnd, c.cmdAck, c.cmdNack]

/-- The parameters that a field layout of the spec fixes have the value it fixes (90_conflicts.md C8, assumption log 25):
the header of 30_encoding.md R200, its 16-bit length (40_codec.md R272), the 8-bit `file_count` (R211), and the widths of
10_state.md R73 and R58 to R60. -/
def Config.layoutLegal (c : Config) : Bool :=
  decide (c.hdrBytes = 6) && decide (c.maxPayload = 65535) && decide (c.maxFiles = 255) &&
    decide (c.registerBits = 32) && decide (c.hostAddressBits = 16) && decide (c.sizeBits = 32) &&
    decide (c.chunkIndexBits = 16)

/-- A name slot is a whole number of host words, and the tables of 10_state.md R75 fit between their bases: `CURNAME` below
0x1000, `DESC` below 0x8000, `RXNAME` below 0x10000 (assumption log 25). -/
def Config.slotLegal (c : Config) : Bool :=
  decide (1 ≤ c.nameSlot) && decide (c.nameSlot % 4 = 0) && decide (0x100 + c.nameSlot ≤ 0x1000) &&
    decide (0x1000 + c.descBytes * c.maxFiles ≤ 0x8000) && decide (0x8000 + c.nameSlot * c.maxFiles ≤ 0x10000)

/-- A legal choice of the parameters: the command codes are distinct bytes (D3), `CHUNK_SIZE` is in 1..65531 (R10, I38),
and the name slot and the layout values are ones the rules have a meaning for. -/
def Config.legal (c : Config) : Bool :=
  decide c.codes.Nodup && decide (1 ≤ c.chunkSize) && decide (4 + c.chunkSize ≤ c.maxPayload) && c.slotLegal &&
    c.layoutLegal

end Sys2Proof
end

