-- ==== Sys2Proof/Syntax.lean ====
section
/-! DEFINITION. The instructions: one constructor per row of spec/opcode_table.json.

The instructions of this block are the frames a peer sends and the command words a host writes
(spec/30_encoding.md, opening; 00_scope.md R3).
A frame constructor carries the frame's whole payload, because a frame of a known command whose length is
wrong is still an instruction with an effect (Malformed, R208): its operands are taken out of the payload by
`Sys2Proof/Machine/Operands.lean`. -/

namespace Sys2Proof

/-- `xsub`: which of the two FILE_DATA payload forms a FILE_DATA frame carries (10_state.md R54,
30_encoding.md R212). -/
inductive XSub where
  /-- 0 INFO: the file-info exchange of the current file is pending. -/
  | info
  /-- 1 CHUNKS: chunk exchanges of the current file. -/
  | chunks
deriving DecidableEq, Repr

/-- The instructions of spec/opcode_table.json. -/
inductive Instr where
  /-- HANDSHAKE, command 0x01 (R210). -/
  | handshake (payload : List Byte)
  /-- FILE_LIST, command 0x02 (R211). -/
  | fileList (payload : List Byte)
  /-- FILE_DATA.INFO, command 0x03 in the info form (R212, R213). -/
  | fileDataInfo (payload : List Byte)
  /-- FILE_DATA.CHUNK, command 0x03 in the chunk form (R212, R214). -/
  | fileDataChunk (payload : List Byte)
  /-- FILE_END, command 0x04 (R215). -/
  | fileEnd (payload : List Byte)
  /-- ACK, command 0x05 (R216). -/
  | ack (payload : List Byte)
  /-- NACK, command 0x06 (R216). -/
  | nack (payload : List Byte)
  /-- START, `CMD` code 1 (R219). -/
  | start
  /-- ABORT, `CMD` code 2 (R219). -/
  | abort
  /-- RETRY, `CMD` code 3 (R219). -/
  | retry
deriving DecidableEq, Repr

/-- The payload of a frame instruction; a host command word has none. -/
def Instr.payload : Instr → List Byte
  | .handshake p => p
  | .fileList p => p
  | .fileDataInfo p => p
  | .fileDataChunk p => p
  | .fileEnd p => p
  | .ack p => p
  | .nack p => p
  | .start => []
  | .abort => []
  | .retry => []

end Sys2Proof
end

