-- ==== Sys2Proof/Decode.lean ====
section
/-! DEFINITION. The packet codec: byte order, checksum, decoder and encoder (spec/30_encoding.md, 40_codec.md).

Two encodings exist: the frame on the wire (R200) and the host command word written to `CMD` (R219).
The decoder is total on any bytes and rejects by name; the encoder is written from the same tables. -/

namespace Sys2Proof

/-! ### Byte sequences and byte order (00_scope.md R13) -/

/-- `P[k]`, with 0x00 past the end (every rule reads inside the payload). -/
def byteAt (p : List Byte) (k : Nat) : Byte := p.getD k 0#8

/-- `LE16(P, i)`. -/
def le16 (p : List Byte) (i : Nat) : Half :=
  (byteAt p i).setWidth 16 ||| ((byteAt p (i + 1)).setWidth 16 <<< 8)

/-- `LE32(P, i)`. -/
def le32 (p : List Byte) (i : Nat) : Word :=
  (byteAt p i).setWidth 32 ||| ((byteAt p (i + 1)).setWidth 32 <<< 8) |||
    ((byteAt p (i + 2)).setWidth 32 <<< 16) ||| ((byteAt p (i + 3)).setWidth 32 <<< 24)

/-- `bytes16(v)`. -/
def bytes16 (v : Half) : List Byte := [v.extractLsb' 0 8, v.extractLsb' 8 8]

/-- `bytes32(v)`. -/
def bytes32 (v : Word) : List Byte :=
  [v.extractLsb' 0 8, v.extractLsb' 8 8, v.extractLsb' 16 8, v.extractLsb' 24 8]

/-- `P[i..j)` (00_scope.md R13). -/
def slice (p : List Byte) (i j : Nat) : List Byte := (p.drop i).take (j - i)

/-- `zeros(n)` (00_scope.md R13). -/
def zeros (n : Nat) : List Byte := List.replicate n 0#8

/-! ### Checksum (40_codec.md R250, R251) -/

/-- `xorfold(P)`: the XOR of all payload bytes, 0x00 for an empty payload (R250). -/
def xorfold (p : List Byte) : Byte := p.foldl (fun c b => c ^^^ b) 0#8

/-- `verify_checksum(P, claimed)` (R251). -/
def verifyChecksum (p : List Byte) (claimed : Byte) : Bool := xorfold p == claimed

/-! ### Frames (R200, R253) -/

/-- `encode(cmd, P)`: magic, command, length, checksum, payload (R253). -/
def encodeFrame (c : Config) (cmd : Byte) (p : List Byte) : List Byte :=
  bytes16 c.magic ++ [cmd] ++ bytes16 (BitVec.ofNat 16 p.length) ++ [xorfold p] ++ p

/-- The header word `H` of R201: the six header bytes as one 48-bit number. -/
def headerWord (bytes : List Byte) : BitVec 48 :=
  (List.range 6).foldl (fun h k => h ||| ((byteAt bytes k).setWidth 48 <<< (8 * k))) 0#48

/-- An encoded instruction: the bytes of a frame, or the 32-bit word a host writes to `CMD`. -/
inductive Encoded where
  /-- The bytes of a frame, in wire order (R200). -/
  | frame (bytes : List Byte)
  /-- The host command word (R219). -/
  | command (word : Word)
deriving DecidableEq, Repr

/-- Why bytes are no instruction of the table, in the order of the checks (60_exceptions.md R605). -/
inductive Reject where
  /-- Fewer than six bytes: no header (40_codec.md R261). -/
  | shortHeader
  /-- The header's magic is not `MAGIC` (40_codec.md R265). -/
  | badMagic (m : Half)
  /-- Fewer bytes than `length` says follow the header (40_codec.md R266). -/
  | shortPayload
  /-- The payload's fold is not the checksum byte (40_codec.md R267). -/
  | badChecksum (computed claimed : Byte)
  /-- The command byte is none of the six codes (30_encoding.md R205). -/
  | unknownCommand (code : Byte)
  /-- The `CODE` of a host command word is none of 1, 2, 3 (30_encoding.md R219). -/
  | reservedCode (code : Byte)
deriving DecidableEq, Repr

/-- The instruction a command code and payload stand for: R204, with the FILE_DATA form taken from `xsub`
(R212); `none` for a code that is no command (R205). -/
def decodeBody (c : Config) (x : XSub) (cmd : Byte) (p : List Byte) : Option Instr :=
  if cmd = c.cmdHandshake then some (.handshake p)
  else if cmd = c.cmdFileList then some (.fileList p)
  else if cmd = c.cmdFileData then
    match x with
    | .info => some (.fileDataInfo p)
    | .chunks => some (.fileDataChunk p)
  else if cmd = c.cmdFileEnd then some (.fileEnd p)
  else if cmd = c.cmdAck then some (.ack p)
  else if cmd = c.cmdNack then some (.nack p)
  else none

/-- Reads one frame from the front of a byte sequence, and answers with the bytes after it (R221: `HDR_BYTES`
header bytes, `length` from bytes 3..4, then `length` payload bytes). -/
def decodeFrame (c : Config) (x : XSub) (bytes : List Byte) : Except Reject (Instr × List Byte) :=
  if bytes.length < c.hdrBytes then .error .shortHeader
  else if le16 bytes 0 ≠ c.magic then .error (.badMagic (le16 bytes 0))
  else
    let len := (le16 bytes 3).toNat
    let body := bytes.drop c.hdrBytes
    if body.length < len then .error .shortPayload
    else
      let p := body.take len
      if xorfold p ≠ byteAt bytes 5 then .error (.badChecksum (xorfold p) (byteAt bytes 5))
      else
        match decodeBody c x (byteAt bytes 2) p with
        | some i => .ok (i, body.drop len)
        | none => .error (.unknownCommand (byteAt bytes 2))

/-- Reads a host command word: `CODE` is bits [7:0], bits [31:8] are ignored (R219). -/
def decodeCommand (w : Word) : Except Reject Instr :=
  let code := w.extractLsb' 0 8
  if code = 0x01#8 then .ok .start
  else if code = 0x02#8 then .ok .abort
  else if code = 0x03#8 then .ok .retry
  else .error (.reservedCode code)

/-- The decoder: total on any encoded instruction. The bytes after a frame's last byte are handed back. -/
def decode (c : Config) (x : XSub) : Encoded → Except Reject (Instr × List Byte)
  | .frame bytes => decodeFrame c x bytes
  | .command w => (decodeCommand w).map fun i => (i, [])

/-- The encoder, from R200, R204 and R219; a command word's ignored bits are sent as 0. -/
def encode (c : Config) : Instr → Encoded
  | .handshake p => .frame (encodeFrame c c.cmdHandshake p)
  | .fileList p => .frame (encodeFrame c c.cmdFileList p)
  | .fileDataInfo p => .frame (encodeFrame c c.cmdFileData p)
  | .fileDataChunk p => .frame (encodeFrame c c.cmdFileData p)
  | .fileEnd p => .frame (encodeFrame c c.cmdFileEnd p)
  | .ack p => .frame (encodeFrame c c.cmdAck p)
  | .nack p => .frame (encodeFrame c c.cmdNack p)
  | .start => .command 0x01#32
  | .abort => .command 0x02#32
  | .retry => .command 0x03#32

/-- The code an instruction's frame carries; a host command word carries none (R204, R219). -/
def Instr.code (c : Config) : Instr → Option Byte
  | .handshake _ => some c.cmdHandshake
  | .fileList _ => some c.cmdFileList
  | .fileDataInfo _ => some c.cmdFileData
  | .fileDataChunk _ => some c.cmdFileData
  | .fileEnd _ => some c.cmdFileEnd
  | .ack _ => some c.cmdAck
  | .nack _ => some c.cmdNack
  | .start => none
  | .abort => none
  | .retry => none

/-- The `xsub` in which a receiver reads a frame as this instruction; only FILE_DATA depends on it (R212). -/
def Instr.form : Instr → XSub
  | .fileDataChunk _ => .chunks
  | _ => .info

/-! ### Words of spec/opcode_table.json -/

/-- The bytes of the frame whose bits are `w`, bit 0 the least significant bit of the first byte (R201): six
header bytes, then as many payload bytes as the header's length says; the bits above `nbits` are 0. -/
def frameBytesOfWord (nbits w : Nat) : List Byte :=
  let v := w % 2 ^ nbits
  let at' := fun k => BitVec.ofNat 8 (v >>> (8 * k))
  let hdr := (List.range 6).map at'
  hdr ++ (List.range (le16 hdr 3).toNat).map fun k => at' (6 + k)

/-- A table word as an encoded instruction: the frame rows give 24 bits of the header word, the host command
rows the 8 bits of `CODE`. -/
def encodedOfWord (nbits w : Nat) : Encoded :=
  if nbits < 24 then .command (BitVec.ofNat 32 (w % 2 ^ nbits)) else .frame (frameBytesOfWord nbits w)

/-- What the decoder reads from a word of spec/opcode_table.json, with the parameters this hardware takes and
`xsub` = INFO, its reset value: the two FILE_DATA rows have one word, and the frame does not say which form it
has (R212; assumption log 7). -/
def decodeTableWord (nbits w : Nat) : Option Instr :=
  match decode Config.default .info (encodedOfWord nbits w) with
  | .ok (i, _) => some i
  | .error _ => none

end Sys2Proof
end

