-- ==== Sys2Proof/Machine/State.lean ====
section
/-! DEFINITION. The state of the machine, its faults and refusals, and the state after reset.

The engine's own state is the inventory of spec/10_state.md R51, grouped by the sections of that file.
Beside it stand the parameters (`cfg`, R10) and the ports of R95 (`port`): the transport's unconsumed bytes, the
schedule of input events, and what the engine has put out.
R51 calls neither of these two state of the engine; they are held here because the step is one function of one
state (assumption log 1, 4, 15). -/

namespace Sys2Proof.Machine

/-- A byte space as a list of (address, byte), addresses strictly rising, no entry equal to what an unlisted
address reads as; the operations and the canonical form are in Machine/Memory.lean. -/
abbrev Memory := List Host.Cell

/-- `phase` (R52); the values 9..15 are never held. -/
inductive Phase where
  /-- 0: no session since reset. -/
  | idle
  /-- 1: the responder waits for a valid HANDSHAKE. -/
  | awaitingHandshake
  /-- 2: the initiator sends HANDSHAKE and waits for its ACK. -/
  | sendingHandshake
  /-- 3: handshake complete; left by the ADV step. -/
  | handshakeDone
  /-- 4: the LIST-mode receiver waits for FILE_LIST. -/
  | awaitingFileList
  /-- 5: the LIST-mode sender sends FILE_LIST and waits for its ACK. -/
  | sendingFileList
  /-- 6: file-info and chunk exchanges. -/
  | transferringFile
  /-- 7: session completed. -/
  | done
  /-- 8: session ended by a fatal error. -/
  | failed
deriving DecidableEq, Repr

/-- `act` (R53); the value 7 is never held. -/
inductive Act where
  /-- 0: no session runs. -/
  | none
  /-- 1: the next step builds and emits a request frame. -/
  | txreq
  /-- 2: waiting for a request frame from the peer. -/
  | wreq
  /-- 3: waiting for the ACK or NACK that answers the engine's request. -/
  | wrsp
  /-- 4: waiting for the host's answer to a source read request. -/
  | wsrc
  /-- 5: a NACK was received; waiting for the host's RETRY or ABORT. -/
  | whost
  /-- 6: the next step leaves HANDSHAKE_DONE. -/
  | adv
deriving DecidableEq, Repr

/-- The error codes (60_exceptions.md R600); the values 10..15 are never recorded. -/
inductive ErrCode where
  /-- 0: no error. -/
  | none
  /-- 1. -/
  | badMagic
  /-- 2: ShortRead/Timeout. -/
  | shortRead
  /-- 3. -/
  | checksumMismatch
  /-- 4. -/
  | unexpectedCommand
  /-- 5. -/
  | sequenceMismatch
  /-- 6. -/
  | handshakeTimeout
  /-- 7. -/
  | transferIncomplete
  /-- 8. -/
  | malformed
  /-- 9. -/
  | aborted
deriving DecidableEq, Repr

/-- The configuration registers (R51, R75 to R81); the `DESC` table is a field of `State`. -/
structure ConfRegs where
  /-- `CTRL` (R76): bit 0 ROLE, bit 1 DIR, bit 2 MODE. -/
  ctrl : BitVec 3
  /-- `TX_VERSION` (R79). -/
  txVersion : Byte
  /-- `TX_TIMESTAMP` (R79). -/
  txTimestamp : Word
  /-- `HS_TIMEOUT` (R80). -/
  hsTimeout : Word
  /-- `FR_TIMEOUT` (R80). -/
  frTimeout : Word
  /-- `DESC_COUNT` (R81). -/
  descCount : Byte
deriving DecidableEq, Repr

/-- The session data registers (R56 to R62), but for the names and the kept frame. -/
structure Session where
  /-- `pend_count` (R56). -/
  pendCount : Byte
  /-- `file_ptr` (R57). -/
  filePtr : Byte
  /-- `cur_index` (R58). -/
  curIndex : Byte
  /-- `cur_size` (R58). -/
  curSize : Word
  /-- `bytes_done` (R59). -/
  bytesDone : Word
  /-- `chunk_idx` (R60). -/
  chunkIdx : Half
  /-- `rx_version` (R61). -/
  rxVersion : Byte
  /-- `rx_timestamp` (R61). -/
  rxTimestamp : Word
  /-- `tx_n` (R62). -/
  txN : Half
deriving DecidableEq, Repr

/-- The six header bytes `hdr` (R63). -/
structure Header where
  /-- `hdr[0]`. -/
  b0 : Byte
  /-- `hdr[1]`. -/
  b1 : Byte
  /-- `hdr[2]`. -/
  b2 : Byte
  /-- `hdr[3]`. -/
  b3 : Byte
  /-- `hdr[4]`. -/
  b4 : Byte
  /-- `hdr[5]`. -/
  b5 : Byte
deriving DecidableEq, Repr

/-- The frame parser (R63). -/
structure Parser where
  /-- `hc`: header bytes collected, 0..6. -/
  hc : BitVec 3
  /-- `hdr`. -/
  hdr : Header
  /-- `pcnt`: payload bytes collected. -/
  pcnt : Half
  /-- `plen`. -/
  plen : Half
  /-- `pcmd`. -/
  pcmd : Byte
  /-- `pcsum`. -/
  pcsum : Byte
  /-- `PAYBUF` (20_memory.md R152), addresses 0..65534. -/
  paybuf : Memory
deriving DecidableEq, Repr

/-- The error registers (R70, R71). -/
structure ErrRegs where
  /-- `fail_cause` (R70). -/
  failCause : ErrCode
  /-- `fail_phase` (R70). -/
  failPhase : Phase
  /-- `last_err` (R71). -/
  lastErr : ErrCode
  /-- `err_exp` (R71). -/
  errExp : Word
  /-- `err_obs` (R71). -/
  errObs : Word
deriving DecidableEq, Repr

/-- The contents the environment chooses for what the spec leaves unspecified at a Reset
(70_reset_and_hazards.md R700, R702; 93_implementation_defined.md I20 to I23). -/
structure PowerUp where
  /-- `DESC` table contents. -/
  desc : List Host.Cell := []
  /-- `RXNAME` table contents. -/
  rxname : List Host.Cell := []
  /-- `PAYBUF` contents. -/
  paybuf : List Host.Cell := []
  /-- `hdr` contents. -/
  hdr : Header := ⟨0#8, 0#8, 0#8, 0#8, 0#8, 0#8⟩
  /-- `plen` contents. -/
  plen : Half := 0#16
  /-- `pcmd` contents. -/
  pcmd : Byte := 0#8
  /-- `pcsum` contents. -/
  pcsum : Byte := 0#8
  /-- `txbuf` contents. -/
  txbuf : List Byte := []
deriving DecidableEq, Repr

/-- An entry of the schedule: an event of the environment (R95, 41_session.md R300 (a)), an internal step of the
engine (R300 (b)), or a byte the peer puts into the transport (46_host_commands.md R530). -/
inductive Event where
  /-- The peer puts a byte into the transport; the engine takes no step. -/
  | peer (b : Byte)
  /-- `RxByte(b)`: the engine consumes the transport's next byte. -/
  | rxByte
  /-- `Tick`. -/
  | tick
  /-- `HostWrite(addr, v)`, an access of `width` bytes (4 is the one defined width, 20_memory.md R155). -/
  | hostWrite (width : Nat) (addr : BitVec 16) (v : Word)
  /-- `HostRead(addr)`, an access of `width` bytes. -/
  | hostRead (width : Nat) (addr : BitVec 16)
  /-- `SrcResp(D)`. -/
  | srcResp (d : List Byte)
  /-- `Reset`, with the contents the spec leaves unspecified. -/
  | reset (u : PowerUp)
  /-- The internal step, enabled when `act` is TXREQ or ADV. -/
  | internal
deriving DecidableEq, Repr

/-- An event on the file-content sink port (R95, R97). -/
inductive SinkEvent where
  /-- `FileStart(pos, index, size, name)`. -/
  | fileStart (pos index : Byte) (size : Word) (name : List Byte)
  /-- `Data(D)`. -/
  | data (d : List Byte)
  /-- `FileEnd(pos)`. -/
  | fileEnd (pos : Byte)
deriving DecidableEq, Repr

/-- A read request on the source port: `SrcReq(f, off, n)` (R95). -/
structure SrcReq where
  /-- The file's position in the session. -/
  file : Byte
  /-- The byte offset. -/
  off : Word
  /-- The number of bytes asked for. -/
  n : Nat
deriving DecidableEq, Repr

/-- Something the engine puts out on a port (R95). -/
inductive Output where
  /-- `emit(F)`: a whole frame on the transmit port (R96). -/
  | frame (f : List Byte)
  /-- `sink(E)`: an event on the sink port (R97). -/
  | sink (e : SinkEvent)
  /-- `srcreq(f, off, n)`: a request on the source port. -/
  | srcReq (r : SrcReq)
  /-- The answer of a host read: address and value. -/
  | hostRead (addr : BitVec 16) (v : Word)
deriving DecidableEq, Repr

/-- The engine's ports (R95). -/
structure Ports where
  /-- The schedule: the inputs still to come, oldest first. -/
  events : List Event
  /-- The transport's received bytes not yet consumed, oldest first (70_reset_and_hazards.md R710). -/
  rxq : List Byte
  /-- Everything put out so far, oldest first, in one list, so that the order between the ports is kept (R97). -/
  out : List Output
deriving DecidableEq, Repr

/-- The transmitted stream, oldest byte first (R96). -/
def Ports.tx (p : Ports) : List Byte := p.out.flatMap fun | .frame f => f | _ => []

/-- The sink stream, oldest event first (R97). -/
def Ports.sink (p : Ports) : List SinkEvent := p.out.filterMap fun | .sink e => some e | _ => none

/-- The source read requests issued, oldest first (R95). -/
def Ports.srcReqs (p : Ports) : List SrcReq := p.out.filterMap fun | .srcReq r => some r | _ => none

/-- The machine's state. -/
structure State where
  /-- The parameters (R10); no step writes them. -/
  cfg : Config
  /-- The configuration registers. -/
  conf : ConfRegs
  /-- The `DESC` table (R101): byte `j` of entry `i` at address 80·i + j. -/
  desc : Memory
  /-- `phase` (R52). -/
  phase : Phase
  /-- `act` (R53). -/
  act : Act
  /-- `xsub` (R54). -/
  xsub : XSub
  /-- The session data registers. -/
  sess : Session
  /-- `CURNAME` (R58), addresses 0..63 (`NAME_SLOT` bytes). -/
  curname : Memory
  /-- The `RXNAME` table (R102): byte `j` of entry `i` at address 64·i + j. -/
  rxname : Memory
  /-- `txbuf` (R62): the last request frame the engine emitted. -/
  txbuf : List Byte
  /-- The frame parser. -/
  parser : Parser
  /-- `hs_timer` (R65). -/
  hsTimer : Word
  /-- `fr_timer` (R66). -/
  frTimer : Word
  /-- `abort_req` (R67). -/
  abortReq : Bool
  /-- `link_owned` (R68). -/
  linkOwned : Bool
  /-- `src_pending` (R69). -/
  srcPending : Bool
  /-- The error registers. -/
  err : ErrRegs
  /-- `IRQ_STATUS` (R72). -/
  irqStatus : BitVec 5
  /-- `IRQ_ENABLE` (R72). -/
  irqEnable : BitVec 5
  /-- The ports. -/
  port : Ports
deriving DecidableEq, Repr

/-- Why the machine can stop with a fault. Both are safe, and neither is reached from reset: the rules lead to no
state that raises one. -/
inductive Fault where
  /-- Raised by an internal step whose (`phase`, `xsub`, `act`) is none of the legal triples of 41_session.md
  R301, so that no rule gives it a step. Safe (assumption log 11). -/
  | illegalControlState
  /-- Raised by an access to a table entry or buffer address the spec says does not exist: `DESC` entry 255
  (10_state.md R101) or `PAYBUF` address 65535 (20_memory.md R152). Safe (assumption log 20). -/
  | noSuchAddress
deriving DecidableEq, Repr

/-- Why the machine can refuse a step. All are safe. -/
inductive Refusal where
  /-- An arm of `exec` whose instruction has no meaning yet; no arm raises it. -/
  | notModelled (mnemonic : String)
  /-- Raised by the meaning of a frame in an `act` that is neither WREQ nor WRSP, where the spec says that no
  frame can be received (30_encoding.md R224); `step` never raises it. Safe (assumption log 10). -/
  | frameOutsideWait
  /-- Raised by a host access that is not a 32-bit access at a 4-byte-aligned address: "a model refuses it (no
  step)" (20_memory.md R155). Safe (assumption log 12). -/
  | hostAccessForm
  /-- Raised by a `SrcResp` with no request outstanding or with a wrong number of bytes: "refuse"
  (93_implementation_defined.md I35, 46_host_commands.md R530). Safe (assumption log 12). -/
  | srcRespForm
  /-- Raised by `step` when the parameters are not legal: "refuse (not a legal parameter)"
  (93_implementation_defined.md I38). Safe (assumption log 4). -/
  | illegalParameter
deriving DecidableEq, Repr

/-- The state of a power-on reset (10_state.md R105), given the parameters, the contents the spec leaves unspecified,
and the ports, which a reset does not touch (70_reset_and_hazards.md R701). -/
def State.powerOn (c : Config) (u : PowerUp) (port : Ports) : State where
  cfg := c
  conf := ⟨0#3, 0x01#8, 0#32, c.hsTimeoutReset, c.frTimeoutReset, 0#8⟩
  desc := u.desc
  phase := .idle
  act := .none
  xsub := .info
  sess := ⟨0#8, 0#8, 0#8, 0#32, 0#32, 0#16, 0#8, 0#32, 0#16⟩
  curname := []
  rxname := u.rxname
  txbuf := u.txbuf
  parser := ⟨0#3, u.hdr, 0#16, u.plen, u.pcmd, u.pcsum, u.paybuf⟩
  hsTimer := 0#32
  frTimer := 0#32
  abortReq := false
  linkOwned := false
  srcPending := false
  err := ⟨.none, .idle, .none, 0#32, 0#32⟩
  irqStatus := 0#5
  irqEnable := 0#5
  port := port

/-- The machine right after reset (10_state.md R105): nothing received, nothing scheduled, nothing produced. What R105
leaves unspecified is 0x00 or empty here (assumption log 5, 6). -/
def State.reset : State := State.powerOn Config.default {} ⟨[], [], []⟩

end Sys2Proof.Machine
end

