-- ==== Sys2Proof/Machine/Memory.lean ====
section
/-! DEFINITION. The operations over the byte spaces of spec/20_memory.md R150 (`MemRead`, `MemWrite` of
00_scope.md R15), over the canonical form of a memory. -/

namespace Sys2Proof.Machine

/-- What an address that no entry lists reads as: 0x00. For `CURNAME` that is the reset value (10_state.md R105); for
`DESC`, `RXNAME` and `PAYBUF` the spec gives none (assumption log 5). -/
def Memory.unlisted : Byte := 0#8

/-- The canonical form: addresses strictly rising and no entry equal to what an unlisted address reads as. -/
abbrev Memory.wf (m : Memory) : Prop :=
  m.Pairwise (fun x y => x.1 < y.1) ∧ ∀ c ∈ m, c.2 ≠ Memory.unlisted

/-- Every listed address is below `limit`, the size of the space. -/
abbrev Memory.below (limit : Nat) (m : Memory) : Prop := ∀ c ∈ m, c.1 < limit

/-- The byte at an address. -/
def Memory.read : Memory → Nat → Byte
  | [], _ => Memory.unlisted
  | (a, b) :: m, x => if x = a then b else Memory.read m x

/-- Writes one byte and keeps the canonical form. -/
def Memory.write : Memory → Nat → Byte → Memory
  | [], x, v => if v = Memory.unlisted then [] else [(x, v)]
  | (a, b) :: m, x, v =>
    if x < a then
      if v = Memory.unlisted then (a, b) :: m else (x, v) :: (a, b) :: m
    else if x = a then
      if v = Memory.unlisted then m else (x, v) :: m
    else (a, b) :: Memory.write m x v

/-- `MemRead(space, a, n)` (R15). -/
def Memory.readN (m : Memory) (a n : Nat) : List Byte := (List.range n).map fun k => Memory.read m (a + k)

/-- `MemWrite(space, a, n, v)` (R15): the bytes of `v` from `a` upward. -/
def Memory.writeN : Memory → Nat → List Byte → Memory
  | m, _, [] => m
  | m, a, b :: bs => Memory.writeN (Memory.write m a b) (a + 1) bs

/-- The canonical memory of a list of cells, earlier cells over later ones, less the cells at addresses the space
does not implement. -/
def Memory.ofCells (implemented : Nat → Bool) : List Host.Cell → Memory
  | [] => []
  | (a, b) :: cs =>
    let m := Memory.ofCells implemented cs
    if implemented a then Memory.write m a b else m

/-- The 32-bit word whose byte 0 is at `a`, little-endian (20_memory.md R151). -/
def Memory.readWord (m : Memory) (a : Nat) : Word := le32 (Memory.readN m a 4) 0

/-- Writes a 32-bit word, byte 0 at `a` (20_memory.md R151). -/
def Memory.writeWord (m : Memory) (a : Nat) (v : Word) : Memory := Memory.writeN m a (bytes32 v)

/-- The bytes of `DESC` that exist: entry 0..254, NAME, SIZE and the low byte of INDEX (10_state.md R101). -/
def descImplemented (c : Config) (a : Nat) : Bool :=
  decide (a < c.maxFiles * c.descBytes) && decide (a % c.descBytes ≤ c.descIndexAt)

/-- The bytes of `RXNAME` that exist (10_state.md R102). -/
def rxnameImplemented (c : Config) (a : Nat) : Bool := decide (a < c.maxFiles * c.nameSlot)

/-- The bytes of `PAYBUF` that exist (20_memory.md R152). -/
def paybufImplemented (c : Config) (a : Nat) : Bool := decide (a < c.maxPayload)

end Sys2Proof.Machine
end

