-- ==== Sys2Proof/Machine/Flags.lean ====
section
/-! DEFINITION. Status flags, interrupt bits, control bits and the numeric encodings software reads.

The engine has no arithmetic condition codes (10_state.md R100): its flags are `link_owned`, `abort_req`, `xsub`,
`src_pending` and the five `IRQ_STATUS` bits. -/

namespace Sys2Proof.Machine

/-! ### `CTRL` (10_state.md R76) -/

/-- `ROLE` = INITIATOR. -/
def ConfRegs.initiator (c : ConfRegs) : Bool := c.ctrl.getLsbD 0

/-- `DIR` = SEND. -/
def ConfRegs.send (c : ConfRegs) : Bool := c.ctrl.getLsbD 1

/-- `MODE` = SINGLE. -/
def ConfRegs.single (c : ConfRegs) : Bool := c.ctrl.getLsbD 2

/-! ### Phase and activity classes -/

/-- A session is active when `phase` is 1..6 (R52). -/
def Phase.active : Phase → Bool
  | .idle => false
  | .awaitingHandshake => true
  | .sendingHandshake => true
  | .handshakeDone => true
  | .awaitingFileList => true
  | .sendingFileList => true
  | .transferringFile => true
  | .done => false
  | .failed => false

/-- The handshake phases (41_session.md R302). -/
def Phase.handshake : Phase → Bool
  | .awaitingHandshake => true
  | .sendingHandshake => true
  | _ => false

/-- The two frame waits (41_session.md R303). -/
def Act.waits : Act → Bool
  | .wreq => true
  | .wrsp => true
  | _ => false

/-- The activities whose entry is a point between frame exchanges, where a latched abort is honoured (41_session.md
R306). -/
def Act.betweenExchanges : Act → Bool
  | .txreq => true
  | .wsrc => true
  | .whost => true
  | .adv => true
  | .wreq => true
  | _ => false

/-! ### Interrupt bits (10_state.md R72, 60_exceptions.md R615) -/

/-- The bits of `IRQ_STATUS`. -/
inductive IrqBit where
  /-- Bit 0: entry to DONE. -/
  | done
  /-- Bit 1: entry to FAILED. -/
  | failed
  /-- Bit 2: entry to WHOST. -/
  | nack
  /-- Bit 3: a file of the session completed. -/
  | file
  /-- Bit 4: a recoverable error was recorded. -/
  | err
deriving DecidableEq, Repr

/-- The bit's place in `IRQ_STATUS` (R615). -/
def IrqBit.mask : IrqBit → BitVec 5
  | .done => 0x01#5
  | .failed => 0x02#5
  | .nack => 0x04#5
  | .file => 0x08#5
  | .err => 0x10#5

/-- `irq_set(bit)` (R72): setting a bit already set changes nothing. -/
def State.irqSet (b : IrqBit) (s : State) : State := { s with irqStatus := s.irqStatus ||| b.mask }

/-- The RW1C write of `IRQ_STATUS` (R84): a written 1 clears the bit. -/
def State.irqClear (v : BitVec 5) (s : State) : State := { s with irqStatus := s.irqStatus &&& ~~~v }

/-- The output `irq`, a level (R72). -/
def State.irqLevel (s : State) : Bool := s.irqStatus &&& s.irqEnable != 0#5

/-! ### Numeric encodings -/

/-- The 4-bit value of `phase` (R52). -/
def Phase.code : Phase → BitVec 4
  | .idle => 0#4
  | .awaitingHandshake => 1#4
  | .sendingHandshake => 2#4
  | .handshakeDone => 3#4
  | .awaitingFileList => 4#4
  | .sendingFileList => 5#4
  | .transferringFile => 6#4
  | .done => 7#4
  | .failed => 8#4

/-- The 3-bit value of `act` (R53). -/
def Act.code : Act → BitVec 3
  | .none => 0#3
  | .txreq => 1#3
  | .wreq => 2#3
  | .wrsp => 3#3
  | .wsrc => 4#3
  | .whost => 5#3
  | .adv => 6#3

/-- The bit value of `xsub` (R54). -/
def xsubCode : XSub → BitVec 1
  | .info => 0#1
  | .chunks => 1#1

/-- The 4-bit error code (60_exceptions.md R600). -/
def ErrCode.code : ErrCode → BitVec 4
  | .none => 0#4
  | .badMagic => 1#4
  | .shortRead => 2#4
  | .checksumMismatch => 3#4
  | .unexpectedCommand => 4#4
  | .sequenceMismatch => 5#4
  | .handshakeTimeout => 6#4
  | .transferIncomplete => 7#4
  | .malformed => 8#4
  | .aborted => 9#4

/-- The value of `STATUS` (10_state.md R78), most significant field first. -/
def State.status (s : State) : Word :=
  0#8 ++ s.err.failPhase.code ++ s.err.lastErr.code ++ s.err.failCause.code ++ 0#2 ++ BitVec.ofBool s.abortReq ++
    BitVec.ofBool s.linkOwned ++ s.act.code ++ xsubCode s.xsub ++ s.phase.code

/-- The parser is in the header stage when `hc` < `HDR_BYTES` = 6 and in the payload stage otherwise (R63). -/
def Parser.headerStage (c : Config) (p : Parser) : Bool := decide (p.hc.toNat < c.hdrBytes)

/-- The value of `PARSER` (10_state.md R82). -/
def State.parserView (s : State) : Word :=
  if s.parser.headerStage s.cfg then s.parser.hc.setWidth 32 else 0#15 ++ 1#1 ++ s.parser.pcnt

end Sys2Proof.Machine
end

