-- ==== Sys2Proof/Machine/Operands.lean ====
section
/-! DEFINITION. The operand forms: how each frame's operands are taken out of its payload (spec/30_encoding.md R208 to
R218), and the name rule (40_codec.md R256).

Every payload field is an unsigned little-endian integer at an absolute offset (R218). A payload whose length is wrong
for its command answers with the length the rule required, which is `err_exp` of the Malformed error (60_exceptions.md
R601). -/

namespace Sys2Proof.Machine

/-- The operands of HANDSHAKE (R210). -/
structure HandshakeOperands where
  /-- Byte 0. -/
  version : Byte
  /-- Bytes 1..4. -/
  timestamp : Word
deriving DecidableEq, Repr

/-- The operands of FILE_DATA in the info form (R213). -/
structure InfoOperands where
  /-- Byte 0. -/
  index : Byte
  /-- Bytes 1..4. -/
  size : Word
  /-- Bytes 5..68 (`NAME_SLOT` bytes), the name slot as sent. -/
  slot : List Byte
deriving DecidableEq, Repr

/-- The operands of FILE_DATA in the chunk form (R214). -/
structure ChunkOperands where
  /-- Bytes 0..1. -/
  index : Half
  /-- Bytes 2..3. -/
  size : Half
  /-- Bytes 4..3+`size`. -/
  data : List Byte
deriving DecidableEq, Repr

/-- HANDSHAKE: `length` = 5 (R208, R210). -/
def handshakeOperands (p : List Byte) : Except Nat HandshakeOperands :=
  if p.length ≠ 5 then .error 5 else .ok ⟨byteAt p 0, le32 p 1⟩

/-- FILE_LIST: `length` ≥ 1 and `length` = 1 + 64·`file_count`, 64 being `NAME_SLOT` = `n`; answers the name slots in
order (R208, R211). -/
def fileListOperands (n : Nat) (p : List Byte) : Except Nat (List (List Byte)) :=
  if p.length = 0 then .error 1
  else
    let c := (byteAt p 0).toNat
    if p.length ≠ 1 + n * c then .error (1 + n * c)
    else .ok ((List.range c).map fun i => slice p (1 + n * i) (1 + n * i + n))

/-- FILE_DATA info form: `length` = 69, 5 and a slot of `NAME_SLOT` = `n` bytes (R208, R213). -/
def infoOperands (n : Nat) (p : List Byte) : Except Nat InfoOperands :=
  if p.length ≠ 5 + n then .error (5 + n) else .ok ⟨byteAt p 0, le32 p 1, slice p 5 (5 + n)⟩

/-- FILE_DATA chunk form: `length` ≥ 4 and `length` = 4 + `chunk_size` (R208, R214). -/
def chunkOperands (p : List Byte) : Except Nat ChunkOperands :=
  if p.length < 4 then .error 4
  else
    let cs := le16 p 2
    if p.length ≠ 4 + cs.toNat then .error (4 + cs.toNat)
    else .ok ⟨le16 p 0, cs, slice p 4 (4 + cs.toNat)⟩

/-- ACK and NACK: `length` = 0 (R208, R216). -/
def answerOperands (p : List Byte) : Except Nat Unit := if p.length ≠ 0 then .error 0 else .ok ()

/-- The name in a slot: the bytes before the first 0x00, or all of them (R217). -/
def slotName (s : List Byte) : List Byte := s.takeWhile (fun b => b != 0#8)

/-- The bytes of a name after its last separator. -/
def basename (separators : List Byte) (n : List Byte) : List Byte :=
  (n.reverse.takeWhile (fun b => !separators.contains b)).reverse

/-- `strip(S)`: the basename of the slot's name, padded with 0x00 to `NAME_SLOT` = 64 bytes (40_codec.md R256). -/
def strip (c : Config) (s : List Byte) : List Byte :=
  let n := basename c.separators (slotName s)
  n ++ zeros (c.nameSlot - n.length)

/-! ### Header bytes (10_state.md R63) -/

/-- `hdr[k] <- b`. -/
def Header.set (h : Header) (k : Nat) (b : Byte) : Header :=
  match k with
  | 0 => { h with b0 := b }
  | 1 => { h with b1 := b }
  | 2 => { h with b2 := b }
  | 3 => { h with b3 := b }
  | 4 => { h with b4 := b }
  | _ => { h with b5 := b }

/-- The header bytes in wire order. -/
def Header.bytes (h : Header) : List Byte := [h.b0, h.b1, h.b2, h.b3, h.b4, h.b5]

/-- The header whose bytes are the first six of a sequence. -/
def headerOf (p : List Byte) : Header :=
  ⟨byteAt p 0, byteAt p 1, byteAt p 2, byteAt p 3, byteAt p 4, byteAt p 5⟩

end Sys2Proof.Machine
end

