-- ==== Sys2Proof/Machine/Ops.lean ====
section
/-! DEFINITION. The shared operations: the control primitives of spec/00_scope.md R16 and R17 and the helpers of
41_session.md (`emit`, `enter`, `respond`, `recover`, `fail`, `done`, `file_complete`), and the dispatch of a
complete frame (R310, R311).

The one exception of this engine is the entry to FAILED, `State.fail` (60_exceptions.md R610). There is no return from
it (R611): a failed session is over, and only START, which begins a new one, or Reset leaves FAILED. -/

namespace Sys2Proof.Machine

/-- The outcome of a step or a meaning. -/
abbrev Out := Host.Outcome State Fault Refusal

/-! ### Ports -/

/-- `emit(F)` of an answer: appends the frame `F` to what the engine transmits (41_session.md R305, 10_state.md R96). -/
def State.emit (f : List Byte) (s : State) : State := { s with port.out := s.port.out ++ [.frame f] }

/-- `emit(F)` of a request: also keeps `F` in `txbuf` (41_session.md R305). -/
def State.emitRequest (f : List Byte) (s : State) : State := { (s.emit f) with txbuf := f }

/-- `sink(E)` (R16, 10_state.md R97). -/
def State.sinkPut (e : SinkEvent) (s : State) : State := { s with port.out := s.port.out ++ [.sink e] }

/-- `srcreq(f, off, n)` (R16), with `src_pending` (44_transfer.md R436). -/
def State.requestSource (r : SrcReq) (s : State) : State :=
  { s with srcPending := true, port.out := s.port.out ++ [.srcReq r] }

/-! ### Errors (60_exceptions.md) -/

/-- `recover E(e, o)`: records a recoverable error (41_session.md R312). -/
def State.recover (code : ErrCode) (e o : Word) (s : State) : State :=
  { s with err.lastErr := code, err.errExp := e, err.errObs := o }.irqSet .err

/-- `parser_reset()` (40_codec.md R268). -/
def State.parserReset (s : State) : State := { s with parser.hc := 0#3, parser.pcnt := 0#16 }

/-- `fail E(e, o)`: the entry to FAILED (41_session.md R313, 60_exceptions.md R610). A partial frame is "discarded with the
parser state when the session ends" (40_codec.md R269; 93_implementation_defined.md I3): that this is `parser_reset()` at
every entry to FAILED is DEDUCED (unsafe; assumption log 24). -/
def State.fail (code : ErrCode) (e o : Word) (s : State) : State :=
  { s with
    err.failPhase := s.phase, err.failCause := code, err.errExp := e, err.errObs := o
    phase := .failed, act := .none, linkOwned := false, abortReq := false, srcPending := false
  }.parserReset.irqSet .failed

/-! ### Control -/

/-- `reload_frame_timer()` (41_session.md R319): nothing in the handshake phases. -/
def State.reloadFrameTimer (s : State) : State :=
  if s.phase.handshake then s else { s with frTimer := s.conf.frTimeout }

/-- `enter(A)` (41_session.md R306). -/
def State.enter (a : Act) (s : State) : State :=
  if s.abortReq && a.betweenExchanges then s.fail .aborted 0#32 0#32
  else if a.waits then ({ s with act := a }.parserReset).reloadFrameTimer
  else { s with act := a }

/-- `done()` (41_session.md R314). -/
def State.finish (s : State) : State :=
  { s with phase := .done, act := .none, linkOwned := false, abortReq := false }.irqSet .done

/-- `file_complete()` (41_session.md R315). -/
def State.fileComplete (s : State) : State :=
  let t := { (s.irqSet .file) with sess.filePtr := s.sess.filePtr + 1#8 }
  if t.sess.filePtr = t.sess.pendCount then t.finish
  else { t with xsub := .info }.enter (if t.conf.send then .txreq else .wreq)

/-! ### Answers (41_session.md R307, 40_codec.md R254) -/

/-- `respond(ACK)`. -/
def State.respondAck (s : State) : State := s.emit (encodeFrame s.cfg s.cfg.cmdAck [])

/-- `respond(NACK)`. -/
def State.respondNack (s : State) : State := s.emit (encodeFrame s.cfg s.cfg.cmdNack [])

/-- A request of the expected command with a wrong length: Malformed, NACK, and the wait restarts (42_handshake.md R352,
43_file_list.md R383, 44_transfer.md R412, R425). -/
def State.malformedRequest (required len : Nat) (s : State) : State :=
  (s.recover .malformed (BitVec.ofNat 32 required) (BitVec.ofNat 32 len)).respondNack.enter .wreq

/-- An answer with a wrong length: Malformed, and the wait goes on unanswered (45_flow_control.md R472, R474). -/
def State.malformedAnswer (required len : Nat) (s : State) : State :=
  s.recover .malformed (BitVec.ofNat 32 required) (BitVec.ofNat 32 len)

/-! ### Dispatch of a complete frame (41_session.md R310, R311; 30_encoding.md R224) -/

/-- `expected(phase)`: the request codes a wait for a request expects (R310). -/
def expected (c : Config) : Phase → List Byte
  | .awaitingHandshake => [c.cmdHandshake]
  | .awaitingFileList => [c.cmdFileList]
  | .transferringFile => [c.cmdFileData, c.cmdFileEnd]
  | _ => []

/-- A set of codes as a bit mask: bit `c` set for each code `c` (R311; assumption log 13). -/
def codeMask (codes : List Byte) : Word := codes.foldl (fun m c => m ||| (1#32 <<< c.toNat)) 0#32

/-- `unexpected_in_request(cmd)`: a wrong command in WREQ is answered NACK and fails the session (R311). -/
def State.unexpectedInRequest (cmd : Byte) (s : State) : State :=
  s.respondNack.fail .unexpectedCommand (codeMask (expected s.cfg s.phase)) (cmd.setWidth 32)

/-- A frame that is no ACK and no NACK in WRSP fails the session, unanswered (R310). -/
def State.unexpectedInAnswer (cmd : Byte) (s : State) : State :=
  s.fail .unexpectedCommand (codeMask [s.cfg.cmdAck, s.cfg.cmdNack]) (cmd.setWidth 32)

/-- A complete frame whose code is not expected in any wait, or not in this one (R310, R311). -/
def State.unexpectedFrame (cmd : Byte) (s : State) : Out :=
  match s.act with
  | .wreq => .next (s.unexpectedInRequest cmd)
  | .wrsp => .next (s.unexpectedInAnswer cmd)
  | _ => .refused .frameOutsideWait

/-- A request frame with code `cmd`: its rule in a wait for a request that expects it, UnexpectedCommand in any other
wait (R310). -/
def State.onRequest (cmd : Byte) (rule : State → State) (s : State) : Out :=
  if s.act = .wreq ∧ cmd ∈ expected s.cfg s.phase then .next (rule s) else s.unexpectedFrame cmd

/-- An ACK or NACK with code `cmd`: its rule in a wait for an answer, UnexpectedCommand in a wait for a request (R310,
45_flow_control.md R476). -/
def State.onAnswer (cmd : Byte) (rule : State → State) (s : State) : Out :=
  if s.act = .wrsp then .next (rule s) else s.unexpectedFrame cmd

/-- A frame the parser rejects (R310): recorded; in WREQ answered NACK and the wait restarts; in WRSP ignored. -/
def State.badFrame (code : ErrCode) (e o : Word) (s : State) : Out :=
  match s.act with
  | .wreq => .next ((s.recover code e o).respondNack.enter .wreq)
  | .wrsp => .next (s.recover code e o)
  | _ => .refused .frameOutsideWait

end Sys2Proof.Machine
end

