-- ==== Sys2Proof/Machine/FileList.lean ====
section
/-! DEFINITION. FILE_LIST (spec/43_file_list.md): received by a LIST receiver (R383), sent by a LIST sender (R395). -/

namespace Sys2Proof.Machine

/-- Writes the stripped names of a list into `RXNAME` from entry `i` on; the other entries keep what they held
(R383, 10_state.md R102). -/
def storeNames (c : Config) : Memory → Nat → List (List Byte) → Memory
  | m, _, [] => m
  | m, i, slot :: slots => storeNames c (Memory.writeN m (c.nameSlot * i) (strip c slot)) (i + 1) slots

/-- The rule of a FILE_LIST completed in AWAITING_FILE_LIST / WREQ (R383). -/
def fileListRule (p : List Byte) (s : State) : State :=
  match fileListOperands s.cfg.nameSlot p with
  | .error required => s.malformedRequest required p.length
  | .ok slots =>
    let t := { s with
      rxname := storeNames s.cfg s.rxname 0 slots, sess.pendCount := byteAt p 0 }.respondAck
    if byteAt p 0 = 0#8 then t.finish
    else { t with sess.filePtr := 0#8, xsub := .info, phase := .transferringFile }.enter .wreq

/-- FILE_LIST. -/
def execFileList (p : List Byte) (s : State) : Out := s.onRequest s.cfg.cmdFileList (fileListRule p)

/-- The NAME bytes of `DESC` entry `i`, verbatim (40_codec.md R257). -/
def descName (c : Config) (desc : Memory) (i : Nat) : List Byte := Memory.readN desc (c.descBytes * i) c.nameSlot

/-- The SIZE word of `DESC` entry `i` (10_state.md R101). -/
def descSize (c : Config) (desc : Memory) (i : Nat) : Word := Memory.readWord desc (c.descBytes * i + c.descSizeAt)

/-- The INDEX byte of `DESC` entry `i` (10_state.md R101). -/
def descIndex (c : Config) (desc : Memory) (i : Nat) : Byte := Memory.read desc (c.descBytes * i + c.descIndexAt)

/-- The payload of the list of the first `count` descriptors (R395, 30_encoding.md R211). -/
def fileListPayload (c : Config) (desc : Memory) (count : Byte) : List Byte :=
  [count] ++ (List.range count.toNat).flatMap (descName c desc)

/-- The internal step TXREQ in SENDING_FILE_LIST (R395). -/
def sendFileList (s : State) : State :=
  let f := encodeFrame s.cfg s.cfg.cmdFileList (fileListPayload s.cfg s.desc s.sess.pendCount)
  { (s.emitRequest f) with sess.txN := 0#16 }.enter .wrsp

end Sys2Proof.Machine
end

