-- ==== Sys2Proof/Machine/FlowControl.lean ====
section
/-! DEFINITION. ACK and NACK, the answers to the engine's own requests (spec/45_flow_control.md R472, R474). -/

namespace Sys2Proof.Machine

/-- What an ACK of the right length does in the phase it answers (R472). The last case is TRANSFERRING_FILE with `xsub` =
CHUNKS. -/
def ackAccepted (s : State) : State :=
  match s.phase with
  | .sendingHandshake => { s with phase := .handshakeDone }.enter .adv
  | .sendingFileList =>
    if s.sess.pendCount = 0#8 then s.finish
    else { s with sess.filePtr := 0#8, xsub := .info, phase := .transferringFile }.enter .txreq
  | _ =>
    if s.phase = .transferringFile ∧ s.xsub = .info then
      let t := { s with xsub := .chunks }
      if t.sess.curSize = 0#32 then t.fileComplete else t.enter .txreq
    else
      let t := { s with
        sess.bytesDone := s.sess.bytesDone + s.sess.txN.setWidth 32, sess.chunkIdx := s.sess.chunkIdx + 1#16 }
      if t.sess.bytesDone = t.sess.curSize then t.fileComplete else t.enter .txreq

/-- The rule of an ACK completed in WRSP (R472). -/
def ackRule (p : List Byte) (s : State) : State :=
  match answerOperands p with
  | .error required => s.malformedAnswer required p.length
  | .ok _ => ackAccepted s

/-- ACK. -/
def execAck (p : List Byte) (s : State) : Out := s.onAnswer s.cfg.cmdAck (ackRule p)

/-- The rule of a NACK completed in WRSP (R474). -/
def nackRule (p : List Byte) (s : State) : State :=
  match answerOperands p with
  | .error required => s.malformedAnswer required p.length
  | .ok _ => (s.irqSet .nack).enter .whost

/-- NACK. -/
def execNack (p : List Byte) (s : State) : Out := s.onAnswer s.cfg.cmdNack (nackRule p)

end Sys2Proof.Machine
end

