-- ==== Sys2Proof/Machine/Handshake.lean ====
section
/-! DEFINITION. HANDSHAKE (spec/42_handshake.md): received by the responder (R352), sent by the initiator (R356). -/

namespace Sys2Proof.Machine

/-- The rule of a HANDSHAKE completed in AWAITING_HANDSHAKE / WREQ (R352). Any version and any timestamp are accepted
(R364). -/
def handshakeRule (p : List Byte) (s : State) : State :=
  match handshakeOperands p with
  | .error required => s.malformedRequest required p.length
  | .ok op =>
    let t := { s with sess.rxVersion := op.version, sess.rxTimestamp := op.timestamp }.respondAck
    { t with phase := .handshakeDone }.enter .adv

/-- HANDSHAKE. -/
def execHandshake (p : List Byte) (s : State) : Out := s.onRequest s.cfg.cmdHandshake (handshakeRule p)

/-- The internal step TXREQ in SENDING_HANDSHAKE (R356). -/
def sendHandshake (s : State) : State :=
  let f := encodeFrame s.cfg s.cfg.cmdHandshake ([s.conf.txVersion] ++ bytes32 s.conf.txTimestamp)
  { (s.emitRequest f) with sess.txN := 0#16 }.enter .wrsp

end Sys2Proof.Machine
end

