-- ==== Sys2Proof/Machine/HostCommands.lean ====
section
/-! DEFINITION. The host commands START, ABORT and RETRY (spec/46_host_commands.md R505, R508, R512). -/

namespace Sys2Proof.Machine

/-- The state of a new session (R505): every session register at its start value; `RXNAME`, `txbuf`, the stale parser
buffers and `IRQ_STATUS` are kept. -/
def State.newSession (s : State) : State :=
  { s with
    sess := ⟨0#8, 0#8, 0#8, 0#32, 0#32, 0#16, 0#8, 0#32, 0#16⟩
    xsub := .info
    curname := []
    err := ⟨.none, .idle, .none, 0#32, 0#32⟩
    hsTimer := s.conf.hsTimeout, frTimer := 0#32
    abortReq := false, srcPending := false, linkOwned := true }

/-- START (R505): ignored while a session is active. -/
def execStart (s : State) : Out :=
  if s.phase.active then .next s
  else if s.conf.initiator then .next ({ s.newSession with phase := .sendingHandshake }.enter .txreq)
  else .next ({ s.newSession with phase := .awaitingHandshake }.enter .wreq)

/-- ABORT (R508): at once between exchanges, latched inside a frame wait, nothing without a session. -/
def execAbort (s : State) : Out :=
  if s.phase.active then
    if s.act = .txreq ∨ s.act = .wsrc ∨ s.act = .whost ∨ s.act = .adv then .next (s.fail .aborted 0#32 0#32)
    else .next { s with abortReq := true }
  else .next s

/-- RETRY (R512): re-emits the kept request in WHOST, nothing elsewhere. -/
def execRetry (s : State) : Out :=
  if s.act = .whost then .next ((s.emitRequest s.txbuf).enter .wrsp) else .next s

end Sys2Proof.Machine
end

