-- ==== Sys2Proof/Machine/Transfer.lean ====
section
/-! DEFINITION. FILE_DATA in its two forms, FILE_END, the splitter and the reassembler (spec/44_transfer.md). -/

namespace Sys2Proof.Machine

/-! ### Receiver -/

/-- The rule of a FILE_DATA completed in TRANSFERRING_FILE / INFO / WREQ: the info form (R412). -/
def infoRule (p : List Byte) (s : State) : State :=
  match infoOperands s.cfg.nameSlot p with
  | .error required => s.malformedRequest required p.length
  | .ok op =>
    let name := strip s.cfg op.slot
    let t := { s with
      sess.curIndex := op.index, sess.curSize := op.size, sess.bytesDone := 0#32, sess.chunkIdx := 0#16
      curname := Memory.writeN s.curname 0 name }.sinkPut (.fileStart s.sess.filePtr op.index op.size name)
    if op.size = 0#32 then
      { (t.sinkPut (.fileEnd s.sess.filePtr)).respondAck with xsub := .chunks }.fileComplete
    else { t.respondAck with xsub := .chunks }.enter .wreq

/-- A chunk the reassembler rejects: NACK, then SequenceMismatch (R425). -/
def rejectChunk (e o : Word) (s : State) : State := s.respondNack.fail .sequenceMismatch e o

/-- The rule of a FILE_DATA completed in TRANSFERRING_FILE / CHUNKS / WREQ: the chunk form (R425). The checks run in the
order length, index, overrun. -/
def chunkRule (p : List Byte) (s : State) : State :=
  match chunkOperands p with
  | .error required => s.malformedRequest required p.length
  | .ok op =>
    if op.index ≠ s.sess.chunkIdx then
      rejectChunk (s.sess.chunkIdx.setWidth 32) (op.index.setWidth 32) s
    else if s.sess.curSize - s.sess.bytesDone < op.size.setWidth 32 then
      rejectChunk (s.sess.curSize - s.sess.bytesDone) (op.size.setWidth 32) s
    else
      let t := { (s.sinkPut (.data op.data)) with
        sess.bytesDone := s.sess.bytesDone + op.size.setWidth 32, sess.chunkIdx := s.sess.chunkIdx + 1#16 }
      if t.sess.bytesDone = s.sess.curSize then
        (t.sinkPut (.fileEnd s.sess.filePtr)).respondAck.fileComplete
      else t.respondAck.enter .wreq

/-- The rule of a FILE_DATA completed in TRANSFERRING_FILE / WREQ. The frame does not say which form it has: `xsub` does
(30_encoding.md R212, R412 corner case; assumption log 7). -/
def fileDataRule (p : List Byte) (s : State) : State :=
  match s.xsub with
  | .info => infoRule p s
  | .chunks => chunkRule p s

/-- FILE_DATA.INFO. -/
def execFileDataInfo (p : List Byte) (s : State) : Out := s.onRequest s.cfg.cmdFileData (fileDataRule p)

/-- FILE_DATA.CHUNK. -/
def execFileDataChunk (p : List Byte) (s : State) : Out := s.onRequest s.cfg.cmdFileData (fileDataRule p)

/-- The rule of a FILE_END completed in TRANSFERRING_FILE / WREQ: ACK and nothing else, whatever the payload (R450). -/
def fileEndRule (_p : List Byte) (s : State) : State := s.respondAck.enter .wreq

/-- FILE_END. -/
def execFileEnd (p : List Byte) (s : State) : Out := s.onRequest s.cfg.cmdFileEnd (fileEndRule p)

/-! ### Sender -/

/-- The internal step TXREQ in TRANSFERRING_FILE / INFO (R435). `DESC` has the entries 0..254 (10_state.md R101). -/
def sendInfo (s : State) : Out :=
  if s.sess.filePtr.toNat < s.cfg.maxFiles then
    let name := descName s.cfg s.desc s.sess.filePtr.toNat
    let size := descSize s.cfg s.desc s.sess.filePtr.toNat
    let index := descIndex s.cfg s.desc s.sess.filePtr.toNat
    let t := { s with
      sess.curSize := size, sess.curIndex := index, sess.bytesDone := 0#32, sess.chunkIdx := 0#16
      curname := Memory.writeN s.curname 0 name }
    let f := encodeFrame s.cfg s.cfg.cmdFileData ([index] ++ bytes32 size ++ name)
    .next ({ (t.emitRequest f) with sess.txN := 0#16 }.enter .wrsp)
  else .fault .noSuchAddress

/-- `min(CHUNK_SIZE, cur_size - bytes_done)`, the size of the next chunk (R436, R437). -/
def State.chunkLen (s : State) : Nat := min s.cfg.chunkSize (s.sess.curSize - s.sess.bytesDone).toNat

/-- The internal step TXREQ in TRANSFERRING_FILE / CHUNKS, the splitter (R436). -/
def sendChunkRequest (s : State) : State :=
  let t := s.enter .wsrc
  if t.act = .wsrc then t.requestSource ⟨s.sess.filePtr, s.sess.bytesDone, s.chunkLen⟩ else t

/-- `SrcResp(D)` (R437): enabled in WSRC with a request outstanding, and `D` has the number of bytes asked for; any other
`SrcResp` is refused (46_host_commands.md R530, 93_implementation_defined.md I35). The number is recomputed, not kept
(90_conflicts.md C15; assumption log 9). -/
def srcRespStep (d : List Byte) (s : State) : Out :=
  if s.srcPending ∧ s.act = .wsrc ∧ d.length = s.chunkLen then
    let n := BitVec.ofNat 16 s.chunkLen
    let f := encodeFrame s.cfg s.cfg.cmdFileData (bytes16 s.sess.chunkIdx ++ bytes16 n ++ d)
    .next ({ ({ s with srcPending := false }.emitRequest f) with sess.txN := n }.enter .wrsp)
  else .refused .srcRespForm

end Sys2Proof.Machine
end

