-- ==== Sys2Proof/Machine/Dispatch.lean ====
section
/-! DEFINITION. The meaning of every instruction: one arm per row of spec/opcode_table.json. -/

namespace Sys2Proof.Machine

-- The meaning of an instruction: a frame completed in the state, or a command word written by the host.
def exec (i : Instr) (s : State) : Host.Outcome State Fault Refusal :=
  match i with
  | .handshake p => Sys2Proof.Machine.execHandshake p s
  | .fileList p => Sys2Proof.Machine.execFileList p s
  | .fileDataInfo p => Sys2Proof.Machine.execFileDataInfo p s
  | .fileDataChunk p => Sys2Proof.Machine.execFileDataChunk p s
  | .fileEnd p => Sys2Proof.Machine.execFileEnd p s
  | .ack p => Sys2Proof.Machine.execAck p s
  | .nack p => Sys2Proof.Machine.execNack p s
  | .start => Sys2Proof.Machine.execStart s
  | .abort => Sys2Proof.Machine.execAbort s
  | .retry => Sys2Proof.Machine.execRetry s

end Sys2Proof.Machine
end

