-- ==== Sys2Proof/Machine/HostAccess.lean ====
section
/-! DEFINITION. The host register space `HIF`: the address map (spec/10_state.md R75, 20_memory.md R151), reads (R502)
and writes (R501) of 46_host_commands.md. -/

namespace Sys2Proof.Machine

/-- A location of the host register map (10_state.md R75). -/
inductive HifLoc where
  /-- 0x000. -/
  | ctrl
  /-- 0x004. -/
  | cmd
  /-- 0x008. -/
  | status
  /-- 0x00C. -/
  | irqStatus
  /-- 0x010. -/
  | irqEnable
  /-- 0x014. -/
  | txVersion
  /-- 0x018. -/
  | txTimestamp
  /-- 0x01C. -/
  | rxVersion
  /-- 0x020. -/
  | rxTimestamp
  /-- 0x024. -/
  | hsTimeout
  /-- 0x028. -/
  | frTimeout
  /-- 0x02C. -/
  | descCount
  /-- 0x030. -/
  | pendCount
  /-- 0x034. -/
  | filePtr
  /-- 0x038. -/
  | curIndex
  /-- 0x03C. -/
  | curSize
  /-- 0x040. -/
  | bytesDone
  /-- 0x044. -/
  | chunkIdx
  /-- 0x048. -/
  | errExpected
  /-- 0x04C. -/
  | errObserved
  /-- 0x050. -/
  | hsTimer
  /-- 0x054. -/
  | frTimer
  /-- 0x058. -/
  | parser
  /-- 0x100..0x13C: the `CURNAME` word at byte offset `off`. -/
  | curname (off : Nat)
  /-- A NAME or SIZE word of the `DESC` table, at byte offset `off` of the table. -/
  | descWord (off : Nat)
  /-- The INDEX word of a `DESC` entry, at byte offset `off` of the table. -/
  | descIndex (off : Nat)
  /-- The `RXNAME` word at byte offset `off` of the table. -/
  | rxname (off : Nat)
  /-- Every other offset. -/
  | reserved
deriving DecidableEq, Repr

/-- The `DESC` entry field at byte offset `off` of the table: NAME and SIZE at +0x00..+0x43, INDEX at +0x44, the rest
reserved (10_state.md R101). -/
def descLoc (c : Config) (off : Nat) : HifLoc :=
  let field := off % c.descBytes
  if field < c.descIndexAt then .descWord off else if field = c.descIndexAt then .descIndex off else .reserved

/-- The registers at 0x000..0x058 of the address map (10_state.md R75). -/
def hifRegister : Nat → HifLoc
  | 0x000 => .ctrl
  | 0x004 => .cmd
  | 0x008 => .status
  | 0x00C => .irqStatus
  | 0x010 => .irqEnable
  | 0x014 => .txVersion
  | 0x018 => .txTimestamp
  | 0x01C => .rxVersion
  | 0x020 => .rxTimestamp
  | 0x024 => .hsTimeout
  | 0x028 => .frTimeout
  | 0x02C => .descCount
  | 0x030 => .pendCount
  | 0x034 => .filePtr
  | 0x038 => .curIndex
  | 0x03C => .curSize
  | 0x040 => .bytesDone
  | 0x044 => .chunkIdx
  | 0x048 => .errExpected
  | 0x04C => .errObserved
  | 0x050 => .hsTimer
  | 0x054 => .frTimer
  | 0x058 => .parser
  | _ => .reserved

/-- The address map (10_state.md R75) at a 4-byte-aligned address: `CURNAME` at 0x100..0x13F, `DESC` at 0x1000, `RXNAME` at
0x8000, their lengths following `NAME_SLOT` and `MAX_FILES`. -/
def hifLoc (c : Config) (a : Nat) : HifLoc :=
  if a < 0x05C then hifRegister a
  else if 0x100 ≤ a ∧ a < 0x100 + c.nameSlot then .curname (a - 0x100)
  else if 0x1000 ≤ a ∧ a < 0x1000 + c.descBytes * c.maxFiles then descLoc c (a - 0x1000)
  else if 0x8000 ≤ a ∧ a < 0x8000 + c.nameSlot * c.maxFiles then .rxname (a - 0x8000)
  else .reserved

/-- The value of a location, reserved bits 0 (R502, 10_state.md R75). -/
def State.hifValue (s : State) : HifLoc → Word
  | .ctrl => s.conf.ctrl.setWidth 32
  | .cmd => 0#32
  | .status => s.status
  | .irqStatus => s.irqStatus.setWidth 32
  | .irqEnable => s.irqEnable.setWidth 32
  | .txVersion => s.conf.txVersion.setWidth 32
  | .txTimestamp => s.conf.txTimestamp
  | .rxVersion => s.sess.rxVersion.setWidth 32
  | .rxTimestamp => s.sess.rxTimestamp
  | .hsTimeout => s.conf.hsTimeout
  | .frTimeout => s.conf.frTimeout
  | .descCount => s.conf.descCount.setWidth 32
  | .pendCount => s.sess.pendCount.setWidth 32
  | .filePtr => s.sess.filePtr.setWidth 32
  | .curIndex => s.sess.curIndex.setWidth 32
  | .curSize => s.sess.curSize
  | .bytesDone => s.sess.bytesDone
  | .chunkIdx => s.sess.chunkIdx.setWidth 32
  | .errExpected => s.err.errExp
  | .errObserved => s.err.errObs
  | .hsTimer => s.hsTimer
  | .frTimer => s.frTimer
  | .parser => s.parserView
  | .curname off => Memory.readWord s.curname off
  | .descWord off => Memory.readWord s.desc off
  | .descIndex off => (Memory.read s.desc off).setWidth 32
  | .rxname off => Memory.readWord s.rxname off
  | .reserved => 0#32

/-- A write to a configuration location while no session is active: the implemented bits are stored (R501); every other
location ignores it. -/
def State.writeConf (s : State) (v : Word) : HifLoc → State
  | .ctrl => { s with conf.ctrl := v.extractLsb' 0 3 }
  | .txVersion => { s with conf.txVersion := v.extractLsb' 0 8 }
  | .txTimestamp => { s with conf.txTimestamp := v }
  | .hsTimeout => { s with conf.hsTimeout := v }
  | .frTimeout => { s with conf.frTimeout := v }
  | .descCount => { s with conf.descCount := v.extractLsb' 0 8 }
  | .descWord off => { s with desc := Memory.writeWord s.desc off v }
  | .descIndex off => { s with desc := Memory.write s.desc off (v.extractLsb' 0 8) }
  | _ => s

/-- A write at a location (R501): a command, an RW1C write, the never-locked `IRQ_ENABLE` (10_state.md R84), or a
configuration location under the lock (10_state.md R74). -/
def State.hifWrite (s : State) (v : Word) : HifLoc → Out
  | .cmd =>
    match decodeCommand v with
    | .ok i => exec i s
    | .error _ => .next s
  | .irqStatus => .next (s.irqClear (v.extractLsb' 0 5))
  | .irqEnable => .next { s with irqEnable := v.extractLsb' 0 5 }
  | loc => if s.phase.active then .next s else .next (s.writeConf v loc)

/-- A host access is a 32-bit access at a 4-byte-aligned address; any other is refused (20_memory.md R155). -/
def accessDefined (width : Nat) (addr : BitVec 16) : Bool := decide (width = 4) && decide (addr.toNat % 4 = 0)

/-- `HostWrite(addr, v)` (R501). -/
def hostWriteStep (width : Nat) (addr : BitVec 16) (v : Word) (s : State) : Out :=
  if accessDefined width addr then s.hifWrite v (hifLoc s.cfg addr.toNat) else .refused .hostAccessForm

/-- `HostRead(addr)` (R502): changes no register; the answer goes out on the host bus. -/
def hostReadStep (width : Nat) (addr : BitVec 16) (s : State) : Out :=
  if accessDefined width addr then
    .next { s with port.out := s.port.out ++ [.hostRead addr (s.hifValue (hifLoc s.cfg addr.toNat))] }
  else .refused .hostAccessForm

end Sys2Proof.Machine
end

