-- ==== Sys2Proof/Machine/Parser.lean ====
section
/-! DEFINITION. The byte-serial frame parser and what its outcomes do (spec/40_codec.md R260 to R272, 41_session.md
R310). -/

namespace Sys2Proof.Machine

/-- A parser outcome (R260). -/
inductive ParseOutcome where
  /-- `BadMagic(m)`. -/
  | badMagic (m : Half)
  /-- `CsumBad(computed, claimed)`. -/
  | csumBad (computed claimed : Byte)
  /-- `Frame(cmd, len, P)`. -/
  | frame (cmd : Byte) (len : Half) (p : List Byte)
deriving DecidableEq, Repr

/-- `frame_complete()` (R267): the checksum is checked before the command is looked at. -/
def frameComplete (s : State) : State × Option ParseOutcome :=
  let p := Memory.readN s.parser.paybuf 0 s.parser.plen.toNat
  let c := xorfold p
  let o := if c ≠ s.parser.pcsum then .csumBad c s.parser.pcsum else .frame s.parser.pcmd s.parser.plen p
  (s.parserReset, some o)

/-- `header_complete()` (R265). -/
def headerComplete (s : State) : State × Option ParseOutcome :=
  let h := s.parser.hdr.bytes
  if le16 h 0 ≠ s.cfg.magic then (s.parserReset, some (.badMagic (le16 h 0)))
  else
    let t := { s with parser.pcmd := byteAt h 2, parser.plen := le16 h 3, parser.pcsum := byteAt h 5 }
    if t.parser.plen = 0#16 then frameComplete t
    else ({ t with parser.pcnt := 0#16 }.reloadFrameTimer, none)

/-- A header-stage byte (R261). -/
def headerByte (b : Byte) (s : State) : State × Option ParseOutcome :=
  let t := { s with parser.hdr := s.parser.hdr.set s.parser.hc.toNat b, parser.hc := s.parser.hc + 1#3 }
  if t.parser.hc.toNat = s.cfg.hdrBytes then headerComplete t else (t, none)

/-- A payload-stage byte (R266). -/
def payloadByte (b : Byte) (s : State) : State × Option ParseOutcome :=
  let t := { s with
    parser.paybuf := Memory.write s.parser.paybuf s.parser.pcnt.toNat b, parser.pcnt := s.parser.pcnt + 1#16 }
  if t.parser.pcnt = t.parser.plen then frameComplete t else (t, none)

/-- One received byte (R260). -/
def parseByte (b : Byte) (s : State) : State × Option ParseOutcome :=
  if s.parser.headerStage s.cfg then headerByte b s else payloadByte b s

/-- Received bytes in order, with every outcome they produce; the parser alone, with no dispatch. -/
def parseBytes : List Byte → State → State × List ParseOutcome
  | [], s => (s, [])
  | b :: bs, s =>
    let r := parseByte b s
    let q := parseBytes bs r.1
    (q.1, r.2.toList ++ q.2)

/-- The dispatch of a parser outcome (41_session.md R310): a complete frame of a known command runs as the instruction it
decodes to; one of an unknown command is a wrong command in every wait (30_encoding.md R205). -/
def onOutcome (o : ParseOutcome) (s : State) : Out :=
  match o with
  | .badMagic m => s.badFrame .badMagic (s.cfg.magic.setWidth 32) (m.setWidth 32)
  | .csumBad c k => s.badFrame .checksumMismatch (c.setWidth 32) (k.setWidth 32)
  | .frame cmd _ p =>
    match decodeBody s.cfg s.xsub cmd p with
    | some i => exec i s
    | none => s.unexpectedFrame cmd

/-- A received byte: parsed, and its outcome dispatched in the same step (R260). A payload byte at `PAYBUF` address 65535
has nowhere to go (20_memory.md R152; assumption log 20). -/
def receiveByte (b : Byte) (s : State) : Out :=
  if !s.parser.headerStage s.cfg && !paybufImplemented s.cfg s.parser.pcnt.toNat then .fault .noSuchAddress
  else
    match parseByte b s with
    | (t, none) => .next t
    | (t, some o) => onOutcome o t

/-- Received bytes are consumed only while the engine owns the link and is in a frame wait (R260, 10_state.md R95). -/
def State.consumes (s : State) : Bool := s.linkOwned && s.act.waits

/-- The event `RxByte`: consumes the transport's next byte when enabled; otherwise the byte stays in the transport
(10_state.md R95; assumption log 2). -/
def rxByteStep (s : State) : Out :=
  if s.consumes then
    match s.port.rxq with
    | [] => .next s
    | b :: q => receiveByte b { s with port.rxq := q }
  else .next s

end Sys2Proof.Machine
end

