-- ==== Sys2Proof/Machine/Timers.lean ====
section
/-! DEFINITION. The two timers (spec/41_session.md R316 to R319, 60_exceptions.md R621). -/

namespace Sys2Proof.Machine

/-- `if t > 0: t <- t - 1` (R317). -/
def tickDown (t : Word) : Word := if t = 0#32 then 0#32 else t - 1#32

/-- The context of a frame wait that times out: (`HDR_BYTES` = 6, `hc`) in the header stage, (`plen`, `pcnt`) in the payload stage
(60_exceptions.md R601). -/
def Parser.progress (c : Config) (p : Parser) : Word × Word :=
  if p.headerStage c then (BitVec.ofNat 32 c.hdrBytes, p.hc.setWidth 32)
  else (p.plen.setWidth 32, p.pcnt.setWidth 32)

/-- The handshake budget expires (R318). -/
def handshakeExpiry (s : State) : State :=
  let c := if s.act.waits then s.parser.progress s.cfg else (0#32, 0#32)
  s.fail .handshakeTimeout c.1 c.2

/-- The frame timer expires (R319). -/
def frameExpiry (s : State) : State :=
  if s.phase = .transferringFile ∧ s.xsub = .chunks ∧ s.conf.send = false then
    s.fail .transferIncomplete s.sess.curSize s.sess.bytesDone
  else s.fail .shortRead (s.parser.progress s.cfg).1 (s.parser.progress s.cfg).2

/-- `Tick` (R316). -/
def tickStep (s : State) : State :=
  if s.phase.handshake then
    let t := { s with hsTimer := tickDown s.hsTimer }
    if t.hsTimer = 0#32 then handshakeExpiry t else t
  else if s.act.waits then
    let t := { s with frTimer := tickDown s.frTimer }
    if t.frTimer = 0#32 then frameExpiry t else t
  else s

end Sys2Proof.Machine
end

