-- ==== Sys2Proof/Machine/Events.lean ====
section
/-! DEFINITION. The steps of the engine (spec/41_session.md R300): the ADV step (R309), the internal steps, Reset
(70_reset_and_hazards.md R700), the schedule, and how a test word is placed where the next step takes it. -/

namespace Sys2Proof.Machine

/-- ADV (R309): leaves HANDSHAKE_DONE as `CTRL` says. -/
def advStep (s : State) : State :=
  if s.conf.single then
    { s with sess.pendCount := 1#8, sess.filePtr := 0#8, xsub := .info, phase := .transferringFile }.enter
      (if s.conf.send then .txreq else .wreq)
  else if s.conf.send then
    { s with sess.pendCount := s.conf.descCount, phase := .sendingFileList }.enter .txreq
  else { s with phase := .awaitingFileList }.enter .wreq

/-- The internal step (R300 (b)), enabled when `act` is TXREQ or ADV; where it is not enabled nothing happens
(assumption log 2). A triple no rule gives a step is a fault (R301; assumption log 11). -/
def internalStep (s : State) : Out :=
  match s.act with
  | .adv => if s.phase = .handshakeDone then .next (advStep s) else .fault .illegalControlState
  | .txreq =>
    match s.phase with
    | .sendingHandshake => .next (sendHandshake s)
    | .sendingFileList => .next (sendFileList s)
    | .transferringFile =>
      match s.xsub with
      | .info => sendInfo s
      | .chunks => .next (sendChunkRequest s)
    | _ => .fault .illegalControlState
  | _ => .next s

/-- `Reset` (70_reset_and_hazards.md R700): every piece of the engine's state at its reset value, the unspecified
contents as the environment chooses (R702); the transport and the streams already produced stay (R701). -/
def resetStep (u : PowerUp) (s : State) : State :=
  State.powerOn s.cfg
    { u with
      desc := Memory.ofCells (descImplemented s.cfg) u.desc
      rxname := Memory.ofCells (rxnameImplemented s.cfg) u.rxname
      paybuf := Memory.ofCells (paybufImplemented s.cfg) u.paybuf }
    s.port

/-- One entry of the schedule (R300, 10_state.md R95). -/
def runEvent (e : Event) (s : State) : Out :=
  match e with
  | .peer b => .next { s with port.rxq := s.port.rxq ++ [b] }
  | .rxByte => rxByteStep s
  | .tick => .next (tickStep s)
  | .hostWrite w a v => hostWriteStep w a v s
  | .hostRead w a => hostReadStep w a s
  | .srcResp d => srcRespStep d s
  | .reset u => .next (resetStep u s)
  | .internal => internalStep s

/-- One step: the next entry of the schedule, or, when none is left, the engine's own internal step (assumption log 1,
3). Parameters outside their legal range are refused (93_implementation_defined.md I38). -/
def stepOnce (s : State) : Out :=
  if s.cfg.legal then
    match s.port.events with
    | [] => internalStep s
    | e :: es => runEvent e { s with port.events := es }
  else .refused .illegalParameter

/-! ### Placing a word of spec/opcode_table.json (assumption log 8) -/

/-- The frame wait that a frame of this code is received in: kept if the engine is in one, otherwise the wait that expects
the code (30_encoding.md R224); a code no wait expects is received by the responder. -/
def State.waitingFor (cmd : Byte) (s : State) : State :=
  if s.consumes then s
  else if cmd = s.cfg.cmdAck ∨ cmd = s.cfg.cmdNack then
    { s with linkOwned := true, phase := .sendingHandshake, act := .wrsp }
  else if cmd = s.cfg.cmdFileList then { s with linkOwned := true, phase := .awaitingFileList, act := .wreq }
  else if cmd = s.cfg.cmdFileData ∨ cmd = s.cfg.cmdFileEnd then
    { s with linkOwned := true, phase := .transferringFile, act := .wreq }
  else { s with linkOwned := true, phase := .awaitingHandshake, act := .wreq }

/-- The engine with all but the last byte of a frame received, and that byte next in the transport. A header with a wrong
magic or no payload ends at its sixth byte (40_codec.md R265). -/
def State.withFrame (bytes : List Byte) (s : State) : State :=
  let t := s.waitingFor (byteAt bytes 2)
  if le16 bytes 0 ≠ s.cfg.magic ∨ le16 bytes 3 = 0#16 then
    { t with
      parser.hc := 5#3, parser.pcnt := 0#16, parser.hdr := headerOf bytes
      port.rxq := bytes.drop 5 ++ t.port.rxq, port.events := .rxByte :: t.port.events }
  else
    { t with
      parser.hc := 6#3, parser.hdr := headerOf bytes
      parser.pcmd := byteAt bytes 2, parser.plen := le16 bytes 3, parser.pcsum := byteAt bytes 5
      parser.pcnt := le16 bytes 3 - 1#16
      parser.paybuf := Memory.writeN t.parser.paybuf 0 (bytes.drop 6).dropLast
      port.rxq := bytes.drop (bytes.length - 1) ++ t.port.rxq, port.events := .rxByte :: t.port.events }

/-- A table word placed so that the next step takes it: a frame as the byte that completes it, a command word as the host
write of it to `CMD`. -/
def State.withWord (nbits w : Nat) (s : State) : State :=
  match encodedOfWord nbits w with
  | .frame bytes => s.withFrame bytes
  | .command v => { s with port.events := .hostWrite 4 0x004#16 v :: s.port.events }

end Sys2Proof.Machine
end

