-- ==== Sys2Proof/Machine/Step.lean ====
section
/-! DEFINITION. The step of the machine, and a word placed where the next step takes it. -/

namespace Sys2Proof.Machine

/-- One step of the machine (spec/41_session.md R300). -/
def step (s : State) : Host.Outcome State Fault Refusal := stepOnce s

/-- The state in which the very next step runs the instruction whose bits are `w` (assumption log 8). -/
def State.withFetchWord (s : State) (nbits w : Nat) : State := s.withWord nbits w

end Sys2Proof.Machine
end

