-- ==== Sys2Proof/Safety.lean ====
section
/-! DEFINITION. What holds of the machine in every run: the invariants claims are stated with, the host's view of the
received files, and what a safe step is.

Each invariant is a statement about one state. Together they rule out the states no run from reset reaches. -/

namespace Sys2Proof.Machine

/-! ### Control (spec/41_session.md R301; 10_state.md R67 to R70, R76) -/

/-- The legal triples (`phase`, `xsub`, `act`) of R301. -/
def State.legalTriple (s : State) : Bool :=
  match s.phase, s.act with
  | .idle, .none => true
  | .awaitingHandshake, .wreq => true
  | .sendingHandshake, .txreq => true
  | .sendingHandshake, .wrsp => true
  | .sendingHandshake, .whost => true
  | .handshakeDone, .adv => true
  | .awaitingFileList, .wreq => true
  | .sendingFileList, .txreq => true
  | .sendingFileList, .wrsp => true
  | .sendingFileList, .whost => true
  | .transferringFile, .wreq => true
  | .transferringFile, .txreq => true
  | .transferringFile, .wrsp => true
  | .transferringFile, .whost => true
  | .transferringFile, .wsrc => decide (s.xsub = .chunks)
  | .done, .none => true
  | .failed, .none => true
  | _, _ => false

/-- "Who is here" in R301: which end can be in a phase. -/
def State.rolesFit (s : State) : Bool :=
  match s.phase with
  | .awaitingHandshake => !s.conf.initiator
  | .sendingHandshake => s.conf.initiator
  | .awaitingFileList => !s.conf.single && !s.conf.send
  | .sendingFileList => !s.conf.single && s.conf.send
  | .transferringFile => if s.act = .wreq then !s.conf.send else s.conf.send
  | _ => true

/-- The latches: the link is owned exactly while a session is active (R68), a source request is outstanding exactly in
WSRC (R69), an abort is latched only inside a frame wait (R67, 46_host_commands.md R508), and a fatal error is recorded
exactly in FAILED (R70). -/
def State.latchesFit (s : State) : Bool :=
  (s.linkOwned == s.phase.active) && (s.srcPending == decide (s.act = .wsrc)) && (!s.abortReq || s.act.waits) &&
    (decide (s.err.failCause ≠ .none) == decide (s.phase = .failed))

/-- The control invariant. -/
def State.controlInv (s : State) : Bool := s.legalTriple && s.rolesFit && s.latchesFit

/-! ### Parser (10_state.md R63, R64) -/

/-- In the header stage nothing of a payload is counted; in the payload stage the header held is complete, has the right
magic and a length, its fields are the parser's, and the payload is not complete. -/
def Parser.consistent (c : Config) (p : Parser) : Bool :=
  if p.headerStage c then decide (p.pcnt = 0#16)
  else
    decide (p.hc = 6#3) && decide (le16 p.hdr.bytes 0 = c.magic) && decide (p.pcmd = byteAt p.hdr.bytes 2) &&
      decide (p.plen = le16 p.hdr.bytes 3) && decide (p.pcsum = byteAt p.hdr.bytes 5) &&
      decide (p.pcnt.toNat < p.plen.toNat)

/-- The bytes of the frame being received that the parser holds. -/
def Parser.collected (c : Config) (p : Parser) : List Byte :=
  if p.headerStage c then p.hdr.bytes.take p.hc.toNat
  else p.hdr.bytes ++ Memory.readN p.paybuf 0 p.pcnt.toNat

/-- Outside a frame wait the parser holds nothing of a frame (40_codec.md R268, R269; assumption log 24). -/
def State.parserIdle (s : State) : Bool :=
  s.act.waits || (decide (s.parser.hc = 0#3) && decide (s.parser.pcnt = 0#16))

/-! ### Memories (20_memory.md R150) -/

/-- Every byte space is in canonical form and lists only addresses it has. -/
def State.memoryInv (s : State) : Prop :=
  (Memory.wf s.desc ∧ ∀ c ∈ s.desc, descImplemented s.cfg c.1 = true) ∧
  (Memory.wf s.rxname ∧ Memory.below (s.cfg.nameSlot * s.cfg.maxFiles) s.rxname) ∧
  (Memory.wf s.curname ∧ Memory.below s.cfg.nameSlot s.curname) ∧
  (Memory.wf s.parser.paybuf ∧ Memory.below s.cfg.maxPayload s.parser.paybuf)

/-! ### Counters (10_state.md R57, R59; 44_transfer.md R425, R440) -/

/-- The counters of a session stay in their ranges, and a sender whose file-info frame is unanswered has sent nothing of
the file. -/
def State.countersInv (s : State) : Bool :=
  decide (s.sess.bytesDone.toNat ≤ s.sess.curSize.toNat) && decide (s.sess.filePtr.toNat ≤ s.sess.pendCount.toNat) &&
  match s.phase with
  | .transferringFile =>
    decide (s.sess.filePtr.toNat < s.sess.pendCount.toNat) &&
    match s.xsub with
    | .info =>
      !(decide (s.act = .wrsp) || decide (s.act = .whost)) ||
        (decide (s.sess.bytesDone = 0#32) && decide (s.sess.chunkIdx = 0#16))
    | .chunks =>
      decide (s.sess.bytesDone.toNat < s.sess.curSize.toNat) &&
      (!(decide (s.act = .wrsp) || decide (s.act = .whost)) ||
        (decide (1 ≤ s.sess.txN.toNat) && decide (s.sess.txN.toNat ≤ s.sess.curSize.toNat - s.sess.bytesDone.toNat)))
  | .done => true
  | .failed => true
  | _ => decide (s.sess.filePtr = 0#8)

/-! ### The outstanding request (10_state.md R62, 45_flow_control.md R470) -/

/-- The request frame outstanding in WRSP and WHOST, from the registers and tables it was built from; the data of a chunk
is what `txbuf` holds after the ten bytes of header and chunk fields. -/
def State.requestFrame (s : State) : Option (List Byte) :=
  match s.phase with
  | .sendingHandshake =>
    some (encodeFrame s.cfg s.cfg.cmdHandshake ([s.conf.txVersion] ++ bytes32 s.conf.txTimestamp))
  | .sendingFileList => some (encodeFrame s.cfg s.cfg.cmdFileList (fileListPayload s.cfg s.desc s.sess.pendCount))
  | .transferringFile =>
    match s.xsub with
    | .info =>
      some (encodeFrame s.cfg s.cfg.cmdFileData
        ([s.sess.curIndex] ++ bytes32 s.sess.curSize ++ descName s.cfg s.desc s.sess.filePtr.toNat))
    | .chunks =>
      some (encodeFrame s.cfg s.cfg.cmdFileData
        (bytes16 s.sess.chunkIdx ++ bytes16 s.sess.txN ++ s.txbuf.drop 10))
  | _ => none

/-- In WRSP and WHOST, `txbuf` holds the outstanding request, and a chunk in it has `tx_n` data bytes. -/
def State.requestInv (s : State) : Bool :=
  !(decide (s.act = .wrsp) || decide (s.act = .whost)) ||
    (decide (some s.txbuf = s.requestFrame) &&
      (!(decide (s.phase = .transferringFile) && decide (s.xsub = .chunks)) ||
        decide (s.txbuf.length = 10 + s.sess.txN.toNat)))

/-- The frames put on the transmit port, oldest first (10_state.md R96). -/
def Ports.frames (p : Ports) : List (List Byte) := p.out.filterMap fun | .frame f => some f | _ => none

/-- In WRSP and WHOST, `txbuf` is the last frame the engine emitted (10_state.md R62). -/
def State.requestSent (s : State) : Bool :=
  !(decide (s.act = .wrsp) || decide (s.act = .whost)) || decide (s.port.frames.getLast? = some s.txbuf)

/-! ### The splitter (44_transfer.md R455) -/

/-- A sender's position in a file: whole chunks of `CHUNK_SIZE` bytes, numbered from 0 modulo 2^16, and the chunk in flight
of the size the law gives. -/
def State.splitterInv (s : State) : Bool :=
  !(decide (s.phase = .transferringFile) && s.conf.send && decide (s.xsub = .chunks)) ||
    (decide (s.sess.bytesDone.toNat % s.cfg.chunkSize = 0) &&
      decide (s.sess.chunkIdx = BitVec.ofNat 16 (s.sess.bytesDone.toNat / s.cfg.chunkSize)) &&
      (!(decide (s.act = .wrsp) || decide (s.act = .whost)) || decide (s.sess.txN.toNat = s.chunkLen)))

/-! ### The received files (44_transfer.md R427, R458; 90_conflicts.md C14) -/

/-- A file as the host builds it from the sink stream. -/
structure SinkFile where
  /-- The position of the file in the session. -/
  pos : Byte
  /-- The `file_index` byte of its info frame. -/
  index : Byte
  /-- The announced size. -/
  size : Word
  /-- The stripped name. -/
  name : List Byte
  /-- The bytes of its `Data` events, in order. -/
  content : List Byte
deriving DecidableEq, Repr

/-- The host's files: the committed ones, oldest first, and the one being received. -/
structure SinkFiles where
  /-- The files whose `FileEnd` was delivered. -/
  committed : List SinkFile
  /-- The file started and not ended. -/
  current : Option SinkFile
deriving DecidableEq, Repr

/-- One sink event as the host takes it: `none` if it breaks the law of R458 (content or an end outside a file, an end for
another position, or an end before the announced size is reached). A new start drops a partial file (R460). -/
def SinkFiles.take (f : SinkFiles) : SinkEvent → Option SinkFiles
  | .fileStart pos index size name => some { f with current := some ⟨pos, index, size, name, []⟩ }
  | .data d => f.current.map fun c => { f with current := some { c with content := c.content ++ d } }
  | .fileEnd pos =>
    match f.current with
    | some c =>
      if c.pos = pos ∧ c.content.length = c.size.toNat then some ⟨f.committed ++ [c], none⟩ else none
    | none => none

/-- The host's files after a sink stream; `none` if the stream breaks the law. -/
def assembleFrom (f : SinkFiles) : List SinkEvent → Option SinkFiles
  | [] => some f
  | e :: es => (f.take e).bind fun g => assembleFrom g es

/-- The host's files after a whole sink stream. -/
def assemble (es : List SinkEvent) : Option SinkFiles := assembleFrom ⟨[], none⟩ es

/-- The sink stream keeps the law, and while a receiver is inside a file the host's partial file is that file with
`bytes_done` bytes. -/
def State.assemblerInv (s : State) : Bool :=
  match assemble s.port.sink with
  | none => false
  | some f =>
    !(decide (s.phase = .transferringFile) && !s.conf.send && decide (s.xsub = .chunks)) ||
      match f.current with
      | none => false
      | some c =>
        decide (c.pos = s.sess.filePtr) && decide (c.index = s.sess.curIndex) && decide (c.size = s.sess.curSize) &&
          decide (c.name = Memory.readN s.curname 0 s.cfg.nameSlot) &&
          decide (c.content.length = s.sess.bytesDone.toNat)

/-! ### Stale contents (10_state.md R62, R64, R105) -/

/-- Two states that agree in everything but contents no rule may read: the header bytes not yet received, the parser's
fields while no header is complete, the payload buffer from `pcnt` on, and `txbuf` while no request is outstanding. They
agree in `DESC` and `RXNAME`. -/
def State.sameButStale (s t : State) : Prop :=
  t = { s with parser := t.parser, txbuf := t.txbuf } ∧
  t.parser.hc = s.parser.hc ∧ t.parser.pcnt = s.parser.pcnt ∧ t.parser.collected s.cfg = s.parser.collected s.cfg ∧
  (s.parser.headerStage s.cfg = false →
    t.parser.plen = s.parser.plen ∧ t.parser.pcmd = s.parser.pcmd ∧ t.parser.pcsum = s.parser.pcsum) ∧
  (s.act = .wrsp ∨ s.act = .whost → t.txbuf = s.txbuf)

/-! ### Safe steps -/

/-- The invariants that keep the machine away from its faults. -/
def State.inv (s : State) : Bool := s.controlInv && s.countersInv && s.parser.consistent s.cfg

/-- A schedule entry the spec defines: a host access of the one defined form (20_memory.md R155), and a `SrcResp` only to an
outstanding request and with the bytes it asked for (46_host_commands.md R530). -/
def State.accepts (s : State) : Event → Bool
  | .hostWrite w a _ => accessDefined w a
  | .hostRead w a => accessDefined w a
  | .srcResp d => s.srcPending && decide (s.act = .wsrc) && decide (d.length = s.chunkLen)
  | _ => true

/-- A safe step: it does not fault. -/
def State.stepSafe (s : State) : Prop := ∀ f, step s ≠ .fault f

end Sys2Proof.Machine
end

