-- ==== Sys2Proof/WellFormed.lean ====
section
/-! DEFINITION. Well-formed instructions.

`fits` is what the encoding can carry (40_codec.md R253: a payload of at most `MAX_PAYLOAD` bytes); `lengthOk` is the
length constraint of the command (30_encoding.md R208).
A frame that fits but fails `lengthOk` is still decoded and run: it is Malformed (60_exceptions.md R600). -/

namespace Sys2Proof

/-- The payload has a length the header can state (R200, R253). -/
def Instr.fits (c : Config) (i : Instr) : Bool := decide (i.payload.length ≤ c.maxPayload)

/-- The length constraint of R208. -/
def Instr.lengthOk (c : Config) : Instr → Bool
  | .handshake p => decide (p.length = 5)
  | .fileList p => decide (1 ≤ p.length) && decide (p.length = 1 + c.nameSlot * (byteAt p 0).toNat)
  | .fileDataInfo p => decide (p.length = 5 + c.nameSlot)
  | .fileDataChunk p => decide (4 ≤ p.length) && decide (p.length = 4 + (le16 p 2).toNat)
  | .fileEnd _ => true
  | .ack p => decide (p.length = 0)
  | .nack p => decide (p.length = 0)
  | .start => true
  | .abort => true
  | .retry => true

/-- A well-formed instruction. -/
def Instr.wellFormed (c : Config) (i : Instr) : Bool := i.fits c && i.lengthOk c

end Sys2Proof
end

