-- ==== Sys2Proof/Certificates/Slice0/Obligations.lean ====
section
/-! DEFINITION. The statements for the provers. Each formalises rules of spec/; the docstring names them.

Where a statement says what an instruction leaves behind, it gives the whole next state: every register, table and port not
named is the one before. `enter`, `fail`, `recover`, `finish` and `fileComplete` are the helpers of spec/41_session.md; each
has a statement of its own that gives its whole effect. -/

section
open Sys2Proof Sys2Proof.Machine

/-! ### The packet codec (spec/40_codec.md, 30_encoding.md) -/

/-- 40_codec.md section 1 (R250, R251): the checksum is the XOR of the payload bytes in any order, 0x00 for none, and verifies only itself.
With it, as R252 derives: one flipped bit is seen in its own bit of the checksum; two flips of the
same bit, and inserted zero bytes, are not seen. -/
def Obligations.ChecksumIsXorAndSeesOneFlippedBit : Prop :=
  xorfold [] = 0#8 ∧
  (∀ (p : List Byte) (b : Byte), xorfold (p ++ [b]) = xorfold p ^^^ b) ∧
  (∀ p q : List Byte, p.Perm q → xorfold p = xorfold q) ∧
  (∀ (p : List Byte) (claimed : Byte), verifyChecksum p claimed = true ↔ xorfold p = claimed) ∧
  (∀ claimed : Byte, verifyChecksum [] claimed = true ↔ claimed = 0#8) ∧
  xorfold [0x01#8, 0xE8#8, 0x03#8, 0x00#8, 0x00#8] = 0xEA#8 ∧
  verifyChecksum [0x01#8, 0xE8#8, 0x03#8, 0x00#8, 0x00#8] 0xEB#8 = false ∧
  (∀ p : List Byte, verifyChecksum p (xorfold p) = true) ∧
  (∀ (p : List Byte) (k j : Nat), k < p.length → j < 8 →
    xorfold (p.set k (byteAt p k ^^^ (1#8 <<< j))) = xorfold p ^^^ (1#8 <<< j) ∧
    verifyChecksum (p.set k (byteAt p k ^^^ (1#8 <<< j))) (xorfold p) = false ∧
    verifyChecksum p (xorfold p ^^^ (1#8 <<< j)) = false) ∧
  (∀ (p : List Byte) (k m j : Nat), k < p.length → m < p.length → k ≠ m →
    xorfold ((p.set k (byteAt p k ^^^ (1#8 <<< j))).set m (byteAt p m ^^^ (1#8 <<< j))) = xorfold p) ∧
  (∀ p q : List Byte, xorfold (p ++ 0#8 :: q) = xorfold (p ++ q))

/-- 30_encoding.md section 1 (R200): the bytes of an encoded frame, as 40_codec.md section 2 builds it. With them, as
40_codec.md section 2 (R254) and 41_session.md section 2 (R307) derive, the two answers, and that
answering only appends one to the transmitted frames; and, from 00_scope.md section 4 and 20_memory.md section 2, that
payload fields are little-endian and a written field reads back. -/
def Obligations.FrameBytesAndFieldOrder : Prop :=
  (∀ (c : Config) (cmd : Byte) (p : List Byte), p.length ≤ 65535 →
    (encodeFrame c cmd p).length = 6 + p.length ∧
    (byteAt (encodeFrame c cmd p) 0).toNat + 256 * (byteAt (encodeFrame c cmd p) 1).toNat = c.magic.toNat ∧
    byteAt (encodeFrame c cmd p) 2 = cmd ∧
    (byteAt (encodeFrame c cmd p) 3).toNat + 256 * (byteAt (encodeFrame c cmd p) 4).toNat = p.length ∧
    byteAt (encodeFrame c cmd p) 5 = xorfold p ∧
    (encodeFrame c cmd p).drop 6 = p) ∧
  (encodeFrame Config.default 0x01#8 []).take 2 = [0x55#8, 0xAA#8] ∧
  encodeFrame Config.default 0x01#8 [0x01#8, 0xE8#8, 0x03#8, 0x00#8, 0x00#8] =
    [0x55#8, 0xAA#8, 0x01#8, 0x05#8, 0x00#8, 0xEA#8, 0x01#8, 0xE8#8, 0x03#8, 0x00#8, 0x00#8] ∧
  encodeFrame Config.default Config.default.cmdAck [] = [0x55#8, 0xAA#8, 0x05#8, 0x00#8, 0x00#8, 0x00#8] ∧
  encodeFrame Config.default Config.default.cmdNack [] = [0x55#8, 0xAA#8, 0x06#8, 0x00#8, 0x00#8, 0x00#8] ∧
  (∀ s : State,
    s.respondAck = { s with port.out := s.port.out ++ [.frame (encodeFrame s.cfg s.cfg.cmdAck [])] } ∧
    s.respondNack = { s with port.out := s.port.out ++ [.frame (encodeFrame s.cfg s.cfg.cmdNack [])] }) ∧
  (∀ (p : List Byte) (i : Nat), (le16 p i).toNat = (byteAt p i).toNat + 256 * (byteAt p (i + 1)).toNat) ∧
  (∀ (p : List Byte) (i : Nat), (le32 p i).toNat =
    (byteAt p i).toNat + 256 * (byteAt p (i + 1)).toNat + 65536 * (byteAt p (i + 2)).toNat +
      16777216 * (byteAt p (i + 3)).toNat) ∧
  (∀ (v : Half) (rest : List Byte), le16 (bytes16 v ++ rest) 0 = v) ∧
  (∀ (v : Word) (rest : List Byte), le32 (bytes32 v ++ rest) 0 = v)

/-- Tier 3. Decoding an encoded instruction gives it back, for every instruction a frame can carry and whatever bytes
follow the frame; and each frame and each command word has one meaning: what decodes to an instruction is that
instruction's encoding, the ignored bits of a command word aside (30_encoding.md sections 1, 2, 5 and 7; 40_codec.md
section 2). -/
def Obligations.DecodeAndEncodeAgree : Prop :=
  (∀ (c : Config) (i : Instr), c.legal = true → i.fits c = true →
    decode c i.form (encode c i) = .ok (i, []) ∧
    ∀ f rest : List Byte, encode c i = .frame f → decodeFrame c i.form (f ++ rest) = .ok (i, rest)) ∧
  (∀ (c : Config) (x : XSub) (bytes : List Byte) (i : Instr) (rest : List Byte), c.legal = true →
    decodeFrame c x bytes = .ok (i, rest) → i.fits c = true ∧ ∃ f, encode c i = .frame f ∧ f ++ rest = bytes) ∧
  (∀ (c : Config) (w : Word) (i : Instr), decodeCommand w = .ok i → encode c i = .command (w &&& 0xFF#32))

/-- Tier 3. 40_codec.md section 2 (R255, derived there): the byte-serial parser, fed an encoded frame, gives that
frame at its last byte and nothing before. -/
def Obligations.ParserReadsEncodedFrame : Prop :=
  ∀ (s : State) (cmd : Byte) (p : List Byte), s.cfg.legal = true → s.parser.hc = 0#3 → s.parser.pcnt = 0#16 →
    Memory.wf s.parser.paybuf → p.length ≤ 65535 →
    (parseBytes (encodeFrame s.cfg cmd p) s).2 = [.frame cmd (BitVec.ofNat 16 p.length) p] ∧
    (∀ k, k < 6 + p.length → (parseBytes ((encodeFrame s.cfg cmd p).take k) s).2 = []) ∧
    (parseBytes (encodeFrame s.cfg cmd p) s).1.parser.hc = 0#3 ∧
    (parseBytes (encodeFrame s.cfg cmd p) s).1.parser.pcnt = 0#16

/-- Tier 3. The byte-serial parser refines the decoder: on any bytes, its first outcome comes at the byte where the
decoder's answer is determined, and is that answer (40_codec.md section 4, 30_encoding.md sections 6 and 7). A wrong
magic uses up exactly six bytes. -/
def Obligations.ParserRefinesDecoder : Prop :=
  ∀ (s : State) (x : XSub) (bytes : List Byte),
    s.cfg.legal = true → s.parser.hc = 0#3 → s.parser.pcnt = 0#16 → Memory.wf s.parser.paybuf →
    (∀ r, decodeFrame s.cfg x bytes = .error r → r = .shortHeader ∨ r = .shortPayload → (parseBytes bytes s).2 = []) ∧
    (∀ m, decodeFrame s.cfg x bytes = .error (.badMagic m) →
      (parseBytes (bytes.take 6) s).2 = [.badMagic m] ∧ (parseBytes (bytes.take 6) s).1.parser.hc = 0#3) ∧
    (∀ computed claimed, decodeFrame s.cfg x bytes = .error (.badChecksum computed claimed) →
      (parseBytes (bytes.take (6 + (le16 bytes 3).toNat)) s).2 = [.csumBad computed claimed]) ∧
    (∀ cmd, decodeFrame s.cfg x bytes = .error (.unknownCommand cmd) →
      (parseBytes (bytes.take (6 + (le16 bytes 3).toNat)) s).2 =
        [.frame cmd (le16 bytes 3) ((bytes.drop 6).take (le16 bytes 3).toNat)] ∧ cmd ∉ s.cfg.codes) ∧
    (∀ i rest, decodeFrame s.cfg x bytes = .ok (i, rest) →
      ∃ cmd, i.code s.cfg = some cmd ∧
        (parseBytes (bytes.take (bytes.length - rest.length)) s).2 = [.frame cmd (le16 bytes 3) i.payload])

/-- R256: the name of a slot is what stands before the first 0x00, from after the last separator in it, padded to the
slot's 64 bytes (`NAME_SLOT`). -/
def Obligations.StripKeepsBasename : Prop :=
  Config.default.separators = [0x2F#8, 0x5C#8] ∧ Config.default.nameSlot = 64 ∧
  ∀ (c : Config) (slot : List Byte), slot.length = c.nameSlot →
    ∃ n j : Nat,
      n ≤ c.nameSlot ∧ (∀ k, k < n → byteAt slot k ≠ 0#8) ∧ (n < c.nameSlot → byteAt slot n = 0#8) ∧
      j ≤ n ∧ (∀ k, j ≤ k → k < n → byteAt slot k ∉ c.separators) ∧ (0 < j → byteAt slot (j - 1) ∈ c.separators) ∧
      strip c slot = slice slot j n ++ zeros (c.nameSlot - (n - j)) ∧ (strip c slot).length = c.nameSlot

/-- Words written out from 30_encoding.md sections 1, 2 and 5 decode to the instructions they stand for. -/
def Obligations.KnownWordsDecode : Prop :=
  decodeFrame Config.default .info
    [0x55#8, 0xAA#8, 0x01#8, 0x05#8, 0x00#8, 0xEA#8, 0x01#8, 0xE8#8, 0x03#8, 0x00#8, 0x00#8] =
      .ok (.handshake [0x01#8, 0xE8#8, 0x03#8, 0x00#8, 0x00#8], []) ∧
  decodeFrame Config.default .info [0x55#8, 0xAA#8, 0x02#8, 0x01#8, 0x00#8, 0x00#8, 0x00#8] =
    .ok (.fileList [0x00#8], []) ∧
  decodeFrame Config.default .chunks [0x55#8, 0xAA#8, 0x03#8, 0x05#8, 0x00#8, 0x42#8, 0x02#8, 0x00#8, 0x01#8, 0x00#8, 0x41#8] =
    .ok (.fileDataChunk [0x02#8, 0x00#8, 0x01#8, 0x00#8, 0x41#8], []) ∧
  decodeFrame Config.default .info [0x55#8, 0xAA#8, 0x04#8, 0x00#8, 0x00#8, 0x00#8] = .ok (.fileEnd [], []) ∧
  decodeFrame Config.default .info [0x55#8, 0xAA#8, 0x05#8, 0x00#8, 0x00#8, 0x00#8] = .ok (.ack [], []) ∧
  decodeFrame Config.default .info [0x55#8, 0xAA#8, 0x06#8, 0x00#8, 0x00#8, 0x00#8] = .ok (.nack [], []) ∧
  decodeCommand 0x00000001#32 = .ok .start ∧ decodeCommand 0x00000002#32 = .ok .abort ∧
  decodeCommand 0x00000003#32 = .ok .retry ∧ decodeCommand 0x00000004#32 = .error (.reservedCode 0x04#8)

/-! ### Steps (spec/41_session.md section 1, 10_state.md section 9) -/

/-- A step takes the next entry of the schedule; with none left it is the engine's internal step. A byte the peer
sends joins the transport; a byte is taken from it only in a frame wait with the link owned; the internal step does
nothing outside TXREQ and ADV (41_session.md section 1, 10_state.md section 9; the schedule itself is the model's,
assumption log 1 to 3). -/
def Obligations.StepTakesNextScheduleEntry : Prop :=
  ∀ s : State, s.cfg.legal = true →
    (s.port.events = [] → step s = internalStep s) ∧
    (∀ e es, s.port.events = e :: es → step s = runEvent e { s with port.events := es }) ∧
    (∀ b, runEvent (.peer b) s = .next { s with port.rxq := s.port.rxq ++ [b] }) ∧
    ((s.linkOwned = false ∨ s.act ≠ .wreq ∧ s.act ≠ .wrsp ∨ s.port.rxq = []) → runEvent .rxByte s = .next s) ∧
    (s.act ≠ .txreq → s.act ≠ .adv → runEvent .internal s = .next s)

/-- When the byte the engine consumes completes a frame that decodes to an instruction, the step is that instruction's
meaning, in the state with the byte taken out of the transport and the parser ready for a new frame. -/
def Obligations.StepRunsDecodedFrame : Prop :=
  ∀ (s : State) (b : Byte) (q : List Byte) (es : List Event) (i : Instr),
    s.cfg.legal = true → s.consumes = true → s.port.events = .rxByte :: es → s.port.rxq = b :: q →
    s.parser.consistent s.cfg = true → Memory.wf s.parser.paybuf →
    decodeFrame s.cfg s.xsub (s.parser.collected s.cfg ++ [b]) = .ok (i, []) →
      ∃ parser : Parser, parser.hc = 0#3 ∧ parser.pcnt = 0#16 ∧
        step s = exec i { s with port.events := es, port.rxq := q, parser := parser }

/-- R77, R219: a word written to `CMD` runs the instruction of its bits [7:0]; any other code does nothing; a read of
`CMD` answers 0 and changes nothing. -/
def Obligations.StepRunsHostCommand : Prop :=
  (∀ v : Word,
    (v.extractLsb' 0 8 = 0x01#8 → decodeCommand v = .ok .start) ∧
    (v.extractLsb' 0 8 = 0x02#8 → decodeCommand v = .ok .abort) ∧
    (v.extractLsb' 0 8 = 0x03#8 → decodeCommand v = .ok .retry)) ∧
  ∀ (s : State) (v : Word) (es : List Event), s.cfg.legal = true →
    (s.port.events = .hostWrite 4 0x0004#16 v :: es →
      (∀ i, decodeCommand v = .ok i → step s = exec i { s with port.events := es }) ∧
      (v.extractLsb' 0 8 ≠ 0x01#8 → v.extractLsb' 0 8 ≠ 0x02#8 → v.extractLsb' 0 8 ≠ 0x03#8 →
        step s = .next { s with port.events := es })) ∧
    (s.port.events = .hostRead 4 0x0004#16 :: es →
      step s = .next { s with port.events := es, port.out := s.port.out ++ [.hostRead 0x0004#16 0#32] })

/-- A consumed byte that completes no instruction: an incomplete frame is only collected; a wrong magic, a wrong
checksum and an unknown command are what the dispatch of 41_session.md section 4 says (40_codec.md section 4,
30_encoding.md sections 2 and 6). -/
def Obligations.StepCollectsOrRejectsByte : Prop :=
  ∀ (s : State) (b : Byte) (q : List Byte) (es : List Event),
    s.cfg.legal = true → s.consumes = true → s.port.events = .rxByte :: es → s.port.rxq = b :: q →
    s.parser.consistent s.cfg = true → Memory.wf s.parser.paybuf →
    (∀ r, decodeFrame s.cfg s.xsub (s.parser.collected s.cfg ++ [b]) = .error r → r = .shortHeader ∨ r = .shortPayload →
      ∃ t, step s = .next t ∧
        t = { s with port.events := es, port.rxq := q, parser := t.parser, frTimer := t.frTimer } ∧
        t.parser.collected s.cfg = s.parser.collected s.cfg ++ [b] ∧
        t.frTimer =
          if (s.parser.collected s.cfg).length = 5 ∧ s.phase.handshake = false then s.conf.frTimeout else s.frTimer) ∧
    (∀ r, decodeFrame s.cfg s.xsub (s.parser.collected s.cfg ++ [b]) = .error r → r ≠ .shortHeader → r ≠ .shortPayload →
      ∃ u : State, u = { s with port.events := es, port.rxq := q, parser := u.parser } ∧
        u.parser.hc = 0#3 ∧ u.parser.pcnt = 0#16 ∧
        (∀ m, r = .badMagic m → step s = u.badFrame .badMagic (s.cfg.magic.setWidth 32) (m.setWidth 32)) ∧
        (∀ c k, r = .badChecksum c k → step s = u.badFrame .checksumMismatch (c.setWidth 32) (k.setWidth 32)) ∧
        (∀ cmd, r = .unknownCommand cmd → step s = u.unexpectedFrame cmd))

/-! ### The helpers of the session state machine (spec/41_session.md section 2) -/

/-- R306: entering an activity fails the session on a latched abort between exchanges; else it sets `act`, and for a
frame wait resets the parser and, outside the handshake phases, reloads the frame timer. -/
def Obligations.EnterChecksAbortAndStartsWait : Prop :=
  ∀ (s : State) (a : Act),
    (s.abortReq = true ∧ (a = .txreq ∨ a = .wsrc ∨ a = .whost ∨ a = .adv ∨ a = .wreq) →
      s.enter a = s.fail .aborted 0#32 0#32) ∧
    (¬ (s.abortReq = true ∧ (a = .txreq ∨ a = .wsrc ∨ a = .whost ∨ a = .adv ∨ a = .wreq)) →
      (a = .wreq ∨ a = .wrsp →
        s.enter a = { s with
          act := a, parser.hc := 0#3, parser.pcnt := 0#16
          frTimer :=
            if s.phase = .awaitingHandshake ∨ s.phase = .sendingHandshake then s.frTimer else s.conf.frTimeout }) ∧
      (a ≠ .wreq → a ≠ .wrsp → s.enter a = { s with act := a }))

/-- R312, R313, R314: a recoverable error is recorded with its context and raises ERR, and the session goes on; the
entry to FAILED, the engine's one trap; and the end in DONE, a latched abort dropped. What stands in `hc` and `pcnt` after
the entry to FAILED, which R313 does not say, is left to PartialFrameIsDiscarded (assumption log 24). -/
def Obligations.RecoverFailAndDone : Prop :=
  ∀ (s : State) (code : ErrCode) (e o : Word),
    s.recover code e o =
      { s with err.lastErr := code, err.errExp := e, err.errObs := o, irqStatus := s.irqStatus ||| 0x10#5 } ∧
    (∃ (hc : BitVec 3) (pcnt : Half), s.fail code e o = { s with
      err.failPhase := s.phase, err.failCause := code, err.errExp := e, err.errObs := o
      phase := .failed, act := .none, linkOwned := false, abortReq := false, srcPending := false
      irqStatus := s.irqStatus ||| 0x02#5, parser.hc := hc, parser.pcnt := pcnt }) ∧
    s.finish = { s with
      phase := .done, act := .none, linkOwned := false, abortReq := false, irqStatus := s.irqStatus ||| 0x01#5 }

/-- R315: a completed file raises FILE and counts; the last one ends the session, any other starts the next info
exchange. -/
def Obligations.FileCompleteCountsFile : Prop :=
  ∀ s : State,
    (s.sess.filePtr + 1#8 = s.sess.pendCount →
      s.fileComplete =
        State.finish { s with irqStatus := s.irqStatus ||| 0x08#5, sess.filePtr := s.sess.filePtr + 1#8 }) ∧
    (s.sess.filePtr + 1#8 ≠ s.sess.pendCount →
      s.fileComplete =
        State.enter (if s.conf.ctrl.getLsbD 1 then .txreq else .wreq)
          { s with irqStatus := s.irqStatus ||| 0x08#5, sess.filePtr := s.sess.filePtr + 1#8, xsub := .info })

/-! ### Dispatch (spec/41_session.md section 4) -/

/-- R310: a parser outcome is dispatched in the step of the byte that produced it, with the parser reset and the frame
timer not reloaded; and what each outcome does in a wait for a request and in a wait for an answer. -/
def Obligations.OutcomesAreDispatchedByWait : Prop :=
  ∀ s : State, s.cfg.legal = true → s.cfg.codes = Config.default.codes →
    (∀ (b : Byte) (t : State) (o : ParseOutcome), s.parser.consistent s.cfg = true →
      parseByte b s = (t, some o) →
        receiveByte b s = onOutcome o t ∧ t = { s with parser := t.parser } ∧ t.parser.hc = 0#3 ∧ t.parser.pcnt = 0#16) ∧
    (s.act = .wreq →
      (∀ m : Half, onOutcome (.badMagic m) s =
        .next ((s.recover .badMagic (s.cfg.magic.setWidth 32) (m.setWidth 32)).respondNack.enter .wreq)) ∧
      (∀ c k : Byte, onOutcome (.csumBad c k) s =
        .next ((s.recover .checksumMismatch (c.setWidth 32) (k.setWidth 32)).respondNack.enter .wreq)) ∧
      (∀ (len : Half) (p : List Byte), s.phase = .awaitingHandshake →
        onOutcome (.frame 0x01#8 len p) s = .next (handshakeRule p s)) ∧
      (∀ (len : Half) (p : List Byte), s.phase = .awaitingFileList →
        onOutcome (.frame 0x02#8 len p) s = .next (fileListRule p s)) ∧
      (∀ (len : Half) (p : List Byte), s.phase = .transferringFile → s.xsub = .info →
        onOutcome (.frame 0x03#8 len p) s = .next (infoRule p s)) ∧
      (∀ (len : Half) (p : List Byte), s.phase = .transferringFile → s.xsub = .chunks →
        onOutcome (.frame 0x03#8 len p) s = .next (chunkRule p s)) ∧
      (∀ (len : Half) (p : List Byte), s.phase = .transferringFile →
        onOutcome (.frame 0x04#8 len p) s = .next (fileEndRule p s)) ∧
      (∀ (cmd : Byte) (len : Half) (p : List Byte),
        ¬ (s.phase = .awaitingHandshake ∧ cmd = 0x01#8) → ¬ (s.phase = .awaitingFileList ∧ cmd = 0x02#8) →
        ¬ (s.phase = .transferringFile ∧ (cmd = 0x03#8 ∨ cmd = 0x04#8)) →
        onOutcome (.frame cmd len p) s = .next (s.unexpectedInRequest cmd))) ∧
    (s.act = .wrsp →
      (∀ m : Half, onOutcome (.badMagic m) s =
        .next (s.recover .badMagic (s.cfg.magic.setWidth 32) (m.setWidth 32))) ∧
      (∀ c k : Byte, onOutcome (.csumBad c k) s =
        .next (s.recover .checksumMismatch (c.setWidth 32) (k.setWidth 32))) ∧
      (∀ (len : Half) (p : List Byte), onOutcome (.frame 0x05#8 len p) s = .next (ackRule p s)) ∧
      (∀ (len : Half) (p : List Byte), onOutcome (.frame 0x06#8 len p) s = .next (nackRule p s)) ∧
      (∀ (cmd : Byte) (len : Half) (p : List Byte), cmd ≠ 0x05#8 → cmd ≠ 0x06#8 →
        onOutcome (.frame cmd len p) s = .next (s.fail .unexpectedCommand 0x00000060#32 (cmd.setWidth 32))))

/-- R311: a wrong command in a wait for a request is answered NACK and fails the session, with the expected codes as a
mask; it covers every instruction with a known code out of its phase and every unknown code. -/
def Obligations.WrongCommandFailsSession : Prop :=
  ∀ (s : State) (cmd : Byte), s.cfg.codes = Config.default.codes → s.act = .wreq →
    ∀ mask : Word,
      (s.phase = .awaitingHandshake ∧ mask = 0x00000002#32 ∧ cmd ≠ 0x01#8) ∨
      (s.phase = .awaitingFileList ∧ mask = 0x00000004#32 ∧ cmd ≠ 0x02#8) ∨
      (s.phase = .transferringFile ∧ mask = 0x00000018#32 ∧ cmd ≠ 0x03#8 ∧ cmd ≠ 0x04#8) →
        s.unexpectedInRequest cmd =
          State.fail .unexpectedCommand mask (cmd.setWidth 32)
            { s with port.out := s.port.out ++ [.frame (encodeFrame s.cfg s.cfg.cmdNack [])] } ∧
        s.unexpectedFrame cmd = .next (s.unexpectedInRequest cmd) ∧
        ∀ i : Instr, i.code s.cfg = some cmd → exec i s = .next (s.unexpectedInRequest cmd)

/-! ### The frames (spec/42_handshake.md to 45_flow_control.md) -/

/-- R352: HANDSHAKE in AWAITING_HANDSHAKE. A wrong length is Malformed and answered NACK; any version and timestamp
are taken, answered ACK, and the handshake is done. -/
def Obligations.HandshakeReceived : Prop :=
  ∀ (s : State) (p : List Byte), s.phase = .awaitingHandshake → s.act = .wreq →
    (p.length ≠ 5 → exec (.handshake p) s =
      .next ((s.recover .malformed 5#32 (BitVec.ofNat 32 p.length)).respondNack.enter .wreq)) ∧
    (p.length = 5 → exec (.handshake p) s = .next (State.enter .adv { s with
      sess.rxVersion := byteAt p 0, sess.rxTimestamp := le32 p 1, phase := .handshakeDone
      port.out := s.port.out ++ [.frame (encodeFrame s.cfg s.cfg.cmdAck [])] }))

/-- R383: FILE_LIST in AWAITING_FILE_LIST. A wrong length is Malformed and answered NACK; an accepted list of `c`
names fills the entries 0..c-1 of `RXNAME` with the stripped names and no other byte of it, is answered ACK, and
starts the transfer or, when empty, ends the session. The bytes of a name slot, `n`, are 64 on this hardware. -/
def Obligations.FileListReceived : Prop :=
  ∀ (s : State) (p : List Byte) (n : Nat), n = s.cfg.nameSlot →
    s.phase = .awaitingFileList → s.act = .wreq → Memory.wf s.rxname →
    (p.length = 0 → exec (.fileList p) s = .next ((s.recover .malformed 1#32 0#32).respondNack.enter .wreq)) ∧
    (p.length ≠ 0 → p.length ≠ 1 + n * (byteAt p 0).toNat → exec (.fileList p) s =
      .next ((s.recover .malformed (BitVec.ofNat 32 (1 + n * (byteAt p 0).toNat))
        (BitVec.ofNat 32 p.length)).respondNack.enter .wreq)) ∧
    (p.length = 1 + n * (byteAt p 0).toNat →
      ∃ names : Memory, Memory.wf names ∧
        (∀ i j, i < (byteAt p 0).toNat → j < n →
          Memory.read names (n * i + j) = byteAt (strip s.cfg (slice p (1 + n * i) (1 + n * (i + 1)))) j) ∧
        (∀ a, n * (byteAt p 0).toNat ≤ a → Memory.read names a = Memory.read s.rxname a) ∧
        (byteAt p 0 = 0#8 → exec (.fileList p) s = .next (State.finish { s with
          rxname := names, sess.pendCount := byteAt p 0
          port.out := s.port.out ++ [.frame (encodeFrame s.cfg s.cfg.cmdAck [])] })) ∧
        (byteAt p 0 ≠ 0#8 → exec (.fileList p) s = .next (State.enter .wreq { s with
          rxname := names, sess.pendCount := byteAt p 0, sess.filePtr := 0#8, xsub := .info, phase := .transferringFile
          port.out := s.port.out ++ [.frame (encodeFrame s.cfg s.cfg.cmdAck [])] })))

/-- R412: FILE_DATA in the info form, whichever of its two spellings names the frame. An accepted one fills `CURNAME`
with the stripped name and no other byte of it, starts the file at the sink, and, when the file is empty, ends it. The
required length is 5 bytes and a name slot of `n`, 69 with the 64 of this hardware. -/
def Obligations.FileInfoReceived : Prop :=
  ∀ (s : State) (p : List Byte) (i : Instr) (n : Nat), n = s.cfg.nameSlot → i = .fileDataInfo p ∨ i = .fileDataChunk p →
    s.phase = .transferringFile → s.xsub = .info → s.act = .wreq → Memory.wf s.curname →
    (p.length ≠ 5 + n → exec i s =
      .next ((s.recover .malformed (BitVec.ofNat 32 (5 + n)) (BitVec.ofNat 32 p.length)).respondNack.enter .wreq)) ∧
    (p.length = 5 + n →
      ∃ name : Memory, Memory.wf name ∧
        (∀ j, j < n → Memory.read name j = byteAt (strip s.cfg (slice p 5 (5 + n))) j) ∧
        (∀ a, n ≤ a → Memory.read name a = Memory.read s.curname a) ∧
        (le32 p 1 ≠ 0#32 → exec i s = .next (State.enter .wreq { s with
          sess.curIndex := byteAt p 0, sess.curSize := le32 p 1, sess.bytesDone := 0#32, sess.chunkIdx := 0#16
          curname := name, xsub := .chunks
          port.out := s.port.out ++
            [.sink (.fileStart s.sess.filePtr (byteAt p 0) (le32 p 1) (strip s.cfg (slice p 5 (5 + n)))),
             .frame (encodeFrame s.cfg s.cfg.cmdAck [])] })) ∧
        (le32 p 1 = 0#32 → exec i s = .next (State.fileComplete { s with
          sess.curIndex := byteAt p 0, sess.curSize := 0#32, sess.bytesDone := 0#32, sess.chunkIdx := 0#16
          curname := name, xsub := .chunks
          port.out := s.port.out ++
            [.sink (.fileStart s.sess.filePtr (byteAt p 0) 0#32 (strip s.cfg (slice p 5 (5 + n)))),
             .sink (.fileEnd s.sess.filePtr), .frame (encodeFrame s.cfg s.cfg.cmdAck [])] })))

/-- R425: FILE_DATA in the chunk form, whichever of its two spellings names the frame. The checks run in the order
length, index, overrun; an accepted chunk goes to the sink before its ACK and advances the counters; the last one ends
the file. -/
def Obligations.FileChunkReceived : Prop :=
  ∀ (s : State) (p : List Byte) (i : Instr), i = .fileDataInfo p ∨ i = .fileDataChunk p →
    s.phase = .transferringFile → s.xsub = .chunks → s.act = .wreq →
    s.sess.bytesDone.toNat ≤ s.sess.curSize.toNat →
    (p.length < 4 → exec i s =
      .next ((s.recover .malformed 4#32 (BitVec.ofNat 32 p.length)).respondNack.enter .wreq)) ∧
    (4 ≤ p.length → p.length ≠ 4 + (le16 p 2).toNat → exec i s =
      .next ((s.recover .malformed (BitVec.ofNat 32 (4 + (le16 p 2).toNat))
        (BitVec.ofNat 32 p.length)).respondNack.enter .wreq)) ∧
    (p.length = 4 + (le16 p 2).toNat → le16 p 0 ≠ s.sess.chunkIdx → exec i s =
      .next (s.respondNack.fail .sequenceMismatch (s.sess.chunkIdx.setWidth 32) ((le16 p 0).setWidth 32))) ∧
    (p.length = 4 + (le16 p 2).toNat → le16 p 0 = s.sess.chunkIdx →
      s.sess.curSize.toNat < s.sess.bytesDone.toNat + (le16 p 2).toNat → exec i s =
      .next (s.respondNack.fail .sequenceMismatch (s.sess.curSize - s.sess.bytesDone) ((le16 p 2).setWidth 32))) ∧
    (p.length = 4 + (le16 p 2).toNat → le16 p 0 = s.sess.chunkIdx →
      s.sess.bytesDone.toNat + (le16 p 2).toNat < s.sess.curSize.toNat → exec i s =
      .next (State.enter .wreq { s with
        sess.bytesDone := BitVec.ofNat 32 (s.sess.bytesDone.toNat + (le16 p 2).toNat)
        sess.chunkIdx := s.sess.chunkIdx + 1#16
        port.out := s.port.out ++ [.sink (.data (p.drop 4)), .frame (encodeFrame s.cfg s.cfg.cmdAck [])] })) ∧
    (p.length = 4 + (le16 p 2).toNat → le16 p 0 = s.sess.chunkIdx →
      s.sess.bytesDone.toNat + (le16 p 2).toNat = s.sess.curSize.toNat → exec i s =
      .next (State.fileComplete { s with
        sess.bytesDone := s.sess.curSize, sess.chunkIdx := s.sess.chunkIdx + 1#16
        port.out := s.port.out ++
          [.sink (.data (p.drop 4)), .sink (.fileEnd s.sess.filePtr), .frame (encodeFrame s.cfg s.cfg.cmdAck [])] }))

/-- R450: FILE_END in TRANSFERRING_FILE is answered ACK and does nothing else, whatever its payload. -/
def Obligations.FileEndReceived : Prop :=
  ∀ (s : State) (p : List Byte), s.phase = .transferringFile → s.act = .wreq →
    exec (.fileEnd p) s = .next (State.enter .wreq
      { s with port.out := s.port.out ++ [.frame (encodeFrame s.cfg s.cfg.cmdAck [])] })

/-- R472: ACK in a wait for an answer, in every phase that has one. -/
def Obligations.AckReceived : Prop :=
  ∀ (s : State) (p : List Byte), s.act = .wrsp →
    (p.length ≠ 0 → exec (.ack p) s = .next (s.recover .malformed 0#32 (BitVec.ofNat 32 p.length))) ∧
    (p.length = 0 → s.phase = .sendingHandshake →
      exec (.ack p) s = .next (State.enter .adv { s with phase := .handshakeDone })) ∧
    (p.length = 0 → s.phase = .sendingFileList → s.sess.pendCount = 0#8 → exec (.ack p) s = .next s.finish) ∧
    (p.length = 0 → s.phase = .sendingFileList → s.sess.pendCount ≠ 0#8 →
      exec (.ack p) s = .next (State.enter .txreq
        { s with sess.filePtr := 0#8, xsub := .info, phase := .transferringFile })) ∧
    (p.length = 0 → s.phase = .transferringFile → s.xsub = .info → s.sess.curSize = 0#32 →
      exec (.ack p) s = .next (State.fileComplete { s with xsub := .chunks })) ∧
    (p.length = 0 → s.phase = .transferringFile → s.xsub = .info → s.sess.curSize ≠ 0#32 →
      exec (.ack p) s = .next (State.enter .txreq { s with xsub := .chunks })) ∧
    (p.length = 0 → s.phase = .transferringFile → s.xsub = .chunks →
      s.sess.bytesDone + s.sess.txN.setWidth 32 = s.sess.curSize →
      exec (.ack p) s = .next (State.fileComplete { s with
        sess.bytesDone := s.sess.curSize, sess.chunkIdx := s.sess.chunkIdx + 1#16 })) ∧
    (p.length = 0 → s.phase = .transferringFile → s.xsub = .chunks →
      s.sess.bytesDone + s.sess.txN.setWidth 32 ≠ s.sess.curSize →
      exec (.ack p) s = .next (State.enter .txreq { s with
        sess.bytesDone := s.sess.bytesDone + s.sess.txN.setWidth 32, sess.chunkIdx := s.sess.chunkIdx + 1#16 }))

/-- R474: NACK in a wait for an answer stops the sender in WHOST, or fails it on a latched abort; no counter changes.
-/
def Obligations.NackReceived : Prop :=
  ∀ (s : State) (p : List Byte), s.act = .wrsp →
    (p.length ≠ 0 → exec (.nack p) s = .next (s.recover .malformed 0#32 (BitVec.ofNat 32 p.length))) ∧
    (p.length = 0 → s.abortReq = false →
      exec (.nack p) s = .next { s with irqStatus := s.irqStatus ||| 0x04#5, act := .whost }) ∧
    (p.length = 0 → s.abortReq = true →
      exec (.nack p) s =
        .next (State.fail .aborted 0#32 0#32 { s with irqStatus := s.irqStatus ||| 0x04#5 }))

/-! ### The host commands (spec/46_host_commands.md) -/

/-- R505: START begins a session in IDLE, DONE and FAILED, and does nothing in any other phase. -/
def Obligations.StartBeginsSession : Prop :=
  ∀ s : State,
    (s.phase ≠ .idle → s.phase ≠ .done → s.phase ≠ .failed → exec .start s = .next s) ∧
    (s.phase = .idle ∨ s.phase = .done ∨ s.phase = .failed →
      ∀ t : State, t = { s with
        sess := ⟨0#8, 0#8, 0#8, 0#32, 0#32, 0#16, 0#8, 0#32, 0#16⟩, xsub := .info, curname := []
        err := ⟨.none, .idle, .none, 0#32, 0#32⟩
        hsTimer := s.conf.hsTimeout, frTimer := 0#32
        abortReq := false, srcPending := false, linkOwned := true } →
      (s.conf.ctrl.getLsbD 0 = false → exec .start s =
        .next { t with phase := .awaitingHandshake, act := .wreq, parser.hc := 0#3, parser.pcnt := 0#16 }) ∧
      (s.conf.ctrl.getLsbD 0 = true → exec .start s = .next { t with phase := .sendingHandshake, act := .txreq }))

/-- R508: ABORT fails the session at once between exchanges, is latched in a frame wait, and does nothing without a
session. -/
def Obligations.AbortFailsOrLatches : Prop :=
  ∀ s : State,
    (s.phase = .idle ∨ s.phase = .done ∨ s.phase = .failed → exec .abort s = .next s) ∧
    (s.phase ≠ .idle → s.phase ≠ .done → s.phase ≠ .failed →
      (s.act = .txreq ∨ s.act = .wsrc ∨ s.act = .whost ∨ s.act = .adv →
        exec .abort s = .next (s.fail .aborted 0#32 0#32)) ∧
      (s.act = .wreq ∨ s.act = .wrsp → exec .abort s = .next { s with abortReq := true }))

/-- R512: RETRY in WHOST re-emits the kept request byte for byte and waits for its answer; elsewhere it does nothing.
-/
def Obligations.RetryResendsRequest : Prop :=
  ∀ s : State,
    (s.act ≠ .whost → exec .retry s = .next s) ∧
    (s.act = .whost → exec .retry s = .next { s with
      port.out := s.port.out ++ [.frame s.txbuf], act := .wrsp, parser.hc := 0#3, parser.pcnt := 0#16
      frTimer := if s.phase = .awaitingHandshake ∨ s.phase = .sendingHandshake then s.frTimer else s.conf.frTimeout })

/-- What no instruction changes, and what only the named ones change, whatever the state (10_state.md sections 2 to
11; 42_handshake.md to 46_host_commands.md). -/
def Obligations.InstructionFrame : Prop :=
  ∀ (i : Instr) (s t : State), exec i s = .next t →
    t.cfg = s.cfg ∧ t.conf = s.conf ∧ t.desc = s.desc ∧ t.txbuf = s.txbuf ∧ t.irqEnable = s.irqEnable ∧
    t.port.events = s.port.events ∧ t.port.rxq = s.port.rxq ∧
    t.parser = { s.parser with hc := t.parser.hc, pcnt := t.parser.pcnt } ∧
    s.irqStatus &&& ~~~t.irqStatus = 0#5 ∧ (∃ l, t.port.out = s.port.out ++ l) ∧
    (i ≠ .start → t.hsTimer = s.hsTimer ∧ t.sess.txN = s.sess.txN) ∧
    (i ≠ .start → (∀ p, i ≠ .handshake p) →
      t.sess.rxVersion = s.sess.rxVersion ∧ t.sess.rxTimestamp = s.sess.rxTimestamp) ∧
    ((∀ p, i ≠ .fileList p) → t.rxname = s.rxname) ∧
    (i ≠ .start → (∀ p, i ≠ .fileList p) → t.sess.pendCount = s.sess.pendCount) ∧
    (i ≠ .start → (∀ p, i ≠ .fileDataInfo p ∧ i ≠ .fileDataChunk p) →
      t.curname = s.curname ∧ t.sess.curIndex = s.sess.curIndex ∧ t.sess.curSize = s.sess.curSize) ∧
    (i ≠ .start → (∀ p, i ≠ .fileDataInfo p ∧ i ≠ .fileDataChunk p ∧ i ≠ .ack p) →
      t.sess.bytesDone = s.sess.bytesDone ∧ t.sess.chunkIdx = s.sess.chunkIdx) ∧
    (i ≠ .start → (∀ p, i ≠ .fileDataInfo p ∧ i ≠ .fileDataChunk p ∧ i ≠ .ack p ∧ i ≠ .fileList p) →
      t.sess.filePtr = s.sess.filePtr ∧ t.xsub = s.xsub)

/-! ### The internal steps (spec/41_session.md section 3, 42_handshake.md to 44_transfer.md) -/

/-- R309: the ADV step leaves HANDSHAKE_DONE for the file list or the transfer, as `CTRL` says. -/
def Obligations.AdvLeavesHandshakeDone : Prop :=
  ∀ s : State, s.phase = .handshakeDone → s.act = .adv →
    (s.conf.ctrl.getLsbD 2 = false → s.conf.ctrl.getLsbD 1 = false →
      internalStep s = .next (State.enter .wreq { s with phase := .awaitingFileList })) ∧
    (s.conf.ctrl.getLsbD 2 = false → s.conf.ctrl.getLsbD 1 = true →
      internalStep s = .next (State.enter .txreq
        { s with sess.pendCount := s.conf.descCount, phase := .sendingFileList })) ∧
    (s.conf.ctrl.getLsbD 2 = true →
      internalStep s = .next (State.enter (if s.conf.ctrl.getLsbD 1 then .txreq else .wreq)
        { s with sess.pendCount := 1#8, sess.filePtr := 0#8, xsub := .info, phase := .transferringFile }))

/-- R356, R395: the initiator sends HANDSHAKE and waits for its answer, with no frame timer; the LIST sender sends the
names of its first `pend_count` descriptors, verbatim, and waits for the answer. With the 64-byte name slots of this
hardware a descriptor is 80 bytes. -/
def Obligations.HandshakeAndFileListSent : Prop :=
  (∀ (s : State) (f : List Byte), s.phase = .sendingHandshake → s.act = .txreq →
    f = encodeFrame s.cfg s.cfg.cmdHandshake ([s.conf.txVersion] ++ bytes32 s.conf.txTimestamp) →
    internalStep s = .next { s with
      port.out := s.port.out ++ [.frame f], txbuf := f, sess.txN := 0#16
      act := .wrsp, parser.hc := 0#3, parser.pcnt := 0#16 }) ∧
  (∀ (s : State) (f : List Byte), s.cfg.nameSlot = 64 → s.phase = .sendingFileList → s.act = .txreq →
    f = encodeFrame s.cfg s.cfg.cmdFileList ([s.sess.pendCount] ++
      (List.range s.sess.pendCount.toNat).flatMap fun i => Memory.readN s.desc (80 * i) 64) →
    internalStep s = .next { s with
      port.out := s.port.out ++ [.frame f], txbuf := f, sess.txN := 0#16
      act := .wrsp, parser.hc := 0#3, parser.pcnt := 0#16, frTimer := s.conf.frTimeout })

/-- R435: the sender announces the current file from its descriptor, whose name also fills `CURNAME` and no other
byte. With the 64-byte name slots of this hardware a descriptor is 80 bytes. -/
def Obligations.FileInfoSent : Prop :=
  ∀ (s : State) (base : Nat) (size : Word) (index : Byte) (f : List Byte), s.cfg.legal = true → s.cfg.nameSlot = 64 →
    s.phase = .transferringFile → s.xsub = .info → s.act = .txreq → s.sess.filePtr.toNat < 255 → Memory.wf s.curname →
    base = 80 * s.sess.filePtr.toNat →
    size = le32 (Memory.readN s.desc (base + 64) 4) 0 → index = Memory.read s.desc (base + 68) →
    f = encodeFrame s.cfg s.cfg.cmdFileData ([index] ++ bytes32 size ++ Memory.readN s.desc base 64) →
    ∃ name : Memory, Memory.wf name ∧
      (∀ j, j < 64 → Memory.read name j = Memory.read s.desc (base + j)) ∧
      (∀ a, 64 ≤ a → Memory.read name a = Memory.read s.curname a) ∧
      internalStep s = .next { s with
        sess.curSize := size, sess.curIndex := index, sess.bytesDone := 0#32, sess.chunkIdx := 0#16, sess.txN := 0#16
        curname := name, port.out := s.port.out ++ [.frame f], txbuf := f
        act := .wrsp, parser.hc := 0#3, parser.pcnt := 0#16, frTimer := s.conf.frTimeout }

/-- R436, R437: the splitter asks the source for the next chunk, `CHUNK_SIZE` bytes or what is left of the file; the
source's answer is sent as that chunk, and the sender waits for its ACK. -/
def Obligations.ChunkRequestedAndSent : Prop :=
  (∀ (s : State) (n : Nat), s.phase = .transferringFile → s.xsub = .chunks → s.act = .txreq →
    n = min s.cfg.chunkSize (s.sess.curSize - s.sess.bytesDone).toNat →
    (s.abortReq = false → internalStep s = .next { s with
      act := .wsrc, srcPending := true
      port.out := s.port.out ++ [.srcReq ⟨s.sess.filePtr, s.sess.bytesDone, n⟩] }) ∧
    (s.abortReq = true → internalStep s = .next (s.fail .aborted 0#32 0#32))) ∧
  (∀ (s : State) (d f : List Byte) (n : Nat), s.phase = .transferringFile → s.xsub = .chunks →
    s.act = .wsrc → s.srcPending = true →
    n = min s.cfg.chunkSize (s.sess.curSize - s.sess.bytesDone).toNat → d.length = n →
    f = encodeFrame s.cfg s.cfg.cmdFileData (bytes16 s.sess.chunkIdx ++ bytes16 (BitVec.ofNat 16 n) ++ d) →
    runEvent (.srcResp d) s = .next { s with
      srcPending := false, port.out := s.port.out ++ [.frame f], txbuf := f, sess.txN := BitVec.ofNat 16 n
      act := .wrsp, parser.hc := 0#3, parser.pcnt := 0#16, frTimer := s.conf.frTimeout })

/-! ### The timers (spec/41_session.md section 5) -/

/-- R316: what a tick does: the handshake budget in the handshake phases, the frame timer in the other frame waits,
nothing anywhere else. -/
def Obligations.TickRunsOneTimer : Prop :=
  ∀ s : State, s.cfg.legal = true →
    (s.phase = .awaitingHandshake ∨ s.phase = .sendingHandshake →
      (2 ≤ s.hsTimer.toNat → runEvent .tick s = .next { s with hsTimer := s.hsTimer - 1#32 }) ∧
      (s.hsTimer.toNat < 2 →
        (s.act = .wreq ∨ s.act = .wrsp → s.parser.hc.toNat < 6 →
          runEvent .tick s = .next (State.fail .handshakeTimeout 6#32 (s.parser.hc.setWidth 32) { s with hsTimer := 0#32 })) ∧
        (s.act = .wreq ∨ s.act = .wrsp → 6 ≤ s.parser.hc.toNat →
          runEvent .tick s = .next (State.fail .handshakeTimeout (s.parser.plen.setWidth 32) (s.parser.pcnt.setWidth 32)
            { s with hsTimer := 0#32 })) ∧
        (s.act ≠ .wreq → s.act ≠ .wrsp →
          runEvent .tick s = .next (State.fail .handshakeTimeout 0#32 0#32 { s with hsTimer := 0#32 })))) ∧
    (s.phase ≠ .awaitingHandshake → s.phase ≠ .sendingHandshake → s.act = .wreq ∨ s.act = .wrsp →
      (2 ≤ s.frTimer.toNat → runEvent .tick s = .next { s with frTimer := s.frTimer - 1#32 }) ∧
      (s.frTimer.toNat < 2 →
        (s.phase = .transferringFile → s.xsub = .chunks → s.conf.ctrl.getLsbD 1 = false →
          runEvent .tick s = .next (State.fail .transferIncomplete s.sess.curSize s.sess.bytesDone
            { s with frTimer := 0#32 })) ∧
        (¬ (s.phase = .transferringFile ∧ s.xsub = .chunks ∧ s.conf.ctrl.getLsbD 1 = false) → s.parser.hc.toNat < 6 →
          runEvent .tick s = .next (State.fail .shortRead 6#32 (s.parser.hc.setWidth 32) { s with frTimer := 0#32 })) ∧
        (¬ (s.phase = .transferringFile ∧ s.xsub = .chunks ∧ s.conf.ctrl.getLsbD 1 = false) → 6 ≤ s.parser.hc.toNat →
          runEvent .tick s = .next (State.fail .shortRead (s.parser.plen.setWidth 32) (s.parser.pcnt.setWidth 32)
            { s with frTimer := 0#32 })))) ∧
    (s.phase ≠ .awaitingHandshake → s.phase ≠ .sendingHandshake → s.act ≠ .wreq → s.act ≠ .wrsp →
      runEvent .tick s = .next s)

/-- R317: a running timer loaded with `n` counts down one per tick and ends the session at the `n`-th tick, or at the
first when `n` is 0. -/
def Obligations.TimerExpiresOnNthTick : Prop :=
  ∀ (s : State) (es : List Event) (n k : Nat), s.cfg.legal = true →
    s.port.events = List.replicate k .tick ++ es →
    (s.phase.handshake = true → s.hsTimer.toNat = n →
      (k < max n 1 → Host.Core.run Sys2Proof.core k s =
        .next { s with port.events := es, hsTimer := BitVec.ofNat 32 (n - k) }) ∧
      (k = max n 1 → Host.Core.run Sys2Proof.core k s =
        .next (handshakeExpiry { s with port.events := es, hsTimer := 0#32 }))) ∧
    (s.phase.handshake = false → s.act.waits = true → s.frTimer.toNat = n →
      (k < max n 1 → Host.Core.run Sys2Proof.core k s =
        .next { s with port.events := es, frTimer := BitVec.ofNat 32 (n - k) }) ∧
      (k = max n 1 → Host.Core.run Sys2Proof.core k s =
        .next (frameExpiry { s with port.events := es, frTimer := 0#32 }))) ∧
    (handshakeExpiry s).phase = .failed ∧ (frameExpiry s).phase = .failed

/-- R318: the handshake budget is loaded by START, runs on every tick of a handshake phase whatever `act` is, ends the
session when it runs out, and nothing else but a reset writes it. -/
def Obligations.HandshakeBudgetOnlyRunsDown : Prop :=
  (∀ s t : State, step s = .next t →
    t.hsTimer = s.hsTimer ∨
    ((∃ es, s.port.events = .tick :: es) ∧ s.phase.handshake = true) ∨
    ((∃ v es, s.port.events = .hostWrite 4 0x0004#16 v :: es ∧ v.extractLsb' 0 8 = 0x01#8) ∧ s.phase.active = false ∧
      t.hsTimer = s.conf.hsTimeout) ∨
    ((∃ u es, s.port.events = .reset u :: es) ∧ t.hsTimer = 0#32)) ∧
  (∀ s t : State, exec .start s = .next t → s.phase.active = false → t.hsTimer = s.conf.hsTimeout) ∧
  (∀ s : State, s.cfg.legal = true → s.phase = .awaitingHandshake ∨ s.phase = .sendingHandshake →
    (tickStep s).hsTimer = (if s.hsTimer = 0#32 then 0#32 else s.hsTimer - 1#32) ∧
    ((tickStep s).hsTimer ≠ 0#32 → (tickStep s).phase = s.phase) ∧
    ((tickStep s).hsTimer = 0#32 →
      (tickStep s).phase = .failed ∧ (tickStep s).err.failCause = .handshakeTimeout ∧
      (s.act ≠ .wreq → s.act ≠ .wrsp → (tickStep s).err.errExp = 0#32 ∧ (tickStep s).err.errObs = 0#32) ∧
      (s.act = .wreq ∨ s.act = .wrsp → s.parser.hc.toNat < 6 →
        (tickStep s).err.errExp = 6#32 ∧ (tickStep s).err.errObs = s.parser.hc.setWidth 32) ∧
      (s.act = .wreq ∨ s.act = .wrsp → 6 ≤ s.parser.hc.toNat →
        (tickStep s).err.errExp = s.parser.plen.setWidth 32 ∧
        (tickStep s).err.errObs = s.parser.pcnt.setWidth 32)))

/-- 41_session.md section 5 and 40_codec.md section 4: outside the handshake phases the frame timer is loaded when a
frame wait is entered and when a header with a payload is complete. Over all steps it changes only by such a load (a
request frame answered in WREQ re-enters the wait; WRSP and WREQ are entered from an activity that is no wait; a byte
completes a header), by a tick in a frame wait, and to 0 by START and a reset. -/
def Obligations.FrameTimerLoads : Prop :=
  (∀ (s : State) (a : Act), a = .wreq ∨ a = .wrsp → s.phase.handshake = false → (s.enter a).act = a →
    (s.enter a).frTimer = s.conf.frTimeout) ∧
  (∀ (s : State) (b : Byte), s.cfg.legal = true →
    s.parser.hc = 5#3 → le16 (s.parser.hdr.set 5 b).bytes 0 = s.cfg.magic →
    le16 (s.parser.hdr.set 5 b).bytes 3 ≠ 0#16 →
    (parseByte b s).1.frTimer = if s.phase.handshake then s.frTimer else s.conf.frTimeout) ∧
  (∀ s t : State, step s = .next t →
    t.frTimer = s.frTimer ∨
    (t.frTimer = s.conf.frTimeout ∧ t.phase.handshake = false ∧
      ((s.act.waits = true ∧ t.act = .wreq ∧ (∃ es, s.port.events = .rxByte :: es) ∧
          t.parser.hc = 0#3 ∧ t.parser.pcnt = 0#16) ∨
        (s.act.waits = false ∧ t.act.waits = true ∧ t.parser.hc = 0#3 ∧ t.parser.pcnt = 0#16) ∨
        (s.act.waits = true ∧ t.act = s.act ∧ (∃ es, s.port.events = .rxByte :: es) ∧
          s.parser.hc = 5#3 ∧ t.parser.hc = 6#3 ∧ t.parser.pcnt = 0#16))) ∨
    ((∃ es, s.port.events = .tick :: es) ∧ s.phase.handshake = false ∧ s.act.waits = true ∧
      t.frTimer = tickDown s.frTimer) ∨
    (t.frTimer = 0#32 ∧ s.phase.active = false ∧
      ∃ v es, s.port.events = .hostWrite 4 0x0004#16 v :: es ∧ v.extractLsb' 0 8 = 0x01#8) ∨
    (t.frTimer = 0#32 ∧ ∃ u es, s.port.events = .reset u :: es))

/-! ### The host interface (spec/10_state.md sections 8 and 11, 46_host_commands.md section 1) -/

/-- R78, R82, R83, R502: a host read answers the register's value, and changes nothing; with the 64-byte name slots of
this hardware, which the map of 10_state.md R75 is written for. The numbers in the fields of `STATUS` are those of
10_state.md R52 (`phase`), R53 (`act`) and R54 (`xsub`) and of 60_exceptions.md R600 (the error codes). -/
def Obligations.HostReadAnswersRegister : Prop :=
  [Phase.idle, .awaitingHandshake, .sendingHandshake, .handshakeDone, .awaitingFileList, .sendingFileList,
    .transferringFile, .done, .failed].map Phase.code = [0#4, 1#4, 2#4, 3#4, 4#4, 5#4, 6#4, 7#4, 8#4] ∧
  [Act.none, .txreq, .wreq, .wrsp, .wsrc, .whost, .adv].map Act.code = [0#3, 1#3, 2#3, 3#3, 4#3, 5#3, 6#3] ∧
  [XSub.info, .chunks].map xsubCode = [0#1, 1#1] ∧
  [ErrCode.none, .badMagic, .shortRead, .checksumMismatch, .unexpectedCommand, .sequenceMismatch, .handshakeTimeout,
    .transferIncomplete, .malformed, .aborted].map ErrCode.code =
      [0#4, 1#4, 2#4, 3#4, 4#4, 5#4, 6#4, 7#4, 8#4, 9#4] ∧
  ∀ (s : State) (a : BitVec 16), s.cfg.legal = true → s.cfg.nameSlot = 64 → a.toNat % 4 = 0 →
    ∃ v : Word,
      runEvent (.hostRead 4 a) s = .next { s with port.out := s.port.out ++ [.hostRead a v] } ∧
      (a = 0x0000#16 → v = s.conf.ctrl.setWidth 32) ∧
      (a = 0x0004#16 → v = 0#32) ∧
      (a = 0x0008#16 →
        v.extractLsb' 0 4 = s.phase.code ∧ v.extractLsb' 4 1 = xsubCode s.xsub ∧ v.extractLsb' 5 3 = s.act.code ∧
        v.extractLsb' 8 1 = BitVec.ofBool s.linkOwned ∧ v.extractLsb' 9 1 = BitVec.ofBool s.abortReq ∧
        v.extractLsb' 10 2 = 0#2 ∧ v.extractLsb' 12 4 = s.err.failCause.code ∧
        v.extractLsb' 16 4 = s.err.lastErr.code ∧ v.extractLsb' 20 4 = s.err.failPhase.code ∧ v.extractLsb' 24 8 = 0#8) ∧
      (a = 0x000C#16 → v = s.irqStatus.setWidth 32) ∧
      (a = 0x0010#16 → v = s.irqEnable.setWidth 32) ∧
      (a = 0x0014#16 → v = s.conf.txVersion.setWidth 32) ∧
      (a = 0x0018#16 → v = s.conf.txTimestamp) ∧
      (a = 0x001C#16 → v = s.sess.rxVersion.setWidth 32) ∧
      (a = 0x0020#16 → v = s.sess.rxTimestamp) ∧
      (a = 0x0024#16 → v = s.conf.hsTimeout) ∧
      (a = 0x0028#16 → v = s.conf.frTimeout) ∧
      (a = 0x002C#16 → v = s.conf.descCount.setWidth 32) ∧
      (a = 0x0030#16 → v = s.sess.pendCount.setWidth 32) ∧
      (a = 0x0034#16 → v = s.sess.filePtr.setWidth 32) ∧
      (a = 0x0038#16 → v = s.sess.curIndex.setWidth 32) ∧
      (a = 0x003C#16 → v = s.sess.curSize) ∧
      (a = 0x0040#16 → v = s.sess.bytesDone) ∧
      (a = 0x0044#16 → v = s.sess.chunkIdx.setWidth 32) ∧
      (a = 0x0048#16 → v = s.err.errExp) ∧
      (a = 0x004C#16 → v = s.err.errObs) ∧
      (a = 0x0050#16 → v = s.hsTimer) ∧
      (a = 0x0054#16 → v = s.frTimer) ∧
      (a = 0x0058#16 →
        v.extractLsb' 0 16 = (if s.parser.hc.toNat < 6 then s.parser.hc.setWidth 16 else s.parser.pcnt) ∧
        v.extractLsb' 16 1 = (if s.parser.hc.toNat < 6 then 0#1 else 1#1) ∧ v.extractLsb' 17 15 = 0#15) ∧
      (∀ off, a.toNat = 0x100 + off → off < 0x40 →
        ∀ k, k < 4 → v.extractLsb' (8 * k) 8 = Memory.read s.curname (off + k)) ∧
      (∀ off, a.toNat = 0x1000 + off → off < 0x50 * 255 → off % 0x50 < 0x44 →
        ∀ k, k < 4 → v.extractLsb' (8 * k) 8 = Memory.read s.desc (off + k)) ∧
      (∀ off, a.toNat = 0x1000 + off → off < 0x50 * 255 → off % 0x50 = 0x44 →
        v = (Memory.read s.desc off).setWidth 32) ∧
      (∀ off, a.toNat = 0x1000 + off → off < 0x50 * 255 → 0x44 < off % 0x50 → v = 0#32) ∧
      (∀ off, a.toNat = 0x8000 + off → off < 0x40 * 255 →
        ∀ k, k < 4 → v.extractLsb' (8 * k) 8 = Memory.read s.rxname (off + k)) ∧
      ((0x05C ≤ a.toNat ∧ a.toNat < 0x100) ∨ (0x140 ≤ a.toNat ∧ a.toNat < 0x1000) ∨
        (0x5FB0 ≤ a.toNat ∧ a.toNat < 0x8000) ∨ 0xBFC0 ≤ a.toNat → v = 0#32)

/-- R74, R501: a host write. At `CMD` it is the command its code names, or nothing; the status bits clear on 1, the
enable bits are never locked, a configuration location is written only while no session is active, and every other
location ignores it; with the 64-byte name slots of this hardware, which the map of 10_state.md R75 is written for. -/
def Obligations.HostWriteStoresOrIgnores : Prop :=
  ∀ (s : State) (a : BitVec 16) (v : Word), s.cfg.legal = true → s.cfg.nameSlot = 64 → a.toNat % 4 = 0 →
    (a = 0x0004#16 →
      (∀ i, decodeCommand v = .ok i → runEvent (.hostWrite 4 a v) s = exec i s) ∧
      (v.extractLsb' 0 8 ≠ 0x01#8 → v.extractLsb' 0 8 ≠ 0x02#8 → v.extractLsb' 0 8 ≠ 0x03#8 →
        runEvent (.hostWrite 4 a v) s = .next s)) ∧
    (a = 0x000C#16 → runEvent (.hostWrite 4 a v) s =
      .next { s with irqStatus := s.irqStatus &&& ~~~(v.extractLsb' 0 5) }) ∧
    (a = 0x0010#16 → runEvent (.hostWrite 4 a v) s = .next { s with irqEnable := v.extractLsb' 0 5 }) ∧
    (s.phase ≠ .idle → s.phase ≠ .done → s.phase ≠ .failed → a ≠ 0x0004#16 → a ≠ 0x000C#16 → a ≠ 0x0010#16 →
      runEvent (.hostWrite 4 a v) s = .next s) ∧
    (s.phase = .idle ∨ s.phase = .done ∨ s.phase = .failed →
      (a = 0x0000#16 → runEvent (.hostWrite 4 a v) s = .next { s with conf.ctrl := v.extractLsb' 0 3 }) ∧
      (a = 0x0014#16 → runEvent (.hostWrite 4 a v) s = .next { s with conf.txVersion := v.extractLsb' 0 8 }) ∧
      (a = 0x0018#16 → runEvent (.hostWrite 4 a v) s = .next { s with conf.txTimestamp := v }) ∧
      (a = 0x0024#16 → runEvent (.hostWrite 4 a v) s = .next { s with conf.hsTimeout := v }) ∧
      (a = 0x0028#16 → runEvent (.hostWrite 4 a v) s = .next { s with conf.frTimeout := v }) ∧
      (a = 0x002C#16 → runEvent (.hostWrite 4 a v) s = .next { s with conf.descCount := v.extractLsb' 0 8 }) ∧
      (∀ off, a.toNat = 0x1000 + off → off < 0x50 * 255 → off % 0x50 < 0x44 → Memory.wf s.desc →
        ∃ m : Memory, Memory.wf m ∧
          (∀ k, k < 4 → Memory.read m (off + k) = v.extractLsb' (8 * k) 8) ∧
          (∀ x, x < off ∨ off + 4 ≤ x → Memory.read m x = Memory.read s.desc x) ∧
          runEvent (.hostWrite 4 a v) s = .next { s with desc := m }) ∧
      (∀ off, a.toNat = 0x1000 + off → off < 0x50 * 255 → off % 0x50 = 0x44 → Memory.wf s.desc →
        ∃ m : Memory, Memory.wf m ∧ Memory.read m off = v.extractLsb' 0 8 ∧
          (∀ x, x ≠ off → Memory.read m x = Memory.read s.desc x) ∧
          runEvent (.hostWrite 4 a v) s = .next { s with desc := m }) ∧
      (∀ off, a.toNat = 0x1000 + off → off < 0x50 * 255 → 0x44 < off % 0x50 →
        runEvent (.hostWrite 4 a v) s = .next s) ∧
      (a = 0x0008#16 ∨ a = 0x001C#16 ∨ a = 0x0020#16 ∨ (0x030 ≤ a.toNat ∧ a.toNat < 0x1000) ∨
          0x5FB0 ≤ a.toNat →
        runEvent (.hostWrite 4 a v) s = .next s))

/-- R155: a host access that is not a 32-bit access at a 4-byte-aligned address is refused, and every other one is
not; the bytes of a word are little-endian, read and written. -/
def Obligations.HostAccessFormIsChecked : Prop :=
  ∀ (s : State) (w : Nat) (a : BitVec 16) (v : Word),
    (w ≠ 4 ∨ a.toNat % 4 ≠ 0 →
      runEvent (.hostWrite w a v) s = .refused .hostAccessForm ∧ runEvent (.hostRead w a) s = .refused .hostAccessForm) ∧
    (w = 4 → a.toNat % 4 = 0 →
      (∃ t, runEvent (.hostWrite w a v) s = .next t) ∧ (∃ t, runEvent (.hostRead w a) s = .next t)) ∧
    (∀ (m : Memory) (x k : Nat), k < 4 → (Memory.readWord m x).extractLsb' (8 * k) 8 = Memory.read m (x + k)) ∧
    (∀ (m : Memory) (x k : Nat), Memory.wf m → k < 4 →
      Memory.read (Memory.writeWord m x v) (x + k) = v.extractLsb' (8 * k) 8)

/-- Where the machine stops by name. The meaning of a frame outside the two frame waits, where the spec says no frame
is received (30_encoding.md section 9); that it is refused is the model's choice (assumption log 10). A `SrcResp` that
answers no outstanding request, or has another number of bytes (46_host_commands.md section 6,
93_implementation_defined.md section 3); that one with `src_pending` = 1 but `act` not WSRC, which no run reaches, is refused
too is the model's reading (DEDUCED, assumption log 21). A descriptor beyond entry 254 (10_state.md section 11; assumption log 20). -/
def Obligations.StopsAreByName : Prop :=
  (∀ (s : State) (i : Instr) (cmd : Byte), s.act ≠ .wreq → s.act ≠ .wrsp → i.code s.cfg = some cmd →
    exec i s = .refused .frameOutsideWait) ∧
  (∀ (s : State) (d : List Byte),
    s.srcPending = false ∨ s.act ≠ .wsrc ∨
      d.length ≠ min s.cfg.chunkSize (s.sess.curSize - s.sess.bytesDone).toNat →
    runEvent (.srcResp d) s = .refused .srcRespForm) ∧
  (∀ s : State, s.cfg.legal = true →
    s.phase = .transferringFile → s.xsub = .info → s.act = .txreq → s.sess.filePtr = 0xFF#8 →
    internalStep s = .fault .noSuchAddress)

/-- R72: `irq` is the level of an enabled status bit; a status bit stays set until a host write of 1 to it or a reset;
entering DONE, FAILED and WHOST, completing a file and recording a recoverable error set their bits. -/
def Obligations.InterruptLevelAndClear : Prop :=
  (∀ s : State, s.irqLevel = true ↔
    ∃ k, k < 5 ∧ s.irqStatus.getLsbD k = true ∧ s.irqEnable.getLsbD k = true) ∧
  (∀ (s t : State) (k : Nat), step s = .next t → k < 5 → s.irqStatus.getLsbD k = true → t.irqStatus.getLsbD k = false →
    (∃ v es, s.port.events = .hostWrite 4 0x000C#16 v :: es ∧ v.getLsbD k = true) ∨
    (∃ u es, s.port.events = .reset u :: es)) ∧
  (∀ s t : State, step s = .next t →
    (s.phase ≠ .done → t.phase = .done → t.irqStatus.getLsbD 0 = true) ∧
    (s.phase ≠ .failed → t.phase = .failed → t.irqStatus.getLsbD 1 = true) ∧
    (s.act ≠ .whost → t.act = .whost → t.irqStatus.getLsbD 2 = true) ∧
    (s.irqStatus.getLsbD 0 = false → t.irqStatus.getLsbD 0 = true → t.phase = .done) ∧
    (s.irqStatus.getLsbD 1 = false → t.irqStatus.getLsbD 1 = true → t.phase = .failed)) ∧
  (∀ s : State, s.fileComplete.irqStatus.getLsbD 3 = true ∧
    ∀ (code : ErrCode) (e o : Word), (s.recover code e o).irqStatus.getLsbD 4 = true)

/-! ### Reset (spec/70_reset_and_hazards.md section 1, 10_state.md section 13) -/

/-- 10_state.md section 13 and 70_reset_and_hazards.md section 1: a reset gives every register its reset value in one step
from any state, takes the unspecified contents from the environment, and leaves what was sent and what was not yet received.
The environment can choose
every content of `DESC`, `RXNAME` and `PAYBUF` ("any value", 70_reset_and_hazards.md R702): every memory in canonical form
inside the space. It gives it as a list of cells, which is the model's choice and no rule of the spec (assumption log 5): a byte the space has reads as
its first cell says, and a cell at an address the space does not have names nothing. With name slots of 64 bytes the bytes a
`DESC` entry has are NAME, SIZE and INDEX [7:0] (R101). -/
def Obligations.ResetRestoresResetValues : Prop :=
  ∀ (s : State) (u : PowerUp) (es : List Event), s.cfg.legal = true → s.port.events = .reset u :: es →
    step s = .next
      { cfg := s.cfg
        conf := ⟨0#3, 0x01#8, 0#32, s.cfg.hsTimeoutReset, s.cfg.frTimeoutReset, 0#8⟩
        desc := Memory.ofCells (descImplemented s.cfg) u.desc, phase := .idle, act := .none, xsub := .info
        sess := ⟨0#8, 0#8, 0#8, 0#32, 0#32, 0#16, 0#8, 0#32, 0#16⟩
        curname := [], rxname := Memory.ofCells (rxnameImplemented s.cfg) u.rxname, txbuf := u.txbuf
        parser := ⟨0#3, u.hdr, 0#16, u.plen, u.pcmd, u.pcsum, Memory.ofCells (paybufImplemented s.cfg) u.paybuf⟩
        hsTimer := 0#32, frTimer := 0#32, abortReq := false, linkOwned := false, srcPending := false
        err := ⟨.none, .idle, .none, 0#32, 0#32⟩, irqStatus := 0#5, irqEnable := 0#5
        port := { s.port with events := es } } ∧
    (∀ a, Memory.read [] a = 0#8) ∧
    (∀ (space : Nat → Bool) (m : Memory), Memory.wf m → (∀ c ∈ m, space c.1 = true) → Memory.ofCells space m = m) ∧
    (∀ (space : Nat → Bool) (cells : List Host.Cell),
      (∀ a c, space a = true → cells.find? (fun d => d.1 = a) = some c → Memory.read (Memory.ofCells space cells) a = c.2) ∧
      ∀ c ∈ Memory.ofCells space cells, space c.1 = true) ∧
    (s.cfg.nameSlot = 64 → ∀ a,
      (descImplemented s.cfg a = true ↔ a < 0x50 * 255 ∧ a % 0x50 ≤ 0x44) ∧
      (rxnameImplemented s.cfg a = true ↔ a < 0x40 * 255) ∧ (paybufImplemented s.cfg a = true ↔ a < 65535))

/-- The state right after reset has every reset value 10_state.md section 13 gives, meets every invariant, and its
parameters are the values of 00_scope.md section 3. The contents that section leaves unspecified (`DESC`, `RXNAME`, `txbuf`,
`hdr`, `plen`, `pcmd`, `pcsum`, `PAYBUF`) are the model's choice (assumption log 5, 6): of them only the canonical form is
stated. -/
def Obligations.ResetStateMeetsInvariants : Prop :=
  State.reset.cfg =
    { magic := 0xAA55#16, cmdHandshake := 1#8, cmdFileList := 2#8, cmdFileData := 3#8, cmdFileEnd := 4#8, cmdAck := 5#8
      cmdNack := 6#8, hdrBytes := 6, maxPayload := 65535, nameSlot := 64, maxFiles := 255, chunkSize := 512
      separators := [0x2F#8, 0x5C#8], tickHz := 1000, hsTimeoutReset := 30000#32, frTimeoutReset := 5000#32
      registerBits := 32, hostAddressBits := 16, sizeBits := 32, chunkIndexBits := 16 } ∧
  State.reset.conf = ⟨0#3, 0x01#8, 0#32, 30000#32, 5000#32, 0#8⟩ ∧
  State.reset.phase = .idle ∧ State.reset.act = .none ∧ State.reset.xsub = .info ∧
  State.reset.sess = ⟨0#8, 0#8, 0#8, 0#32, 0#32, 0#16, 0#8, 0#32, 0#16⟩ ∧
  (∀ a, Memory.read State.reset.curname a = 0#8) ∧
  State.reset.parser.hc = 0#3 ∧ State.reset.parser.pcnt = 0#16 ∧
  State.reset.hsTimer = 0#32 ∧ State.reset.frTimer = 0#32 ∧
  State.reset.abortReq = false ∧ State.reset.linkOwned = false ∧ State.reset.srcPending = false ∧
  State.reset.err = ⟨.none, .idle, .none, 0#32, 0#32⟩ ∧
  State.reset.irqStatus = 0#5 ∧ State.reset.irqEnable = 0#5 ∧ State.reset.irqLevel = false ∧
  State.reset.cfg.legal = true ∧ State.reset.controlInv = true ∧ State.reset.countersInv = true ∧
  State.reset.parser.consistent State.reset.cfg = true ∧ State.reset.parserIdle = true ∧ State.reset.memoryInv ∧
  State.reset.requestInv = true ∧ State.reset.requestSent = true ∧ State.reset.splitterInv = true ∧ State.reset.assemblerInv = true

/-! ### Rules of the whole machine -/

/-- Tier 3. 41_session.md section 1 (R301, derived there): the engine is always in a legal triple, at an end that can
be there, and the latches and the failure cause agree with the phase. -/
def Obligations.LegalControlStateIsKept : Prop :=
  ∀ s t : State, step s = .next t → s.controlInv = true → t.controlInv = true

/-- 10_state.md section 4 and 40_codec.md section 4: the parser's count and fields agree with its stage. In the header stage
nothing of a payload is counted, and any header bytes may be held (R261, R271). In the payload stage the header held is
complete and has the right magic, its fields are the parser's, and fewer payload bytes than its length are counted. -/
def Obligations.ParserStaysConsistent : Prop :=
  ∀ s t : State, step s = .next t → s.parser.consistent s.cfg = true → t.parser.consistent t.cfg = true

/-- 20_memory.md section 1: every byte space keeps its canonical form and lists no byte outside itself. -/
def Obligations.MemoriesStayCanonical : Prop :=
  ∀ s t : State, step s = .next t → s.memoryInv → t.memoryInv

/-- Tier 3. 10_state.md section 3 and 44_transfer.md section 1: `bytes_done` never exceeds `cur_size`, `file_ptr`
never exceeds `pend_count`, and a file being transferred is unfinished. -/
def Obligations.CountersStayInRange : Prop :=
  ∀ s t : State, step s = .next t → s.controlInv = true → s.countersInv = true → t.countersInv = true

/-- Tier 3. 10_state.md section 3 and 46_host_commands.md section 4: while an answer or the host is awaited, `txbuf`
is exactly the frame of the outstanding request, and it is the last frame the engine has put on the transmit port (R62), so
that RETRY re-emits that request unchanged. The second clause ties the data of a chunk to the data sent. -/
def Obligations.OutstandingRequestIsKept : Prop :=
  (∀ s t : State, step s = .next t → s.controlInv = true → s.requestInv = true → t.requestInv = true) ∧
  ∀ s t : State, step s = .next t → s.requestSent = true → t.requestSent = true

/-- Tier 3. 44_transfer.md section 3 (R455, derived there): a sender is always a whole number of chunks into its file,
and the next chunk has the index and the size of the splitter law. -/
def Obligations.SplitterLawIsKept : Prop :=
  ∀ s t : State, step s = .next t → s.controlInv = true → s.countersInv = true → s.splitterInv = true → t.splitterInv = true

/-- 44_transfer.md section 3 (R455, derived there): the chunk whose ACK completes a file is number ⌈S/C⌉ and has the
last chunk's size. -/
def Obligations.LastChunkCompletesFile : Prop :=
  ∀ s : State, s.cfg.legal = true → s.controlInv = true → s.countersInv = true → s.splitterInv = true →
    s.phase = .transferringFile → s.xsub = .chunks → s.act = .wrsp →
    s.sess.bytesDone.toNat + s.sess.txN.toNat = s.sess.curSize.toNat →
      ∃ t, exec (.ack []) s = .next t ∧ t.sess.bytesDone = s.sess.curSize ∧ t.sess.filePtr = s.sess.filePtr + 1#8 ∧
        t.sess.chunkIdx =
          BitVec.ofNat 16 ((s.sess.curSize.toNat + s.cfg.chunkSize - 1) / s.cfg.chunkSize) ∧
        s.sess.txN.toNat =
          if s.sess.curSize.toNat % s.cfg.chunkSize = 0 then s.cfg.chunkSize
          else s.sess.curSize.toNat % s.cfg.chunkSize

/-- Tier 3. 44_transfer.md section 3 (R458, derived there): in the sink stream every ended file has exactly the
announced number of bytes between its start and its end, and the file being received has `bytes_done` of them. -/
def Obligations.AssemblerLawIsKept : Prop :=
  ∀ s t : State, step s = .next t → s.controlInv = true → s.countersInv = true → s.memoryInv →
    s.assemblerInv = true → t.assemblerInv = true

/-- Under the invariants no step faults, and a step is refused exactly for parameters that are not legal or an event
the spec does not define: a host access of another form (20_memory.md section 2; 93_implementation_defined.md section 3) or
a `SrcResp` that answers no outstanding request, where asking for `act` = WSRC beside `src_pending` is the model's
(46_host_commands.md section 6; assumption log 21).
Which parameters are legal is stated too. The spec itself refuses only a `CHUNK_SIZE` outside 1..65531
(93_implementation_defined.md I38). That the command codes must differ, which name slots are taken, that a layout value must be
the one of 00_scope.md R10, and that `step` refuses any other, are the model's choices (assumption log 4, 25). `MAGIC`, the
separators, `TICK_HZ` and the two timeouts are free. -/
def Obligations.NoFaultAndNoOtherRefusal : Prop :=
  ∀ s : State,
    (s.inv = true → ∀ f, step s ≠ .fault f) ∧
    ((∃ r, step s = .refused r) ↔
      s.cfg.legal = false ∨ ∃ e es, s.port.events = e :: es ∧ State.accepts { s with port.events := es } e = false) ∧
    (s.cfg.legal = true ↔
      [s.cfg.cmdHandshake, s.cfg.cmdFileList, s.cfg.cmdFileData, s.cfg.cmdFileEnd, s.cfg.cmdAck, s.cfg.cmdNack].Nodup ∧
      (1 ≤ s.cfg.chunkSize ∧ s.cfg.chunkSize ≤ 65531) ∧
      (s.cfg.nameSlot % 4 = 0 ∧ 4 ≤ s.cfg.nameSlot ∧ s.cfg.nameSlot ≤ 96) ∧
      s.cfg.hdrBytes = 6 ∧ s.cfg.maxPayload = 65535 ∧ s.cfg.maxFiles = 255 ∧ s.cfg.registerBits = 32 ∧
      s.cfg.hostAddressBits = 16 ∧ s.cfg.sizeBits = 32 ∧ s.cfg.chunkIndexBits = 16)

/-- 10_state.md section 8 and 20_memory.md section 5 (R165, derived there): while a session is active no step but a
reset changes the configuration or the descriptors. -/
def Obligations.ConfigurationIsLockedInSession : Prop :=
  ∀ s t : State, step s = .next t → s.phase.active = true → (∀ u es, s.port.events ≠ .reset u :: es) →
    t.conf = s.conf ∧ t.desc = s.desc

/-- 43_file_list.md (R386, derived there): once the transfer runs, the number of files and their names are fixed, and
a second FILE_LIST ends the session. -/
def Obligations.FileSequenceIsFixed : Prop :=
  (∀ s t : State, step s = .next t → s.controlInv = true → s.phase = .transferringFile →
    (∀ u es, s.port.events ≠ .reset u :: es) → t.sess.pendCount = s.sess.pendCount ∧ t.rxname = s.rxname) ∧
  (∀ (s : State) (p : List Byte), s.cfg.codes = Config.default.codes → s.phase = .transferringFile → s.act = .wreq →
    exec (.fileList p) s =
      .next (s.respondNack.fail .unexpectedCommand 0x00000018#32 0x00000002#32))

/-- 45_flow_control.md (R470, derived there) and 10_state.md section 9: a step emits at most one frame, after its sink
events; in a wait for a request it is an ACK or NACK, and there is exactly one for each byte that ends a frame there and
none for any other step; a request leaves only from TXREQ, WSRC or WHOST, is kept, and is followed by the wait for its
answer, in which nothing is sent. -/
def Obligations.ExchangesAreLockStep : Prop :=
  ∀ s t : State, step s = .next t →
    ∃ (sinks : List SinkEvent) (frames : List (List Byte)) (others : List Output),
      t.port.out = s.port.out ++ sinks.map .sink ++ frames.map .frame ++ others ∧
      (∀ o ∈ others, (∃ a v, o = .hostRead a v) ∨ ∃ r, o = .srcReq r) ∧
      frames.length ≤ 1 ∧
      (sinks ≠ [] → s.act = .wreq ∧ s.phase = .transferringFile) ∧
      (s.act = .wreq → (frames.length = 1 ↔
        ∃ b q es, s.port.events = .rxByte :: es ∧ s.port.rxq = b :: q ∧ s.linkOwned = true ∧
          (parseByte b s).2.isSome = true)) ∧
      ∀ f ∈ frames,
        (s.act = .wreq ∧ (∃ es, s.port.events = .rxByte :: es) ∧
          (f = encodeFrame s.cfg s.cfg.cmdAck [] ∨ f = encodeFrame s.cfg s.cfg.cmdNack [])) ∨
        ((s.act = .txreq ∨ s.act = .wsrc ∨ s.act = .whost) ∧ t.act = .wrsp ∧ t.txbuf = f)

/-- R452: the engine never sends FILE_END; every frame it sends is the encoding of another instruction. -/
def Obligations.NeverSendsFileEnd : Prop :=
  ∀ (s t : State) (f : List Byte), step s = .next t →
    s.controlInv = true → s.countersInv = true → s.requestInv = true → s.splitterInv = true →
    (∃ l, t.port.out = s.port.out ++ l ∧ .frame f ∈ l) →
      byteAt f 2 ≠ s.cfg.cmdFileEnd ∧
      ∃ i : Instr, i.fits s.cfg = true ∧ encode s.cfg i = .frame f ∧ ∀ p, i ≠ .fileEnd p

/-- 41_session.md section 6 (R320, derived there): the only changes of phase a step makes. -/
def Obligations.PhasesFollowTheArcs : Prop :=
  ∀ s t : State, step s = .next t → s.controlInv = true → s.phase ≠ t.phase →
    (t.phase = .failed ∧ s.phase.active = true) ∨
    (t.phase = .idle ∧ ∃ u es, s.port.events = .reset u :: es) ∨
    (s.phase.active = false ∧ t.phase = .awaitingHandshake ∧ t.act = .wreq ∧ s.conf.initiator = false) ∨
    (s.phase.active = false ∧ t.phase = .sendingHandshake ∧ t.act = .txreq ∧ s.conf.initiator = true) ∨
    (s.phase = .awaitingHandshake ∧ t.phase = .handshakeDone) ∨
    (s.phase = .sendingHandshake ∧ t.phase = .handshakeDone) ∨
    (s.phase = .handshakeDone ∧ t.phase = .awaitingFileList ∧ s.conf.single = false ∧ s.conf.send = false) ∨
    (s.phase = .handshakeDone ∧ t.phase = .sendingFileList ∧ s.conf.single = false ∧ s.conf.send = true) ∨
    (s.phase = .handshakeDone ∧ t.phase = .transferringFile ∧ t.xsub = .info ∧ s.conf.single = true) ∨
    (s.phase = .awaitingFileList ∧ t.phase = .transferringFile ∧ t.xsub = .info) ∨
    (s.phase = .awaitingFileList ∧ t.phase = .done ∧ t.sess.pendCount = 0#8) ∨
    (s.phase = .sendingFileList ∧ t.phase = .transferringFile ∧ t.xsub = .info) ∨
    (s.phase = .sendingFileList ∧ t.phase = .done ∧ t.sess.pendCount = 0#8) ∨
    (s.phase = .transferringFile ∧ t.phase = .done ∧ t.sess.filePtr = t.sess.pendCount)

/-- 41_session.md section 7 (R322, derived there), 60_exceptions.md section 3 and 46_host_commands.md section 5:
without a session the engine consumes nothing, sends nothing, ignores ticks and keeps its results, until START or a
reset. A partial frame is not among what it keeps of a failed session: the entry to FAILED empties the parser, which is
the model's reading of 40_codec.md section 4 (DEDUCED, assumption log 24). -/
def Obligations.EngineRestsWithoutSession : Prop :=
  (∀ (s : State) (code : ErrCode) (e o : Word),
    (s.fail code e o).parser = { s.parser with hc := 0#3, pcnt := 0#16 }) ∧
  ∀ s t : State, step s = .next t → s.controlInv = true → s.phase.active = false →
    (∀ u es, s.port.events ≠ .reset u :: es) →
    (∀ v es, s.port.events = .hostWrite 4 0x0004#16 v :: es → v.extractLsb' 0 8 ≠ 0x01#8) →
      t = { s with
        conf := t.conf, desc := t.desc, irqStatus := t.irqStatus, irqEnable := t.irqEnable, port := t.port } ∧
      s.port.rxq <+: t.port.rxq ∧
      ∃ reads : List (BitVec 16 × Word), t.port.out = s.port.out ++ reads.map fun r => .hostRead r.1 r.2

/-- 20_memory.md section 5 (R162): received bytes are consumed from the front of the transport, each once, only by
`RxByte`; what was put out is never changed or reordered. -/
def Obligations.StreamsKeepTheirOrder : Prop :=
  ∀ s t : State, step s = .next t →
    s.port.out <+: t.port.out ∧
    (t.port.rxq = s.port.rxq ∨
      (∃ b es, s.port.events = .peer b :: es ∧ t.port.rxq = s.port.rxq ++ [b]) ∨
      (∃ b es, s.port.events = .rxByte :: es ∧ s.consumes = true ∧ s.port.rxq = b :: t.port.rxq))

/-- Tier 3. 10_state.md sections 3, 4 and 13: the contents R64 calls stale or R105 calls "not observable before written"
(`hdr`, `plen`, `pcmd`, `pcsum` and `PAYBUF` before the parser has written them, `txbuf` while no request is outstanding)
reach no register, no output and no decision: two states that differ only in them stay so, step by step, and stop alike.
`DESC` and `RXNAME`, which R105 leaves unspecified but R395 and R502 send and read, are not among them: both states
agree in those tables. -/
def Obligations.StaleContentsAreNeverObserved : Prop :=
  ∀ s t : State, s.sameButStale t → s.memoryInv → t.memoryInv →
    (∀ s', step s = .next s' → ∃ t', step t = .next t' ∧ s'.sameButStale t') ∧
    (∀ f, step s = .fault f → step t = .fault f) ∧
    (∀ r, step s = .refused r → step t = .refused r)

/-- 40_codec.md section 4 and 93_implementation_defined.md section 1 (I3): a partial frame is discarded with the parser state.
Outside a frame wait the parser holds nothing of a frame, and every step that ends a session in FAILED leaves `hc` and `pcnt`
0 and `PARSER` reading 0, whatever the parser held. That the discarding is `parser_reset()` is the model's reading (DEDUCED,
assumption log 24). -/
def Obligations.PartialFrameIsDiscarded : Prop :=
  (∀ s t : State, step s = .next t → s.controlInv = true → s.parserIdle = true → t.parserIdle = true) ∧
  ∀ s t : State, step s = .next t → s.phase ≠ .failed → t.phase = .failed →
    t.parser.hc = 0#3 ∧ t.parser.pcnt = 0#16 ∧ t.parserView = 0#32

end
end

