-- ==== Sys2Proof/Laws/Codec.lean ====
section
/-! SUPPORT. The laws of the packet codec: lengths, byte order, and where each field of an encoded frame lies. -/

namespace Sys2Proof

/-! ### Byte order -/

@[simp] theorem bytes16_length (v : Half) : (bytes16 v).length = 2 := rfl
@[simp] theorem bytes32_length (v : Word) : (bytes32 v).length = 4 := rfl
@[simp] theorem zeros_length (n : Nat) : (zeros n).length = n := by simp [zeros]

theorem byteAt_of_lt {p : List Byte} {k : Nat} (h : k < p.length) : byteAt p k = p[k] := by
  simp [byteAt, List.getElem?_eq_getElem h]

theorem byteAt_append_left {p q : List Byte} {k : Nat} (h : k < p.length) : byteAt (p ++ q) k = byteAt p k := by
  simp [byteAt, List.getElem?_append_left h]

theorem byteAt_append_right {p q : List Byte} {k : Nat} (h : p.length ≤ k) :
    byteAt (p ++ q) k = byteAt q (k - p.length) := by
  simp [byteAt, List.getElem?_append_right h]

/-- A 16-bit value is its two bytes, low byte first. -/
theorem half_of_bytes (v : Half) :
    (v.extractLsb' 0 8).setWidth 16 ||| ((v.extractLsb' 8 8).setWidth 16 <<< 8) = v := by
  apply BitVec.eq_of_getLsbD_eq
  intro i hi
  simp only [BitVec.getLsbD_or, BitVec.getLsbD_setWidth, BitVec.getLsbD_extractLsb', BitVec.getLsbD_shiftLeft]
  rcases (by omega : i < 8 ∨ 8 ≤ i) with h | h
  · simp [hi, h]
  · simp [hi, show ¬ i < 8 by omega, show i - 8 < 8 by omega, show i - 8 < 16 by omega, show 8 + (i - 8) = i by omega]

/-- A 32-bit value is its four bytes, low byte first. -/
theorem word_of_bytes (v : Word) :
    (v.extractLsb' 0 8).setWidth 32 ||| ((v.extractLsb' 8 8).setWidth 32 <<< 8) |||
      ((v.extractLsb' 16 8).setWidth 32 <<< 16) ||| ((v.extractLsb' 24 8).setWidth 32 <<< 24) = v := by
  apply BitVec.eq_of_getLsbD_eq
  intro i hi
  simp only [BitVec.getLsbD_or, BitVec.getLsbD_setWidth, BitVec.getLsbD_extractLsb', BitVec.getLsbD_shiftLeft]
  rcases (by omega : i < 8 ∨ (8 ≤ i ∧ i < 16) ∨ (16 ≤ i ∧ i < 24) ∨ 24 ≤ i) with h | h | h | h
  · simp [hi, h, show i < 16 by omega, show i < 24 by omega]
  · simp [hi, show ¬ i < 8 by omega, show i < 16 by omega, show i < 24 by omega, show i - 8 < 8 by omega,
      show i - 8 < 32 by omega, show 8 + (i - 8) = i by omega]
  · simp [hi, show ¬ i < 8 by omega, show ¬ i < 16 by omega, show i < 24 by omega, show ¬ i - 8 < 8 by omega,
      show i - 16 < 8 by omega, show i - 16 < 32 by omega, show 16 + (i - 16) = i by omega]
  · simp [hi, show ¬ i < 8 by omega, show ¬ i < 16 by omega, show ¬ i < 24 by omega, show ¬ i - 8 < 8 by omega,
      show ¬ i - 16 < 8 by omega, show i - 24 < 8 by omega, show i - 24 < 32 by omega, show 24 + (i - 24) = i by omega]

theorem le16_bytes16 (v : Half) (rest : List Byte) : le16 (bytes16 v ++ rest) 0 = v := half_of_bytes v

theorem le32_bytes32 (v : Word) (rest : List Byte) : le32 (bytes32 v ++ rest) 0 = v := word_of_bytes v

/-! ### Checksum -/

@[simp] theorem xorfold_nil : xorfold [] = 0#8 := rfl

theorem foldl_xor (p : List Byte) (c : Byte) : p.foldl (fun c b => c ^^^ b) c = c ^^^ xorfold p := by
  induction p generalizing c with
  | nil => simp
  | cons b p ih =>
    have h0 : xorfold (b :: p) = 0#8 ^^^ b ^^^ xorfold p := ih (0#8 ^^^ b)
    rw [List.foldl_cons, ih, h0, BitVec.zero_xor, BitVec.xor_assoc]

theorem xorfold_cons (b : Byte) (p : List Byte) : xorfold (b :: p) = b ^^^ xorfold p := by
  simpa [xorfold] using foldl_xor p (0#8 ^^^ b)

theorem xorfold_append (p q : List Byte) : xorfold (p ++ q) = xorfold p ^^^ xorfold q := by
  rw [xorfold, List.foldl_append]
  exact foldl_xor q _

/-! ### Frames -/

/-- The six header bytes of an encoded frame, then its payload (R200). -/
theorem encodeFrame_eq (c : Config) (cmd : Byte) (p : List Byte) :
    encodeFrame c cmd p =
      c.magic.extractLsb' 0 8 :: c.magic.extractLsb' 8 8 :: cmd ::
        (BitVec.ofNat 16 p.length).extractLsb' 0 8 :: (BitVec.ofNat 16 p.length).extractLsb' 8 8 :: xorfold p :: p := rfl

@[simp] theorem encodeFrame_length (c : Config) (cmd : Byte) (p : List Byte) :
    (encodeFrame c cmd p).length = 6 + p.length := by
  simp [encodeFrame_eq]
  omega

theorem le16_encodeFrame_magic (c : Config) (cmd : Byte) (p rest : List Byte) :
    le16 (encodeFrame c cmd p ++ rest) 0 = c.magic := half_of_bytes c.magic

theorem byteAt_encodeFrame_command (c : Config) (cmd : Byte) (p rest : List Byte) :
    byteAt (encodeFrame c cmd p ++ rest) 2 = cmd := rfl

theorem le16_encodeFrame_length (c : Config) (cmd : Byte) (p rest : List Byte) :
    le16 (encodeFrame c cmd p ++ rest) 3 = BitVec.ofNat 16 p.length := half_of_bytes _

theorem byteAt_encodeFrame_checksum (c : Config) (cmd : Byte) (p rest : List Byte) :
    byteAt (encodeFrame c cmd p ++ rest) 5 = xorfold p := rfl

theorem drop_encodeFrame (c : Config) (cmd : Byte) (p rest : List Byte) :
    (encodeFrame c cmd p ++ rest).drop 6 = p ++ rest := rfl

/-! ### Decoding by command code -/

/-- What `decodeBody` can answer: the instruction has the payload and the code it was given, and the form `xsub` selects. -/
theorem decodeBody_some {c : Config} {x : XSub} {cmd : Byte} {p : List Byte} {i : Instr}
    (h : decodeBody c x cmd p = some i) : i.payload = p ∧ i.code c = some cmd := by
  unfold decodeBody at h
  repeat' split at h
  all_goals first
    | (cases h; subst_vars; exact ⟨rfl, rfl⟩)
    | cases h

/-- Legal parameters have distinct command codes (D3). -/
theorem Config.legal_codes {c : Config} (h : c.legal = true) : c.codes.Nodup := by
  simp only [Config.legal, Bool.and_eq_true, decide_eq_true_eq] at h
  exact h.1.1.1.1

/-- The values a field layout of the spec fixes (R10, 90_conflicts.md C8). -/
theorem Config.legal_layout {c : Config} (h : c.legal = true) :
    c.hdrBytes = 6 ∧ c.maxPayload = 65535 ∧ c.maxFiles = 255 := by
  simp only [Config.legal, Config.layoutLegal, Bool.and_eq_true, decide_eq_true_eq] at h
  tauto

theorem Config.legal_chunk {c : Config} (h : c.legal = true) : 1 ≤ c.chunkSize ∧ c.chunkSize ≤ 65531 := by
  have hl := Config.legal_layout h
  simp only [Config.legal, Bool.and_eq_true, decide_eq_true_eq] at h
  omega

/-- The name slot of legal parameters: whole words, and small enough for the address map and for a list of 255 names. -/
theorem Config.legal_slot {c : Config} (h : c.legal = true) :
    1 ≤ c.nameSlot ∧ c.nameSlot % 4 = 0 ∧ c.nameSlot ≤ 96 := by
  have hl := Config.legal_layout h
  simp only [Config.legal, Config.slotLegal, Bool.and_eq_true, decide_eq_true_eq] at h
  have hd := h.1.2.1.2
  rw [hl.2.2, Config.descBytes] at hd
  omega

end Sys2Proof
end

