-- ==== Sys2Proof/Laws/Memory.lean ====
section
/-! SUPPORT. The laws of the byte spaces: what a read gives after a write, and that every operation keeps the canonical
form and the size of the space. -/

namespace Sys2Proof.Machine.Memory

/-! ### Canonical form -/

theorem wf_nil : Memory.wf [] := ⟨List.Pairwise.nil, by simp⟩

theorem below_nil (n : Nat) : Memory.below n [] := by simp

theorem wf_tail {c : Host.Cell} {m : Memory} (h : Memory.wf (c :: m)) : Memory.wf m :=
  ⟨h.1.of_cons, fun d hd => h.2 d (List.mem_cons_of_mem _ hd)⟩

theorem wf_head_lt {a : Nat} {b : Byte} {m : Memory} (h : Memory.wf ((a, b) :: m)) :
    ∀ c ∈ m, a < c.1 := (List.pairwise_cons.1 h.1).1

theorem read_eq_unlisted {m : Memory} {x : Nat} (h : ∀ c ∈ m, c.1 ≠ x) : Memory.read m x = Memory.unlisted := by
  induction m with
  | nil => rfl
  | cons c m ih =>
    obtain ⟨a, b⟩ := c
    have hne : ¬ x = a := fun e => h (a, b) (by simp) e.symm
    simp only [Memory.read, if_neg hne]
    exact ih fun d hd => h d (List.mem_cons_of_mem _ hd)

/-- Every entry after a write is the written one or an old one. -/
theorem mem_write {m : Memory} {x : Nat} {v : Byte} {c : Host.Cell} (h : c ∈ Memory.write m x v) :
    (c = (x, v) ∧ v ≠ Memory.unlisted) ∨ c ∈ m := by
  induction m with
  | nil =>
    simp only [Memory.write] at h
    split at h <;> simp_all
  | cons d m ih =>
    obtain ⟨a, b⟩ := d
    simp only [Memory.write] at h
    split at h
    · split at h <;> simp_all
    · split at h
      · split at h
        · exact .inr (List.mem_cons_of_mem _ h)
        · rcases List.mem_cons.1 h with rfl | h
          · exact .inl ⟨rfl, ‹_›⟩
          · exact .inr (List.mem_cons_of_mem _ h)
      · rcases List.mem_cons.1 h with rfl | h
        · exact .inr (by simp)
        · rcases ih h with h | h
          · exact .inl h
          · exact .inr (List.mem_cons_of_mem _ h)

theorem write_wf {m : Memory} (h : Memory.wf m) (x : Nat) (v : Byte) : Memory.wf (Memory.write m x v) := by
  induction m with
  | nil =>
    simp only [Memory.write]
    split
    · exact wf_nil
    · exact ⟨List.pairwise_singleton _ _, by simpa using ‹_›⟩
  | cons d m ih =>
    obtain ⟨a, b⟩ := d
    have ht := wf_tail h
    have hlt := wf_head_lt h
    have hb : b ≠ Memory.unlisted := h.2 (a, b) (by simp)
    simp only [Memory.write]
    split
    · split
      · exact h
      · refine ⟨List.pairwise_cons.2 ⟨?_, h.1⟩, ?_⟩
        · rintro c hc
          rcases List.mem_cons.1 hc with rfl | hc
          · assumption
          · exact lt_trans ‹_› (hlt c hc)
        · rintro c hc
          rcases List.mem_cons.1 hc with rfl | hc
          · assumption
          · exact h.2 c hc
    · split
      · split
        · exact ht
        · subst_vars
          refine ⟨List.pairwise_cons.2 ⟨hlt, ht.1⟩, ?_⟩
          rintro c hc
          rcases List.mem_cons.1 hc with rfl | hc
          · assumption
          · exact ht.2 c hc
      · have hw := ih ht
        refine ⟨List.pairwise_cons.2 ⟨?_, hw.1⟩, ?_⟩
        · rintro c hc
          rcases mem_write hc with ⟨rfl, -⟩ | hc
          · show a < x
            omega
          · exact hlt c hc
        · rintro c hc
          rcases List.mem_cons.1 hc with rfl | hc
          · exact hb
          · exact hw.2 c hc

theorem write_below {m : Memory} {n x : Nat} {v : Byte} (h : Memory.below n m) (hx : x < n) :
    Memory.below n (Memory.write m x v) := fun c hc => by
  rcases mem_write hc with ⟨rfl, -⟩ | hc
  · exact hx
  · exact h c hc

/-! ### Reading after a write -/

theorem read_write_same {m : Memory} (h : Memory.wf m) (x : Nat) (v : Byte) :
    Memory.read (Memory.write m x v) x = v := by
  induction m with
  | nil =>
    simp only [Memory.write]
    split <;> simp_all [Memory.read]
  | cons d m ih =>
    obtain ⟨a, b⟩ := d
    have hlt := wf_head_lt h
    simp only [Memory.write]
    split
    · split
      · subst_vars
        refine read_eq_unlisted fun c hc => ?_
        rcases List.mem_cons.1 hc with rfl | hc
        · show a ≠ x
          omega
        · have := hlt c hc
          omega
      · simp [Memory.read]
    · split
      · split
        · subst_vars
          exact read_eq_unlisted fun c hc => (hlt c hc).ne'
        · simp [Memory.read]
      · simp only [Memory.read, if_neg ‹¬x = a›]
        exact ih (wf_tail h)

theorem read_write_other {m : Memory} {x y : Nat} (hne : y ≠ x) (v : Byte) :
    Memory.read (Memory.write m x v) y = Memory.read m y := by
  induction m with
  | nil =>
    simp only [Memory.write]
    split <;> simp [Memory.read, hne]
  | cons d m ih =>
    obtain ⟨a, b⟩ := d
    simp only [Memory.write]
    split
    · split <;> simp [Memory.read, hne]
    · split
      · split
        · simp_all [Memory.read]
        · simp_all [Memory.read]
      · simp only [Memory.read]
        split
        · rfl
        · exact ih

/-! ### Several bytes -/

@[simp] theorem readN_length (m : Memory) (a n : Nat) : (Memory.readN m a n).length = n := by
  simp [Memory.readN]

theorem readN_getElem? (m : Memory) (a n k : Nat) (hk : k < n) :
    (Memory.readN m a n)[k]? = some (Memory.read m (a + k)) := by
  simp [Memory.readN, hk]

theorem writeN_wf {m : Memory} (h : Memory.wf m) (a : Nat) (bs : List Byte) : Memory.wf (Memory.writeN m a bs) := by
  induction bs generalizing m a with
  | nil => exact h
  | cons b bs ih => exact ih (write_wf h a b) (a + 1)

theorem writeN_below {m : Memory} {n a : Nat} {bs : List Byte} (h : Memory.below n m) (ha : a + bs.length ≤ n) :
    Memory.below n (Memory.writeN m a bs) := by
  induction bs generalizing m a with
  | nil => exact h
  | cons b bs ih =>
    simp only [List.length_cons] at ha
    exact ih (write_below h (by omega)) (by omega)

theorem read_writeN_outside {m : Memory} {a y : Nat} {bs : List Byte} (h : y < a ∨ a + bs.length ≤ y) :
    Memory.read (Memory.writeN m a bs) y = Memory.read m y := by
  induction bs generalizing m a with
  | nil => rfl
  | cons b bs ih =>
    simp only [List.length_cons] at h
    simp only [Memory.writeN]
    rw [ih (by omega), read_write_other (by omega)]

theorem read_writeN_inside {m : Memory} (h : Memory.wf m) {a k : Nat} {bs : List Byte} (hk : k < bs.length) :
    Memory.read (Memory.writeN m a bs) (a + k) = bs[k] := by
  induction bs generalizing m a k with
  | nil => simp at hk
  | cons b bs ih =>
    simp only [Memory.writeN]
    cases k with
    | zero => rw [read_writeN_outside (by omega)]; simpa using read_write_same h a b
    | succ k =>
      simp only [List.length_cons, Nat.add_lt_add_iff_right] at hk
      have := ih (write_wf h a b) (a := a + 1) (k := k) hk
      simpa [Nat.add_assoc, Nat.add_comm 1 k] using this

theorem readN_writeN {m : Memory} (h : Memory.wf m) (a : Nat) (bs : List Byte) :
    Memory.readN (Memory.writeN m a bs) a bs.length = bs := by
  apply List.ext_getElem (by simp)
  intro k _ hk
  simp only [Memory.readN, List.getElem_map, List.getElem_range]
  exact read_writeN_inside h hk

theorem ofCells_wf (p : Nat → Bool) (cs : List Host.Cell) : Memory.wf (Memory.ofCells p cs) := by
  induction cs with
  | nil => exact wf_nil
  | cons c cs ih =>
    obtain ⟨a, b⟩ := c
    simp only [Memory.ofCells]
    split
    · exact write_wf ih a b
    · exact ih

theorem ofCells_below {p : Nat → Bool} {n : Nat} (hp : ∀ a, p a = true → a < n) (cs : List Host.Cell) :
    Memory.below n (Memory.ofCells p cs) := by
  induction cs with
  | nil => exact below_nil n
  | cons c cs ih =>
    obtain ⟨a, b⟩ := c
    simp only [Memory.ofCells]
    split
    · exact write_below ih (hp a ‹_›)
    · exact ih

/-! ### The table of received names -/

theorem slotName_length_le (s : List Byte) : (slotName s).length ≤ s.length :=
  (List.takeWhile_sublist _).length_le

theorem basename_length_le (seps n : List Byte) : (basename seps n).length ≤ n.length := by
  simpa [basename] using (List.takeWhile_sublist (fun b => !seps.contains b) (l := n.reverse)).length_le

/-- A stripped slot fills its bytes exactly (40_codec.md R256). -/
theorem strip_length (c : Config) (s : List Byte) (h : s.length ≤ c.nameSlot) : (strip c s).length = c.nameSlot := by
  have h1 := basename_length_le c.separators (slotName s)
  have h2 := slotName_length_le s
  simp only [strip, zeros, List.length_append, List.length_replicate]
  omega

theorem storeNames_wf {m : Memory} (h : Memory.wf m) (c : Config) (i : Nat) (slots : List (List Byte)) :
    Memory.wf (storeNames c m i slots) := by
  induction slots generalizing m i with
  | nil => exact h
  | cons s slots ih => exact ih (writeN_wf h _ _) (i + 1)

theorem storeNames_below {m : Memory} {n : Nat} (c : Config) (h : Memory.below (c.nameSlot * n) m) {i : Nat}
    {slots : List (List Byte)} (hlen : ∀ s ∈ slots, s.length ≤ c.nameSlot) (hi : i + slots.length ≤ n) :
    Memory.below (c.nameSlot * n) (storeNames c m i slots) := by
  induction slots generalizing m i with
  | nil => exact h
  | cons s slots ih =>
    simp only [List.length_cons] at hi
    refine ih (writeN_below h ?_) (fun t ht => hlen t (List.mem_cons_of_mem _ ht)) (by omega)
    rw [strip_length c s (hlen s (by simp)), ← Nat.mul_succ]
    exact Nat.mul_le_mul_left _ (by omega)

end Sys2Proof.Machine.Memory
end

