-- ==== Sys2Proof/Laws/HostAccess.lean ====
section
/-! SUPPORT. The laws of the host register space: what the address map gives in each range, and the bytes of a word read
or written. -/

namespace Sys2Proof.Machine

/-! ### The address map (10_state.md R75, R101, R102) -/

theorem hifLoc_register (c : Config) {a : Nat} (h : a < 0x05C) : hifLoc c a = hifRegister a := if_pos h

/-- The map above the registers, with the lengths of the tables that legal parameters give. -/
theorem hifLoc_above {c : Config} (hl : c.legal = true) {a : Nat} (h : ¬ a < 0x05C) :
    hifLoc c a =
      if 0x100 ≤ a ∧ a < 0x100 + c.nameSlot then .curname (a - 0x100)
      else if 0x1000 ≤ a ∧ a < 0x1000 + (c.nameSlot + 16) * 255 then descLoc c (a - 0x1000)
      else if 0x8000 ≤ a ∧ a < 0x8000 + c.nameSlot * 255 then .rxname (a - 0x8000)
      else .reserved := by
  rw [hifLoc, if_neg h, (Config.legal_layout hl).2.2, Config.descBytes]

theorem hifLoc_curname {c : Config} (hl : c.legal = true) {off : Nat} (h : off < c.nameSlot) :
    hifLoc c (0x100 + off) = .curname off := by
  rw [hifLoc_above hl (by omega), if_pos (by omega), Nat.add_sub_cancel_left]

theorem hifLoc_desc {c : Config} (hl : c.legal = true) {off : Nat} (h : off < (c.nameSlot + 16) * 255) :
    hifLoc c (0x1000 + off) = descLoc c off := by
  have := (Config.legal_slot hl).2.2
  rw [hifLoc_above hl (by omega), if_neg (by omega), if_pos (by omega), Nat.add_sub_cancel_left]

theorem hifLoc_rxname {c : Config} (hl : c.legal = true) {off : Nat} (h : off < c.nameSlot * 255) :
    hifLoc c (0x8000 + off) = .rxname off := by
  have := (Config.legal_slot hl).2.2
  rw [hifLoc_above hl (by omega), if_neg (by omega), if_neg (by omega), if_pos (by omega), Nat.add_sub_cancel_left]

theorem hifLoc_hole {c : Config} (hl : c.legal = true) {a : Nat}
    (h : (0x05C ≤ a ∧ a < 0x100) ∨ (0x100 + c.nameSlot ≤ a ∧ a < 0x1000) ∨
      (0x1000 + (c.nameSlot + 16) * 255 ≤ a ∧ a < 0x8000) ∨ 0x8000 + c.nameSlot * 255 ≤ a) :
    hifLoc c a = .reserved := by
  have := (Config.legal_slot hl).2.2
  rw [hifLoc_above hl (by omega), if_neg (by omega), if_neg (by omega), if_neg (by omega)]

/-- No range of the map holds `CMD`, `IRQ_STATUS` or `IRQ_ENABLE`. -/
theorem hifLoc_ne_range (c : Config) {a : Nat} (h : 0x05C ≤ a) :
    hifLoc c a ≠ .cmd ∧ hifLoc c a ≠ .irqStatus ∧ hifLoc c a ≠ .irqEnable := by
  have hd : ∀ off, descLoc c off ≠ .cmd ∧ descLoc c off ≠ .irqStatus ∧ descLoc c off ≠ .irqEnable := by
    intro off
    unfold descLoc
    simp only
    split
    · simp
    · split <;> simp
  unfold hifLoc
  rw [if_neg (by omega)]
  split
  · simp
  · split
    · exact hd _
    · split <;> simp

/-- Where `CMD`, `IRQ_STATUS` and `IRQ_ENABLE` are, and nowhere else. -/
theorem hifLoc_eq {c : Config} {a : Nat} :
    (hifLoc c a = .cmd → a = 0x004) ∧ (hifLoc c a = .irqStatus → a = 0x00C) ∧
      (hifLoc c a = .irqEnable → a = 0x010) := by
  by_cases h : a < 0x05C
  · rw [hifLoc_register c h]
    unfold hifRegister
    split <;> simp
  · obtain ⟨h1, h2, h3⟩ := hifLoc_ne_range c (Nat.not_lt.1 h)
    exact ⟨fun e => absurd e h1, fun e => absurd e h2, fun e => absurd e h3⟩

/-- What the map gives a `DESC` word is inside an entry's NAME and SIZE, and an INDEX is an entry's (10_state.md R101). -/
theorem hifLoc_desc_inside {c : Config} (hl : c.legal = true) {a : Nat} (h4 : a % 4 = 0) {off : Nat} :
    (hifLoc c a = .descWord off →
      off + 3 < c.maxFiles * c.descBytes ∧ off % c.descBytes + 3 < c.descIndexAt ∧ off % 4 = 0) ∧
    (hifLoc c a = .descIndex off → off < c.maxFiles * c.descBytes ∧ off % c.descBytes = c.descIndexAt) := by
  have hr : ∀ n, hifRegister n ≠ .descWord off ∧ hifRegister n ≠ .descIndex off := by
    intro n
    unfold hifRegister
    split <;> simp
  have hn := (Config.legal_slot hl).2.1
  have hm := (Config.legal_layout hl).2.2
  have h4' : ∀ x, x % 4 = 0 → x % c.descBytes % 4 = 0 := fun x hx => by
    rw [Nat.mod_mod_of_dvd _ (Nat.dvd_of_mod_eq_zero (by unfold Config.descBytes; omega)), hx]
  by_cases h : a < 0x05C
  · rw [hifLoc_register c h]
    exact ⟨fun h => absurd h (hr a).1, fun h => absurd h (hr a).2⟩
  · rw [hifLoc_above hl h]
    split
    · simp
    · split
      · rename_i hin
        have hx := h4' (a - 0x1000) (by omega)
        unfold descLoc
        simp only [hm]
        unfold Config.descBytes Config.descIndexAt at *
        split
        · refine ⟨fun h => ?_, fun h => by cases h⟩
          injection h with h
          subst h
          exact ⟨by omega, by omega, by omega⟩
        · split
          · refine ⟨fun h => (by cases h), fun h => ?_⟩
            injection h with h
            subst h
            exact ⟨by omega, ‹_›⟩
          · simp
      · split <;> simp

/-! ### Words (20_memory.md R151) -/

/-- Byte `k` of a little-endian word. -/
theorem le32_byte (p : List Byte) {k : Nat} (hk : k < 4) : (le32 p 0).extractLsb' (8 * k) 8 = byteAt p k := by
  have h : k = 0 ∨ k = 1 ∨ k = 2 ∨ k = 3 := by omega
  apply BitVec.eq_of_getLsbD_eq
  intro i hi
  unfold le32
  rcases h with rfl | rfl | rfl | rfl <;>
    simp only [BitVec.getLsbD_extractLsb', BitVec.getLsbD_or, BitVec.getLsbD_shiftLeft, BitVec.getLsbD_setWidth, hi,
      decide_true, Bool.true_and, Nat.mul_zero, Nat.zero_add]
  · simp [show i < 32 by omega, show i < 24 by omega, show i < 16 by omega, hi]
  · simp [show i < 32 by omega, show 8 * 1 + i < 32 by omega, show 8 * 1 + i < 24 by omega,
      show 8 * 1 + i < 16 by omega, show ¬ 8 * 1 + i < 8 by omega, show 8 * 1 + i - 8 = i by omega]
  · simp [show i < 32 by omega, show 8 * 2 + i < 32 by omega, show 8 * 2 + i < 24 by omega,
      show ¬ 8 * 2 + i < 16 by omega, show ¬ 8 * 2 + i < 8 by omega, show 8 * 2 + i - 16 = i by omega,
      BitVec.getLsbD_of_ge (byteAt p 0) (16 + i) (by omega), BitVec.getLsbD_of_ge (byteAt p 1) (8 * 2 + i - 8) (by omega)]
  · simp [show i < 32 by omega, show 8 * 3 + i < 32 by omega, show ¬ 8 * 3 + i < 24 by omega,
      show ¬ 8 * 3 + i < 16 by omega, show ¬ 8 * 3 + i < 8 by omega, show 8 * 3 + i - 24 = i by omega,
      BitVec.getLsbD_of_ge (byteAt p 0) (24 + i) (by omega), BitVec.getLsbD_of_ge (byteAt p 1) (8 * 3 + i - 8) (by omega),
      BitVec.getLsbD_of_ge (byteAt p 2) (8 * 3 + i - 16) (by omega)]

/-- A field inside the low part of a concatenation. -/
theorem extractLsb'_append_low {n m k w : Nat} (x : BitVec n) (y : BitVec m) (h : k + w ≤ m) :
    (x ++ y).extractLsb' k w = y.extractLsb' k w := by
  apply BitVec.eq_of_getLsbD_eq
  intro i hi
  simp [BitVec.getLsbD_append, hi, show k + i < m by omega]

/-- A field inside the high part of a concatenation. -/
theorem extractLsb'_append_high {n m k w : Nat} (x : BitVec n) (y : BitVec m) :
    (x ++ y).extractLsb' (m + k) w = x.extractLsb' k w := by
  apply BitVec.eq_of_getLsbD_eq
  intro i hi
  simp [BitVec.getLsbD_append, hi, show ¬ m + k + i < m by omega,
    show m + k + i - m = k + i by omega]

theorem Memory.readWord_byte (m : Memory) (a : Nat) {k : Nat} (hk : k < 4) :
    (Memory.readWord m a).extractLsb' (8 * k) 8 = Memory.read m (a + k) := by
  rw [Memory.readWord, le32_byte _ hk, byteAt_of_lt (by simpa using hk)]
  simp [Memory.readN]

theorem Memory.writeWord_wf {m : Memory} (h : Memory.wf m) (a : Nat) (v : Word) : Memory.wf (Memory.writeWord m a v) :=
  Memory.writeN_wf h _ _

theorem Memory.read_writeWord {m : Memory} (h : Memory.wf m) (a : Nat) (v : Word) {k : Nat} (hk : k < 4) :
    Memory.read (Memory.writeWord m a v) (a + k) = v.extractLsb' (8 * k) 8 := by
  unfold Memory.writeWord
  rw [Memory.read_writeN_inside h (by simpa using hk)]
  have : k = 0 ∨ k = 1 ∨ k = 2 ∨ k = 3 := by omega
  rcases this with rfl | rfl | rfl | rfl <;> rfl

theorem Memory.read_writeWord_outside {m : Memory} {a x : Nat} (h : x < a ∨ a + 4 ≤ x) (v : Word) :
    Memory.read (Memory.writeWord m a v) x = Memory.read m x := Memory.read_writeN_outside (by simpa using h)

end Sys2Proof.Machine
end

