-- ==== Sys2Proof/Laws/State.lean ====
section
/-! SUPPORT. What each shared operation does to each field of the state: one lemma a field, true by unfolding, so that no
later proof unfolds a record update. -/

namespace Sys2Proof.Machine.State

variable (s : State)

/-! ### `irqSet` -/

@[simp] theorem irqSet_cfg (b : IrqBit) : (s.irqSet b).cfg = s.cfg := rfl
@[simp] theorem irqSet_conf (b : IrqBit) : (s.irqSet b).conf = s.conf := rfl
@[simp] theorem irqSet_desc (b : IrqBit) : (s.irqSet b).desc = s.desc := rfl
@[simp] theorem irqSet_phase (b : IrqBit) : (s.irqSet b).phase = s.phase := rfl
@[simp] theorem irqSet_act (b : IrqBit) : (s.irqSet b).act = s.act := rfl
@[simp] theorem irqSet_xsub (b : IrqBit) : (s.irqSet b).xsub = s.xsub := rfl
@[simp] theorem irqSet_sess (b : IrqBit) : (s.irqSet b).sess = s.sess := rfl
@[simp] theorem irqSet_curname (b : IrqBit) : (s.irqSet b).curname = s.curname := rfl
@[simp] theorem irqSet_rxname (b : IrqBit) : (s.irqSet b).rxname = s.rxname := rfl
@[simp] theorem irqSet_txbuf (b : IrqBit) : (s.irqSet b).txbuf = s.txbuf := rfl
@[simp] theorem irqSet_parser (b : IrqBit) : (s.irqSet b).parser = s.parser := rfl
@[simp] theorem irqSet_hsTimer (b : IrqBit) : (s.irqSet b).hsTimer = s.hsTimer := rfl
@[simp] theorem irqSet_frTimer (b : IrqBit) : (s.irqSet b).frTimer = s.frTimer := rfl
@[simp] theorem irqSet_abortReq (b : IrqBit) : (s.irqSet b).abortReq = s.abortReq := rfl
@[simp] theorem irqSet_linkOwned (b : IrqBit) : (s.irqSet b).linkOwned = s.linkOwned := rfl
@[simp] theorem irqSet_srcPending (b : IrqBit) : (s.irqSet b).srcPending = s.srcPending := rfl
@[simp] theorem irqSet_err (b : IrqBit) : (s.irqSet b).err = s.err := rfl
@[simp] theorem irqSet_irqStatus (b : IrqBit) : (s.irqSet b).irqStatus = s.irqStatus ||| b.mask := rfl
@[simp] theorem irqSet_irqEnable (b : IrqBit) : (s.irqSet b).irqEnable = s.irqEnable := rfl
@[simp] theorem irqSet_port (b : IrqBit) : (s.irqSet b).port = s.port := rfl

/-! ### `irqClear` -/

@[simp] theorem irqClear_cfg (v : BitVec 5) : (s.irqClear v).cfg = s.cfg := rfl
@[simp] theorem irqClear_conf (v : BitVec 5) : (s.irqClear v).conf = s.conf := rfl
@[simp] theorem irqClear_desc (v : BitVec 5) : (s.irqClear v).desc = s.desc := rfl
@[simp] theorem irqClear_phase (v : BitVec 5) : (s.irqClear v).phase = s.phase := rfl
@[simp] theorem irqClear_act (v : BitVec 5) : (s.irqClear v).act = s.act := rfl
@[simp] theorem irqClear_xsub (v : BitVec 5) : (s.irqClear v).xsub = s.xsub := rfl
@[simp] theorem irqClear_sess (v : BitVec 5) : (s.irqClear v).sess = s.sess := rfl
@[simp] theorem irqClear_curname (v : BitVec 5) : (s.irqClear v).curname = s.curname := rfl
@[simp] theorem irqClear_rxname (v : BitVec 5) : (s.irqClear v).rxname = s.rxname := rfl
@[simp] theorem irqClear_txbuf (v : BitVec 5) : (s.irqClear v).txbuf = s.txbuf := rfl
@[simp] theorem irqClear_parser (v : BitVec 5) : (s.irqClear v).parser = s.parser := rfl
@[simp] theorem irqClear_hsTimer (v : BitVec 5) : (s.irqClear v).hsTimer = s.hsTimer := rfl
@[simp] theorem irqClear_frTimer (v : BitVec 5) : (s.irqClear v).frTimer = s.frTimer := rfl
@[simp] theorem irqClear_abortReq (v : BitVec 5) : (s.irqClear v).abortReq = s.abortReq := rfl
@[simp] theorem irqClear_linkOwned (v : BitVec 5) : (s.irqClear v).linkOwned = s.linkOwned := rfl
@[simp] theorem irqClear_srcPending (v : BitVec 5) : (s.irqClear v).srcPending = s.srcPending := rfl
@[simp] theorem irqClear_err (v : BitVec 5) : (s.irqClear v).err = s.err := rfl
@[simp] theorem irqClear_irqStatus (v : BitVec 5) : (s.irqClear v).irqStatus = s.irqStatus &&& ~~~v := rfl
@[simp] theorem irqClear_irqEnable (v : BitVec 5) : (s.irqClear v).irqEnable = s.irqEnable := rfl
@[simp] theorem irqClear_port (v : BitVec 5) : (s.irqClear v).port = s.port := rfl

/-! ### `emit` -/

@[simp] theorem emit_cfg (f : List Byte) : (s.emit f).cfg = s.cfg := rfl
@[simp] theorem emit_conf (f : List Byte) : (s.emit f).conf = s.conf := rfl
@[simp] theorem emit_desc (f : List Byte) : (s.emit f).desc = s.desc := rfl
@[simp] theorem emit_phase (f : List Byte) : (s.emit f).phase = s.phase := rfl
@[simp] theorem emit_act (f : List Byte) : (s.emit f).act = s.act := rfl
@[simp] theorem emit_xsub (f : List Byte) : (s.emit f).xsub = s.xsub := rfl
@[simp] theorem emit_sess (f : List Byte) : (s.emit f).sess = s.sess := rfl
@[simp] theorem emit_curname (f : List Byte) : (s.emit f).curname = s.curname := rfl
@[simp] theorem emit_rxname (f : List Byte) : (s.emit f).rxname = s.rxname := rfl
@[simp] theorem emit_txbuf (f : List Byte) : (s.emit f).txbuf = s.txbuf := rfl
@[simp] theorem emit_parser (f : List Byte) : (s.emit f).parser = s.parser := rfl
@[simp] theorem emit_hsTimer (f : List Byte) : (s.emit f).hsTimer = s.hsTimer := rfl
@[simp] theorem emit_frTimer (f : List Byte) : (s.emit f).frTimer = s.frTimer := rfl
@[simp] theorem emit_abortReq (f : List Byte) : (s.emit f).abortReq = s.abortReq := rfl
@[simp] theorem emit_linkOwned (f : List Byte) : (s.emit f).linkOwned = s.linkOwned := rfl
@[simp] theorem emit_srcPending (f : List Byte) : (s.emit f).srcPending = s.srcPending := rfl
@[simp] theorem emit_err (f : List Byte) : (s.emit f).err = s.err := rfl
@[simp] theorem emit_irqStatus (f : List Byte) : (s.emit f).irqStatus = s.irqStatus := rfl
@[simp] theorem emit_irqEnable (f : List Byte) : (s.emit f).irqEnable = s.irqEnable := rfl
@[simp] theorem emit_port (f : List Byte) : (s.emit f).port = { s.port with out := s.port.out ++ [.frame f] } := rfl

/-! ### `emitRequest` -/

@[simp] theorem emitRequest_cfg (f : List Byte) : (s.emitRequest f).cfg = s.cfg := rfl
@[simp] theorem emitRequest_conf (f : List Byte) : (s.emitRequest f).conf = s.conf := rfl
@[simp] theorem emitRequest_desc (f : List Byte) : (s.emitRequest f).desc = s.desc := rfl
@[simp] theorem emitRequest_phase (f : List Byte) : (s.emitRequest f).phase = s.phase := rfl
@[simp] theorem emitRequest_act (f : List Byte) : (s.emitRequest f).act = s.act := rfl
@[simp] theorem emitRequest_xsub (f : List Byte) : (s.emitRequest f).xsub = s.xsub := rfl
@[simp] theorem emitRequest_sess (f : List Byte) : (s.emitRequest f).sess = s.sess := rfl
@[simp] theorem emitRequest_curname (f : List Byte) : (s.emitRequest f).curname = s.curname := rfl
@[simp] theorem emitRequest_rxname (f : List Byte) : (s.emitRequest f).rxname = s.rxname := rfl
@[simp] theorem emitRequest_txbuf (f : List Byte) : (s.emitRequest f).txbuf = f := rfl
@[simp] theorem emitRequest_parser (f : List Byte) : (s.emitRequest f).parser = s.parser := rfl
@[simp] theorem emitRequest_hsTimer (f : List Byte) : (s.emitRequest f).hsTimer = s.hsTimer := rfl
@[simp] theorem emitRequest_frTimer (f : List Byte) : (s.emitRequest f).frTimer = s.frTimer := rfl
@[simp] theorem emitRequest_abortReq (f : List Byte) : (s.emitRequest f).abortReq = s.abortReq := rfl
@[simp] theorem emitRequest_linkOwned (f : List Byte) : (s.emitRequest f).linkOwned = s.linkOwned := rfl
@[simp] theorem emitRequest_srcPending (f : List Byte) : (s.emitRequest f).srcPending = s.srcPending := rfl
@[simp] theorem emitRequest_err (f : List Byte) : (s.emitRequest f).err = s.err := rfl
@[simp] theorem emitRequest_irqStatus (f : List Byte) : (s.emitRequest f).irqStatus = s.irqStatus := rfl
@[simp] theorem emitRequest_irqEnable (f : List Byte) : (s.emitRequest f).irqEnable = s.irqEnable := rfl
@[simp] theorem emitRequest_port (f : List Byte) : (s.emitRequest f).port = { s.port with out := s.port.out ++ [.frame f] } := rfl

/-! ### `sinkPut` -/

@[simp] theorem sinkPut_cfg (e : SinkEvent) : (s.sinkPut e).cfg = s.cfg := rfl
@[simp] theorem sinkPut_conf (e : SinkEvent) : (s.sinkPut e).conf = s.conf := rfl
@[simp] theorem sinkPut_desc (e : SinkEvent) : (s.sinkPut e).desc = s.desc := rfl
@[simp] theorem sinkPut_phase (e : SinkEvent) : (s.sinkPut e).phase = s.phase := rfl
@[simp] theorem sinkPut_act (e : SinkEvent) : (s.sinkPut e).act = s.act := rfl
@[simp] theorem sinkPut_xsub (e : SinkEvent) : (s.sinkPut e).xsub = s.xsub := rfl
@[simp] theorem sinkPut_sess (e : SinkEvent) : (s.sinkPut e).sess = s.sess := rfl
@[simp] theorem sinkPut_curname (e : SinkEvent) : (s.sinkPut e).curname = s.curname := rfl
@[simp] theorem sinkPut_rxname (e : SinkEvent) : (s.sinkPut e).rxname = s.rxname := rfl
@[simp] theorem sinkPut_txbuf (e : SinkEvent) : (s.sinkPut e).txbuf = s.txbuf := rfl
@[simp] theorem sinkPut_parser (e : SinkEvent) : (s.sinkPut e).parser = s.parser := rfl
@[simp] theorem sinkPut_hsTimer (e : SinkEvent) : (s.sinkPut e).hsTimer = s.hsTimer := rfl
@[simp] theorem sinkPut_frTimer (e : SinkEvent) : (s.sinkPut e).frTimer = s.frTimer := rfl
@[simp] theorem sinkPut_abortReq (e : SinkEvent) : (s.sinkPut e).abortReq = s.abortReq := rfl
@[simp] theorem sinkPut_linkOwned (e : SinkEvent) : (s.sinkPut e).linkOwned = s.linkOwned := rfl
@[simp] theorem sinkPut_srcPending (e : SinkEvent) : (s.sinkPut e).srcPending = s.srcPending := rfl
@[simp] theorem sinkPut_err (e : SinkEvent) : (s.sinkPut e).err = s.err := rfl
@[simp] theorem sinkPut_irqStatus (e : SinkEvent) : (s.sinkPut e).irqStatus = s.irqStatus := rfl
@[simp] theorem sinkPut_irqEnable (e : SinkEvent) : (s.sinkPut e).irqEnable = s.irqEnable := rfl
@[simp] theorem sinkPut_port (e : SinkEvent) : (s.sinkPut e).port = { s.port with out := s.port.out ++ [.sink e] } := rfl

/-! ### `requestSource` -/

@[simp] theorem requestSource_cfg (r : SrcReq) : (s.requestSource r).cfg = s.cfg := rfl
@[simp] theorem requestSource_conf (r : SrcReq) : (s.requestSource r).conf = s.conf := rfl
@[simp] theorem requestSource_desc (r : SrcReq) : (s.requestSource r).desc = s.desc := rfl
@[simp] theorem requestSource_phase (r : SrcReq) : (s.requestSource r).phase = s.phase := rfl
@[simp] theorem requestSource_act (r : SrcReq) : (s.requestSource r).act = s.act := rfl
@[simp] theorem requestSource_xsub (r : SrcReq) : (s.requestSource r).xsub = s.xsub := rfl
@[simp] theorem requestSource_sess (r : SrcReq) : (s.requestSource r).sess = s.sess := rfl
@[simp] theorem requestSource_curname (r : SrcReq) : (s.requestSource r).curname = s.curname := rfl
@[simp] theorem requestSource_rxname (r : SrcReq) : (s.requestSource r).rxname = s.rxname := rfl
@[simp] theorem requestSource_txbuf (r : SrcReq) : (s.requestSource r).txbuf = s.txbuf := rfl
@[simp] theorem requestSource_parser (r : SrcReq) : (s.requestSource r).parser = s.parser := rfl
@[simp] theorem requestSource_hsTimer (r : SrcReq) : (s.requestSource r).hsTimer = s.hsTimer := rfl
@[simp] theorem requestSource_frTimer (r : SrcReq) : (s.requestSource r).frTimer = s.frTimer := rfl
@[simp] theorem requestSource_abortReq (r : SrcReq) : (s.requestSource r).abortReq = s.abortReq := rfl
@[simp] theorem requestSource_linkOwned (r : SrcReq) : (s.requestSource r).linkOwned = s.linkOwned := rfl
@[simp] theorem requestSource_srcPending (r : SrcReq) : (s.requestSource r).srcPending = true := rfl
@[simp] theorem requestSource_err (r : SrcReq) : (s.requestSource r).err = s.err := rfl
@[simp] theorem requestSource_irqStatus (r : SrcReq) : (s.requestSource r).irqStatus = s.irqStatus := rfl
@[simp] theorem requestSource_irqEnable (r : SrcReq) : (s.requestSource r).irqEnable = s.irqEnable := rfl
@[simp] theorem requestSource_port (r : SrcReq) : (s.requestSource r).port = { s.port with out := s.port.out ++ [.srcReq r] } := rfl

/-! ### `recover` -/

@[simp] theorem recover_cfg (c : ErrCode) (e o : Word) : (s.recover c e o).cfg = s.cfg := rfl
@[simp] theorem recover_conf (c : ErrCode) (e o : Word) : (s.recover c e o).conf = s.conf := rfl
@[simp] theorem recover_desc (c : ErrCode) (e o : Word) : (s.recover c e o).desc = s.desc := rfl
@[simp] theorem recover_phase (c : ErrCode) (e o : Word) : (s.recover c e o).phase = s.phase := rfl
@[simp] theorem recover_act (c : ErrCode) (e o : Word) : (s.recover c e o).act = s.act := rfl
@[simp] theorem recover_xsub (c : ErrCode) (e o : Word) : (s.recover c e o).xsub = s.xsub := rfl
@[simp] theorem recover_sess (c : ErrCode) (e o : Word) : (s.recover c e o).sess = s.sess := rfl
@[simp] theorem recover_curname (c : ErrCode) (e o : Word) : (s.recover c e o).curname = s.curname := rfl
@[simp] theorem recover_rxname (c : ErrCode) (e o : Word) : (s.recover c e o).rxname = s.rxname := rfl
@[simp] theorem recover_txbuf (c : ErrCode) (e o : Word) : (s.recover c e o).txbuf = s.txbuf := rfl
@[simp] theorem recover_parser (c : ErrCode) (e o : Word) : (s.recover c e o).parser = s.parser := rfl
@[simp] theorem recover_hsTimer (c : ErrCode) (e o : Word) : (s.recover c e o).hsTimer = s.hsTimer := rfl
@[simp] theorem recover_frTimer (c : ErrCode) (e o : Word) : (s.recover c e o).frTimer = s.frTimer := rfl
@[simp] theorem recover_abortReq (c : ErrCode) (e o : Word) : (s.recover c e o).abortReq = s.abortReq := rfl
@[simp] theorem recover_linkOwned (c : ErrCode) (e o : Word) : (s.recover c e o).linkOwned = s.linkOwned := rfl
@[simp] theorem recover_srcPending (c : ErrCode) (e o : Word) : (s.recover c e o).srcPending = s.srcPending := rfl
@[simp] theorem recover_err (c : ErrCode) (e o : Word) : (s.recover c e o).err = { s.err with lastErr := c, errExp := e, errObs := o } := rfl
@[simp] theorem recover_irqStatus (c : ErrCode) (e o : Word) : (s.recover c e o).irqStatus = s.irqStatus ||| IrqBit.err.mask := rfl
@[simp] theorem recover_irqEnable (c : ErrCode) (e o : Word) : (s.recover c e o).irqEnable = s.irqEnable := rfl
@[simp] theorem recover_port (c : ErrCode) (e o : Word) : (s.recover c e o).port = s.port := rfl

/-! ### `fail` -/

@[simp] theorem fail_cfg (c : ErrCode) (e o : Word) : (s.fail c e o).cfg = s.cfg := rfl
@[simp] theorem fail_conf (c : ErrCode) (e o : Word) : (s.fail c e o).conf = s.conf := rfl
@[simp] theorem fail_desc (c : ErrCode) (e o : Word) : (s.fail c e o).desc = s.desc := rfl
@[simp] theorem fail_phase (c : ErrCode) (e o : Word) : (s.fail c e o).phase = .failed := rfl
@[simp] theorem fail_act (c : ErrCode) (e o : Word) : (s.fail c e o).act = .none := rfl
@[simp] theorem fail_xsub (c : ErrCode) (e o : Word) : (s.fail c e o).xsub = s.xsub := rfl
@[simp] theorem fail_sess (c : ErrCode) (e o : Word) : (s.fail c e o).sess = s.sess := rfl
@[simp] theorem fail_curname (c : ErrCode) (e o : Word) : (s.fail c e o).curname = s.curname := rfl
@[simp] theorem fail_rxname (c : ErrCode) (e o : Word) : (s.fail c e o).rxname = s.rxname := rfl
@[simp] theorem fail_txbuf (c : ErrCode) (e o : Word) : (s.fail c e o).txbuf = s.txbuf := rfl
@[simp] theorem fail_parser (c : ErrCode) (e o : Word) : (s.fail c e o).parser = { s.parser with hc := 0#3, pcnt := 0#16 } := rfl
@[simp] theorem fail_hsTimer (c : ErrCode) (e o : Word) : (s.fail c e o).hsTimer = s.hsTimer := rfl
@[simp] theorem fail_frTimer (c : ErrCode) (e o : Word) : (s.fail c e o).frTimer = s.frTimer := rfl
@[simp] theorem fail_abortReq (c : ErrCode) (e o : Word) : (s.fail c e o).abortReq = false := rfl
@[simp] theorem fail_linkOwned (c : ErrCode) (e o : Word) : (s.fail c e o).linkOwned = false := rfl
@[simp] theorem fail_srcPending (c : ErrCode) (e o : Word) : (s.fail c e o).srcPending = false := rfl
@[simp] theorem fail_err (c : ErrCode) (e o : Word) : (s.fail c e o).err = { s.err with failPhase := s.phase, failCause := c, errExp := e, errObs := o } := rfl
@[simp] theorem fail_irqStatus (c : ErrCode) (e o : Word) : (s.fail c e o).irqStatus = s.irqStatus ||| IrqBit.failed.mask := rfl
@[simp] theorem fail_irqEnable (c : ErrCode) (e o : Word) : (s.fail c e o).irqEnable = s.irqEnable := rfl
@[simp] theorem fail_port (c : ErrCode) (e o : Word) : (s.fail c e o).port = s.port := rfl

/-! ### `finish` -/

@[simp] theorem finish_cfg : (s.finish).cfg = s.cfg := rfl
@[simp] theorem finish_conf : (s.finish).conf = s.conf := rfl
@[simp] theorem finish_desc : (s.finish).desc = s.desc := rfl
@[simp] theorem finish_phase : (s.finish).phase = .done := rfl
@[simp] theorem finish_act : (s.finish).act = .none := rfl
@[simp] theorem finish_xsub : (s.finish).xsub = s.xsub := rfl
@[simp] theorem finish_sess : (s.finish).sess = s.sess := rfl
@[simp] theorem finish_curname : (s.finish).curname = s.curname := rfl
@[simp] theorem finish_rxname : (s.finish).rxname = s.rxname := rfl
@[simp] theorem finish_txbuf : (s.finish).txbuf = s.txbuf := rfl
@[simp] theorem finish_parser : (s.finish).parser = s.parser := rfl
@[simp] theorem finish_hsTimer : (s.finish).hsTimer = s.hsTimer := rfl
@[simp] theorem finish_frTimer : (s.finish).frTimer = s.frTimer := rfl
@[simp] theorem finish_abortReq : (s.finish).abortReq = false := rfl
@[simp] theorem finish_linkOwned : (s.finish).linkOwned = false := rfl
@[simp] theorem finish_srcPending : (s.finish).srcPending = s.srcPending := rfl
@[simp] theorem finish_err : (s.finish).err = s.err := rfl
@[simp] theorem finish_irqStatus : (s.finish).irqStatus = s.irqStatus ||| IrqBit.done.mask := rfl
@[simp] theorem finish_irqEnable : (s.finish).irqEnable = s.irqEnable := rfl
@[simp] theorem finish_port : (s.finish).port = s.port := rfl

/-! ### `parserReset` -/

@[simp] theorem parserReset_cfg : (s.parserReset).cfg = s.cfg := rfl
@[simp] theorem parserReset_conf : (s.parserReset).conf = s.conf := rfl
@[simp] theorem parserReset_desc : (s.parserReset).desc = s.desc := rfl
@[simp] theorem parserReset_phase : (s.parserReset).phase = s.phase := rfl
@[simp] theorem parserReset_act : (s.parserReset).act = s.act := rfl
@[simp] theorem parserReset_xsub : (s.parserReset).xsub = s.xsub := rfl
@[simp] theorem parserReset_sess : (s.parserReset).sess = s.sess := rfl
@[simp] theorem parserReset_curname : (s.parserReset).curname = s.curname := rfl
@[simp] theorem parserReset_rxname : (s.parserReset).rxname = s.rxname := rfl
@[simp] theorem parserReset_txbuf : (s.parserReset).txbuf = s.txbuf := rfl
@[simp] theorem parserReset_parser : (s.parserReset).parser = { s.parser with hc := 0#3, pcnt := 0#16 } := rfl
@[simp] theorem parserReset_hsTimer : (s.parserReset).hsTimer = s.hsTimer := rfl
@[simp] theorem parserReset_frTimer : (s.parserReset).frTimer = s.frTimer := rfl
@[simp] theorem parserReset_abortReq : (s.parserReset).abortReq = s.abortReq := rfl
@[simp] theorem parserReset_linkOwned : (s.parserReset).linkOwned = s.linkOwned := rfl
@[simp] theorem parserReset_srcPending : (s.parserReset).srcPending = s.srcPending := rfl
@[simp] theorem parserReset_err : (s.parserReset).err = s.err := rfl
@[simp] theorem parserReset_irqStatus : (s.parserReset).irqStatus = s.irqStatus := rfl
@[simp] theorem parserReset_irqEnable : (s.parserReset).irqEnable = s.irqEnable := rfl
@[simp] theorem parserReset_port : (s.parserReset).port = s.port := rfl

/-! ### `respondAck` -/

@[simp] theorem respondAck_cfg : (s.respondAck).cfg = s.cfg := rfl
@[simp] theorem respondAck_conf : (s.respondAck).conf = s.conf := rfl
@[simp] theorem respondAck_desc : (s.respondAck).desc = s.desc := rfl
@[simp] theorem respondAck_phase : (s.respondAck).phase = s.phase := rfl
@[simp] theorem respondAck_act : (s.respondAck).act = s.act := rfl
@[simp] theorem respondAck_xsub : (s.respondAck).xsub = s.xsub := rfl
@[simp] theorem respondAck_sess : (s.respondAck).sess = s.sess := rfl
@[simp] theorem respondAck_curname : (s.respondAck).curname = s.curname := rfl
@[simp] theorem respondAck_rxname : (s.respondAck).rxname = s.rxname := rfl
@[simp] theorem respondAck_txbuf : (s.respondAck).txbuf = s.txbuf := rfl
@[simp] theorem respondAck_parser : (s.respondAck).parser = s.parser := rfl
@[simp] theorem respondAck_hsTimer : (s.respondAck).hsTimer = s.hsTimer := rfl
@[simp] theorem respondAck_frTimer : (s.respondAck).frTimer = s.frTimer := rfl
@[simp] theorem respondAck_abortReq : (s.respondAck).abortReq = s.abortReq := rfl
@[simp] theorem respondAck_linkOwned : (s.respondAck).linkOwned = s.linkOwned := rfl
@[simp] theorem respondAck_srcPending : (s.respondAck).srcPending = s.srcPending := rfl
@[simp] theorem respondAck_err : (s.respondAck).err = s.err := rfl
@[simp] theorem respondAck_irqStatus : (s.respondAck).irqStatus = s.irqStatus := rfl
@[simp] theorem respondAck_irqEnable : (s.respondAck).irqEnable = s.irqEnable := rfl
@[simp] theorem respondAck_port : (s.respondAck).port = { s.port with out := s.port.out ++ [.frame (encodeFrame s.cfg s.cfg.cmdAck [])] } := rfl

/-! ### `respondNack` -/

@[simp] theorem respondNack_cfg : (s.respondNack).cfg = s.cfg := rfl
@[simp] theorem respondNack_conf : (s.respondNack).conf = s.conf := rfl
@[simp] theorem respondNack_desc : (s.respondNack).desc = s.desc := rfl
@[simp] theorem respondNack_phase : (s.respondNack).phase = s.phase := rfl
@[simp] theorem respondNack_act : (s.respondNack).act = s.act := rfl
@[simp] theorem respondNack_xsub : (s.respondNack).xsub = s.xsub := rfl
@[simp] theorem respondNack_sess : (s.respondNack).sess = s.sess := rfl
@[simp] theorem respondNack_curname : (s.respondNack).curname = s.curname := rfl
@[simp] theorem respondNack_rxname : (s.respondNack).rxname = s.rxname := rfl
@[simp] theorem respondNack_txbuf : (s.respondNack).txbuf = s.txbuf := rfl
@[simp] theorem respondNack_parser : (s.respondNack).parser = s.parser := rfl
@[simp] theorem respondNack_hsTimer : (s.respondNack).hsTimer = s.hsTimer := rfl
@[simp] theorem respondNack_frTimer : (s.respondNack).frTimer = s.frTimer := rfl
@[simp] theorem respondNack_abortReq : (s.respondNack).abortReq = s.abortReq := rfl
@[simp] theorem respondNack_linkOwned : (s.respondNack).linkOwned = s.linkOwned := rfl
@[simp] theorem respondNack_srcPending : (s.respondNack).srcPending = s.srcPending := rfl
@[simp] theorem respondNack_err : (s.respondNack).err = s.err := rfl
@[simp] theorem respondNack_irqStatus : (s.respondNack).irqStatus = s.irqStatus := rfl
@[simp] theorem respondNack_irqEnable : (s.respondNack).irqEnable = s.irqEnable := rfl
@[simp] theorem respondNack_port : (s.respondNack).port = { s.port with out := s.port.out ++ [.frame (encodeFrame s.cfg s.cfg.cmdNack [])] } := rfl

/-! ### `newSession` -/

@[simp] theorem newSession_cfg : (s.newSession).cfg = s.cfg := rfl
@[simp] theorem newSession_conf : (s.newSession).conf = s.conf := rfl
@[simp] theorem newSession_desc : (s.newSession).desc = s.desc := rfl
@[simp] theorem newSession_phase : (s.newSession).phase = s.phase := rfl
@[simp] theorem newSession_act : (s.newSession).act = s.act := rfl
@[simp] theorem newSession_xsub : (s.newSession).xsub = .info := rfl
@[simp] theorem newSession_sess : (s.newSession).sess = ⟨0#8, 0#8, 0#8, 0#32, 0#32, 0#16, 0#8, 0#32, 0#16⟩ := rfl
@[simp] theorem newSession_curname : (s.newSession).curname = [] := rfl
@[simp] theorem newSession_rxname : (s.newSession).rxname = s.rxname := rfl
@[simp] theorem newSession_txbuf : (s.newSession).txbuf = s.txbuf := rfl
@[simp] theorem newSession_parser : (s.newSession).parser = s.parser := rfl
@[simp] theorem newSession_hsTimer : (s.newSession).hsTimer = s.conf.hsTimeout := rfl
@[simp] theorem newSession_frTimer : (s.newSession).frTimer = 0#32 := rfl
@[simp] theorem newSession_abortReq : (s.newSession).abortReq = false := rfl
@[simp] theorem newSession_linkOwned : (s.newSession).linkOwned = true := rfl
@[simp] theorem newSession_srcPending : (s.newSession).srcPending = false := rfl
@[simp] theorem newSession_err : (s.newSession).err = ⟨.none, .idle, .none, 0#32, 0#32⟩ := rfl
@[simp] theorem newSession_irqStatus : (s.newSession).irqStatus = s.irqStatus := rfl
@[simp] theorem newSession_irqEnable : (s.newSession).irqEnable = s.irqEnable := rfl
@[simp] theorem newSession_port : (s.newSession).port = s.port := rfl

end Sys2Proof.Machine.State
end

