-- ==== Sys2Proof/Laws/Ops.lean ====
section
/-! SUPPORT. One lemma for each shared operation that branches: everything it can do, said once. Later proofs cite these and
do not unfold the operations. -/

namespace Sys2Proof.Machine

/-! ### The transmitted frames -/

@[simp] theorem Ports.frames_mk (p : Ports) (es : List Event) (q : List Byte) : Ports.frames ⟨es, q, p.out⟩ = p.frames := rfl

@[simp] theorem Ports.frames_frame (es : List Event) (q : List Byte) (o : List Output) (f : List Byte) :
    Ports.frames ⟨es, q, o ++ [.frame f]⟩ = Ports.frames ⟨es, q, o⟩ ++ [f] := by simp [Ports.frames]

@[simp] theorem Ports.frames_sink (es : List Event) (q : List Byte) (o : List Output) (e : SinkEvent) :
    Ports.frames ⟨es, q, o ++ [.sink e]⟩ = Ports.frames ⟨es, q, o⟩ := by simp [Ports.frames]

@[simp] theorem Ports.frames_srcReq (es : List Event) (q : List Byte) (o : List Output) (r : SrcReq) :
    Ports.frames ⟨es, q, o ++ [.srcReq r]⟩ = Ports.frames ⟨es, q, o⟩ := by simp [Ports.frames]

@[simp] theorem Ports.frames_hostRead (es : List Event) (q : List Byte) (o : List Output) (a : BitVec 16) (v : Word) :
    Ports.frames ⟨es, q, o ++ [.hostRead a v]⟩ = Ports.frames ⟨es, q, o⟩ := by simp [Ports.frames]

/-- A request just emitted is the last frame emitted, whatever the engine does next with `act`. -/
@[simp] theorem State.requestSent_emitRequest (f : List Byte) (s : State) (a : Act) :
    ({ s.emitRequest f with act := a } : State).requestSent = true := by
  simp [State.requestSent]

/-! ### The parser outside a frame wait -/

@[simp] theorem State.parserIdle_fail (s : State) (code : ErrCode) (e o : Word) : (s.fail code e o).parserIdle = true := rfl

/-- In a frame wait the parser may hold a partial frame. -/
theorem State.parserIdle_waits {s : State} (h : s.act.waits = true) : s.parserIdle = true := by
  simp [State.parserIdle, h]

/-! ### Operations that branch -/

/-- `enter(A)` fails on a latched abort between exchanges; else it enters, with a fresh parser and, outside the handshake
phases, a fresh frame timer for a wait. -/
theorem State.enter_cases (a : Act) (s : State) :
    (s.abortReq = true ∧ a.betweenExchanges = true ∧ s.enter a = s.fail .aborted 0#32 0#32) ∨
    ((s.abortReq = false ∨ a.betweenExchanges = false) ∧ a.waits = true ∧
      s.enter a = { s with
        act := a, parser.hc := 0#3, parser.pcnt := 0#16
        frTimer := if s.phase.handshake then s.frTimer else s.conf.frTimeout }) ∨
    ((s.abortReq = false ∨ a.betweenExchanges = false) ∧ a.waits = false ∧ s.enter a = { s with act := a }) := by
  by_cases h : (s.abortReq && a.betweenExchanges) = true
  · have h' := h
    rw [Bool.and_eq_true] at h'
    exact .inl ⟨h'.1, h'.2, by rw [State.enter, if_pos h]⟩
  · have h' : s.abortReq = false ∨ a.betweenExchanges = false := by
      rcases Bool.eq_false_or_eq_true s.abortReq with h1 | h1
      · rcases Bool.eq_false_or_eq_true a.betweenExchanges with h2 | h2
        · exact absurd (by rw [h1, h2]; rfl) h
        · exact .inr h2
      · exact .inl h1
    by_cases hw : a.waits = true
    · refine .inr (.inl ⟨h', hw, ?_⟩)
      rw [State.enter, if_neg h, if_pos hw, State.reloadFrameTimer]
      show (if s.phase.handshake = true then _ else _) = _
      by_cases hp : s.phase.handshake = true
      · rw [if_pos hp, if_pos hp]; rfl
      · rw [if_neg hp, if_neg hp]; rfl
    · exact .inr (.inr ⟨h', by simpa using hw, by rw [State.enter, if_neg h, if_neg hw]⟩)

/-- Entering an activity with no abort latched. -/
theorem State.enter_of_no_abort {s : State} (h : s.abortReq = false) (a : Act) :
    s.enter a =
      if a.waits then ({ s with act := a }.parserReset).reloadFrameTimer else { s with act := a } := by
  simp [State.enter, h]

/-- `file_complete()` ends the session on the last file and otherwise moves to the next file's info exchange. -/
theorem State.fileComplete_cases (s : State) :
    (s.sess.filePtr + 1#8 = s.sess.pendCount ∧
      s.fileComplete = ({ (s.irqSet .file) with sess.filePtr := s.sess.filePtr + 1#8 }).finish) ∨
    (s.sess.filePtr + 1#8 ≠ s.sess.pendCount ∧
      s.fileComplete = ({ (s.irqSet .file) with sess.filePtr := s.sess.filePtr + 1#8, xsub := .info }).enter
        (if s.conf.send then .txreq else .wreq)) := by
  by_cases h : s.sess.filePtr + 1#8 = s.sess.pendCount
  · exact .inl ⟨h, if_pos h⟩
  · exact .inr ⟨h, if_neg h⟩

/-- What an unexpected frame can do. -/
theorem State.unexpectedFrame_next {cmd : Byte} {s t : State} (h : s.unexpectedFrame cmd = .next t) :
    (s.act = .wreq ∧ t = s.unexpectedInRequest cmd) ∨ (s.act = .wrsp ∧ t = s.unexpectedInAnswer cmd) := by
  unfold State.unexpectedFrame at h
  split at h
  · exact .inl ⟨‹_›, by injection h with h; exact h.symm⟩
  · exact .inr ⟨‹_›, by injection h with h; exact h.symm⟩
  · cases h

/-- What a request frame can do. -/
theorem State.onRequest_next {cmd : Byte} {rule : State → State} {s t : State}
    (h : s.onRequest cmd rule = .next t) :
    (s.act = .wreq ∧ cmd ∈ expected s.cfg s.phase ∧ t = rule s) ∨
    (s.act = .wreq ∧ cmd ∉ expected s.cfg s.phase ∧ t = s.unexpectedInRequest cmd) ∨
    (s.act = .wrsp ∧ t = s.unexpectedInAnswer cmd) := by
  unfold State.onRequest at h
  split at h
  · rename_i hc
    exact .inl ⟨hc.1, hc.2, by injection h with h; exact h.symm⟩
  · rename_i hc
    rcases State.unexpectedFrame_next h with ⟨ha, ht⟩ | ⟨ha, ht⟩
    · exact .inr (.inl ⟨ha, fun hm => hc ⟨ha, hm⟩, ht⟩)
    · exact .inr (.inr ⟨ha, ht⟩)

/-- What an answer frame can do. -/
theorem State.onAnswer_next {cmd : Byte} {rule : State → State} {s t : State} (h : s.onAnswer cmd rule = .next t) :
    (s.act = .wrsp ∧ t = rule s) ∨ (s.act = .wreq ∧ t = s.unexpectedInRequest cmd) := by
  unfold State.onAnswer at h
  split at h
  · exact .inl ⟨‹_›, by injection h with h; exact h.symm⟩
  · rename_i hc
    rcases State.unexpectedFrame_next h with ⟨ha, ht⟩ | ⟨ha, ht⟩
    · exact .inr ⟨ha, ht⟩
    · exact absurd ha hc

/-- What a frame the parser rejects can do. -/
theorem State.badFrame_next {code : ErrCode} {e o : Word} {s t : State} (h : s.badFrame code e o = .next t) :
    (s.act = .wreq ∧ t = (s.recover code e o).respondNack.enter .wreq) ∨ (s.act = .wrsp ∧ t = s.recover code e o) := by
  unfold State.badFrame at h
  split at h
  · exact .inl ⟨‹_›, by injection h with h; exact h.symm⟩
  · exact .inr ⟨‹_›, by injection h with h; exact h.symm⟩
  · cases h

/-- A frame completes in a frame wait: its meaning answers a next state. -/
theorem State.onRequest_waits {s : State} (h : s.act.waits = true) (cmd : Byte) (rule : State → State) :
    ∃ t, s.onRequest cmd rule = .next t := by
  unfold State.onRequest State.unexpectedFrame
  split
  · exact ⟨_, rfl⟩
  · cases ha : s.act <;> simp_all [Act.waits]

theorem State.onAnswer_waits {s : State} (h : s.act.waits = true) (cmd : Byte) (rule : State → State) :
    ∃ t, s.onAnswer cmd rule = .next t := by
  unfold State.onAnswer State.unexpectedFrame
  split
  · exact ⟨_, rfl⟩
  · cases ha : s.act <;> simp_all [Act.waits]

theorem State.badFrame_waits {s : State} (h : s.act.waits = true) (code : ErrCode) (e o : Word) :
    ∃ t, s.badFrame code e o = .next t := by
  unfold State.badFrame
  cases ha : s.act <;> simp_all [Act.waits]

/-- What the file-info step does (44_transfer.md R435), its values named. -/
theorem sendInfo_next {s t : State} (h : sendInfo s = .next t) :
    s.sess.filePtr.toNat < s.cfg.maxFiles ∧
    ∃ (name f : List Byte) (size : Word) (index : Byte),
      name = descName s.cfg s.desc s.sess.filePtr.toNat ∧
      size = descSize s.cfg s.desc s.sess.filePtr.toNat ∧
      index = descIndex s.cfg s.desc s.sess.filePtr.toNat ∧
      f = encodeFrame s.cfg s.cfg.cmdFileData ([index] ++ bytes32 size ++ name) ∧
      t = State.enter .wrsp { s with
        sess.curSize := size, sess.curIndex := index, sess.bytesDone := 0#32, sess.chunkIdx := 0#16, sess.txN := 0#16
        curname := Memory.writeN s.curname 0 name, txbuf := f, port.out := s.port.out ++ [.frame f] } := by
  unfold sendInfo at h
  split at h
  · simp only at h
    generalize hn : descName s.cfg s.desc s.sess.filePtr.toNat = name at h
    generalize hs : descSize s.cfg s.desc s.sess.filePtr.toNat = size at h
    generalize hx : descIndex s.cfg s.desc s.sess.filePtr.toNat = index at h
    injection h with h
    exact ⟨‹_›, name, _, size, index, rfl, rfl, rfl, rfl, h.symm⟩
  · cases h

/-- START completes in every state (46_host_commands.md R505). -/
theorem execStart_completes (s : State) : ∃ t, execStart s = .next t := by
  unfold execStart
  split
  · exact ⟨_, rfl⟩
  · split <;> exact ⟨_, rfl⟩

/-- ABORT completes in every state (46_host_commands.md R508). -/
theorem execAbort_completes (s : State) : ∃ t, execAbort s = .next t := by
  unfold execAbort
  split
  · split <;> exact ⟨_, rfl⟩
  · exact ⟨_, rfl⟩

/-- RETRY completes in every state (46_host_commands.md R512). -/
theorem execRetry_completes (s : State) : ∃ t, execRetry s = .next t := by
  unfold execRetry
  split <;> exact ⟨_, rfl⟩

/-- Every instruction completes in a frame wait. -/
theorem exec_waits {s : State} (h : s.act.waits = true) (i : Instr) : ∃ t, exec i s = .next t := by
  cases i with
  | handshake p => exact State.onRequest_waits h s.cfg.cmdHandshake (handshakeRule p)
  | fileList p => exact State.onRequest_waits h s.cfg.cmdFileList (fileListRule p)
  | fileDataInfo p => exact State.onRequest_waits h s.cfg.cmdFileData (fileDataRule p)
  | fileDataChunk p => exact State.onRequest_waits h s.cfg.cmdFileData (fileDataRule p)
  | fileEnd p => exact State.onRequest_waits h s.cfg.cmdFileEnd (fileEndRule p)
  | ack p => exact State.onAnswer_waits h s.cfg.cmdAck (ackRule p)
  | nack p => exact State.onAnswer_waits h s.cfg.cmdNack (nackRule p)
  | start => exact execStart_completes s
  | abort => exact execAbort_completes s
  | retry => exact execRetry_completes s

/-- A host command word decodes to one of the three commands, by its code. -/
theorem decodeCommand_ok {w : Word} {i : Instr} (h : decodeCommand w = .ok i) :
    (i = .start ∧ w.extractLsb' 0 8 = 0x01#8) ∨ (i = .abort ∧ w.extractLsb' 0 8 = 0x02#8) ∨
      (i = .retry ∧ w.extractLsb' 0 8 = 0x03#8) := by
  unfold decodeCommand at h
  simp only at h
  split at h
  · exact .inl ⟨by injection h with h; exact h.symm, ‹_›⟩
  · split at h
    · exact .inr (.inl ⟨by injection h with h; exact h.symm, ‹_›⟩)
    · split at h
      · exact .inr (.inr ⟨by injection h with h; exact h.symm, ‹_›⟩)
      · cases h

/-- A host command completes in every state. -/
theorem exec_command {w : Word} {i : Instr} (h : decodeCommand w = .ok i) (s : State) : ∃ t, exec i s = .next t := by
  rcases decodeCommand_ok h with ⟨rfl, -⟩ | ⟨rfl, -⟩ | ⟨rfl, -⟩
  · exact execStart_completes s
  · exact execAbort_completes s
  · exact execRetry_completes s

end Sys2Proof.Machine
end

