-- ==== Sys2Proof/Laws/PerInstr.lean ====
section
/-! SUPPORT. Laws stated instruction by instruction.

`TableRow`: every encoded instruction carries the fixed bits of its row of spec/opcode_table.json: the three bytes magic and
command of a frame (`match` under `mask` 0xFFFFFF over the header word, 30_encoding.md R201), or the eight bits of `CODE`
(`match` under `mask` 0xFF). -/

namespace Sys2Proof.Laws

/-- The fixed bits of an encoded instruction, as the table's `match` gives them. -/
def tableBits : Encoded → Nat
  | .frame bytes => (headerWord bytes).toNat % 2 ^ 24
  | .command w => w.toNat % 2 ^ 8

/-- The `match` of an instruction's row of spec/opcode_table.json. -/
def tableMatch : Instr → Nat
  | .handshake _ => 0x01AA55
  | .fileList _ => 0x02AA55
  | .fileDataInfo _ => 0x03AA55
  | .fileDataChunk _ => 0x03AA55
  | .fileEnd _ => 0x04AA55
  | .ack _ => 0x05AA55
  | .nack _ => 0x06AA55
  | .start => 0x01
  | .abort => 0x02
  | .retry => 0x03

/-- The low three bytes of the header word are the first three bytes of the frame. -/
theorem headerWord_low (bytes : List Byte) :
    (headerWord bytes).setWidth 24 = byteAt bytes 2 ++ byteAt bytes 1 ++ byteAt bytes 0 := by
  apply BitVec.eq_of_getLsbD_eq
  intro i hi
  have h : headerWord bytes = 0#48 ||| ((byteAt bytes 0).setWidth 48 <<< 0) ||| ((byteAt bytes 1).setWidth 48 <<< 8) |||
      ((byteAt bytes 2).setWidth 48 <<< 16) ||| ((byteAt bytes 3).setWidth 48 <<< 24) |||
      ((byteAt bytes 4).setWidth 48 <<< 32) ||| ((byteAt bytes 5).setWidth 48 <<< 40) := rfl
  rw [h]
  simp only [BitVec.getLsbD_setWidth, BitVec.getLsbD_or, BitVec.getLsbD_shiftLeft, BitVec.getLsbD_append,
    BitVec.getLsbD_zero]
  rcases (by omega : i < 8 ∨ (8 ≤ i ∧ i < 16) ∨ 16 ≤ i) with h1 | h1 | h1
  · simp [hi, h1, show i < 48 by omega, show i < 16 by omega, show i < 32 by omega,
      show i < 40 by omega]
  · simp [hi, show ¬ i < 8 by omega, show i < 48 by omega, show i < 16 by omega,
      show i < 32 by omega, show i < 40 by omega, show i - 8 < 48 by omega, show i - 8 < 8 by omega,
      BitVec.getLsbD_of_ge (byteAt bytes 0) i h1.1]
  · simp [hi, show ¬ i < 8 by omega, show i < 48 by omega, show ¬ i < 16 by omega,
      show i < 32 by omega, show i < 40 by omega, show i - 16 < 48 by omega, show ¬ i - 8 < 8 by omega,
      show i - 8 - 8 = i - 16 by omega,
      BitVec.getLsbD_of_ge (byteAt bytes 0) i (by omega), BitVec.getLsbD_of_ge (byteAt bytes 1) (i - 8) (by omega)]

namespace TableRow

/-- The encoding of the instruction, with the parameters this hardware takes, has its row's fixed bits. -/
def Statement (i : Instr) : Prop := tableBits (encode Config.default i) = tableMatch i

/-- The fixed bits of a frame are its command byte over the magic. -/
theorem frame (cmd : Byte) (p : List Byte) :
    tableBits (.frame (encodeFrame Config.default cmd p)) = (cmd ++ 0xAA#8 ++ 0x55#8).toNat := by
  have h := congrArg BitVec.toNat (headerWord_low (encodeFrame Config.default cmd p))
  rw [BitVec.toNat_setWidth] at h
  exact h

theorem handshake (p : List Byte) : Statement (.handshake p) := frame _ p
theorem fileList (p : List Byte) : Statement (.fileList p) := frame _ p
theorem fileDataInfo (p : List Byte) : Statement (.fileDataInfo p) := frame _ p
theorem fileDataChunk (p : List Byte) : Statement (.fileDataChunk p) := frame _ p
theorem fileEnd (p : List Byte) : Statement (.fileEnd p) := frame _ p
theorem ack (p : List Byte) : Statement (.ack p) := frame _ p
theorem nack (p : List Byte) : Statement (.nack p) := frame _ p
theorem start : Statement .start := rfl
theorem abort : Statement .abort := rfl
theorem retry : Statement .retry := rfl

end TableRow
end Sys2Proof.Laws
end

