-- ==== Sys2Proof/Laws/Step.lean ====
section
/-! SUPPORT. What a step can do: one inversion lemma for the step, for a received byte and for the parser. -/

namespace Sys2Proof.Machine

/-- A step to a next state: the parameters are legal, and either the schedule is empty and the engine takes its internal
step, or the schedule's first entry is run. -/
theorem step_next {s t : State} (h : step s = .next t) :
    s.cfg.legal = true ∧
      ((s.port.events = [] ∧ internalStep s = .next t) ∨
        ∃ e es, s.port.events = e :: es ∧ runEvent e { s with port.events := es } = .next t) := by
  unfold step stepOnce at h
  split at h
  · refine ⟨‹_›, ?_⟩
    split at h
    · exact .inl ⟨‹_›, h⟩
    · exact .inr ⟨_, _, ‹_›, h⟩
  · cases h

/-- A step with an entry in the schedule runs that entry. -/
theorem step_event {s : State} {e : Event} {es : List Event} (hc : s.cfg.legal = true) (h : s.port.events = e :: es) :
    step s = runEvent e { s with port.events := es } := by
  unfold step stepOnce
  rw [if_pos hc, h]

/-- A step with an empty schedule is the engine's own internal step. -/
theorem step_idle {s : State} (hc : s.cfg.legal = true) (h : s.port.events = []) : step s = internalStep s := by
  unfold step stepOnce
  rw [if_pos hc, h]

/-- The event `RxByte`: not enabled, nothing in the transport, or the transport's first byte received. -/
theorem rxByteStep_next {s t : State} (h : rxByteStep s = .next t) :
    ((s.consumes = false ∨ s.port.rxq = []) ∧ t = s) ∨
      ∃ b q, s.consumes = true ∧ s.port.rxq = b :: q ∧ receiveByte b { s with port.rxq := q } = .next t := by
  unfold rxByteStep at h
  split at h
  · split at h
    · exact .inl ⟨.inr ‹_›, by injection h with h; exact h.symm⟩
    · exact .inr ⟨_, _, ‹_›, ‹_›, h⟩
  · rename_i hc
    exact .inl ⟨.inl (by simpa using hc), by injection h with h; exact h.symm⟩

/-- A received byte: parsed with no outcome, or its outcome dispatched. -/
theorem receiveByte_next {b : Byte} {s t : State} (h : receiveByte b s = .next t) :
    (s.parser.headerStage s.cfg = true ∨ paybufImplemented s.cfg s.parser.pcnt.toNat = true) ∧
      ((parseByte b s = (t, none)) ∨
        ∃ u o, parseByte b s = (u, some o) ∧ onOutcome o u = .next t) := by
  unfold receiveByte at h
  split at h
  · cases h
  · rename_i hg
    refine ⟨?_, ?_⟩
    · cases h1 : s.parser.headerStage s.cfg <;> cases h2 : paybufImplemented s.cfg s.parser.pcnt.toNat <;> simp_all
    · split at h
      · rename_i u hp
        refine .inl ?_
        injection h with h
        rw [hp, h]
      · exact .inr ⟨_, _, ‹_›, h⟩

/-- A parser outcome is dispatched: a rejected frame, an instruction, or a code that is no command. -/
theorem onOutcome_next {o : ParseOutcome} {s t : State} (h : onOutcome o s = .next t) :
    (∃ m, o = .badMagic m ∧ s.badFrame .badMagic (s.cfg.magic.setWidth 32) (m.setWidth 32) = .next t) ∨
    (∃ c k, o = .csumBad c k ∧ s.badFrame .checksumMismatch (c.setWidth 32) (k.setWidth 32) = .next t) ∨
    (∃ cmd len p i, o = .frame cmd len p ∧ decodeBody s.cfg s.xsub cmd p = some i ∧ exec i s = .next t) ∨
    (∃ cmd len p, o = .frame cmd len p ∧ decodeBody s.cfg s.xsub cmd p = none ∧ s.unexpectedFrame cmd = .next t) := by
  cases o with
  | badMagic m => exact .inl ⟨m, rfl, h⟩
  | csumBad c k => exact .inr (.inl ⟨c, k, rfl, h⟩)
  | frame cmd len p =>
    unfold onOutcome at h
    simp only at h
    split at h
    · exact .inr (.inr (.inl ⟨cmd, len, p, _, rfl, ‹_›, h⟩))
    · exact .inr (.inr (.inr ⟨cmd, len, p, rfl, ‹_›, h⟩))

/-! ### Parsing a byte -/

/-- What parsing leaves of a state when it ends a frame: a byte stored, the header fields of the frame, the counts at 0. -/
def Parser.finished (p : Parser) (hdr : Header) (plen : Half) (pcmd pcsum : Byte) (paybuf : Memory) : Parser :=
  { p with hc := 0#3, pcnt := 0#16, hdr := hdr, plen := plen, pcmd := pcmd, pcsum := pcsum, paybuf := paybuf }

/-- Everything parsing one byte can do to a state: count a header byte, complete a header that has a payload, count a
payload byte, or end a frame with an outcome. Only the parser and, at a header's completion, the frame timer change. -/
inductive Parsed (b : Byte) (s : State) : State → Option ParseOutcome → Prop where
  | header (h : s.parser.headerStage s.cfg = true) (hc : s.parser.hc + 1#3 ≠ 6#3) :
    Parsed b s { s with parser.hdr := s.parser.hdr.set s.parser.hc.toNat b, parser.hc := s.parser.hc + 1#3 } none
  | headerEnd (hdr : Header) (h : s.parser.headerStage s.cfg = true) (hc : s.parser.hc + 1#3 = 6#3)
    (hh : hdr = s.parser.hdr.set s.parser.hc.toNat b) (hm : le16 hdr.bytes 0 = s.cfg.magic)
    (hl : le16 hdr.bytes 3 ≠ 0#16) :
    Parsed b s { s with
      parser.hdr := hdr, parser.hc := 6#3, parser.pcnt := 0#16, parser.pcmd := byteAt hdr.bytes 2
      parser.plen := le16 hdr.bytes 3, parser.pcsum := byteAt hdr.bytes 5
      frTimer := if s.phase.handshake then s.frTimer else s.conf.frTimeout } none
  | payload (h : s.parser.headerStage s.cfg = false) (hc : s.parser.pcnt + 1#16 ≠ s.parser.plen) :
    Parsed b s { s with
      parser.paybuf := Memory.write s.parser.paybuf s.parser.pcnt.toNat b, parser.pcnt := s.parser.pcnt + 1#16 } none
  | badMagic (hdr : Header) (h : s.parser.headerStage s.cfg = true) (hc : s.parser.hc + 1#3 = 6#3)
    (hh : hdr = s.parser.hdr.set s.parser.hc.toNat b) (hm : le16 hdr.bytes 0 ≠ s.cfg.magic) :
    Parsed b s { s with parser.hdr := hdr, parser.hc := 0#3, parser.pcnt := 0#16 } (some (.badMagic (le16 hdr.bytes 0)))
  | emptyFrame (hdr : Header) (h : s.parser.headerStage s.cfg = true) (hc : s.parser.hc + 1#3 = 6#3)
    (hh : hdr = s.parser.hdr.set s.parser.hc.toNat b) (hm : le16 hdr.bytes 0 = s.cfg.magic)
    (hl : le16 hdr.bytes 3 = 0#16) :
    Parsed b s { s with
      parser := s.parser.finished hdr 0#16 (byteAt hdr.bytes 2) (byteAt hdr.bytes 5) s.parser.paybuf }
      (some (if 0#8 ≠ byteAt hdr.bytes 5 then .csumBad 0#8 (byteAt hdr.bytes 5)
        else .frame (byteAt hdr.bytes 2) 0#16 []))
  | fullFrame (m : Memory) (h : s.parser.headerStage s.cfg = false) (hc : s.parser.pcnt + 1#16 = s.parser.plen)
    (hm : m = Memory.write s.parser.paybuf s.parser.pcnt.toNat b) :
    Parsed b s { s with
      parser := s.parser.finished s.parser.hdr s.parser.plen s.parser.pcmd s.parser.pcsum m }
      (some (if xorfold (Memory.readN m 0 s.parser.plen.toNat) ≠ s.parser.pcsum
        then .csumBad (xorfold (Memory.readN m 0 s.parser.plen.toNat)) s.parser.pcsum
        else .frame s.parser.pcmd s.parser.plen (Memory.readN m 0 s.parser.plen.toNat)))

/-- With legal parameters the header stage is `hc` < 6 (10_state.md R63). -/
theorem Parser.headerStage_eq {c : Config} (hl : c.legal = true) (p : Parser) :
    p.headerStage c = decide (p.hc.toNat < 6) := by
  rw [Parser.headerStage, (Config.legal_layout hl).1]

/-- With legal parameters a header is complete at its sixth byte (40_codec.md R261). -/
theorem headerFull_iff {c : Config} (hl : c.legal = true) (x : BitVec 3) : x.toNat = c.hdrBytes ↔ x = 6#3 := by
  rw [(Config.legal_layout hl).1]
  exact ⟨fun h => BitVec.eq_of_toNat_eq h, fun h => by rw [h]; rfl⟩

/-- Parsing a byte does one of the things `Parsed` lists. -/
theorem parseByte_parsed {s : State} (hl : s.cfg.legal = true) (b : Byte) : Parsed b s (parseByte b s).1 (parseByte b s).2 := by
  unfold parseByte
  split
  · rename_i h
    unfold headerByte
    simp only
    split
    · rename_i hc
      replace hc := (headerFull_iff hl _).1 hc
      unfold headerComplete
      simp only
      split
      · exact .badMagic _ h hc rfl ‹_›
      · rename_i hm
        split
        · rename_i hl
          have := Parsed.emptyFrame _ h hc rfl (not_not.mp hm) hl
          unfold frameComplete
          simp only at hl ⊢
          simpa [State.parserReset, Parser.finished, Memory.readN, hl] using this
        · rename_i hl
          have := Parsed.headerEnd _ h hc rfl (not_not.mp hm) hl
          unfold State.reloadFrameTimer
          by_cases hp : s.phase.handshake = true
          · simpa [hp, hc] using this
          · simpa [hp, hc] using this
    · rename_i hc
      exact .header h fun e => hc ((headerFull_iff hl _).2 e)
  · rename_i h
    have h' : s.parser.headerStage s.cfg = false := by simpa using h
    unfold payloadByte
    simp only
    split
    · rename_i hc
      exact .fullFrame _ h' hc rfl
    · exact .payload h' ‹_›

/-! ### Everything a step can do -/

/-- Everything the dispatch of a parser outcome can do (41_session.md R310). -/
inductive Dispatched (u : State) : State → Prop where
  | nacked (code : ErrCode) (e o : Word) (ha : u.act = .wreq) (hcode : code ≠ .none) :
    Dispatched u ((u.recover code e o).respondNack.enter .wreq)
  | ignored (code : ErrCode) (e o : Word) (ha : u.act = .wrsp) (hcode : code ≠ .none) :
    Dispatched u (u.recover code e o)
  | wrongRequest (cmd : Byte) (ha : u.act = .wreq) (hc : cmd ∉ expected u.cfg u.phase) :
    Dispatched u (u.unexpectedInRequest cmd)
  | wrongAnswer (cmd : Byte) (ha : u.act = .wrsp) : Dispatched u (u.unexpectedInAnswer cmd)
  | handshake (p : List Byte) (ha : u.act = .wreq) (hp : u.phase = .awaitingHandshake) :
    Dispatched u (handshakeRule p u)
  | fileList (p : List Byte) (ha : u.act = .wreq) (hp : u.phase = .awaitingFileList) :
    Dispatched u (fileListRule p u)
  | fileData (p : List Byte) (ha : u.act = .wreq) (hp : u.phase = .transferringFile) :
    Dispatched u (fileDataRule p u)
  | fileEnd (p : List Byte) (ha : u.act = .wreq) (hp : u.phase = .transferringFile) :
    Dispatched u (fileEndRule p u)
  | ack (p : List Byte) (ha : u.act = .wrsp) : Dispatched u (ackRule p u)
  | nack (p : List Byte) (ha : u.act = .wrsp) : Dispatched u (nackRule p u)

theorem dispatched_badFrame {code : ErrCode} {e o : Word} {u t : State} (hcode : code ≠ .none)
    (h : u.badFrame code e o = .next t) : Dispatched u t := by
  rcases State.badFrame_next h with ⟨ha, rfl⟩ | ⟨ha, rfl⟩
  · exact .nacked code e o ha hcode
  · exact .ignored code e o ha hcode

theorem dispatched_unexpected {cmd : Byte} {u t : State} (hc : u.act = .wreq → cmd ∉ expected u.cfg u.phase)
    (h : u.unexpectedFrame cmd = .next t) : Dispatched u t := by
  rcases State.unexpectedFrame_next h with ⟨ha, rfl⟩ | ⟨ha, rfl⟩
  · exact .wrongRequest cmd ha (hc ha)
  · exact .wrongAnswer cmd ha

/-- The codes a wait expects are codes of requests. -/
theorem expected_request {c : Config} {ph : Phase} {cmd : Byte} (h : cmd ∈ expected c ph) :
    cmd = c.cmdHandshake ∨ cmd = c.cmdFileList ∨ cmd = c.cmdFileData ∨ cmd = c.cmdFileEnd := by
  unfold expected at h
  cases ph <;> simp at h
  · exact .inl h
  · exact .inr (.inl h)
  · rcases h with h | h
    · exact .inr (.inr (.inl h))
    · exact .inr (.inr (.inr h))

/-- A code that decodes to no instruction is none of the six codes. -/
theorem decodeBody_none {c : Config} {x : XSub} {cmd : Byte} {p : List Byte} (h : decodeBody c x cmd p = none) :
    cmd ∉ c.codes := by
  unfold decodeBody at h
  repeat' split at h
  all_goals first
    | (simp only [Config.codes, List.mem_cons, List.not_mem_nil, or_false, not_or]; exact ⟨‹_›, ‹_›, ‹_›, ‹_›, ‹_›, ‹_›⟩)
    | cases h

theorem dispatched_request {cmd : Byte} {rule : State → State} {u t : State}
    (hr : u.act = .wreq → cmd ∈ expected u.cfg u.phase → Dispatched u (rule u)) (h : u.onRequest cmd rule = .next t) :
    Dispatched u t := by
  rcases State.onRequest_next h with ⟨ha, hc, rfl⟩ | ⟨ha, hc, rfl⟩ | ⟨ha, rfl⟩
  · exact hr ha hc
  · exact .wrongRequest cmd ha hc
  · exact .wrongAnswer cmd ha

theorem dispatched_answer {cmd : Byte} {rule : State → State} {u t : State}
    (hcmd : cmd ∉ expected u.cfg u.phase) (hr : u.act = .wrsp → Dispatched u (rule u))
    (h : u.onAnswer cmd rule = .next t) : Dispatched u t := by
  rcases State.onAnswer_next h with ⟨ha, rfl⟩ | ⟨ha, rfl⟩
  · exact hr ha
  · exact .wrongRequest cmd ha hcmd

/-- With legal parameters each request is expected in one phase. -/
theorem request_phase {c : Config} (hl : c.legal = true) (ph : Phase) :
    (c.cmdHandshake ∈ expected c ph → ph = .awaitingHandshake) ∧ (c.cmdFileList ∈ expected c ph → ph = .awaitingFileList) ∧
    (c.cmdFileData ∈ expected c ph → ph = .transferringFile) ∧ (c.cmdFileEnd ∈ expected c ph → ph = .transferringFile) := by
  have h := Config.legal_codes hl
  simp only [Config.codes, List.nodup_cons, List.mem_cons, List.not_mem_nil, or_false, not_or] at h
  obtain ⟨⟨h1, h2, h3, h4, h5⟩, ⟨h6, h7, h8, h9⟩, ⟨h10, h11, h12⟩, ⟨h13, h14⟩, h15, -⟩ := h
  cases ph <;> simp [expected, h1, h2, h3, h6, h7, h10, Ne.symm h1, Ne.symm h2, Ne.symm h3, Ne.symm h6, Ne.symm h7]

/-- With legal parameters no wait for a request expects an answer. -/
theorem ack_not_expected {c : Config} (hl : c.legal = true) (ph : Phase) :
    c.cmdAck ∉ expected c ph ∧ c.cmdNack ∉ expected c ph := by
  have h := Config.legal_codes hl
  simp only [Config.codes, List.nodup_cons, List.mem_cons, List.not_mem_nil, or_false, not_or] at h
  obtain ⟨⟨h1, h2, h3, h4, h5⟩, ⟨h6, h7, h8, h9⟩, ⟨h10, h11, h12⟩, ⟨h13, h14⟩, h15, -⟩ := h
  constructor <;> intro hm <;> rcases expected_request hm with e | e | e | e <;> simp_all

/-- The dispatch of an outcome does one of the things `Dispatched` lists. -/
theorem onOutcome_dispatched {o : ParseOutcome} {u t : State} (hl : u.cfg.legal = true) (h : onOutcome o u = .next t) :
    Dispatched u t := by
  rcases onOutcome_next h with ⟨m, -, h⟩ | ⟨c, k, -, h⟩ | ⟨cmd, len, p, i, -, hd, h⟩ | ⟨cmd, len, p, -, hd, h⟩
  · exact dispatched_badFrame (by decide) h
  · exact dispatched_badFrame (by decide) h
  · cases i with
    | handshake p => exact dispatched_request (rule := handshakeRule p) (fun ha hp => .handshake p ha ((request_phase hl _).1 hp)) h
    | fileList p => exact dispatched_request (rule := fileListRule p) (fun ha hp => .fileList p ha ((request_phase hl _).2.1 hp)) h
    | fileDataInfo p => exact dispatched_request (rule := fileDataRule p) (fun ha hp => .fileData p ha ((request_phase hl _).2.2.1 hp)) h
    | fileDataChunk p => exact dispatched_request (rule := fileDataRule p) (fun ha hp => .fileData p ha ((request_phase hl _).2.2.1 hp)) h
    | fileEnd p => exact dispatched_request (rule := fileEndRule p) (fun ha hp => .fileEnd p ha ((request_phase hl _).2.2.2 hp)) h
    | ack p => exact dispatched_answer (rule := ackRule p) (ack_not_expected hl _).1 (fun ha => .ack p ha) h
    | nack p => exact dispatched_answer (rule := nackRule p) (ack_not_expected hl _).2 (fun ha => .nack p ha) h
    | start => cases (decodeBody_some hd).2
    | abort => cases (decodeBody_some hd).2
    | retry => cases (decodeBody_some hd).2
  · refine dispatched_unexpected (fun _ hm => decodeBody_none hd ?_) h
    rcases expected_request hm with e | e | e | e <;> simp [Config.codes, e]

/-- Everything the event `e` can do to the state `s` it runs in (the schedule's entry already taken), for a state with legal
parameters. -/
inductive Moved (e : Event) (s : State) : State → Prop where
  | stay : Moved e s s
  | peer (b : Byte) (he : e = .peer b) : Moved e s { s with port.rxq := s.port.rxq ++ [b] }
  | parsed (b : Byte) (q : List Byte) (u : State) (hc : s.consumes = true) (hq : s.port.rxq = b :: q)
    (hp : Parsed b { s with port.rxq := q } u none) (hb : s.parser.headerStage s.cfg = true ∨ s.parser.pcnt.toNat < 65535)
    (he : e = .rxByte) : Moved e s u
  | completed (b : Byte) (q : List Byte) (u t : State) (o : ParseOutcome) (hc : s.consumes = true)
    (hq : s.port.rxq = b :: q) (hp : Parsed b { s with port.rxq := q } u (some o))
    (hb : s.parser.headerStage s.cfg = true ∨ s.parser.pcnt.toNat < 65535) (hd : Dispatched u t) (he : e = .rxByte) : Moved e s t
  | tick (he : e = .tick) : Moved e s (tickStep s)
  | start (ha : s.phase.active = false) (v : Word) (he : e = .hostWrite 4 0x0004#16 v) (hv : v.extractLsb' 0 8 = 0x01#8) :
    Moved e s (if s.conf.initiator then { s.newSession with phase := .sendingHandshake }.enter .txreq
      else { s.newSession with phase := .awaitingHandshake }.enter .wreq)
  | abortNow (ha : s.phase.active = true) (hx : s.act = .txreq ∨ s.act = .wsrc ∨ s.act = .whost ∨ s.act = .adv)
    (v : Word) (he : e = .hostWrite 4 0x0004#16 v) : Moved e s (s.fail .aborted 0#32 0#32)
  | abortLatched (ha : s.phase.active = true)
    (hx : ¬ (s.act = .txreq ∨ s.act = .wsrc ∨ s.act = .whost ∨ s.act = .adv)) (v : Word)
    (he : e = .hostWrite 4 0x0004#16 v) : Moved e s { s with abortReq := true }
  | retry (ha : s.act = .whost) (v : Word) (he : e = .hostWrite 4 0x0004#16 v) :
    Moved e s ((s.emitRequest s.txbuf).enter .wrsp)
  | irqClear (v : Word) (he : e = .hostWrite 4 0x000C#16 v) : Moved e s (s.irqClear (v.extractLsb' 0 5))
  | irqEnable (v : Word) (he : e = .hostWrite 4 0x0010#16 v) : Moved e s { s with irqEnable := v.extractLsb' 0 5 }
  | configure (v : Word) (a : BitVec 16) (ha : s.phase.active = false) (h4 : a.toNat % 4 = 0)
    (he : e = .hostWrite 4 a v) : Moved e s (s.writeConf v (hifLoc s.cfg a.toNat))
  | hostRead (a : BitVec 16) (v : Word) (he : e = .hostRead 4 a) :
    Moved e s { s with port.out := s.port.out ++ [.hostRead a v] }
  | srcResp (d : List Byte) (hs : s.srcPending = true) (ha : s.act = .wsrc) (hd : d.length = s.chunkLen)
    (he : e = .srcResp d) :
    Moved e s ({ ({ s with srcPending := false }.emitRequest
        (encodeFrame s.cfg s.cfg.cmdFileData
          (bytes16 s.sess.chunkIdx ++ bytes16 (BitVec.ofNat 16 s.chunkLen) ++ d))) with
        sess.txN := BitVec.ofNat 16 s.chunkLen }.enter .wrsp)
  | reset (u : PowerUp) (he : e = .reset u) : Moved e s (resetStep u s)
  | adv (ha : s.act = .adv) (hp : s.phase = .handshakeDone) (he : e = .internal) : Moved e s (advStep s)
  | sendHandshake (ha : s.act = .txreq) (hp : s.phase = .sendingHandshake) (he : e = .internal) : Moved e s (sendHandshake s)
  | sendFileList (ha : s.act = .txreq) (hp : s.phase = .sendingFileList) (he : e = .internal) : Moved e s (sendFileList s)
  | sendInfo (t : State) (ha : s.act = .txreq) (hp : s.phase = .transferringFile) (hx : s.xsub = .info)
    (ht : sendInfo s = .next t) (he : e = .internal) : Moved e s t
  | sendChunk (ha : s.act = .txreq) (hp : s.phase = .transferringFile) (hx : s.xsub = .chunks) (he : e = .internal) :
    Moved e s (sendChunkRequest s)

theorem internalStep_moved {s t : State} (h : internalStep s = .next t) : Moved .internal s t := by
  unfold internalStep at h
  split at h
  · split at h
    · cases h; exact .adv ‹_› ‹_› rfl
    · cases h
  · split at h
    · cases h; exact .sendHandshake ‹_› ‹_› rfl
    · cases h; exact .sendFileList ‹_› ‹_› rfl
    · split at h
      · exact .sendInfo t ‹_› ‹_› ‹_› h rfl
      · cases h; exact .sendChunk ‹_› ‹_› ‹_› rfl
    · cases h
  · cases h; exact .stay

theorem parser_bound {c : Config} (hl : c.legal = true) {p : Parser}
    (h : p.headerStage c = true ∨ paybufImplemented c p.pcnt.toNat = true) :
    p.headerStage c = true ∨ p.pcnt.toNat < 65535 := by
  simpa [paybufImplemented, (Config.legal_layout hl).2.1] using h

theorem parseByte_cfg {s : State} (hl : s.cfg.legal = true) (b : Byte) : (parseByte b s).1.cfg = s.cfg := by
  have h := parseByte_parsed hl b
  generalize (parseByte b s).1 = u at h ⊢
  generalize (parseByte b s).2 = o at h
  cases h <;> rfl

theorem rxByteStep_moved {s t : State} (hl : s.cfg.legal = true) (h : rxByteStep s = .next t) : Moved .rxByte s t := by
  rcases rxByteStep_next h with ⟨-, rfl⟩ | ⟨b, q, hc, hq, h⟩
  · exact .stay
  · obtain ⟨hb, h⟩ := receiveByte_next h
    have hp := parseByte_parsed (s := { s with port.rxq := q }) hl b
    rcases h with hx | ⟨u, o, hx, ho⟩
    · rw [hx] at hp
      exact .parsed b q t hc hq hp (parser_bound hl hb) rfl
    · have hu : u.cfg.legal = true := by
        have := parseByte_cfg (s := { s with port.rxq := q }) hl b
        rw [hx] at this
        rw [show u.cfg = s.cfg from this]
        exact hl
      rw [hx] at hp
      exact .completed b q u t o hc hq hp (parser_bound hl hb) (onOutcome_dispatched hu ho) rfl

theorem execStart_moved {v : Word} {s t : State} (hv : v.extractLsb' 0 8 = 0x01#8) (h : execStart s = .next t) :
    Moved (.hostWrite 4 0x0004#16 v) s t := by
  unfold execStart at h
  split at h
  · cases h; exact .stay
  · rename_i ha
    have m := Moved.start (s := s) (by simpa using ha) v rfl hv
    split at h
    · cases h; simpa [*] using m
    · cases h; simpa [*] using m

theorem execAbort_moved {v : Word} {s t : State} (h : execAbort s = .next t) :
    Moved (.hostWrite 4 0x0004#16 v) s t := by
  unfold execAbort at h
  split at h
  · split at h
    · cases h; exact .abortNow ‹_› ‹_› v rfl
    · cases h; exact .abortLatched ‹_› ‹_› v rfl
  · cases h; exact .stay

theorem execRetry_moved {v : Word} {s t : State} (h : execRetry s = .next t) :
    Moved (.hostWrite 4 0x0004#16 v) s t := by
  unfold execRetry at h
  split at h
  · cases h; exact .retry ‹_› v rfl
  · cases h; exact .stay

theorem hostWriteStep_moved {w : Nat} {a : BitVec 16} {v : Word} {s t : State} (h : hostWriteStep w a v s = .next t) :
    Moved (.hostWrite w a v) s t := by
  unfold hostWriteStep at h
  split at h
  · rename_i hd
    simp only [accessDefined, Bool.and_eq_true, decide_eq_true_eq] at hd
    obtain ⟨rfl, h4⟩ := hd
    obtain ⟨e1, e2, e3⟩ := hifLoc_eq (c := s.cfg) (a := a.toNat)
    unfold State.hifWrite at h
    split at h
    · rename_i hloc
      obtain rfl : a = 0x0004#16 := BitVec.eq_of_toNat_eq (e1 hloc)
      split at h
      · rename_i hi
        rcases decodeCommand_ok hi with ⟨rfl, hv⟩ | ⟨rfl, -⟩ | ⟨rfl, -⟩
        · exact execStart_moved hv h
        · exact execAbort_moved h
        · exact execRetry_moved h
      · cases h; exact .stay
    · rename_i hloc
      obtain rfl : a = 0x000C#16 := BitVec.eq_of_toNat_eq (e2 hloc)
      cases h; exact .irqClear v rfl
    · rename_i hloc
      obtain rfl : a = 0x0010#16 := BitVec.eq_of_toNat_eq (e3 hloc)
      cases h; exact .irqEnable v rfl
    · split at h
      · cases h; exact .stay
      · rename_i hp
        cases h; exact .configure v a (by simpa using hp) h4 rfl
  · cases h

theorem hostReadStep_moved {w : Nat} {a : BitVec 16} {s t : State} (h : hostReadStep w a s = .next t) :
    Moved (.hostRead w a) s t := by
  unfold hostReadStep at h
  split at h
  · rename_i hd
    simp only [accessDefined, Bool.and_eq_true, decide_eq_true_eq] at hd
    obtain ⟨rfl, -⟩ := hd
    cases h; exact .hostRead a _ rfl
  · cases h

theorem runEvent_moved {e : Event} {s t : State} (hl : s.cfg.legal = true) (h : runEvent e s = .next t) : Moved e s t := by
  cases e with
  | peer b => cases h; exact .peer b rfl
  | rxByte => exact rxByteStep_moved hl h
  | tick => cases h; exact .tick rfl
  | hostWrite w a v => exact hostWriteStep_moved h
  | hostRead w a => exact hostReadStep_moved h
  | srcResp d =>
    simp only [runEvent, srcRespStep] at h
    split at h
    · rename_i hd
      cases h; exact .srcResp d hd.1 hd.2.1 hd.2.2 rfl
    · cases h
  | reset u => cases h; exact .reset u rfl
  | internal => exact internalStep_moved h

/-- The inversion lemma of the step: the parameters are legal, and the step does one of the things `Moved` lists for the
entry it takes off the schedule, in the state left by taking it; with no entry left, for the internal step in the state
itself. -/
theorem step_moved {s t : State} (h : step s = .next t) :
    s.cfg.legal = true ∧ ∃ e es, Moved e { s with port.events := es } t ∧
      (s.port.events = e :: es ∨ (s.port.events = [] ∧ es = [] ∧ e = .internal)) := by
  obtain ⟨hl, ⟨he, h⟩ | ⟨e, es, he, h⟩⟩ := step_next h
  · refine ⟨hl, .internal, [], ?_, .inr ⟨he, rfl, rfl⟩⟩
    have : { s with port.events := [] } = s := by rw [← he]
    rw [this]
    exact internalStep_moved h
  · exact ⟨hl, e, es, runEvent_moved hl h, .inl he⟩

end Sys2Proof.Machine
end

