-- ==== Sys2Proof/Tests/Slice0.lean ====
section
/-! SUPPORT. The model's own tests, and for every statement of Obligations.lean that has hypotheses a state and operands
that meet them.

Expected results come from spec/95_test_vectors.md (V…, P…) or are worked out by hand from the rule named. -/

namespace Sys2Proof.Tests

open Sys2Proof Sys2Proof.Machine

/-! ### Helpers -/

/-- A property of the next state; false of a fault and of a refusal. -/
def after (o : Out) (p : State → Bool) : Bool :=
  match o with
  | .next t => p t
  | _ => false

/-- A state inside a session, with `CTRL` = `ctrl`. -/
def live (ctrl : BitVec 3) (ph : Phase) (a : Act) (x : XSub) : State :=
  { State.reset with
    conf.ctrl := ctrl, phase := ph, act := a, xsub := x, linkOwned := true, srcPending := decide (a = .wsrc)
    hsTimer := 30000#32, frTimer := 5000#32, sess.pendCount := 2#8 }

/-- A state with no session. -/
def rest (ph : Phase) : State :=
  { State.reset with phase := ph, err.failCause := if ph = .failed then .aborted else .none }

/-- A state with events scheduled. -/
def withEvents (es : List Event) (s : State) : State := { s with port.events := es }

/-- A frame just sent, its answer awaited. -/
def withRequest (f : List Byte) (s : State) : State := { s with txbuf := f, port.out := [.frame f] }

/-- A 64-byte name slot. -/
def slot (n : List Byte) : List Byte := n ++ zeros (64 - n.length)

/-- Checks the bytes the next state has transmitted. -/
def sent (o : Out) (f : List Byte) : Bool := after o fun t => decide (t.port.tx = f)

/-- The responder waiting for HANDSHAKE. -/
def hsWait : State := live 0#3 .awaitingHandshake .wreq .info

/-- The initiator waiting for the answer to HANDSHAKE, which is the frame it sent. -/
def hsSent : State :=
  withRequest [0x55#8, 0xAA#8, 0x01#8, 0x05#8, 0x00#8, 0x01#8, 0x01#8, 0x00#8, 0x00#8, 0x00#8, 0x00#8]
    { live 7#3 .sendingHandshake .wrsp .info with sess.pendCount := 0#8 }

/-- A receiver in a file of 10 bytes, 4 of them received in one chunk; the sink has them. -/
def chunkWait : State :=
  { live 0#3 .transferringFile .wreq .chunks with
    sess.curSize := 10#32, sess.bytesDone := 4#32, sess.chunkIdx := 1#16
    port.out := [.sink (.fileStart 0#8 0#8 10#32 (zeros 64)), .sink (.data [1#8, 2#8, 3#8, 4#8])] }

/-- A sender with `CHUNK_SIZE` = 4 in a file of 10 bytes, 8 of them acknowledged, the chunk of the last 2 in flight. -/
def lastChunkSent : State :=
  withRequest (encodeFrame Config.default 0x03#8 [2#8, 0#8, 2#8, 0#8, 9#8, 10#8])
    { live 7#3 .transferringFile .wrsp .chunks with
      cfg.chunkSize := 4, sess.curSize := 10#32, sess.bytesDone := 8#32, sess.chunkIdx := 2#16, sess.txN := 2#16 }

/-- The parser holding five bytes of an ACK frame. -/
def fiveOfAck (s : State) : State :=
  { s with parser.hc := 5#3, parser.hdr := ⟨0x55#8, 0xAA#8, 0x05#8, 0x00#8, 0x00#8, 0x00#8⟩, port.rxq := [0x00#8] }

/-! ### Well-formedness: an ill-formed term for each check -/

theorem test_handshake_length_refused : (Instr.handshake [1#8, 2#8, 3#8, 4#8]).wellFormed Config.default = false := by decide
theorem test_handshake_length_accepted : (Instr.handshake [1#8, 2#8, 3#8, 4#8, 5#8]).wellFormed Config.default = true := by decide
theorem test_file_list_empty_refused : (Instr.fileList []).wellFormed Config.default = false := by decide
theorem test_file_list_count_refused : (Instr.fileList [1#8]).wellFormed Config.default = false := by decide
theorem test_info_length_refused : (Instr.fileDataInfo (zeros 68)).wellFormed Config.default = false := by decide
theorem test_chunk_short_refused : (Instr.fileDataChunk [0#8, 0#8, 0#8]).wellFormed Config.default = false := by decide
theorem test_chunk_size_refused : (Instr.fileDataChunk [0#8, 0#8, 2#8, 0#8, 7#8]).wellFormed Config.default = false := by decide
theorem test_ack_payload_refused : (Instr.ack [0#8]).wellFormed Config.default = false := by decide
theorem test_nack_payload_refused : (Instr.nack [0#8]).wellFormed Config.default = false := by decide
theorem test_payload_too_long_refused (p : List Byte) (h : p.length = 65536) : (Instr.fileEnd p).wellFormed Config.default = false := by
  simp [Instr.wellFormed, Instr.fits, Instr.payload, Config.default, h]
theorem test_payload_longest_fits (p : List Byte) (h : p.length = 65535) : (Instr.fileEnd p).wellFormed Config.default = true := by
  simp [Instr.wellFormed, Instr.fits, Instr.lengthOk, Instr.payload, Config.default, h]

/-! ### Decoding: a word of each row, written out from 30_encoding.md sections 1, 2 and 5 -/

theorem test_decode_handshake : decodeFrame Config.default .info
    [0x55#8, 0xAA#8, 0x01#8, 0x05#8, 0x00#8, 0xEA#8, 0x01#8, 0xE8#8, 0x03#8, 0x00#8, 0x00#8] =
      .ok (.handshake [0x01#8, 0xE8#8, 0x03#8, 0x00#8, 0x00#8], []) := rfl
theorem test_decode_file_list : decodeFrame Config.default .info
    [0x55#8, 0xAA#8, 0x02#8, 0x01#8, 0x00#8, 0x00#8, 0x00#8] = .ok (.fileList [0x00#8], []) := rfl
theorem test_decode_info : decodeFrame Config.default .info
    ([0x55#8, 0xAA#8, 0x03#8, 0x45#8, 0x00#8, 0xC2#8, 0x00#8, 0xE8#8, 0x03#8, 0x00#8, 0x00#8] ++
      slot [0x61#8, 0x2E#8, 0x63#8, 0x73#8, 0x76#8]) =
        .ok (.fileDataInfo ([0x00#8, 0xE8#8, 0x03#8, 0x00#8, 0x00#8] ++ slot [0x61#8, 0x2E#8, 0x63#8, 0x73#8, 0x76#8]), []) :=
  rfl
theorem test_decode_chunk : decodeFrame Config.default .chunks
    [0x55#8, 0xAA#8, 0x03#8, 0x06#8, 0x00#8, 0x00#8, 0x01#8, 0x00#8, 0x02#8, 0x00#8, 0x01#8, 0x02#8] =
      .ok (.fileDataChunk [0x01#8, 0x00#8, 0x02#8, 0x00#8, 0x01#8, 0x02#8], []) := rfl
theorem test_decode_file_end_payload : decodeFrame Config.default .info
    [0x55#8, 0xAA#8, 0x04#8, 0x03#8, 0x00#8, 0x09#8, 0x09#8, 0x09#8, 0x09#8] =
      .ok (.fileEnd [0x09#8, 0x09#8, 0x09#8], []) := rfl
theorem test_decode_ack : decodeFrame Config.default .info [0x55#8, 0xAA#8, 0x05#8, 0x00#8, 0x00#8, 0x00#8] =
    .ok (.ack [], []) := rfl
theorem test_decode_nack : decodeFrame Config.default .info [0x55#8, 0xAA#8, 0x06#8, 0x00#8, 0x00#8, 0x00#8] =
    .ok (.nack [], []) := rfl
theorem test_decode_start : decodeCommand 0xFFFFFF01#32 = .ok .start := by decide
theorem test_decode_abort : decodeCommand 0x00000002#32 = .ok .abort := by decide
theorem test_decode_retry : decodeCommand 0x00000003#32 = .ok .retry := by decide
theorem test_decode_reserved_command : decodeCommand 0x00000100#32 = .error (.reservedCode 0x00#8) := by decide
theorem test_decode_unknown_command : decodeFrame Config.default .info
    [0x55#8, 0xAA#8, 0x07#8, 0x00#8, 0x00#8, 0x00#8] = .error (.unknownCommand 0x07#8) := rfl
/-- The checksum is checked before the command (V4.8). -/
theorem test_decode_checksum_first : decodeFrame Config.default .info
    [0x55#8, 0xAA#8, 0x07#8, 0x01#8, 0x00#8, 0x00#8, 0x01#8] = .error (.badChecksum 0x01#8 0x00#8) := rfl
/-- The magic's bytes are in wire order (V4.3). -/
theorem test_decode_swapped_magic : decodeFrame Config.default .info
    [0xAA#8, 0x55#8, 0x05#8, 0x00#8, 0x00#8, 0x00#8] = .error (.badMagic 0x55AA#16) := rfl
theorem test_decode_short_header : decodeFrame Config.default .info [0x55#8, 0xAA#8, 0x05#8, 0x00#8, 0x00#8] =
    .error .shortHeader := rfl
theorem test_decode_short_payload : decodeFrame Config.default .info
    [0x55#8, 0xAA#8, 0x05#8, 0x02#8, 0x00#8, 0x00#8, 0x01#8] = .error .shortPayload := rfl

theorem test_table_words :
    decodeTableWord 24 0x01AA55 = some (.handshake []) ∧ decodeTableWord 24 0x02AA55 = some (.fileList []) ∧
    decodeTableWord 24 0x03AA55 = some (.fileDataInfo []) ∧ decodeTableWord 24 0x04AA55 = some (.fileEnd []) ∧
    decodeTableWord 24 0x05AA55 = some (.ack []) ∧ decodeTableWord 24 0x06AA55 = some (.nack []) ∧
    decodeTableWord 24 0x07AA55 = none ∧ decodeTableWord 8 0x01 = some .start ∧ decodeTableWord 8 0x02 = some .abort ∧
    decodeTableWord 8 0x03 = some .retry ∧ decodeTableWord 8 0x04 = none :=
  ⟨rfl, rfl, rfl, rfl, rfl, rfl, rfl, rfl, rfl, rfl, rfl⟩

/-! ### A word placed where the next step takes it -/

/-- A HANDSHAKE of length 0 is Malformed and answered NACK. -/
theorem test_fetch_word_handshake :
    after (step (State.reset.withFetchWord 24 0x01AA55)) (fun t =>
      decide (t.err.lastErr = .malformed) && decide (t.err.errExp = 5#32) && decide (t.err.errObs = 0#32)) = true := rfl
/-- An ACK ends SENDING_HANDSHAKE. -/
theorem test_fetch_word_ack :
    after (step (State.reset.withFetchWord 24 0x05AA55)) (fun t => decide (t.phase = .handshakeDone)) = true := rfl
/-- START in a responder waits for HANDSHAKE. -/
theorem test_fetch_word_start :
    after (step (State.reset.withFetchWord 8 0x01)) (fun t =>
      decide (t.phase = .awaitingHandshake) && decide (t.act = .wreq) && decide (t.hsTimer = 30000#32)) = true := rfl

/-! ### The codec -/

/-- V1.4, V1.6, S1. -/
theorem test_checksums : xorfold [1#8, 2#8, 3#8] = 0#8 ∧ xorfold [0x80#8, 0x80#8] = 0#8 ∧
    xorfold [0x00#8, 0xE8#8, 0x03#8, 0x00#8, 0x00#8] = 0xEB#8 := by decide
/-- V3.4, V3.5, V3.7. -/
theorem test_strip :
    strip Config.default (slot [0x61#8, 0x2F#8, 0x62#8, 0x5C#8, 0x63#8]) = slot [0x63#8] ∧
    strip Config.default (slot [0x61#8, 0x62#8, 0x63#8, 0x2F#8]) = slot [] ∧
    strip Config.default (slot [0x61#8, 0x00#8, 0x2F#8, 0x7A#8]) = slot [0x61#8] := ⟨rfl, rfl, rfl⟩

/-! ### One step of each instruction -/

/-- V4.10: any version and timestamp are taken. -/
theorem test_handshake_any_version :
    after (exec (.handshake [0xFF#8, 0xFF#8, 0xFF#8, 0xFF#8, 0xFF#8]) hsWait) (fun t =>
      decide (t.sess.rxVersion = 0xFF#8) && decide (t.sess.rxTimestamp = 0xFFFFFFFF#32) && decide (t.act = .adv)) = true := rfl
/-- V4.5, worked at length 4. -/
theorem test_handshake_malformed :
    sent (exec (.handshake [1#8, 2#8, 3#8, 4#8]) hsWait) [0x55#8, 0xAA#8, 0x06#8, 0x00#8, 0x00#8, 0x00#8] = true := rfl
/-- V5.2. -/
theorem test_file_list_empty_ends :
    after (exec (.fileList [0#8]) (live 0#3 .awaitingFileList .wreq .info)) (fun t =>
      decide (t.status = 0x7#32) && decide (t.irqStatus = 0x01#5)) = true := rfl
/-- V5.3 with 1 of 2 slots: the required length is 129. -/
theorem test_file_list_missing_slot :
    after (exec (.fileList (2#8 :: zeros 64)) (live 0#3 .awaitingFileList .wreq .info)) (fun t =>
      decide (t.err.errExp = 129#32) && decide (t.err.errObs = 65#32) && decide (t.rxname = [])) = true := rfl
/-- V6.3: an empty file ends at once, with its directory stripped. -/
theorem test_info_empty_file :
    after (exec (.fileDataInfo ([3#8, 0#8, 0#8, 0#8, 0#8] ++ slot [0x64#8, 0x2F#8, 0x65#8]))
      { live 4#3 .transferringFile .wreq .info with sess.pendCount := 1#8 }) (fun t =>
      decide (t.port.sink = [.fileStart 0#8 3#8 0#32 (slot [0x65#8]), .fileEnd 0#8]) && decide (t.status = 0x17#32) &&
        decide (t.irqStatus = 0x09#5)) = true := rfl
/-- V7.11: the chunk index wraps. -/
theorem test_chunk_index_wraps :
    after (exec (.fileDataChunk [0xFF#8, 0xFF#8, 0x01#8, 0x00#8, 0x07#8])
      { chunkWait with sess.curSize := 70000#32, sess.bytesDone := 69999#32, sess.chunkIdx := 0xFFFF#16 }) (fun t =>
      decide (t.sess.chunkIdx = 0#16) && decide (t.sess.bytesDone = 70000#32) && decide (t.sess.filePtr = 1#8)) = true := rfl
/-- V7.3's overrun, at 7 bytes where 6 are left. -/
theorem test_chunk_overrun :
    after (exec (.fileDataChunk ([1#8, 0#8, 7#8, 0#8] ++ zeros 7)) chunkWait) (fun t =>
      decide (t.err.failCause = .sequenceMismatch) && decide (t.err.errExp = 6#32) && decide (t.err.errObs = 7#32) &&
        decide (t.sess.bytesDone = 4#32)) = true := rfl
/-- V7.8. -/
theorem test_file_end_acknowledged :
    sent (exec (.fileEnd [1#8, 2#8, 3#8]) chunkWait) [0x55#8, 0xAA#8, 0x05#8, 0x00#8, 0x00#8, 0x00#8] = true := rfl
/-- P3 step 10: the ACK of the last chunk ends the session. -/
theorem test_ack_last_chunk :
    after (exec (.ack []) { lastChunkSent with sess.pendCount := 1#8 }) (fun t =>
      decide (t.sess.bytesDone = 10#32) && decide (t.sess.chunkIdx = 3#16) && decide (t.phase = .done) &&
        decide (t.irqStatus = 0x09#5)) = true := rfl
/-- V4.6: an ACK in a wait for a request. -/
theorem test_ack_in_request_wait :
    after (exec (.ack []) hsWait) (fun t =>
      decide (t.status = 0x104008#32) && decide (t.err.errExp = 2#32) && decide (t.err.errObs = 5#32)) = true := rfl
/-- V8.3. -/
theorem test_nack_waits_for_host :
    after (exec (.nack []) (live 7#3 .transferringFile .wrsp .info)) (fun t =>
      decide (t.status = 0x1A6#32) && decide (t.irqStatus = 0x04#5)) = true := rfl
/-- V9.1: START inside a session. -/
theorem test_start_ignored : after (exec .start hsSent) (fun t => decide (t = hsSent)) = true := rfl
/-- V9.4, its first half: ABORT inside a frame wait is latched. -/
theorem test_abort_latched :
    after (exec .abort (live 7#3 .transferringFile .wrsp .info)) (fun t => decide (t.status = 0x366#32)) = true := rfl
/-- V9.2: ABORT in WHOST fails at once. -/
theorem test_abort_in_whost :
    after (exec .abort (live 7#3 .transferringFile .whost .info)) (fun t =>
      decide (t.status = 0x609008#32) && decide (t.irqStatus = 0x02#5)) = true := rfl
/-- P3 step 9: RETRY re-emits the kept frame. -/
theorem test_retry_resends :
    sent (exec .retry { lastChunkSent with act := .whost, port.out := [] }) lastChunkSent.txbuf = true := rfl

/-! ### Steps around the instructions -/

/-- R309 with MODE = SINGLE, DIR = RECEIVE. -/
theorem test_adv_single_receiver :
    after (step (live 4#3 .handshakeDone .adv .info)) (fun t =>
      decide (t.sess.pendCount = 1#8) && decide (t.phase = .transferringFile) && decide (t.act = .wreq)) = true := rfl
/-- P5 step 1. -/
theorem test_handshake_sent :
    sent (step (live 1#3 .sendingHandshake .txreq .info))
      [0x55#8, 0xAA#8, 0x01#8, 0x05#8, 0x00#8, 0x01#8, 0x01#8, 0x00#8, 0x00#8, 0x00#8, 0x00#8] = true := rfl
/-- P6 step 2. -/
theorem test_empty_list_sent :
    sent (step { live 3#3 .sendingFileList .txreq .info with sess.pendCount := 0#8 })
      [0x55#8, 0xAA#8, 0x02#8, 0x01#8, 0x00#8, 0x00#8, 0x00#8] = true := rfl
/-- P3 steps 5 and 6: the request of the short last chunk, and its frame. -/
theorem test_last_chunk_requested :
    after (step { lastChunkSent with act := .txreq, port.out := [] }) (fun t =>
      decide (t.port.srcReqs = [⟨0#8, 8#32, 2⟩]) && t.srcPending && decide (t.act = .wsrc)) = true := rfl
/-- V10.6: the tenth tick of a budget of 10, at its last; R269: the two bytes of a partial header are discarded. -/
theorem test_handshake_timeout :
    after (step (withEvents [.tick] { hsWait with hsTimer := 1#32, parser.hc := 2#3 })) (fun t =>
      decide (t.status = 0x106008#32) && decide (t.err.errExp = 6#32) && decide (t.err.errObs = 2#32) &&
      decide (t.parserView = 0#32)) = true := rfl
/-- V10.2: a receiver inside a file times out with TransferIncomplete. -/
theorem test_transfer_incomplete :
    after (step (withEvents [.tick] { chunkWait with frTimer := 1#32 })) (fun t =>
      decide (t.err.failCause = .transferIncomplete) && decide (t.err.errExp = 10#32) && decide (t.err.errObs = 4#32)) =
        true := rfl
/-- V9.10: RW1C. -/
theorem test_irq_clear :
    after (step (withEvents [.hostWrite 4 0x000C#16 0x14#32] { rest .done with irqStatus := 0x1D#5 })) (fun t =>
      decide (t.irqStatus = 0x09#5)) = true := rfl
/-- V9.11: the configuration lock. -/
theorem test_configuration_locked :
    after (step (withEvents [.hostWrite 4 0x0000#16 0#32] hsSent)) (fun t => decide (t.conf.ctrl = 7#3)) = true := rfl
/-- V4.11: `PARSER` after five header bytes. -/
theorem test_parser_read :
    after (step (withEvents [.hostRead 4 0x0058#16] (fiveOfAck hsWait))) (fun t =>
      decide (t.port.out = [.hostRead 0x0058#16 5#32])) = true := rfl
/-- R155: a byte access is refused. -/
theorem test_byte_access_refused :
    step (withEvents [.hostRead 1 0x0000#16] State.reset) = .refused .hostAccessForm := rfl

/-! ### Witnesses: states and operands that meet the hypotheses of each statement -/

theorem witness_checksum :
    [1#8, 2#8, 3#8].Perm [3#8, 1#8, 2#8] ∧ 0 < [1#8, 2#8].length ∧ 1 < [1#8, 2#8].length ∧ 0 ≠ 1 ∧ 0 < 8 ∧ 7 < 8 := by
  decide

/-- No payload, and the longest one. -/
theorem witness_frame_bytes : ([] : List Byte).length ≤ 65535 ∧ (zeros 65535).length ≤ 65535 :=
  ⟨by decide, (List.length_replicate ..).le⟩

/-- Every clause of DecodeAndEncodeAgree: a frame instruction and a command fit, and a frame and a command word decode. -/
theorem witness_decode_encode :
    Config.default.legal = true ∧ (Instr.fileDataChunk [0#8, 0#8, 0#8, 0#8]).fits Config.default = true ∧ Instr.start.fits Config.default = true ∧
    encode Config.default (.ack []) = .frame [0x55#8, 0xAA#8, 0x05#8, 0x00#8, 0x00#8, 0x00#8] ∧
    decodeFrame Config.default .chunks [0x55#8, 0xAA#8, 0x06#8, 0x00#8, 0x00#8, 0x00#8, 0x55#8] = .ok (.nack [], [0x55#8]) ∧
    decodeCommand 0xABCDEF02#32 = .ok .abort :=
  ⟨rfl, rfl, rfl, rfl, rfl, rfl⟩

theorem witness_parser_frame :
    State.reset.cfg.legal = true ∧ State.reset.parser.hc = 0#3 ∧ State.reset.parser.pcnt = 0#16 ∧ Memory.wf State.reset.parser.paybuf ∧
    ([] : List Byte).length ≤ 65535 ∧ 0 < 6 + ([] : List Byte).length :=
  ⟨rfl, rfl, rfl, Memory.wf_nil, by decide, by decide⟩

/-- Every clause of ParserRefinesDecoder: each answer of the decoder occurs. -/
theorem witness_parser_refines :
    decodeFrame State.reset.cfg .info [] = .error .shortHeader ∧
    decodeFrame State.reset.cfg .info [0x55#8, 0xAA#8, 0x01#8, 0x01#8, 0x00#8, 0x00#8] = .error .shortPayload ∧
    decodeFrame State.reset.cfg .info [0#8, 0#8, 0#8, 0#8, 0#8, 0#8] = .error (.badMagic 0#16) ∧
    decodeFrame State.reset.cfg .info [0x55#8, 0xAA#8, 0x05#8, 0x00#8, 0x00#8, 0x01#8] = .error (.badChecksum 0#8 1#8) ∧
    decodeFrame State.reset.cfg .info [0x55#8, 0xAA#8, 0xFF#8, 0x00#8, 0x00#8, 0x00#8] = .error (.unknownCommand 0xFF#8) ∧
    decodeFrame State.reset.cfg .info [0x55#8, 0xAA#8, 0x05#8, 0x00#8, 0x00#8, 0x00#8, 9#8] = .ok (.ack [], [9#8]) :=
  ⟨rfl, rfl, rfl, rfl, rfl, rfl⟩

theorem witness_strip : (slot []).length = Config.default.nameSlot ∧
    (List.replicate 64 0x71#8).length = Config.default.nameSlot ∧ (slot [0x2F#8]).length = Config.default.nameSlot := by
  decide

/-- The parameters of every witness below are legal ones, and a name slot of another size is legal too. -/
theorem witness_legal :
    State.reset.cfg.legal = true ∧ hsWait.cfg.legal = true ∧ hsSent.cfg.legal = true ∧ chunkWait.cfg.legal = true ∧
    lastChunkSent.cfg.legal = true ∧ (live 3#3 .transferringFile .txreq .info).cfg.legal = true ∧
    ({ Config.default with nameSlot := 32 } : Config).legal = true ∧
    ({ Config.default with nameSlot := 96 } : Config).legal = true := ⟨rfl, rfl, rfl, rfl, rfl, rfl, rfl, rfl⟩

/-- Every clause of StepTakesNextScheduleEntry. -/
theorem witness_schedule :
    State.reset.cfg.legal = true ∧ State.reset.port.events = [] ∧
    (withEvents [.tick] hsWait).port.events = .tick :: [] ∧
    State.reset.linkOwned = false ∧ (live 7#3 .transferringFile .wsrc .chunks).act ≠ .wreq ∧
    (live 7#3 .transferringFile .wsrc .chunks).act ≠ .wrsp ∧ hsWait.port.rxq = [] ∧
    hsWait.act ≠ .txreq ∧ hsWait.act ≠ .adv :=
  ⟨rfl, rfl, rfl, rfl, by decide, by decide, rfl, by decide, by decide⟩

/-- A wait with an ACK all but its last byte received. -/
def ackArriving : State := withEvents [.rxByte] (fiveOfAck hsSent)

theorem witness_step_runs_frame :
    ackArriving.cfg.legal = true ∧ ackArriving.consumes = true ∧ ackArriving.port.events = .rxByte :: [] ∧
    ackArriving.port.rxq = 0x00#8 :: [] ∧ ackArriving.parser.consistent ackArriving.cfg = true ∧
    Memory.wf ackArriving.parser.paybuf ∧
    decodeFrame ackArriving.cfg ackArriving.xsub (ackArriving.parser.collected ackArriving.cfg ++ [0x00#8]) = .ok (.ack [], []) :=
  ⟨rfl, rfl, rfl, rfl, rfl, Memory.wf_nil, rfl⟩

/-- Every clause of StepRunsHostCommand. -/
theorem witness_host_command :
    (0xFFFFFF01#32).extractLsb' 0 8 = 0x01#8 ∧ (0x00000002#32).extractLsb' 0 8 = 0x02#8 ∧
    (0x00000003#32).extractLsb' 0 8 = 0x03#8 ∧ (0x00000004#32).extractLsb' 0 8 ≠ 0x01#8 ∧
    (0x00000004#32).extractLsb' 0 8 ≠ 0x02#8 ∧ (0x00000004#32).extractLsb' 0 8 ≠ 0x03#8 ∧
    (withEvents [.hostWrite 4 0x0004#16 4#32] State.reset).port.events = .hostWrite 4 0x0004#16 4#32 :: [] ∧
    (withEvents [.hostRead 4 0x0004#16] State.reset).port.events = .hostRead 4 0x0004#16 :: [] := by
  refine ⟨?_, ?_, ?_, ?_, ?_, ?_, rfl, rfl⟩ <;> decide

/-- Every clause of StepCollectsOrRejectsByte: an incomplete frame and the three rejections, each met by a waiting state. -/
theorem witness_step_collects :
    decodeFrame hsSent.cfg hsSent.xsub (hsSent.parser.collected Config.default ++ [0x55#8]) = .error .shortHeader ∧
    decodeFrame ackArriving.cfg ackArriving.xsub (ackArriving.parser.collected Config.default ++ [0x07#8]) =
      .error (.badChecksum 0x00#8 0x07#8) ∧
    decodeFrame hsSent.cfg hsSent.xsub
      (({ ackArriving with parser.hdr.b0 := 0#8 } : State).parser.collected Config.default ++ [0x00#8]) = .error (.badMagic 0xAA00#16) ∧
    decodeFrame hsSent.cfg hsSent.xsub
      (({ ackArriving with parser.hdr.b2 := 9#8 } : State).parser.collected Config.default ++ [0x00#8]) = .error (.unknownCommand 9#8) ∧
    decodeFrame hsSent.cfg hsSent.xsub
      (({ ackArriving with parser.hdr.b3 := 1#8 } : State).parser.collected Config.default ++ [0x00#8]) = .error .shortPayload ∧
    hsSent.consumes = true ∧ hsSent.parser.consistent hsSent.cfg = true :=
  ⟨rfl, rfl, rfl, rfl, rfl, rfl, rfl⟩

/-- Every clause of EnterChecksAbortAndStartsWait. -/
theorem witness_enter :
    ({ hsWait with abortReq := true } : State).abortReq = true ∧ hsWait.abortReq = false ∧
    (Act.wreq ≠ .wrsp ∧ Act.adv ≠ .wreq ∧ Act.adv ≠ .wrsp) := ⟨rfl, rfl, by decide⟩

theorem witness_file_complete :
    ({ chunkWait with sess.filePtr := 1#8 } : State).sess.filePtr + 1#8 = chunkWait.sess.pendCount ∧
    chunkWait.sess.filePtr + 1#8 ≠ chunkWait.sess.pendCount := ⟨rfl, by decide⟩

/-- Every clause of OutcomesAreDispatchedByWait and WrongCommandFailsSession. -/
theorem witness_dispatch :
    hsWait.cfg.codes = Config.default.codes ∧ hsWait.act = .wreq ∧ hsWait.phase = .awaitingHandshake ∧
    (live 0#3 .awaitingFileList .wreq .info).phase = .awaitingFileList ∧ chunkWait.phase = .transferringFile ∧
    chunkWait.xsub = .chunks ∧ chunkWait.act = .wreq ∧ (live 4#3 .transferringFile .wreq .info).xsub = .info ∧
    hsSent.act = .wrsp ∧ (0x05#8 : Byte) ≠ 0x01#8 ∧ (0x02#8 : Byte) ≠ 0x03#8 ∧ (0x02#8 : Byte) ≠ 0x04#8 ∧
    (0x00#8 : Byte) ≠ 0x05#8 ∧ (0x00#8 : Byte) ≠ 0x06#8 ∧
    (Instr.ack []).code hsWait.cfg = some 0x05#8 ∧ ¬ (hsWait.phase = .awaitingFileList ∧ (0x05#8 : Byte) = 0x02#8) ∧
    ¬ (hsWait.phase = .awaitingHandshake ∧ (0x05#8 : Byte) = 0x01#8) ∧
    ¬ (hsWait.phase = .transferringFile ∧ ((0x05#8 : Byte) = 0x03#8 ∨ (0x05#8 : Byte) = 0x04#8)) := by
  refine ⟨rfl, rfl, rfl, rfl, rfl, rfl, rfl, rfl, rfl, ?_⟩
  decide

/-- The byte that ends a frame produces an outcome in a consistent parser. -/
theorem witness_outcome : (fiveOfAck hsWait).parser.consistent (fiveOfAck hsWait).cfg = true ∧
    ∃ t, parseByte 0x00#8 (fiveOfAck hsWait) = (t, some (.frame 0x05#8 0#16 [])) := ⟨by decide, _, rfl⟩

theorem witness_handshake :
    hsWait.phase = .awaitingHandshake ∧ hsWait.act = .wreq ∧ (zeros 4).length ≠ 5 ∧ (zeros 6).length ≠ 5 ∧
    (zeros 5).length = 5 := ⟨rfl, rfl, by decide, by decide, by decide⟩

/-- Every clause of FileListReceived, with no name, one slot missing, and the most names. -/
theorem witness_file_list :
    64 = (live 0#3 .awaitingFileList .wreq .info).cfg.nameSlot ∧
    (live 0#3 .awaitingFileList .wreq .info).phase = .awaitingFileList ∧
    (live 0#3 .awaitingFileList .wreq .info).act = .wreq ∧
    Memory.wf (live 0#3 .awaitingFileList .wreq .info).rxname ∧ ([] : List Byte).length = 0 ∧
    [1#8].length ≠ 0 ∧ [1#8].length ≠ 1 + 64 * (byteAt [1#8] 0).toNat ∧
    [0#8].length = 1 + 64 * (byteAt [0#8] 0).toNat ∧ byteAt [0#8] 0 = 0#8 ∧
    (∀ names : List Byte, names.length = 16320 →
      (0xFF#8 :: names).length = 1 + 64 * (byteAt (0xFF#8 :: names) 0).toNat ∧ byteAt (0xFF#8 :: names) 0 ≠ 0#8) ∧
    (zeros 16320).length = 16320 := by
  refine ⟨rfl, rfl, rfl, Memory.wf_nil, rfl, by decide, by decide, by decide, by decide, fun names h => ?_,
    List.length_replicate ..⟩
  simp [byteAt, h]

/-- Every clause of FileInfoReceived: a wrong length, a file of one byte, an empty file. -/
theorem witness_info :
    64 = (live 4#3 .transferringFile .wreq .info).cfg.nameSlot ∧
    (live 4#3 .transferringFile .wreq .info).phase = .transferringFile ∧
    (live 4#3 .transferringFile .wreq .info).xsub = .info ∧ (live 4#3 .transferringFile .wreq .info).act = .wreq ∧
    Memory.wf (live 4#3 .transferringFile .wreq .info).curname ∧ (zeros 68).length ≠ 5 + 64 ∧ (zeros 70).length ≠ 5 + 64 ∧
    (zeros 69).length = 5 + 64 ∧ le32 (zeros 69) 1 = 0#32 ∧ le32 (0#8 :: 1#8 :: zeros 67) 1 ≠ 0#32 ∧
    (0#8 :: 1#8 :: zeros 67).length = 5 + 64 := by
  refine ⟨rfl, rfl, rfl, rfl, Memory.wf_nil, ?_⟩
  decide

/-- Every clause of FileChunkReceived: too short, a wrong size, a wrong index, an overrun by one byte, an empty chunk, and the
chunk that completes the file. -/
theorem witness_chunk :
    chunkWait.phase = .transferringFile ∧ chunkWait.xsub = .chunks ∧ chunkWait.act = .wreq ∧
    chunkWait.sess.bytesDone.toNat ≤ chunkWait.sess.curSize.toNat ∧
    (zeros 3).length < 4 ∧
    (4 ≤ (zeros 5).length ∧ (zeros 5).length ≠ 4 + (le16 (zeros 5) 2).toNat) ∧
    ((zeros 4).length = 4 + (le16 (zeros 4) 2).toNat ∧ le16 (zeros 4) 0 ≠ chunkWait.sess.chunkIdx) ∧
    (∃ p, p = [1#8, 0#8, 7#8, 0#8] ++ zeros 7 ∧ p.length = 4 + (le16 p 2).toNat ∧ le16 p 0 = chunkWait.sess.chunkIdx ∧
      chunkWait.sess.curSize.toNat < chunkWait.sess.bytesDone.toNat + (le16 p 2).toNat) ∧
    (∃ p, p = [1#8, 0#8, 0#8, 0#8] ∧ p.length = 4 + (le16 p 2).toNat ∧ le16 p 0 = chunkWait.sess.chunkIdx ∧
      chunkWait.sess.bytesDone.toNat + (le16 p 2).toNat < chunkWait.sess.curSize.toNat) ∧
    (∃ p, p = [1#8, 0#8, 6#8, 0#8] ++ zeros 6 ∧ p.length = 4 + (le16 p 2).toNat ∧ le16 p 0 = chunkWait.sess.chunkIdx ∧
      chunkWait.sess.bytesDone.toNat + (le16 p 2).toNat = chunkWait.sess.curSize.toNat) := by
  refine ⟨rfl, rfl, rfl, by decide, by decide, by decide, by decide, ⟨_, rfl, by decide⟩, ⟨_, rfl, by decide⟩, ⟨_, rfl, by decide⟩⟩

/-- Every clause of AckReceived and NackReceived. -/
theorem witness_answers :
    hsSent.act = .wrsp ∧ hsSent.phase = .sendingHandshake ∧ [0#8].length ≠ 0 ∧ ([] : List Byte).length = 0 ∧
    (live 3#3 .sendingFileList .wrsp .info).phase = .sendingFileList ∧
    (live 3#3 .sendingFileList .wrsp .info).sess.pendCount ≠ 0#8 ∧
    ({ live 3#3 .sendingFileList .wrsp .info with sess.pendCount := 0#8 } : State).sess.pendCount = 0#8 ∧
    (live 7#3 .transferringFile .wrsp .info).xsub = .info ∧
    (live 7#3 .transferringFile .wrsp .info).sess.curSize = 0#32 ∧
    ({ live 7#3 .transferringFile .wrsp .info with sess.curSize := 1#32 } : State).sess.curSize ≠ 0#32 ∧
    lastChunkSent.act = .wrsp ∧ lastChunkSent.xsub = .chunks ∧ lastChunkSent.phase = .transferringFile ∧
    lastChunkSent.sess.bytesDone + lastChunkSent.sess.txN.setWidth 32 = lastChunkSent.sess.curSize ∧
    ({ lastChunkSent with sess.txN := 1#16 } : State).sess.bytesDone + (1#16).setWidth 32 ≠ lastChunkSent.sess.curSize ∧
    hsSent.abortReq = false ∧ ({ hsSent with abortReq := true } : State).abortReq = true := by
  refine ⟨rfl, rfl, by decide, rfl, rfl, by decide, rfl, rfl, rfl, by decide, rfl, rfl, rfl, by decide, by decide, rfl, rfl⟩

/-- Every clause of StartBeginsSession, AbortFailsOrLatches and RetryResendsRequest. -/
theorem witness_host_commands :
    (hsWait.phase ≠ .idle ∧ hsWait.phase ≠ .done ∧ hsWait.phase ≠ .failed) ∧ (rest .idle).phase = .idle ∧
    (rest .done).phase = .done ∧ (rest .failed).phase = .failed ∧ State.reset.conf.ctrl.getLsbD 0 = false ∧
    ({ State.reset with conf.ctrl := 1#3 } : State).conf.ctrl.getLsbD 0 = true ∧
    (live 7#3 .transferringFile .wsrc .chunks).act = .wsrc ∧ hsWait.act = .wreq ∧
    hsWait.act ≠ .whost ∧ (live 7#3 .transferringFile .whost .info).act = .whost := by
  refine ⟨by decide, rfl, rfl, rfl, rfl, rfl, rfl, rfl, by decide, rfl⟩

/-- InstructionFrame: instructions that answer a next state, one for each exception the clauses make. -/
theorem witness_instruction_frame :
    (∃ t, exec .start State.reset = .next t) ∧ (∃ t, exec (.handshake (zeros 5)) hsWait = .next t) ∧
    (∃ t, exec (.fileList [0#8]) (live 0#3 .awaitingFileList .wreq .info) = .next t) ∧
    (∃ t, exec (.fileDataInfo (zeros 69)) (live 4#3 .transferringFile .wreq .info) = .next t) ∧
    (∃ t, exec (.fileDataChunk [1#8, 0#8, 0#8, 0#8]) chunkWait = .next t) ∧
    (∃ t, exec (.fileEnd []) chunkWait = .next t) ∧ (∃ t, exec (.ack []) lastChunkSent = .next t) ∧
    (∃ t, exec (.nack []) hsSent = .next t) ∧ (∃ t, exec .abort hsSent = .next t) ∧ (∃ t, exec .retry hsSent = .next t) ∧
    Instr.abort ≠ .start ∧ (∀ p, Instr.abort ≠ .handshake p) ∧ (∀ p, Instr.abort ≠ .fileList p) ∧
    (∀ p, Instr.abort ≠ .fileDataInfo p ∧ Instr.abort ≠ .fileDataChunk p ∧ Instr.abort ≠ .ack p ∧
      Instr.abort ≠ .fileList p) := by
  refine ⟨⟨_, rfl⟩, ⟨_, rfl⟩, ⟨_, rfl⟩, ⟨_, rfl⟩, ⟨_, rfl⟩, ⟨_, rfl⟩, ⟨_, rfl⟩, ⟨_, rfl⟩, ⟨_, rfl⟩, ⟨_, rfl⟩, ?_⟩
  simp

/-- Every clause of AdvLeavesHandshakeDone: `CTRL` is LIST and RECEIVE, LIST and SEND, SINGLE. -/
theorem witness_adv :
    (∀ c : BitVec 3, (live c .handshakeDone .adv .info).phase = .handshakeDone ∧ (live c .handshakeDone .adv .info).act = .adv) ∧
    ((0#3).getLsbD 2 = false ∧ (0#3).getLsbD 1 = false) ∧ ((2#3).getLsbD 2 = false ∧ (2#3).getLsbD 1 = true) ∧
    (4#3).getLsbD 2 = true := by
  refine ⟨fun c => ⟨rfl, rfl⟩, ?_⟩
  decide

/-- HandshakeAndFileListSent, FileInfoSent at the last descriptor, ChunkRequestedAndSent. -/
theorem witness_senders :
    (live 1#3 .sendingHandshake .txreq .info).phase = .sendingHandshake ∧
    (live 1#3 .sendingHandshake .txreq .info).act = .txreq ∧
    (live 3#3 .sendingFileList .txreq .info).phase = .sendingFileList ∧
    (live 3#3 .sendingFileList .txreq .info).act = .txreq ∧
    (live 3#3 .transferringFile .txreq .info).phase = .transferringFile ∧
    (live 3#3 .transferringFile .txreq .info).xsub = .info ∧ (live 3#3 .transferringFile .txreq .info).act = .txreq ∧
    ({ live 3#3 .transferringFile .txreq .info with sess.filePtr := 254#8 } : State).sess.filePtr.toNat < 255 ∧
    (live 3#3 .sendingFileList .txreq .info).cfg.nameSlot = 64 ∧
    (live 3#3 .transferringFile .txreq .info).cfg.nameSlot = 64 ∧
    Memory.wf (live 3#3 .transferringFile .txreq .info).curname ∧
    (live 3#3 .transferringFile .txreq .chunks).xsub = .chunks ∧
    (live 3#3 .transferringFile .txreq .chunks).abortReq = false ∧
    ({ live 3#3 .transferringFile .txreq .chunks with abortReq := true } : State).abortReq = true ∧
    (∃ s : State, s = { lastChunkSent with act := .wsrc, srcPending := true } ∧ s.phase = .transferringFile ∧
      s.xsub = .chunks ∧ s.act = .wsrc ∧ s.srcPending = true ∧
      [9#8, 10#8].length = min s.cfg.chunkSize (s.sess.curSize - s.sess.bytesDone).toNat) := by
  refine ⟨rfl, rfl, rfl, rfl, rfl, rfl, rfl, by decide, rfl, rfl, Memory.wf_nil, rfl, rfl, rfl, ⟨_, rfl, rfl, rfl, rfl, rfl, by decide⟩⟩

/-- Every clause of TickRunsOneTimer, TimerExpiresOnNthTick, HandshakeBudgetOnlyRunsDown and FrameTimerLoads, each timer at
0, 1 and 2. -/
theorem witness_timers :
    hsWait.phase = .awaitingHandshake ∧ hsSent.phase = .sendingHandshake ∧ 2 ≤ (2#32).toNat ∧ (1#32).toNat < 2 ∧
    (0#32).toNat < 2 ∧ hsWait.act = .wreq ∧ hsWait.parser.hc.toNat < 6 ∧ 6 ≤ (6#3).toNat ∧
    (live 7#3 .sendingHandshake .whost .info).act ≠ .wreq ∧ (live 7#3 .sendingHandshake .whost .info).act ≠ .wrsp ∧
    chunkWait.phase ≠ .awaitingHandshake ∧ chunkWait.phase ≠ .sendingHandshake ∧ chunkWait.act = .wreq ∧
    chunkWait.phase = .transferringFile ∧ chunkWait.xsub = .chunks ∧ chunkWait.conf.ctrl.getLsbD 1 = false ∧
    ¬ ((live 0#3 .awaitingFileList .wreq .info).phase = .transferringFile) ∧
    (withEvents [.tick] hsWait).port.events = List.replicate 1 .tick ++ [] ∧ 1 < max 30000 1 ∧
    ({ hsWait with hsTimer := 0#32 } : State).hsTimer.toNat = 0 ∧ (1 : Nat) = max 0 1 ∧
    chunkWait.phase.handshake = false ∧ chunkWait.act.waits = true ∧ chunkWait.frTimer.toNat = 5000 ∧
    (chunkWait.enter .wreq).act = .wreq ∧ (rest .idle).phase.active = false ∧
    (tickStep { hsWait with hsTimer := 2#32 }).hsTimer ≠ 0#32 ∧ (tickStep { hsWait with hsTimer := 1#32 }).hsTimer = 0#32 ∧
    (∃ t, exec .start State.reset = .next t) ∧ (∃ t, step (withEvents [.tick] chunkWait) = .next t) ∧
    after (step (withEvents [.rxByte] { fiveOfAck chunkWait with parser.hdr.b3 := 1#8, frTimer := 9#32 }))
      (fun t => decide (t.frTimer = 5000#32 ∧ t.parser.hc = 6#3)) = true ∧
    after (step (withEvents [.hostWrite 4 0x0004#16 3#32] { live 3#3 .sendingFileList .whost .info with frTimer := 9#32 }))
      (fun t => decide (t.frTimer = 5000#32 ∧ t.act = .wrsp)) = true ∧
    (fiveOfAck chunkWait).parser.hc = 5#3 ∧
    (∃ h : Header, h = ({ (fiveOfAck chunkWait).parser.hdr with b3 := 1#8 }).set 5 0#8 ∧
      le16 h.bytes 0 = chunkWait.cfg.magic ∧ le16 h.bytes 3 ≠ 0#16) := by
  refine ⟨rfl, rfl, by decide, by decide, by decide, rfl, by decide, by decide, by decide, by decide, by decide, by decide,
    rfl, rfl, rfl, rfl, by decide, rfl, by decide, rfl, rfl, rfl, rfl, rfl, rfl, rfl, by decide, by decide, ⟨_, rfl⟩,
    ⟨_, rfl⟩, rfl, rfl, rfl, ⟨_, rfl, by decide, by decide⟩⟩

/-- HostReadAnswersRegister and HostWriteStoresOrIgnores: aligned addresses at the ends of every range of the map. -/
theorem witness_host_addresses :
    (∀ a ∈ [0x0000#16, 0x0058#16, 0x005C#16, 0x00FC#16, 0x0100#16, 0x013C#16, 0x0140#16, 0x0FFC#16, 0x1000#16, 0x1040#16,
      0x1044#16, 0x1048#16, 0x5FAC#16, 0x5FB0#16, 0x7FFC#16, 0x8000#16, 0xBFBC#16, 0xBFC0#16, 0xFFFC#16], a.toNat % 4 = 0) ∧
    hsWait.cfg.nameSlot = 64 ∧ (rest .idle).cfg.nameSlot = 64 ∧
    (0x0100#16).toNat = 0x100 + 0 ∧ (0x013C#16).toNat = 0x100 + 0x3C ∧ 0x3C < 0x40 ∧
    (0x1040#16).toNat = 0x1000 + 0x40 ∧ 0x40 % 0x50 < 0x44 ∧ (0x1044#16).toNat = 0x1000 + 0x44 ∧
    0x44 % 0x50 = 0x44 ∧
    (0x5FAC#16).toNat = 0x1000 + 0x4FAC ∧ 0x4FAC < 0x50 * 255 ∧ 0x44 < 0x4FAC % 0x50 ∧
    (0xBFBC#16).toNat = 0x8000 + 0x3FBC ∧ 0x3FBC < 0x40 * 255 ∧
    (0x5FB0#16).toNat = 0x1000 + 0x50 * 255 ∧ (0xBFC0#16).toNat = 0x8000 + 0x40 * 255 ∧
    (hsWait.phase ≠ .idle ∧ hsWait.phase ≠ .done ∧ hsWait.phase ≠ .failed) ∧
    ((0x0000#16 : BitVec 16) ≠ 0x0004#16 ∧ (0x0000#16 : BitVec 16) ≠ 0x000C#16 ∧ (0x0000#16 : BitVec 16) ≠ 0x0010#16) ∧
    Memory.wf (rest .idle).desc ∧ (rest .idle).phase = .idle := by
  refine ⟨?_, rfl, rfl, rfl, rfl, by decide, rfl, by decide, rfl, rfl, rfl, by decide, by decide, rfl, by decide, rfl, rfl,
    by decide, by decide, Memory.wf_nil, rfl⟩
  simp

theorem witness_access_form : ((2 : Nat) ≠ 4 ∨ (0x0000#16).toNat % 4 ≠ 0) ∧ ((4 : Nat) ≠ 4 ∨ (0x0002#16).toNat % 4 ≠ 0) ∧
    (4 : Nat) = 4 ∧ (0xFFFC#16).toNat % 4 = 0 ∧ 3 < 4 ∧ Memory.wf [] :=
  ⟨by decide, by decide, rfl, by decide, by decide, Memory.wf_nil⟩

/-- The commands of HostWriteStoresOrIgnores at `CMD`. -/
theorem witness_cmd_write : (0x0004#16).toNat % 4 = 0 ∧ decodeCommand 0x00000001#32 = .ok .start ∧
    (0x00000004#32).extractLsb' 0 8 ≠ 0x01#8 ∧ (0x00000004#32).extractLsb' 0 8 ≠ 0x02#8 ∧
    (0x00000004#32).extractLsb' 0 8 ≠ 0x03#8 := by decide

/-- Every clause of StopsAreByName. -/
theorem witness_stops :
    (rest .idle).act ≠ .wreq ∧ (rest .idle).act ≠ .wrsp ∧ (Instr.ack []).code (rest .idle).cfg = some 0x05#8 ∧
    hsWait.srcPending = false ∧ (live 7#3 .transferringFile .wsrc .chunks).srcPending = true ∧ hsWait.act ≠ .wsrc ∧
    [1#8].length ≠ min (live 7#3 .transferringFile .wsrc .chunks).cfg.chunkSize
      ((live 7#3 .transferringFile .wsrc .chunks).sess.curSize -
        (live 7#3 .transferringFile .wsrc .chunks).sess.bytesDone).toNat ∧
    (∃ s : State, s = { live 7#3 .transferringFile .txreq .info with sess.filePtr := 0xFF#8 } ∧
      s.phase = .transferringFile ∧ s.xsub = .info ∧ s.act = .txreq ∧ s.sess.filePtr = 0xFF#8) :=
  ⟨by decide, by decide, rfl, rfl, rfl, by decide, by decide, ⟨_, rfl, rfl, rfl, rfl, rfl⟩⟩

/-- Every clause of InterruptLevelAndClear: a bit cleared by a write and by a reset, and the entries that set bits 0, 1, 2. -/
theorem witness_interrupts :
    ({ rest .done with irqStatus := 1#5, irqEnable := 1#5 } : State).irqLevel = true ∧
    after (step (withEvents [.hostWrite 4 0x000C#16 0x10#32] { rest .done with irqStatus := 0x10#5 }))
      (fun t => !t.irqStatus.getLsbD 4) = true ∧
    after (step (withEvents [.reset {}] { rest .done with irqStatus := 0x01#5 })) (fun t => !t.irqStatus.getLsbD 0) = true ∧
    after (step (withEvents [.tick] { chunkWait with frTimer := 1#32 }))
      (fun t => decide (t.phase = .failed) && t.irqStatus.getLsbD 1) = true ∧
    after (step (withEvents [.rxByte] { fiveOfAck hsSent with parser.hdr.b2 := 6#8 }))
      (fun t => decide (t.act = .whost) && t.irqStatus.getLsbD 2) = true ∧
    after (step (withEvents [.rxByte]
      { fiveOfAck lastChunkSent with sess.pendCount := 1#8 })) (fun t => decide (t.phase = .done) && t.irqStatus.getLsbD 0) =
        true := ⟨rfl, rfl, rfl, rfl, rfl, rfl⟩

theorem witness_reset :
    hsWait.cfg.legal = true ∧ (withEvents [.reset {}] hsWait).port.events = .reset {} :: [] := ⟨rfl, rfl⟩

/-- ResetRestoresResetValues, the clauses of the contents: the first and the last byte of `DESC` that exist, one past it, and
two cells for one byte. -/
theorem witness_reset_contents :
    hsWait.cfg.nameSlot = 64 ∧ Memory.wf [(0, 1#8), (20320 + 0x44, 2#8)] ∧
    (∀ c ∈ ([(0, 1#8), (20320 + 0x44, 2#8)] : Memory), descImplemented hsWait.cfg c.1 = true) ∧
    descImplemented hsWait.cfg (20320 + 0x45) = false ∧ descImplemented hsWait.cfg 20400 = false ∧
    rxnameImplemented hsWait.cfg 16319 = true ∧ rxnameImplemented hsWait.cfg 16320 = false ∧
    paybufImplemented hsWait.cfg 65534 = true ∧ paybufImplemented hsWait.cfg 65535 = false ∧
    ([(5, 1#8), (5, 2#8)] : List Host.Cell).find? (fun d => d.1 = 5) = some (5, 1#8) ∧
    descImplemented hsWait.cfg 5 = true := by decide

/-- PartialFrameIsDiscarded: a step out of a wait and one into it, and a timeout inside a frame. -/
theorem witness_partial_frame :
    (fiveOfAck hsSent).parserIdle = true ∧ (fiveOfAck hsSent).controlInv = true ∧ hsWait.parserIdle = true ∧ State.reset.parserIdle = true ∧
    (fiveOfAck hsWait).parser.hc ≠ 0#3 ∧ hsWait.phase ≠ .failed ∧
    after (step (withEvents [.tick] { fiveOfAck hsWait with hsTimer := 1#32 }))
      (fun t => decide (t.phase = .failed)) = true ∧
    after (step (withEvents [.rxByte] (fiveOfAck hsSent))) (fun t => !t.act.waits) = true :=
  ⟨rfl, rfl, rfl, rfl, by decide, by decide, rfl, rfl⟩

/-- The premises of every kept invariant at once, in a receiver inside a file taking a byte. -/
theorem witness_invariants_receiver :
    (∃ t, step (withEvents [.rxByte] { chunkWait with port.rxq := [0x55#8] }) = .next t) ∧
    chunkWait.controlInv = true ∧ chunkWait.countersInv = true ∧ chunkWait.requestInv = true ∧
    chunkWait.requestSent = true ∧ chunkWait.splitterInv = true ∧ chunkWait.assemblerInv = true ∧ chunkWait.memoryInv ∧
    chunkWait.parser.consistent chunkWait.cfg = true ∧ chunkWait.inv = true := by
  refine ⟨⟨_, rfl⟩, rfl, rfl, rfl, rfl, rfl, rfl, ?_, rfl, rfl⟩
  unfold State.memoryInv
  decide

/-- The same in a sender with its last chunk in flight, whose ACK arrives; and the premises of LastChunkCompletesFile. -/
theorem witness_invariants_sender :
    (∃ t, step (withEvents [.rxByte] (fiveOfAck lastChunkSent)) = .next t) ∧
    (fiveOfAck lastChunkSent).controlInv = true ∧ (fiveOfAck lastChunkSent).countersInv = true ∧
    (fiveOfAck lastChunkSent).requestInv = true ∧ (fiveOfAck lastChunkSent).requestSent = true ∧
    (fiveOfAck lastChunkSent).splitterInv = true ∧ (fiveOfAck lastChunkSent).assemblerInv = true ∧
    (fiveOfAck lastChunkSent).parser.consistent lastChunkSent.cfg = true ∧
    lastChunkSent.cfg.legal = true ∧ lastChunkSent.phase = .transferringFile ∧ lastChunkSent.xsub = .chunks ∧
    lastChunkSent.act = .wrsp ∧
    lastChunkSent.sess.bytesDone.toNat + lastChunkSent.sess.txN.toNat = lastChunkSent.sess.curSize.toNat :=
  ⟨⟨_, rfl⟩, rfl, rfl, rfl, rfl, rfl, rfl, rfl, rfl, rfl, rfl, rfl, rfl⟩

/-- Every clause of NoFaultAndNoOtherRefusal: the invariant, and each kind of refused step. -/
theorem witness_no_fault :
    State.reset.inv = true ∧ ({ State.reset with cfg.chunkSize := 0 } : State).cfg.legal = false ∧
    State.accepts State.reset (.hostRead 1 0x0000#16) = false ∧ State.accepts State.reset (.srcResp []) = false ∧
    step (withEvents [.srcResp []] State.reset) = .refused .srcRespForm := ⟨rfl, rfl, rfl, rfl, rfl⟩

/-- The last clause of NoFaultAndNoOtherRefusal, at the ends of its ranges: R10 and I38, D3, and the name slots of log 25. -/
theorem witness_legal_range :
    ({ Config.default with chunkSize := 1 } : Config).legal = true ∧ ({ Config.default with chunkSize := 65531 } : Config).legal = true ∧
    ({ Config.default with chunkSize := 65532 } : Config).legal = false ∧
    ({ Config.default with nameSlot := 4 } : Config).legal = true ∧ ({ Config.default with nameSlot := 96 } : Config).legal = true ∧
    ({ Config.default with nameSlot := 100 } : Config).legal = false ∧
    ({ Config.default with cmdNack := 0x05#8 } : Config).legal = false := by decide

/-- ConfigurationIsLockedInSession, FileSequenceIsFixed, ExchangesAreLockStep, StreamsKeepTheirOrder: a step inside a transfer
that is no reset; and the second clause of FileSequenceIsFixed. -/
theorem witness_in_session :
    (∃ t, step (withEvents [.hostWrite 4 0x0000#16 7#32] chunkWait) = .next t) ∧ chunkWait.phase.active = true ∧
    (∀ u es, (withEvents [.hostWrite 4 0x0000#16 7#32] chunkWait).port.events ≠ .reset u :: es) ∧
    chunkWait.controlInv = true ∧ chunkWait.phase = .transferringFile ∧ chunkWait.act = .wreq ∧
    chunkWait.cfg.codes = Config.default.codes := by
  refine ⟨⟨_, rfl⟩, rfl, ?_, rfl, rfl, rfl, rfl⟩
  intro u es h
  cases h

/-- ExchangesAreLockStep: a step with a frame and sink events, and one with a request. -/
theorem witness_frames :
    after (step (withEvents [.rxByte] { chunkWait with
      sess.curSize := 5#32, port.rxq := [7#8], parser.hc := 6#3, parser.pcmd := 3#8, parser.plen := 5#16
      parser.hdr := ⟨0x55#8, 0xAA#8, 3#8, 5#8, 0#8, 7#8⟩, parser.pcsum := 7#8, parser.pcnt := 4#16
      parser.paybuf := [(0, 1#8), (2, 1#8)] })) (fun t =>
        decide (t.port.sink = chunkWait.port.sink ++ [.data [7#8], .fileEnd 0#8]) &&
        decide (t.port.tx = [0x55#8, 0xAA#8, 0x05#8, 0x00#8, 0x00#8, 0x00#8])) = true ∧
    after (step (live 1#3 .sendingHandshake .txreq .info)) (fun t => decide (t.port.tx.length = 11)) = true ∧
    (fiveOfAck hsWait).act = .wreq ∧ (fiveOfAck hsWait).linkOwned = true ∧
    (parseByte 0#8 (fiveOfAck hsWait)).2.isSome = true ∧
    after (step (withEvents [.rxByte] (fiveOfAck hsWait)))
      (fun t => decide (t.port.tx = [0x55#8, 0xAA#8, 0x06#8, 0x00#8, 0x00#8, 0x00#8])) = true := ⟨rfl, rfl, rfl, rfl, rfl, rfl⟩

/-- NeverSendsFileEnd: a step that sends a frame, from a state with its premises. -/
theorem witness_frame_sent :
    (live 1#3 .sendingHandshake .txreq .info).requestInv = true ∧
    (∃ s t f, s = { live 1#3 .sendingHandshake .txreq .info with sess.pendCount := 0#8 } ∧ step s = .next t ∧
      s.controlInv = true ∧ s.countersInv = true ∧ s.requestInv = true ∧ s.splitterInv = true ∧
      ∃ l, t.port.out = s.port.out ++ l ∧ .frame f ∈ l) := by
  refine ⟨rfl, ⟨_, _, hsSent.txbuf, rfl, rfl, rfl, rfl, rfl, rfl, [.frame hsSent.txbuf], rfl, by simp⟩⟩

/-- PhasesFollowTheArcs: a step that changes the phase. -/
theorem witness_phase_change :
    ∃ t, step (withEvents [.rxByte] (fiveOfAck hsSent)) = .next t ∧ hsSent.controlInv = true ∧ hsSent.phase ≠ t.phase :=
  ⟨_, rfl, rfl, by decide⟩

/-- EngineRestsWithoutSession: a tick and a byte with no session. -/
theorem witness_rest :
    (∃ t, step (withEvents [.tick] (rest .done)) = .next t) ∧ (rest .done).controlInv = true ∧
    (rest .failed).controlInv = true ∧ (rest .done).phase.active = false ∧
    (∀ u es, (withEvents [.tick] (rest .done)).port.events ≠ .reset u :: es) ∧
    (∀ v es, (withEvents [.tick] (rest .done)).port.events = .hostWrite 4 0x0004#16 v :: es → v.extractLsb' 0 8 ≠ 0x01#8) := by
  refine ⟨⟨_, rfl⟩, rfl, rfl, rfl, ?_, ?_⟩
  · intro u es h
    cases h
  · intro v es h
    cases h

/-- StaleContentsAreNeverObserved: two states that differ in stale contents and in nothing else. -/
theorem witness_stale :
    hsWait.sameButStale { hsWait with parser.plen := 7#16, parser.paybuf := [(3, 9#8)], txbuf := [1#8] } ∧
    hsWait ≠ { hsWait with parser.plen := 7#16, parser.paybuf := [(3, 9#8)], txbuf := [1#8] } ∧ hsWait.memoryInv := by
  refine ⟨⟨rfl, rfl, rfl, rfl, ?_, ?_⟩, by decide, ?_⟩
  · intro h
    cases h
  · intro h
    rcases h with h | h <;> cases h
  · unfold State.memoryInv
    decide

end Sys2Proof.Tests
end

namespace Sys2Proof.Machine

/-! ### The status bits: which are raised, by what, and that none is lost (10_state.md R72) -/

/-- The step from `s` to `t` raises the bits `m` of `IRQ_STATUS` and clears none; bits 0 and 1 are raised only on the way
into DONE and FAILED, and DONE, FAILED and WHOST are entered only with their bits raised. -/
structure Raised (m : BitVec 5) (s t : State) : Prop where
  status : t.irqStatus = s.irqStatus ||| m
  done : m.getLsbD 0 = true → t.phase = .done
  failed : m.getLsbD 1 = true → t.phase = .failed
  intoDone : t.phase = .done → s.phase = .done ∨ m.getLsbD 0 = true
  intoFailed : t.phase = .failed → s.phase = .failed ∨ m.getLsbD 1 = true
  intoWhost : t.act = .whost → s.act = .whost ∨ m.getLsbD 2 = true

/-- From `s` to `t` some bits of `IRQ_STATUS` are raised, as `Raised` says. -/
def Raises (s t : State) : Prop := ∃ m, Raised m s t

/-- A state that only gained bits other than 0 and 1, and whose phase is the old one or one of a session, may come first. -/
theorem Raises.after {s u t : State} {m : BitVec 5} (h : Raises u t) (hs : u.irqStatus = s.irqStatus ||| m)
    (h0 : m.getLsbD 0 = false) (h1 : m.getLsbD 1 = false) (hp : u.phase = s.phase ∨ u.phase.active = true)
    (ha : u.act = s.act) : Raises s t := by
  obtain ⟨n, hn⟩ := h
  have hdone : u.phase = .done → s.phase = .done := fun e => by
    rcases hp with hp | hp
    · rw [← hp, e]
    · rw [e] at hp; cases hp
  have hfailed : u.phase = .failed → s.phase = .failed := fun e => by
    rcases hp with hp | hp
    · rw [← hp, e]
    · rw [e] at hp; cases hp
  refine ⟨m ||| n, ?_, ?_, ?_, ?_, ?_, ?_⟩
  · rw [hn.status, hs, BitVec.or_assoc]
  · rw [BitVec.getLsbD_or, h0, Bool.false_or]
    exact hn.done
  · rw [BitVec.getLsbD_or, h1, Bool.false_or]
    exact hn.failed
  · rw [BitVec.getLsbD_or, h0, Bool.false_or]
    exact fun e => (hn.intoDone e).imp_left hdone
  · rw [BitVec.getLsbD_or, h1, Bool.false_or]
    exact fun e => (hn.intoFailed e).imp_left hfailed
  · intro e
    rcases hn.intoWhost e with e | e
    · exact .inl (ha ▸ e)
    · exact .inr (by rw [BitVec.getLsbD_or, e, Bool.or_true])

/-- A change of other registers, or to a phase of a session, may come first. -/
theorem Raises.after_same {s u t : State} (h : Raises u t) (hs : u.irqStatus = s.irqStatus)
    (hp : u.phase = s.phase ∨ u.phase.active = true) (ha : u.act = s.act) : Raises s t :=
  h.after (m := 0#5) (by simpa using hs) rfl rfl hp ha

/-- A change of other registers that does not enter WHOST raises nothing. -/
theorem Raises.of_same {s t : State} (hs : t.irqStatus = s.irqStatus) (hp : t.phase = s.phase)
    (ha : t.act = .whost → s.act = .whost) : Raises s t :=
  ⟨0#5, by simpa using hs, nofun, nofun, fun e => .inl (hp ▸ e), fun e => .inl (hp ▸ e), fun e => .inl (ha e)⟩

/-- A raised bit stays raised. -/
theorem Raises.keeps {s t : State} (h : Raises s t) {k : Nat} (hk : s.irqStatus.getLsbD k = true) :
    t.irqStatus.getLsbD k = true := by
  obtain ⟨m, hm⟩ := h
  rw [hm.status, BitVec.getLsbD_or, hk, Bool.true_or]

/-! #### The shared operations -/

theorem raises_fail (s : State) (code : ErrCode) (e o : Word) : Raises s (s.fail code e o) :=
  ⟨IrqBit.failed.mask, rfl, nofun, fun _ => rfl, nofun, fun _ => .inr rfl, nofun⟩

theorem raises_finish (s : State) : Raises s s.finish :=
  ⟨IrqBit.done.mask, rfl, fun _ => rfl, nofun, fun _ => .inr rfl, nofun, nofun⟩

/-- Entering an activity other than WHOST. -/
theorem raises_enter {a : Act} (ha : a ≠ .whost) (s : State) : Raises s (s.enter a) := by
  rcases State.enter_cases a s with ⟨-, -, h⟩ | ⟨-, -, h⟩ | ⟨-, -, h⟩
  · exact h ▸ raises_fail s _ _ _
  · exact h ▸ .of_same rfl rfl fun e => absurd e ha
  · exact h ▸ .of_same rfl rfl fun e => absurd e ha

/-- Entering WHOST with bit 2 raised (45_flow_control.md R474). -/
theorem raises_enterWhost (s : State) : Raises s ((s.irqSet .nack).enter .whost) := by
  rcases State.enter_cases .whost (s.irqSet .nack) with ⟨-, -, h⟩ | ⟨-, hw, -⟩ | ⟨-, -, h⟩
  · exact h ▸ (raises_fail _ _ _ _).after (u := s.irqSet .nack) rfl rfl rfl (.inl rfl) rfl
  · cases hw
  · rw [h]
    exact ⟨IrqBit.nack.mask, rfl, nofun, nofun, .inl, .inl, fun _ => .inr rfl⟩

theorem raises_recover (s : State) (code : ErrCode) (e o : Word) : Raises s (s.recover code e o) :=
  ⟨IrqBit.err.mask, rfl, nofun, nofun, .inl, .inl, .inl⟩

/-- A recoverable error, an answer NACK and a new wait. -/
theorem raises_recoverNack (s : State) (code : ErrCode) (e o : Word) :
    Raises s ((s.recover code e o).respondNack.enter .wreq) :=
  (raises_enter (by decide) _).after (u := (s.recover code e o).respondNack) (m := IrqBit.err.mask)
    rfl rfl rfl (.inl rfl) rfl

/-- `file_complete()` raises bit 3 first. -/
theorem raises_fileComplete_of_file (s : State) : Raises (s.irqSet .file) s.fileComplete := by
  rcases State.fileComplete_cases s with ⟨-, h⟩ | ⟨-, h⟩ <;> rw [h]
  · exact (raises_finish _).after_same rfl (.inl rfl) rfl
  · exact (raises_enter (by split <;> decide) _).after_same rfl (.inl rfl) rfl

theorem raises_fileComplete (s : State) : Raises s s.fileComplete :=
  (raises_fileComplete_of_file s).after rfl rfl rfl (.inl rfl) rfl

/-! #### The rules of the frames -/

theorem raises_handshakeRule (p : List Byte) (s : State) : Raises s (handshakeRule p s) := by
  unfold handshakeRule
  split
  · exact raises_recoverNack s _ _ _
  · exact (raises_enter (by decide) _).after_same rfl (.inr rfl) rfl

theorem raises_fileListRule (p : List Byte) (s : State) : Raises s (fileListRule p s) := by
  unfold fileListRule
  split
  · exact raises_recoverNack s _ _ _
  · simp only
    split
    · exact (raises_finish _).after_same rfl (.inl rfl) rfl
    · exact (raises_enter (by decide) _).after_same rfl (.inr rfl) rfl

theorem raises_infoRule (p : List Byte) (s : State) : Raises s (infoRule p s) := by
  unfold infoRule
  split
  · exact raises_recoverNack s _ _ _
  · simp only
    split
    · exact (raises_fileComplete _).after_same rfl (.inl rfl) rfl
    · exact (raises_enter (by decide) _).after_same rfl (.inl rfl) rfl

theorem raises_rejectChunk (e o : Word) (s : State) : Raises s (rejectChunk e o s) :=
  (raises_fail _ _ _ _).after_same (u := s.respondNack) rfl (.inl rfl) rfl

theorem raises_chunkRule (p : List Byte) (s : State) : Raises s (chunkRule p s) := by
  unfold chunkRule
  split
  · exact raises_recoverNack s _ _ _
  · split
    · exact raises_rejectChunk _ _ s
    · split
      · exact raises_rejectChunk _ _ s
      · simp only
        split
        · exact (raises_fileComplete _).after_same rfl (.inl rfl) rfl
        · exact (raises_enter (by decide) _).after_same rfl (.inl rfl) rfl

theorem raises_fileDataRule (p : List Byte) (s : State) : Raises s (fileDataRule p s) := by
  unfold fileDataRule
  split
  · exact raises_infoRule p s
  · exact raises_chunkRule p s

theorem raises_ackAccepted (s : State) : Raises s (ackAccepted s) := by
  unfold ackAccepted
  split
  · exact (raises_enter (by decide) _).after_same rfl (.inr rfl) rfl
  · split
    · exact raises_finish s
    · exact (raises_enter (by decide) _).after_same rfl (.inr rfl) rfl
  · split <;> (simp only; split)
    · exact (raises_fileComplete _).after_same rfl (.inl rfl) rfl
    · exact (raises_enter (by decide) _).after_same rfl (.inl rfl) rfl
    · exact (raises_fileComplete _).after_same rfl (.inl rfl) rfl
    · exact (raises_enter (by decide) _).after_same rfl (.inl rfl) rfl

theorem raises_ackRule (p : List Byte) (s : State) : Raises s (ackRule p s) := by
  unfold ackRule
  split
  · exact raises_recover s _ _ _
  · exact raises_ackAccepted s

theorem raises_nackRule (p : List Byte) (s : State) : Raises s (nackRule p s) := by
  unfold nackRule
  split
  · exact raises_recover s _ _ _
  · exact raises_enterWhost s

/-! #### The steps -/

theorem Dispatched.raises {u t : State} (h : Dispatched u t) : Raises u t := by
  cases h with
  | nacked code e o => exact raises_recoverNack u code e o
  | ignored code e o => exact raises_recover u code e o
  | wrongRequest => exact (raises_fail _ _ _ _).after_same (u := u.respondNack) rfl (.inl rfl) rfl
  | wrongAnswer => exact raises_fail u _ _ _
  | handshake p => exact raises_handshakeRule p u
  | fileList p => exact raises_fileListRule p u
  | fileData p => exact raises_fileDataRule p u
  | fileEnd => exact (raises_enter (by decide) _).after_same rfl (.inl rfl) rfl
  | ack p => exact raises_ackRule p u
  | nack p => exact raises_nackRule p u

/-- Parsing a byte leaves the control state and the status bits. -/
theorem Parsed.control {b : Byte} {s u : State} {o : Option ParseOutcome} (h : Parsed b s u o) :
    u.irqStatus = s.irqStatus ∧ u.phase = s.phase ∧ u.act = s.act := by
  cases h <;> exact ⟨rfl, rfl, rfl⟩

/-- A configuration write leaves the control state and the status bits. -/
theorem State.writeConf_control (s : State) (v : Word) (loc : HifLoc) :
    (s.writeConf v loc).irqStatus = s.irqStatus ∧ (s.writeConf v loc).phase = s.phase ∧
      (s.writeConf v loc).act = s.act := by
  cases loc <;> exact ⟨rfl, rfl, rfl⟩

theorem raises_tickStep (s : State) : Raises s (tickStep s) := by
  unfold tickStep
  split
  · simp only
    split
    · exact (raises_fail _ _ _ _).after_same rfl (.inl rfl) rfl
    · exact .of_same rfl rfl id
  · split
    · simp only
      split
      · unfold frameExpiry
        split <;> exact (raises_fail _ _ _ _).after_same rfl (.inl rfl) rfl
      · exact .of_same rfl rfl id
    · exact .of_same rfl rfl id

theorem raises_advStep (s : State) : Raises s (advStep s) := by
  unfold advStep
  split
  · exact (raises_enter (by split <;> decide) _).after_same rfl (.inr rfl) rfl
  · split <;> exact (raises_enter (by decide) _).after_same rfl (.inr rfl) rfl

theorem raises_sendChunkRequest (s : State) : Raises s (sendChunkRequest s) := by
  have he : Raises s (s.enter .wsrc) := raises_enter (by decide) s
  unfold sendChunkRequest
  simp only
  split
  · obtain ⟨m, h⟩ := he
    exact ⟨m, h.status, h.done, h.failed, h.intoDone, h.intoFailed, h.intoWhost⟩
  · exact he

/-- Every event but a write of `IRQ_STATUS` and a reset only raises status bits, as `Raised` says. -/
theorem Moved.irq {e : Event} {s t : State} (h : Moved e s t) :
    Raises s t ∨
    (∃ v, e = .hostWrite 4 0x000C#16 v ∧ t = s.irqClear (v.extractLsb' 0 5)) ∨
    (∃ u, e = .reset u ∧ t = resetStep u s) := by
  cases h with
  | irqClear v he => exact .inr (.inl ⟨v, he, rfl⟩)
  | reset u he => exact .inr (.inr ⟨u, he, rfl⟩)
  | stay | peer | irqEnable | hostRead | abortLatched => exact .inl (.of_same rfl rfl id)
  | parsed b q u _ _ hp =>
    obtain ⟨hs, hph, ha⟩ := hp.control
    exact .inl (.of_same hs hph fun e => ha ▸ e)
  | completed b q u t o _ _ hp _ hd =>
    obtain ⟨hs, hph, ha⟩ := hp.control
    exact .inl (hd.raises.after_same hs (.inl hph) ha)
  | tick => exact .inl (raises_tickStep s)
  | start => left; split <;> exact (raises_enter (by decide) _).after_same rfl (.inr rfl) rfl
  | abortNow => exact .inl (raises_fail s _ _ _)
  | retry | srcResp | sendHandshake | sendFileList =>
    exact .inl ((raises_enter (by decide) _).after_same rfl (.inl rfl) rfl)
  | configure v a =>
    obtain ⟨hs, hph, ha⟩ := s.writeConf_control v (hifLoc s.cfg a.toNat)
    exact .inl (.of_same hs hph fun e => ha ▸ e)
  | adv => exact .inl (raises_advStep s)
  | sendInfo t _ _ _ ht =>
    obtain ⟨-, name, f, size, index, -, -, -, -, rfl⟩ := sendInfo_next ht
    exact .inl ((raises_enter (by decide) _).after_same rfl (.inl rfl) rfl)
  | sendChunk => exact .inl (raises_sendChunkRequest s)

/-- `irq_set(bit)` sets the bits of its mask. -/
theorem State.irqSet_getLsbD (s : State) (b : IrqBit) {k : Nat} (hk : b.mask.getLsbD k = true) :
    (s.irqSet b).irqStatus.getLsbD k = true := by
  rw [State.irqSet_irqStatus, BitVec.getLsbD_or, hk, Bool.or_true]

/-- A step raises status bits as `Raised` says, is a host write of `IRQ_STATUS`, or is a reset. -/
theorem step_irq {s t : State} (h : step s = .next t) :
    Raises s t ∨
    (∃ v es, s.port.events = .hostWrite 4 0x000C#16 v :: es ∧ t.irqStatus = s.irqStatus &&& ~~~(v.extractLsb' 0 5) ∧
      t.phase = s.phase ∧ t.act = s.act) ∨
    (∃ u es, s.port.events = .reset u :: es ∧ t.irqStatus = 0#5 ∧ t.phase = .idle ∧ t.act = .none) := by
  obtain ⟨-, e, es, hm, he⟩ := step_moved h
  rcases hm.irq with hr | ⟨v, rfl, rfl⟩ | ⟨u, rfl, rfl⟩
  · exact .inl (hr.after_same rfl (.inl rfl) rfl)
  · exact .inr (.inl ⟨v, es, by simpa using he, rfl, rfl, rfl⟩)
  · exact .inr (.inr ⟨u, es, by simpa using he, rfl, rfl, rfl⟩)

/-- The output `irq` is the level of an enabled status bit. -/
theorem State.irqLevel_iff (s : State) :
    s.irqLevel = true ↔ ∃ k, k < 5 ∧ s.irqStatus.getLsbD k = true ∧ s.irqEnable.getLsbD k = true := by
  have hz : s.irqLevel = true ↔ s.irqStatus &&& s.irqEnable ≠ 0#5 := by simp [State.irqLevel]
  rw [hz]
  constructor
  · intro h
    by_contra hn
    push Not at hn
    refine h (BitVec.eq_of_getLsbD_eq fun k hk => ?_)
    simpa using hn k hk
  · rintro ⟨k, -, hs, he⟩ hzero
    have := congrArg (·.getLsbD k) hzero
    simp [hs, he] at this

/-- A status bit is cleared only by a host write of 1 to it or by a reset. -/
theorem step_clears_bit {s t : State} (h : step s = .next t) {k : Nat} (hk : k < 5)
    (hs : s.irqStatus.getLsbD k = true) (ht : t.irqStatus.getLsbD k = false) :
    (∃ v es, s.port.events = .hostWrite 4 0x000C#16 v :: es ∧ v.getLsbD k = true) ∨
      (∃ u es, s.port.events = .reset u :: es) := by
  rcases step_irq h with hr | ⟨v, es, he, hst, -, -⟩ | ⟨u, es, he, -⟩
  · rw [hr.keeps hs] at ht
    cases ht
  · refine .inl ⟨v, es, he, ?_⟩
    rw [hst] at ht
    simpa [hs, hk] using ht
  · exact .inr ⟨u, es, he⟩

/-- Entries to DONE, FAILED and WHOST raise bits 0, 1 and 2, and bits 0 and 1 are raised only so. -/
theorem step_entry_bits {s t : State} (h : step s = .next t) :
    (s.phase ≠ .done → t.phase = .done → t.irqStatus.getLsbD 0 = true) ∧
    (s.phase ≠ .failed → t.phase = .failed → t.irqStatus.getLsbD 1 = true) ∧
    (s.act ≠ .whost → t.act = .whost → t.irqStatus.getLsbD 2 = true) ∧
    (s.irqStatus.getLsbD 0 = false → t.irqStatus.getLsbD 0 = true → t.phase = .done) ∧
    (s.irqStatus.getLsbD 1 = false → t.irqStatus.getLsbD 1 = true → t.phase = .failed) := by
  rcases step_irq h with ⟨m, hm⟩ | ⟨v, es, -, hst, hp, ha⟩ | ⟨u, es, -, hst, hp, ha⟩
  · rw [hm.status]
    simp only [BitVec.getLsbD_or, Bool.or_eq_true]
    refine ⟨fun hs ht => .inr ((hm.intoDone ht).resolve_left hs),
      fun hs ht => .inr ((hm.intoFailed ht).resolve_left hs), fun hs ht => .inr ((hm.intoWhost ht).resolve_left hs),
      fun hs ht => hm.done (ht.resolve_left (ne_true_of_eq_false hs)), fun hs ht => hm.failed (ht.resolve_left (ne_true_of_eq_false hs))⟩
  · rw [hst, hp, ha]
    simp +contextual
  · rw [hst, hp, ha]
    simp

/-- Settles O40: `step_irq` says what a step does to the status bits, and each clause is read off it. -/
theorem interruptLevelAndClear : Obligations.InterruptLevelAndClear :=
  ⟨State.irqLevel_iff, fun _ _ _ h hk => step_clears_bit h hk, fun _ _ => step_entry_bits,
    fun s => ⟨(raises_fileComplete_of_file s).keeps (s.irqSet_getLsbD .file rfl),
      fun _ _ _ => State.irqSet_getLsbD _ .err rfl⟩⟩

end Sys2Proof.Machine

namespace Sys2Proof.Machine

/-! ### Host accesses at an aligned address (10_state.md R75, 46_host_commands.md R501, R502) -/

theorem accessDefined_word {a : BitVec 16} (h4 : a.toNat % 4 = 0) : accessDefined 4 a = true := by
  simp [accessDefined, h4]

theorem runEvent_hostWrite {a : BitVec 16} (h4 : a.toNat % 4 = 0) (v : Word) (s : State) :
    runEvent (.hostWrite 4 a v) s = s.hifWrite v (hifLoc s.cfg a.toNat) :=
  if_pos (accessDefined_word h4)

theorem runEvent_hostRead {a : BitVec 16} (h4 : a.toNat % 4 = 0) (s : State) :
    runEvent (.hostRead 4 a) s =
      .next { s with port.out := s.port.out ++ [.hostRead a (s.hifValue (hifLoc s.cfg a.toNat))] } :=
  if_pos (accessDefined_word h4)

/-! #### Commands (10_state.md R77, 30_encoding.md R219) -/

theorem decodeCommand_start {v : Word} (h : v.extractLsb' 0 8 = 0x01#8) : decodeCommand v = .ok .start := by
  simp [decodeCommand, h]

theorem decodeCommand_abort {v : Word} (h : v.extractLsb' 0 8 = 0x02#8) : decodeCommand v = .ok .abort := by
  simp [decodeCommand, h]

theorem decodeCommand_retry {v : Word} (h : v.extractLsb' 0 8 = 0x03#8) : decodeCommand v = .ok .retry := by
  simp [decodeCommand, h]

theorem decodeCommand_reserved {v : Word} (h1 : v.extractLsb' 0 8 ≠ 0x01#8) (h2 : v.extractLsb' 0 8 ≠ 0x02#8)
    (h3 : v.extractLsb' 0 8 ≠ 0x03#8) : decodeCommand v = .error (.reservedCode (v.extractLsb' 0 8)) := by
  simp [decodeCommand, h1, h2, h3]

theorem State.hifWrite_command {v : Word} {i : Instr} (h : decodeCommand v = .ok i) (s : State) :
    s.hifWrite v .cmd = exec i s := by
  simp only [State.hifWrite, h]

theorem State.hifWrite_reservedCommand {v : Word} (h1 : v.extractLsb' 0 8 ≠ 0x01#8) (h2 : v.extractLsb' 0 8 ≠ 0x02#8)
    (h3 : v.extractLsb' 0 8 ≠ 0x03#8) (s : State) : s.hifWrite v .cmd = .next s := by
  simp only [State.hifWrite, decodeCommand_reserved h1 h2 h3]

/-- A write to `CMD` runs the command its code names. -/
theorem runEvent_command {v : Word} {i : Instr} (h : decodeCommand v = .ok i) (s : State) :
    runEvent (.hostWrite 4 0x0004#16 v) s = exec i s :=
  (runEvent_hostWrite rfl v s).trans (s.hifWrite_command h)

/-- A write to `CMD` of a reserved code does nothing. -/
theorem runEvent_reservedCommand {v : Word} (h1 : v.extractLsb' 0 8 ≠ 0x01#8) (h2 : v.extractLsb' 0 8 ≠ 0x02#8)
    (h3 : v.extractLsb' 0 8 ≠ 0x03#8) (s : State) : runEvent (.hostWrite 4 0x0004#16 v) s = .next s :=
  (runEvent_hostWrite rfl v s).trans (s.hifWrite_reservedCommand h1 h2 h3)

/-- Settles O10: the step runs the entry, and the entry at `CMD` is the command of its code. -/
theorem stepRunsHostCommand : Obligations.StepRunsHostCommand := by
  refine ⟨fun v => ⟨decodeCommand_start, decodeCommand_abort, decodeCommand_retry⟩,
    fun s v es hl => ⟨fun he => ?_, fun he => ?_⟩⟩
  · rw [step_event hl he]
    exact ⟨fun i hi => runEvent_command hi _, fun h1 h2 h3 => runEvent_reservedCommand h1 h2 h3 _⟩
  · rw [step_event hl he, runEvent_hostRead rfl]
    rfl

/-! #### The fields of the status words (10_state.md R78, R82) -/

/-- Each field of `STATUS`, least significant first. -/
theorem State.status_fields (s : State) :
    s.status.extractLsb' 0 4 = s.phase.code ∧ s.status.extractLsb' 4 1 = xsubCode s.xsub ∧
    s.status.extractLsb' 5 3 = s.act.code ∧ s.status.extractLsb' 8 1 = BitVec.ofBool s.linkOwned ∧
    s.status.extractLsb' 9 1 = BitVec.ofBool s.abortReq ∧ s.status.extractLsb' 10 2 = 0#2 ∧
    s.status.extractLsb' 12 4 = s.err.failCause.code ∧ s.status.extractLsb' 16 4 = s.err.lastErr.code ∧
    s.status.extractLsb' 20 4 = s.err.failPhase.code ∧ s.status.extractLsb' 24 8 = 0#8 := by
  unfold State.status
  refine ⟨?_, ?_, ?_, ?_, ?_, ?_, ?_, ?_, ?_, ?top⟩
  case top =>
    repeat rw [BitVec.extractLsb'_append_eq_of_le (by decide)]
    exact BitVec.extractLsb'_eq_self
  all_goals
    repeat rw [BitVec.extractLsb'_append_eq_of_le (by decide)]
    rw [BitVec.extractLsb'_append_eq_of_add_le (by decide)]
    exact BitVec.extractLsb'_eq_self

/-- The fields of `PARSER` in the header stage, for every value of `hc`. -/
theorem headerCount_fields : ∀ hc : BitVec 3,
    (hc.setWidth 32).extractLsb' 0 16 = hc.setWidth 16 ∧ (hc.setWidth 32).extractLsb' 16 1 = 0#1 ∧
      (hc.setWidth 32).extractLsb' 17 15 = 0#15 := by
  decide

/-- The fields of `PARSER` in the payload stage. -/
theorem payloadCount_fields (pcnt : Half) :
    (0#15 ++ 1#1 ++ pcnt : Word).extractLsb' 0 16 = pcnt ∧ (0#15 ++ 1#1 ++ pcnt : Word).extractLsb' 16 1 = 1#1 ∧
      (0#15 ++ 1#1 ++ pcnt : Word).extractLsb' 17 15 = 0#15 := by
  refine ⟨?_, ?_, ?_⟩
  · rw [BitVec.extractLsb'_append_eq_of_add_le (by decide)]
    exact BitVec.extractLsb'_eq_self
  · rw [BitVec.extractLsb'_append_eq_of_le (by decide)]
    rfl
  · rw [BitVec.extractLsb'_append_eq_of_le (by decide)]
    rfl

/-- Each field of `PARSER`: the count of the stage the parser is in, the stage, and zeros. -/
theorem State.parserView_fields {s : State} (hl : s.cfg.legal = true) :
    s.parserView.extractLsb' 0 16 = (if s.parser.hc.toNat < 6 then s.parser.hc.setWidth 16 else s.parser.pcnt) ∧
    s.parserView.extractLsb' 16 1 = (if s.parser.hc.toNat < 6 then 0#1 else 1#1) ∧
    s.parserView.extractLsb' 17 15 = 0#15 := by
  unfold State.parserView
  rw [Parser.headerStage_eq hl]
  by_cases h : s.parser.hc.toNat < 6
  · simpa only [h, decide_true, if_true] using headerCount_fields s.parser.hc
  · simpa only [h, decide_false, if_false, Bool.false_eq_true] using payloadCount_fields s.parser.pcnt

/-! #### The `DESC` table with the name slots of this hardware (10_state.md R101) -/

theorem descLoc_word {c : Config} (hn : c.nameSlot = 64) {off : Nat} (h : off % 0x50 < 0x44) :
    descLoc c off = .descWord off := by
  simp [descLoc, Config.descBytes, Config.descIndexAt, hn, h]

theorem descLoc_index {c : Config} (hn : c.nameSlot = 64) {off : Nat} (h : off % 0x50 = 0x44) :
    descLoc c off = .descIndex off := by
  simp [descLoc, Config.descBytes, Config.descIndexAt, hn, h]

theorem descLoc_reserved {c : Config} (hn : c.nameSlot = 64) {off : Nat} (h : 0x44 < off % 0x50) :
    descLoc c off = .reserved := by
  simp [descLoc, Config.descBytes, Config.descIndexAt, hn, show ¬ off % 80 < 68 by omega, show off % 80 ≠ 68 by omega]

/-! #### Host reads (46_host_commands.md R502) -/

/-- Settles O36: the answer is the value of the location the map gives, read off register by register and range by range. -/
theorem hostReadAnswersRegister : Obligations.HostReadAnswersRegister := by
  refine ⟨rfl, rfl, rfl, rfl, fun s a hl hn h4 => ⟨_, runEvent_hostRead h4 s, ?_⟩⟩
  refine ⟨?_, ?_, ?status, ?_, ?_, ?_, ?_, ?_, ?_, ?_, ?_, ?_, ?_, ?_, ?_, ?_, ?_, ?_, ?_, ?_, ?_, ?_, ?parser, ?curname,
    ?descWord, ?descIndex, ?descReserved, ?rxname, ?hole⟩
  case status =>
    rintro rfl
    exact s.status_fields
  case parser =>
    rintro rfl
    exact State.parserView_fields hl
  case curname =>
    intro off ha hoff k hk
    rw [ha, hifLoc_curname hl (by rwa [hn])]
    exact Memory.readWord_byte s.curname off hk
  case descWord =>
    intro off ha hoff hf k hk
    rw [ha, hifLoc_desc hl (by rwa [hn]), descLoc_word hn hf]
    exact Memory.readWord_byte s.desc off hk
  case descIndex =>
    intro off ha hoff hf
    rw [ha, hifLoc_desc hl (by rwa [hn]), descLoc_index hn hf]
    rfl
  case descReserved =>
    intro off ha hoff hf
    rw [ha, hifLoc_desc hl (by rwa [hn]), descLoc_reserved hn hf]
    rfl
  case rxname =>
    intro off ha hoff k hk
    rw [ha, hifLoc_rxname hl (by rwa [hn])]
    exact Memory.readWord_byte s.rxname off hk
  case hole =>
    intro h
    rw [hifLoc_hole hl (by omega)]
    rfl
  all_goals
    rintro rfl
    rfl

/-! #### Host writes (46_host_commands.md R501, 10_state.md R74) -/

/-- A session is active in every phase but IDLE, DONE and FAILED (10_state.md R52). -/
theorem Phase.active_eq_false_iff (p : Phase) : p.active = false ↔ p = .idle ∨ p = .done ∨ p = .failed := by
  cases p <;> simp [Phase.active]

/-- Elsewhere than at `CMD`, `IRQ_STATUS` and `IRQ_ENABLE` a write reaches the configuration or, in a session, nothing. -/
theorem State.hifWrite_locked {loc : HifLoc} (h1 : loc ≠ .cmd) (h2 : loc ≠ .irqStatus) (h3 : loc ≠ .irqEnable)
    (v : Word) (s : State) : s.hifWrite v loc = if s.phase.active then .next s else .next (s.writeConf v loc) := by
  cases loc
  case cmd => exact absurd rfl h1
  case irqStatus => exact absurd rfl h2
  case irqEnable => exact absurd rfl h3
  all_goals rfl

theorem runEvent_hostWrite_locked {a : BitVec 16} (h4 : a.toNat % 4 = 0) (h1 : a.toNat ≠ 0x004) (h2 : a.toNat ≠ 0x00C)
    (h3 : a.toNat ≠ 0x010) (v : Word) (s : State) :
    runEvent (.hostWrite 4 a v) s =
      if s.phase.active then .next s else .next (s.writeConf v (hifLoc s.cfg a.toNat)) := by
  obtain ⟨e1, e2, e3⟩ := hifLoc_eq (c := s.cfg) (a := a.toNat)
  rw [runEvent_hostWrite h4, State.hifWrite_locked (mt e1 h1) (mt e2 h2) (mt e3 h3)]

/-- The registers from 0x030 on are read-only. -/
theorem State.writeConf_readOnlyRegister {a : Nat} (h : 0x030 ≤ a) (v : Word) (s : State) :
    s.writeConf v (hifRegister a) = s := by
  unfold hifRegister
  split <;> simp [State.writeConf] at h ⊢

/-- Outside the `DESC` table only registers below 0x030 are written. -/
theorem State.writeConf_readOnly {c : Config} (hl : c.legal = true) {a : Nat}
    (h : (0x030 ≤ a ∧ a < 0x1000) ∨ 0x1000 + (c.nameSlot + 16) * 255 ≤ a) (v : Word) (s : State) :
    s.writeConf v (hifLoc c a) = s := by
  by_cases hr : a < 0x05C
  · rw [hifLoc_register c hr]
    exact State.writeConf_readOnlyRegister (by omega) v s
  · rw [hifLoc_above hl hr]
    split
    · rfl
    · rw [if_neg (by omega)]
      split <;> rfl

/-- Settles O37: three locations are never locked; a write elsewhere is ignored in a session and otherwise stores what
`State.writeConf` says at the location the map gives. -/
theorem hostWriteStoresOrIgnores : Obligations.HostWriteStoresOrIgnores := by
  intro s a v hl hn h4
  refine ⟨?cmd, ?irqStatus, ?irqEnable, fun hidle hdone hfailed h1 h2 h3 => ?locked, fun hp => ?_⟩
  case cmd =>
    rintro rfl
    exact ⟨fun i hi => runEvent_command hi s, fun h1 h2 h3 => runEvent_reservedCommand h1 h2 h3 s⟩
  case irqStatus =>
    rintro rfl
    exact runEvent_hostWrite h4 v s
  case irqEnable =>
    rintro rfl
    exact runEvent_hostWrite h4 v s
  case locked =>
    have hactive : s.phase.active = true := by
      rw [← Bool.not_eq_false, Phase.active_eq_false_iff]
      simp [hidle, hdone, hfailed]
    rw [runEvent_hostWrite_locked h4 (fun e => h1 (BitVec.eq_of_toNat_eq e))
      (fun e => h2 (BitVec.eq_of_toNat_eq e)) (fun e => h3 (BitVec.eq_of_toNat_eq e)), if_pos hactive]
  have stored : a.toNat ≠ 0x004 → a.toNat ≠ 0x00C → a.toNat ≠ 0x010 →
      runEvent (.hostWrite 4 a v) s = .next (s.writeConf v (hifLoc s.cfg a.toNat)) := fun h1 h2 h3 => by
    rw [runEvent_hostWrite_locked h4 h1 h2 h3, if_neg (by rw [(Phase.active_eq_false_iff _).2 hp]; decide)]
  refine ⟨?_, ?_, ?_, ?_, ?_, ?_, ?descWord, ?descIndex, ?descReserved, ?readOnly⟩
  case descWord =>
    intro off ha hoff hf hwf
    refine ⟨Memory.writeWord s.desc off v, Memory.writeWord_wf hwf off v, fun k hk => Memory.read_writeWord hwf off v hk,
      fun x hx => Memory.read_writeWord_outside hx v, ?_⟩
    rw [stored (by omega) (by omega) (by omega), ha, hifLoc_desc hl (by rwa [hn]), descLoc_word hn hf]
    rfl
  case descIndex =>
    intro off ha hoff hf hwf
    refine ⟨Memory.write s.desc off (v.extractLsb' 0 8), Memory.write_wf hwf _ _, Memory.read_write_same hwf _ _,
      fun x hx => Memory.read_write_other hx _, ?_⟩
    rw [stored (by omega) (by omega) (by omega), ha, hifLoc_desc hl (by rwa [hn]), descLoc_index hn hf]
    rfl
  case descReserved =>
    intro off ha hoff hf
    rw [stored (by omega) (by omega) (by omega), ha, hifLoc_desc hl (by rwa [hn]), descLoc_reserved hn hf]
    rfl
  case readOnly =>
    rintro (rfl | rfl | rfl | h)
    · exact stored (by decide) (by decide) (by decide)
    · exact stored (by decide) (by decide) (by decide)
    · exact stored (by decide) (by decide) (by decide)
    · rw [stored (by omega) (by omega) (by omega), State.writeConf_readOnly hl (by rw [hn]; exact h)]
  all_goals
    rintro rfl
    exact stored (by decide) (by decide) (by decide)

end Sys2Proof.Machine

namespace Sys2Proof.Machine

/-! ### The form of a host access (20_memory.md R155) -/

theorem accessDefined_otherForm {w : Nat} {a : BitVec 16} (h : w ≠ 4 ∨ a.toNat % 4 ≠ 0) : ¬ accessDefined w a = true := by
  simp only [accessDefined, Bool.and_eq_true, decide_eq_true_eq]
  exact not_and_or.2 h

theorem runEvent_hostWrite_otherForm {w : Nat} {a : BitVec 16} (h : w ≠ 4 ∨ a.toNat % 4 ≠ 0) (v : Word) (s : State) :
    runEvent (.hostWrite w a v) s = .refused .hostAccessForm :=
  if_neg (accessDefined_otherForm h)

theorem runEvent_hostRead_otherForm {w : Nat} {a : BitVec 16} (h : w ≠ 4 ∨ a.toNat % 4 ≠ 0) (s : State) :
    runEvent (.hostRead w a) s = .refused .hostAccessForm :=
  if_neg (accessDefined_otherForm h)

/-- A write completes at every location: at `CMD` because every command does and a reserved code does nothing. -/
theorem State.hifWrite_completes (s : State) (v : Word) (loc : HifLoc) : ∃ t, s.hifWrite v loc = .next t := by
  by_cases hcmd : loc = .cmd
  · subst hcmd
    cases hd : decodeCommand v with
    | ok i =>
      rw [State.hifWrite_command hd]
      exact exec_command hd s
    | error r => exact ⟨s, by simp only [State.hifWrite, hd]⟩
  by_cases hirq : loc = .irqStatus
  · subst hirq
    exact ⟨_, rfl⟩
  by_cases hen : loc = .irqEnable
  · subst hen
    exact ⟨_, rfl⟩
  rw [State.hifWrite_locked hcmd hirq hen]
  split
  · exact ⟨_, rfl⟩
  · exact ⟨_, rfl⟩

/-- Settles O38: `accessDefined` is the form R155 gives, and a defined access completes whatever its location is. -/
theorem hostAccessFormIsChecked : Obligations.HostAccessFormIsChecked := by
  refine fun s w a v => ⟨fun h => ⟨runEvent_hostWrite_otherForm h v s, runEvent_hostRead_otherForm h s⟩, ?defined,
    fun m x k hk => Memory.readWord_byte m x hk, fun m x k hm hk => Memory.read_writeWord hm x v hk⟩
  case defined =>
    rintro rfl h4
    rw [runEvent_hostWrite h4, runEvent_hostRead h4]
    exact ⟨s.hifWrite_completes v _, _, rfl⟩

end Sys2Proof.Machine

namespace Sys2Proof.Machine

/-! ### The basename of a name slot (40_codec.md R256) -/

theorem byteAt_mem {p : List Byte} {k : Nat} (h : k < p.length) : byteAt p k ∈ p := by
  rw [byteAt_of_lt h]
  exact List.getElem_mem h

/-- The bytes between two places of a list are those that stand between what is before and what is after them. -/
theorem slice_append (a b r : List Byte) : slice (a ++ b ++ r) a.length (a.length + b.length) = b := by
  simp [slice]

/-- A slot is its name, which holds no 0x00, and a remainder, which begins with 0x00 unless it is empty. -/
theorem slotName_split (slot : List Byte) :
    ∃ rest, slot = slotName slot ++ rest ∧ 0#8 ∉ slotName slot ∧ (rest ≠ [] → byteAt rest 0 = 0#8) := by
  refine ⟨slot.dropWhile (fun b => b != 0#8), List.takeWhile_append_dropWhile.symm, fun h => ?zero, fun h => ?head⟩
  case zero => simpa using List.mem_takeWhile_imp h
  case head =>
    have hhead := List.head_dropWhile_not (fun b => b != 0#8) h
    rw [byteAt_of_lt (List.length_pos_iff.2 h), ← List.head_eq_getElem_zero h]
    simpa using hhead

/-- A name is a directory part, which ends with a separator unless it is empty, and its basename, which holds none. -/
theorem basename_split (seps name : List Byte) :
    ∃ dir, name = dir ++ basename seps name ∧ (∀ b ∈ basename seps name, b ∉ seps) ∧
      (0 < dir.length → byteAt dir (dir.length - 1) ∈ seps) := by
  refine ⟨name.rdropWhile (fun b => !seps.contains b), List.rdropWhile_append_rtakeWhile.symm, fun b hb => ?sep,
    fun h => ?last⟩
  case sep => simpa using List.mem_rtakeWhile_imp hb
  case last =>
    have hlast := List.rdropWhile_last_not (fun b => !seps.contains b) name (List.length_pos_iff.1 h)
    rw [byteAt_of_lt (by omega), ← List.getLast_eq_getElem (List.length_pos_iff.1 h)]
    simpa using hlast

/-- Settles O6: the slot is a directory part, the basename and a remainder; `j` and `n` are the two places between them. -/
theorem stripKeepsBasename : Obligations.StripKeepsBasename := by
  refine ⟨rfl, rfl, fun c slot hlen => ?_⟩
  obtain ⟨rest, hslot, hzero, hrest⟩ := slotName_split slot
  obtain ⟨dir, hname, hsep, hdir⟩ := basename_split c.separators (slotName slot)
  have hstrip : strip c slot = basename c.separators (slotName slot) ++
      zeros (c.nameSlot - (basename c.separators (slotName slot)).length) := rfl
  have hfull := Memory.strip_length c slot hlen.le
  generalize basename c.separators (slotName slot) = base at hname hsep hstrip
  rw [hname] at hslot hzero
  have hsize : dir.length + base.length + rest.length = c.nameSlot := by
    rw [← hlen, hslot, List.length_append, List.length_append]
  have hn : (dir ++ base).length = dir.length + base.length := List.length_append
  refine ⟨dir.length + base.length, dir.length, by omega, fun k hk => ?beforeZero, fun h => ?atZero, by omega,
    fun k hj hk => ?afterSep, fun h => ?atSep, ?_, hfull⟩
  case beforeZero =>
    rw [hslot, byteAt_append_left (by omega)]
    exact ne_of_mem_of_not_mem (byteAt_mem (by omega)) hzero
  case atZero =>
    rw [hslot, byteAt_append_right (by omega), hn, Nat.sub_self]
    exact hrest (List.length_pos_iff.1 (by omega))
  case afterSep =>
    rw [hslot, byteAt_append_left (by omega), byteAt_append_right hj]
    exact hsep _ (byteAt_mem (by omega))
  case atSep =>
    rw [hslot, byteAt_append_left (by omega), byteAt_append_left (by omega)]
    exact hdir h
  · rw [hstrip, hslot, slice_append, Nat.add_sub_cancel_left]

end Sys2Proof.Machine

namespace Sys2Proof.Machine

/-! ### The classes of phases and activities, as lists (spec/41_session.md R302, R303, R306) -/

theorem Phase.handshake_iff (p : Phase) : p.handshake = true ↔ p = .awaitingHandshake ∨ p = .sendingHandshake := by
  cases p <;> decide

theorem Act.waits_iff (a : Act) : a.waits = true ↔ a = .wreq ∨ a = .wrsp := by
  cases a <;> decide

theorem Act.betweenExchanges_iff (a : Act) :
    a.betweenExchanges = true ↔ a = .txreq ∨ a = .wsrc ∨ a = .whost ∨ a = .adv ∨ a = .wreq := by
  cases a <;> decide

theorem Phase.handshake_eq_false {p : Phase} (h1 : p ≠ .awaitingHandshake) (h2 : p ≠ .sendingHandshake) :
    p.handshake = false := Bool.eq_false_iff.2 fun h => (p.handshake_iff.1 h).elim h1 h2

theorem Act.waits_eq_false {a : Act} (h1 : a ≠ .wreq) (h2 : a ≠ .wrsp) : a.waits = false :=
  Bool.eq_false_iff.2 fun h => (a.waits_iff.1 h).elim h1 h2

/-! ### One tick (spec/41_session.md R316 to R319) -/

/-- A tick leaves a timer at 0 exactly when it held 0 or 1 (R317). -/
theorem tickDown_eq_zero_iff (t : Word) : tickDown t = 0#32 ↔ t.toNat < 2 := by
  unfold tickDown
  split
  · rename_i h
    simp [h]
  · bv_omega

theorem tickDown_of_two_le {t : Word} (h : 2 ≤ t.toNat) : tickDown t = t - 1#32 :=
  if_neg fun e => by bv_omega

theorem tickDown_ne_zero {t : Word} (h : 2 ≤ t.toNat) : ¬ tickDown t = 0#32 :=
  fun e => absurd ((tickDown_eq_zero_iff t).1 e) (Nat.not_lt.2 h)

theorem tickStep_handshake_running {s : State} (hp : s.phase.handshake = true) (h : 2 ≤ s.hsTimer.toNat) :
    tickStep s = { s with hsTimer := s.hsTimer - 1#32 } := by
  rw [tickStep, if_pos hp, ← tickDown_of_two_le h]
  exact if_neg (tickDown_ne_zero h)

theorem tickStep_handshake_expired {s : State} (hp : s.phase.handshake = true) (h : s.hsTimer.toNat < 2) :
    tickStep s = handshakeExpiry { s with hsTimer := 0#32 } := by
  rw [tickStep, if_pos hp, (tickDown_eq_zero_iff _).2 h]
  exact if_pos rfl

theorem tickStep_frame_running {s : State} (hp : s.phase.handshake = false) (hw : s.act.waits = true)
    (h : 2 ≤ s.frTimer.toNat) : tickStep s = { s with frTimer := s.frTimer - 1#32 } := by
  rw [tickStep, if_neg (ne_true_of_eq_false hp), if_pos hw, ← tickDown_of_two_le h]
  exact if_neg (tickDown_ne_zero h)

theorem tickStep_frame_expired {s : State} (hp : s.phase.handshake = false) (hw : s.act.waits = true)
    (h : s.frTimer.toNat < 2) : tickStep s = frameExpiry { s with frTimer := 0#32 } := by
  rw [tickStep, if_neg (ne_true_of_eq_false hp), if_pos hw, (tickDown_eq_zero_iff _).2 h]
  exact if_pos rfl

theorem tickStep_noTimer {s : State} (hp : s.phase.handshake = false) (hw : s.act.waits = false) : tickStep s = s := by
  rw [tickStep, if_neg (ne_true_of_eq_false hp), if_neg (ne_true_of_eq_false hw)]

/-! ### The two expiries (R318, R319, 60_exceptions.md R601) -/

theorem Parser.progress_header {c : Config} (hl : c.legal = true) {p : Parser} (h : p.hc.toNat < 6) :
    p.progress c = (6#32, p.hc.setWidth 32) := by
  simp [Parser.progress, Parser.headerStage_eq hl, h, (Config.legal_layout hl).1]

theorem Parser.progress_payload {c : Config} (hl : c.legal = true) {p : Parser} (h : 6 ≤ p.hc.toNat) :
    p.progress c = (p.plen.setWidth 32, p.pcnt.setWidth 32) := by
  simp [Parser.progress, Parser.headerStage_eq hl, Nat.not_lt.2 h]

theorem handshakeExpiry_header {s : State} (hl : s.cfg.legal = true) (hw : s.act.waits = true)
    (h : s.parser.hc.toNat < 6) :
    handshakeExpiry s = s.fail .handshakeTimeout 6#32 (s.parser.hc.setWidth 32) := by
  simp [handshakeExpiry, hw, Parser.progress_header hl h]

theorem handshakeExpiry_payload {s : State} (hl : s.cfg.legal = true) (hw : s.act.waits = true)
    (h : 6 ≤ s.parser.hc.toNat) :
    handshakeExpiry s = s.fail .handshakeTimeout (s.parser.plen.setWidth 32) (s.parser.pcnt.setWidth 32) := by
  simp [handshakeExpiry, hw, Parser.progress_payload hl h]

theorem handshakeExpiry_noWait {s : State} (hw : s.act.waits = false) :
    handshakeExpiry s = s.fail .handshakeTimeout 0#32 0#32 := by
  simp [handshakeExpiry, hw]

theorem frameExpiry_chunk {s : State} (h : s.phase = .transferringFile ∧ s.xsub = .chunks ∧ s.conf.send = false) :
    frameExpiry s = s.fail .transferIncomplete s.sess.curSize s.sess.bytesDone := if_pos h

theorem frameExpiry_header {s : State} (hl : s.cfg.legal = true)
    (hn : ¬ (s.phase = .transferringFile ∧ s.xsub = .chunks ∧ s.conf.send = false)) (h : s.parser.hc.toNat < 6) :
    frameExpiry s = s.fail .shortRead 6#32 (s.parser.hc.setWidth 32) := by
  rw [frameExpiry, if_neg hn, Parser.progress_header hl h]

theorem frameExpiry_payload {s : State} (hl : s.cfg.legal = true)
    (hn : ¬ (s.phase = .transferringFile ∧ s.xsub = .chunks ∧ s.conf.send = false)) (h : 6 ≤ s.parser.hc.toNat) :
    frameExpiry s = s.fail .shortRead (s.parser.plen.setWidth 32) (s.parser.pcnt.setWidth 32) := by
  rw [frameExpiry, if_neg hn, Parser.progress_payload hl h]

theorem frameExpiry_phase (s : State) : (frameExpiry s).phase = .failed := by
  unfold frameExpiry
  split <;> rfl

/-- Settles O32: which timer the tick runs, whether it expires, and what the expiry records, each by its own lemma. -/
theorem tickRunsOneTimer : Obligations.TickRunsOneTimer := by
  intro s hl
  refine ⟨fun hp => ?handshake, fun h1 h2 hw => ?frame, fun h1 h2 h3 h4 =>
    congrArg _ (tickStep_noTimer (Phase.handshake_eq_false h1 h2) (Act.waits_eq_false h3 h4))⟩
  case handshake =>
    replace hp := s.phase.handshake_iff.2 hp
    refine ⟨fun h => congrArg _ (tickStep_handshake_running hp h), fun h => ?_⟩
    have hexp : runEvent .tick s = .next (handshakeExpiry { s with hsTimer := 0#32 }) :=
      congrArg _ (tickStep_handshake_expired hp h)
    exact ⟨fun hw hc => hexp.trans (congrArg _ (handshakeExpiry_header hl (s.act.waits_iff.2 hw) hc)),
      fun hw hc => hexp.trans (congrArg _ (handshakeExpiry_payload hl (s.act.waits_iff.2 hw) hc)),
      fun h1 h2 => hexp.trans (congrArg _ (handshakeExpiry_noWait (Act.waits_eq_false h1 h2)))⟩
  case frame =>
    have hp := Phase.handshake_eq_false h1 h2
    replace hw := s.act.waits_iff.2 hw
    refine ⟨fun h => congrArg _ (tickStep_frame_running hp hw h), fun h => ?_⟩
    have hexp : runEvent .tick s = .next (frameExpiry { s with frTimer := 0#32 }) :=
      congrArg _ (tickStep_frame_expired hp hw h)
    exact ⟨fun hph hx hd => hexp.trans (congrArg _ (frameExpiry_chunk ⟨hph, hx, hd⟩)),
      fun hn hc => hexp.trans (congrArg _ (frameExpiry_header hl hn hc)),
      fun hn hc => hexp.trans (congrArg _ (frameExpiry_payload hl hn hc))⟩

/-! ### A run of ticks (R317) -/

theorem step_tick {s : State} {es : List Event} (hl : s.cfg.legal = true) (h : s.port.events = .tick :: es) :
    step s = .next (tickStep { s with port.events := es }) := step_event hl h

/-- A run whose first step answers a next state goes on from it. -/
theorem run_succ {s t : State} (h : step s = .next t) (k : Nat) :
    Host.Core.run Sys2Proof.core (k + 1) s = Host.Core.run Sys2Proof.core k t := by
  have hs : Sys2Proof.core.step s = .next t := h
  simp only [Host.Core.run, hs]

/-- A countdown, for either timer: let `running es v` be the state with the schedule `es` whose timer holds `v`. If a tick
takes a timer of 2 or more down by one and otherwise ends in `expired`, then `k` ticks take it from `v` to `v - k`, and
end at `k = max v 1`. -/
theorem run_countdown {running : List Event → Word → State} {expired : List Event → State}
    (hrun : ∀ es v, 2 ≤ v.toNat → step (running (.tick :: es) v) = .next (running es (v - 1#32)))
    (hend : ∀ es v, v.toNat < 2 → step (running (.tick :: es) v) = .next (expired es)) (es : List Event) (k : Nat) :
    ∀ v : Word,
      (k < max v.toNat 1 → Host.Core.run Sys2Proof.core k (running (List.replicate k .tick ++ es) v) =
        .next (running es (BitVec.ofNat 32 (v.toNat - k)))) ∧
      (k = max v.toNat 1 → Host.Core.run Sys2Proof.core k (running (List.replicate k .tick ++ es) v) =
        .next (expired es)) := by
  induction k with
  | zero =>
    refine fun v => ⟨fun _ => ?_, fun h => by omega⟩
    rw [Nat.sub_zero, BitVec.ofNat_toNat, BitVec.setWidth_eq]
    rfl
  | succ k ih =>
    intro v
    rw [List.replicate_succ, List.cons_append]
    rcases Nat.lt_or_ge v.toNat 2 with hv | hv
    · rw [run_succ (hend _ v hv)]
      refine ⟨fun h => by omega, fun h => ?_⟩
      obtain rfl : k = 0 := by omega
      rfl
    · have hsub : (v - 1#32).toNat = v.toNat - 1 := by bv_omega
      obtain ⟨hcount, hexp⟩ := ih (v - 1#32)
      rw [hsub] at hcount hexp
      rw [run_succ (hrun _ v hv)]
      refine ⟨fun h => ?_, fun h => hexp (by omega)⟩
      rw [hcount (by omega), Nat.sub_sub, Nat.add_comm 1]

/-- The state with a schedule and a handshake budget of its own. -/
def State.withHsTimer (s : State) (es : List Event) (v : Word) : State := { s with port.events := es, hsTimer := v }

/-- The state with a schedule and a frame timer of its own. -/
def State.withFrTimer (s : State) (es : List Event) (v : Word) : State := { s with port.events := es, frTimer := v }

/-- The handshake budget counts down. -/
theorem run_handshake_ticks {s : State} (hl : s.cfg.legal = true) (hp : s.phase.handshake = true) (es : List Event)
    (k : Nat) (v : Word) :
    (k < max v.toNat 1 → Host.Core.run Sys2Proof.core k (s.withHsTimer (List.replicate k .tick ++ es) v) =
      .next (s.withHsTimer es (BitVec.ofNat 32 (v.toNat - k)))) ∧
    (k = max v.toNat 1 → Host.Core.run Sys2Proof.core k (s.withHsTimer (List.replicate k .tick ++ es) v) =
      .next (handshakeExpiry (s.withHsTimer es 0#32))) :=
  run_countdown (expired := fun es => handshakeExpiry (s.withHsTimer es 0#32))
    (fun es v hv => (step_tick (s := s.withHsTimer (.tick :: es) v) hl rfl).trans
      (congrArg _ (tickStep_handshake_running (s := s.withHsTimer es v) hp hv)))
    (fun es v hv => (step_tick (s := s.withHsTimer (.tick :: es) v) hl rfl).trans
      (congrArg _ (tickStep_handshake_expired (s := s.withHsTimer es v) hp hv))) es k v

/-- The frame timer counts down. -/
theorem run_frame_ticks {s : State} (hl : s.cfg.legal = true) (hp : s.phase.handshake = false)
    (hw : s.act.waits = true) (es : List Event) (k : Nat) (v : Word) :
    (k < max v.toNat 1 → Host.Core.run Sys2Proof.core k (s.withFrTimer (List.replicate k .tick ++ es) v) =
      .next (s.withFrTimer es (BitVec.ofNat 32 (v.toNat - k)))) ∧
    (k = max v.toNat 1 → Host.Core.run Sys2Proof.core k (s.withFrTimer (List.replicate k .tick ++ es) v) =
      .next (frameExpiry (s.withFrTimer es 0#32))) :=
  run_countdown (expired := fun es => frameExpiry (s.withFrTimer es 0#32))
    (fun es v hv => (step_tick (s := s.withFrTimer (.tick :: es) v) hl rfl).trans
      (congrArg _ (tickStep_frame_running (s := s.withFrTimer es v) hp hw hv)))
    (fun es v hv => (step_tick (s := s.withFrTimer (.tick :: es) v) hl rfl).trans
      (congrArg _ (tickStep_frame_expired (s := s.withFrTimer es v) hp hw hv))) es k v

/-- Settles O33: both timers are countdowns, by induction on the number of ticks. -/
theorem timerExpiresOnNthTick : Obligations.TimerExpiresOnNthTick := by
  intro s es n k hl hes
  refine ⟨fun hp hn => ?handshake, fun hp hw hn => ?frame, rfl, frameExpiry_phase s⟩
  case handshake =>
    have hs : s = s.withHsTimer (List.replicate k .tick ++ es) s.hsTimer := by rw [State.withHsTimer, ← hes]
    have := run_handshake_ticks hl hp es k s.hsTimer
    rwa [← hs, hn] at this
  case frame =>
    have hs : s = s.withFrTimer (List.replicate k .tick ++ es) s.frTimer := by rw [State.withFrTimer, ← hes]
    have := run_frame_ticks hl hp hw es k s.frTimer
    rwa [← hs, hn] at this

end Sys2Proof.Machine

namespace Sys2Proof.Machine

/-! ### Who writes the handshake budget (spec/41_session.md R318) -/

@[simp] theorem State.enter_hsTimer (s : State) (a : Act) : (s.enter a).hsTimer = s.hsTimer := by
  rcases s.enter_cases a with ⟨-, -, h⟩ | ⟨-, -, h⟩ | ⟨-, -, h⟩ <;> simp [h]

@[simp] theorem State.fileComplete_hsTimer (s : State) : s.fileComplete.hsTimer = s.hsTimer := by
  rcases s.fileComplete_cases with ⟨-, h⟩ | ⟨-, h⟩ <;> simp [h]

@[simp] theorem State.malformedRequest_hsTimer (s : State) (required len : Nat) :
    (s.malformedRequest required len).hsTimer = s.hsTimer := State.enter_hsTimer _ _

@[simp] theorem handshakeRule_hsTimer (p : List Byte) (s : State) : (handshakeRule p s).hsTimer = s.hsTimer := by
  unfold handshakeRule
  split <;> simp

@[simp] theorem fileListRule_hsTimer (p : List Byte) (s : State) : (fileListRule p s).hsTimer = s.hsTimer := by
  unfold fileListRule
  split
  · simp
  · simp only
    split <;> simp

@[simp] theorem fileDataRule_hsTimer (p : List Byte) (s : State) : (fileDataRule p s).hsTimer = s.hsTimer := by
  unfold fileDataRule
  split
  · unfold infoRule
    split
    · simp
    · simp only
      split <;> simp
  · unfold chunkRule
    split
    · simp
    · simp only
      split
      · rfl
      · split
        · rfl
        · split <;> simp

@[simp] theorem ackRule_hsTimer (p : List Byte) (s : State) : (ackRule p s).hsTimer = s.hsTimer := by
  unfold ackRule
  split
  · rfl
  · unfold ackAccepted
    split
    · simp
    · split <;> simp
    · split <;> (simp only; split) <;> simp

@[simp] theorem nackRule_hsTimer (p : List Byte) (s : State) : (nackRule p s).hsTimer = s.hsTimer := by
  unfold nackRule
  split <;> simp [State.malformedAnswer]

/-- No parser outcome writes the handshake budget. -/
theorem Dispatched.hsTimer_eq {u t : State} (h : Dispatched u t) : t.hsTimer = u.hsTimer := by
  cases h <;> simp [fileEndRule, State.unexpectedInRequest, State.unexpectedInAnswer]

/-- Parsing a byte does not write the handshake budget. -/
theorem Parsed.hsTimer_eq {b : Byte} {s u : State} {o : Option ParseOutcome} (h : Parsed b s u o) :
    u.hsTimer = s.hsTimer := by
  cases h <;> rfl

/-- A configuration write does not write the handshake budget. -/
theorem State.writeConf_hsTimer (s : State) (v : Word) (loc : HifLoc) : (s.writeConf v loc).hsTimer = s.hsTimer := by
  cases loc <;> rfl

@[simp] theorem frameExpiry_hsTimer (s : State) : (frameExpiry s).hsTimer = s.hsTimer := by
  unfold frameExpiry
  split <;> rfl

/-- Outside the handshake phases a tick does not write the handshake budget. -/
theorem tickStep_hsTimer {s : State} (hp : s.phase.handshake = false) : (tickStep s).hsTimer = s.hsTimer := by
  rcases Bool.eq_false_or_eq_true s.act.waits with hw | hw
  · rcases Nat.lt_or_ge s.frTimer.toNat 2 with h | h
    · rw [tickStep_frame_expired hp hw h, frameExpiry_hsTimer]
    · rw [tickStep_frame_running hp hw h]
  · rw [tickStep_noTimer hp hw]

@[simp] theorem advStep_hsTimer (s : State) : (advStep s).hsTimer = s.hsTimer := by
  unfold advStep
  split
  · simp
  · split <;> simp

@[simp] theorem sendChunkRequest_hsTimer (s : State) : (sendChunkRequest s).hsTimer = s.hsTimer := by
  unfold sendChunkRequest
  simp only
  split <;> simp

/-- Only a tick of a handshake phase, START and a reset write the handshake budget. -/
theorem Moved.hsTimer {e : Event} {s t : State} (h : Moved e s t) :
    t.hsTimer = s.hsTimer ∨ (e = .tick ∧ s.phase.handshake = true) ∨
    ((∃ v, e = .hostWrite 4 0x0004#16 v ∧ v.extractLsb' 0 8 = 0x01#8) ∧ s.phase.active = false ∧
      t.hsTimer = s.conf.hsTimeout) ∨
    ((∃ u, e = .reset u) ∧ t.hsTimer = 0#32) := by
  cases h with
  | tick he =>
    rcases Bool.eq_false_or_eq_true s.phase.handshake with hp | hp
    · exact .inr (.inl ⟨he, hp⟩)
    · exact .inl (tickStep_hsTimer hp)
  | start ha v he hv => exact .inr (.inr (.inl ⟨⟨v, he, hv⟩, ha, by split <;> simp⟩))
  | reset u he => exact .inr (.inr (.inr ⟨⟨u, he⟩, rfl⟩))
  | parsed b q u _ _ hp => exact .inl hp.hsTimer_eq
  | completed b q u t o _ _ hp _ hd => exact .inl (hd.hsTimer_eq.trans hp.hsTimer_eq)
  | configure v a => exact .inl (s.writeConf_hsTimer v _)
  | stay | peer | abortNow | abortLatched | irqClear | irqEnable | hostRead => exact .inl rfl
  | retry | srcResp | sendHandshake | sendFileList => exact .inl (State.enter_hsTimer _ _)
  | adv => exact .inl (advStep_hsTimer s)
  | sendInfo t _ _ _ ht =>
    obtain ⟨-, name, f, size, index, -, -, -, -, rfl⟩ := sendInfo_next ht
    exact .inl (State.enter_hsTimer _ _)
  | sendChunk => exact .inl (sendChunkRequest_hsTimer s)

/-- START outside a session loads the handshake budget. -/
theorem execStart_hsTimer {s t : State} (h : execStart s = .next t) (ha : s.phase.active = false) :
    t.hsTimer = s.conf.hsTimeout := by
  rw [execStart, if_neg (ne_true_of_eq_false ha)] at h
  split at h <;> cases h <;> simp

/-- The entry to FAILED records its context (R313). -/
theorem context_of_fail {s t : State} {code : ErrCode} {e o : Word} (h : t = s.fail code e o) :
    t.err.errExp = e ∧ t.err.errObs = o := by
  rw [h]
  exact ⟨rfl, rfl⟩

/-- The budget at a tick of a handshake phase: one less while that leaves any, and the expiry at 0. -/
theorem tickStep_handshake_cases {s : State} (hp : s.phase.handshake = true) :
    (2 ≤ s.hsTimer.toNat ∧ tickStep s = { s with hsTimer := s.hsTimer - 1#32 }) ∨
    (s.hsTimer.toNat < 2 ∧ tickStep s = handshakeExpiry { s with hsTimer := 0#32 }) := by
  rcases Nat.lt_or_ge s.hsTimer.toNat 2 with h | h
  · exact .inr ⟨h, tickStep_handshake_expired hp h⟩
  · exact .inl ⟨h, tickStep_handshake_running hp h⟩

/-- Settles O34: `Moved.hsTimer` gives the writers, and the tick of a handshake phase runs the budget down or out. -/
theorem handshakeBudgetOnlyRunsDown : Obligations.HandshakeBudgetOnlyRunsDown := by
  refine ⟨fun s t h => ?writers, fun s t h ha => execStart_hsTimer h ha, fun s hl hp => ?tick⟩
  case writers =>
    obtain ⟨-, e, es, hm, he⟩ := step_moved h
    rcases hm.hsTimer with h | ⟨rfl, hp⟩ | ⟨⟨v, rfl, hv⟩, ha, ht⟩ | ⟨⟨u, rfl⟩, ht⟩
    · exact .inl h
    · exact .inr (.inl ⟨⟨es, by simpa using he⟩, hp⟩)
    · exact .inr (.inr (.inl ⟨⟨v, es, by simpa using he, hv⟩, ha, ht⟩))
    · exact .inr (.inr (.inr ⟨⟨u, es, by simpa using he⟩, ht⟩))
  case tick =>
    rcases tickStep_handshake_cases (s.phase.handshake_iff.2 hp) with ⟨h, ht⟩ | ⟨h, ht⟩ <;> rw [ht]
    · have hz : s.hsTimer - 1#32 ≠ 0#32 := by bv_omega
      exact ⟨(if_neg fun e => by bv_omega).symm, fun _ => rfl, fun e => absurd e hz⟩
    · have hz : s.hsTimer = 0#32 ∨ s.hsTimer - 1#32 = 0#32 := by bv_omega
      refine ⟨?_, fun e => absurd rfl e, fun _ => ⟨rfl, rfl,
        fun h1 h2 => context_of_fail (handshakeExpiry_noWait (Act.waits_eq_false h1 h2)),
        fun hw hc => context_of_fail (handshakeExpiry_header hl (s.act.waits_iff.2 hw) hc),
        fun hw hc => context_of_fail (handshakeExpiry_payload hl (s.act.waits_iff.2 hw) hc)⟩⟩
      rcases hz with e | e <;> simp [handshakeExpiry, e]

end Sys2Proof.Machine

namespace Sys2Proof.Machine

/-! ### `enter`, `recover`, `fail`, `done` and `file_complete` (spec/41_session.md R306, R312 to R315) -/

theorem State.enter_aborted {s : State} {a : Act} (h : s.abortReq = true ∧ a.betweenExchanges = true) :
    s.enter a = s.fail .aborted 0#32 0#32 := by
  rw [State.enter, h.1, h.2]
  rfl

theorem State.enter_wait {s : State} {a : Act} (h : ¬ (s.abortReq = true ∧ a.betweenExchanges = true))
    (hw : a.waits = true) :
    s.enter a = { s with
      act := a, parser.hc := 0#3, parser.pcnt := 0#16
      frTimer := if s.phase.handshake then s.frTimer else s.conf.frTimeout } := by
  rcases s.enter_cases a with ⟨h1, h2, -⟩ | ⟨-, -, he⟩ | ⟨-, hn, -⟩
  · exact absurd ⟨h1, h2⟩ h
  · exact he
  · rw [hw] at hn
    cases hn

theorem State.enter_noWait {s : State} {a : Act} (h : ¬ (s.abortReq = true ∧ a.betweenExchanges = true))
    (hw : a.waits = false) : s.enter a = { s with act := a } := by
  rcases s.enter_cases a with ⟨h1, h2, -⟩ | ⟨-, hn, -⟩ | ⟨-, -, he⟩
  · exact absurd ⟨h1, h2⟩ h
  · rw [hw] at hn
    cases hn
  · exact he

/-- Settles O12: the three branches of `enter`, with its classes of activities and phases written as lists. -/
theorem enterChecksAbortAndStartsWait : Obligations.EnterChecksAbortAndStartsWait := by
  intro s a
  simp only [← Act.betweenExchanges_iff, ← Act.waits_iff, ← Phase.handshake_iff]
  exact ⟨State.enter_aborted, fun h => ⟨State.enter_wait h, fun h1 h2 => State.enter_noWait h (Act.waits_eq_false h1 h2)⟩⟩

/-- Settles O13: each is one update of the state; `fail` empties the parser. -/
theorem recoverFailAndDone : Obligations.RecoverFailAndDone :=
  fun _ _ _ _ => ⟨rfl, ⟨0#3, 0#16, rfl⟩, rfl⟩

/-- Settles O14: the two cases of `file_complete`. -/
theorem fileCompleteCountsFile : Obligations.FileCompleteCountsFile := by
  intro s
  rcases s.fileComplete_cases with ⟨h, he⟩ | ⟨h, he⟩
  · exact ⟨fun _ => he, fun hn => absurd h hn⟩
  · exact ⟨fun hl => absurd hl h, fun _ => he⟩

/-! ### The ADV step (spec/41_session.md R309) -/

theorem internalStep_adv {s : State} (hp : s.phase = .handshakeDone) (ha : s.act = .adv) :
    internalStep s = .next (advStep s) := by
  simp only [internalStep, ha, hp, if_true]

theorem advStep_single {s : State} (h : s.conf.single = true) :
    advStep s = State.enter (if s.conf.send then .txreq else .wreq)
      { s with sess.pendCount := 1#8, sess.filePtr := 0#8, xsub := .info, phase := .transferringFile } := if_pos h

theorem advStep_listSender {s : State} (hm : s.conf.single = false) (hd : s.conf.send = true) :
    advStep s = State.enter .txreq { s with sess.pendCount := s.conf.descCount, phase := .sendingFileList } := by
  rw [advStep, if_neg (ne_true_of_eq_false hm), if_pos hd]

theorem advStep_listReceiver {s : State} (hm : s.conf.single = false) (hd : s.conf.send = false) :
    advStep s = State.enter .wreq { s with phase := .awaitingFileList } := by
  rw [advStep, if_neg (ne_true_of_eq_false hm), if_neg (ne_true_of_eq_false hd)]

/-- Settles O28: the internal step is ADV, and MODE and DIR pick its branch. -/
theorem advLeavesHandshakeDone : Obligations.AdvLeavesHandshakeDone := by
  intro s hp ha
  rw [internalStep_adv hp ha]
  exact ⟨fun hm hd => congrArg _ (advStep_listReceiver hm hd), fun hm hd => congrArg _ (advStep_listSender hm hd),
    fun hm => congrArg _ (advStep_single hm)⟩

/-! ### Dispatch in each wait (spec/41_session.md R310, R311) -/

theorem State.unexpectedFrame_wreq {s : State} (ha : s.act = .wreq) (cmd : Byte) :
    s.unexpectedFrame cmd = .next (s.unexpectedInRequest cmd) := by
  simp only [State.unexpectedFrame, ha]

theorem State.unexpectedFrame_wrsp {s : State} (ha : s.act = .wrsp) (cmd : Byte) :
    s.unexpectedFrame cmd = .next (s.unexpectedInAnswer cmd) := by
  simp only [State.unexpectedFrame, ha]

theorem State.badFrame_wreq {s : State} (ha : s.act = .wreq) (code : ErrCode) (e o : Word) :
    s.badFrame code e o = .next ((s.recover code e o).respondNack.enter .wreq) := by
  simp only [State.badFrame, ha]

theorem State.badFrame_wrsp {s : State} (ha : s.act = .wrsp) (code : ErrCode) (e o : Word) :
    s.badFrame code e o = .next (s.recover code e o) := by
  simp only [State.badFrame, ha]

theorem State.onRequest_expected {s : State} {cmd : Byte} (ha : s.act = .wreq) (hc : cmd ∈ expected s.cfg s.phase)
    (rule : State → State) : s.onRequest cmd rule = .next (rule s) := if_pos ⟨ha, hc⟩

theorem State.onRequest_unexpected {s : State} {cmd : Byte}
    (h : ¬ (s.act = .wreq ∧ cmd ∈ expected s.cfg s.phase)) (rule : State → State) :
    s.onRequest cmd rule = s.unexpectedFrame cmd := if_neg h

theorem State.onAnswer_expected {s : State} (ha : s.act = .wrsp) (cmd : Byte) (rule : State → State) :
    s.onAnswer cmd rule = .next (rule s) := if_pos ha

theorem State.onAnswer_unexpected {s : State} (ha : s.act ≠ .wrsp) (cmd : Byte) (rule : State → State) :
    s.onAnswer cmd rule = s.unexpectedFrame cmd := if_neg ha

/-- An instruction with a frame's code is a request, or an answer with one of the two answer codes. -/
theorem exec_of_code {i : Instr} {cmd : Byte} {s : State} (h : i.code s.cfg = some cmd) :
    (∃ rule, exec i s = s.onRequest cmd rule) ∨
    ((cmd = s.cfg.cmdAck ∨ cmd = s.cfg.cmdNack) ∧ ∃ rule, exec i s = s.onAnswer cmd rule) := by
  cases i with
  | handshake p | fileList p | fileDataInfo p | fileDataChunk p | fileEnd p => cases h; exact .inl ⟨_, rfl⟩
  | ack p => cases h; exact .inr ⟨.inl rfl, _, rfl⟩
  | nack p => cases h; exact .inr ⟨.inr rfl, _, rfl⟩
  | start | abort | retry => cases h

/-- In WREQ an instruction whose code is not expected is an unexpected frame (R311). -/
theorem exec_unexpected_wreq {i : Instr} {cmd : Byte} {s : State} (ha : s.act = .wreq)
    (hc : cmd ∉ expected s.cfg s.phase) (h : i.code s.cfg = some cmd) : exec i s = s.unexpectedFrame cmd := by
  rcases exec_of_code h with ⟨rule, he⟩ | ⟨-, rule, he⟩
  · rw [he, State.onRequest_unexpected fun hm => hc hm.2]
  · rw [he, State.onAnswer_unexpected (by rw [ha]; decide)]

/-- In WRSP an instruction whose code is no answer's is an unexpected frame (R310). -/
theorem exec_unexpected_wrsp {i : Instr} {cmd : Byte} {s : State} (ha : s.act = .wrsp)
    (h1 : cmd ≠ s.cfg.cmdAck) (h2 : cmd ≠ s.cfg.cmdNack) (h : i.code s.cfg = some cmd) :
    exec i s = s.unexpectedFrame cmd := by
  rcases exec_of_code h with ⟨rule, he⟩ | ⟨hc, -⟩
  · rw [he, State.onRequest_unexpected fun hm => by rw [ha] at hm; cases hm.1]
  · exact absurd hc (not_or.2 ⟨h1, h2⟩)

theorem onOutcome_decoded {cmd : Byte} {p : List Byte} {i : Instr} {s : State}
    (h : decodeBody s.cfg s.xsub cmd p = some i) (len : Half) : onOutcome (.frame cmd len p) s = exec i s := by
  simp only [onOutcome, h]

/-- A frame is unexpected when every instruction with its code is. -/
theorem onOutcome_unexpected {cmd : Byte} {s : State}
    (h : ∀ i : Instr, i.code s.cfg = some cmd → exec i s = s.unexpectedFrame cmd) (len : Half) (p : List Byte) :
    onOutcome (.frame cmd len p) s = s.unexpectedFrame cmd := by
  cases hd : decodeBody s.cfg s.xsub cmd p with
  | some i => rw [onOutcome_decoded hd, h i (decodeBody_some hd).2]
  | none => simp only [onOutcome, hd]

/-- The command codes of this hardware (30_encoding.md R204). -/
theorem Config.codes_default {c : Config} (h : c.codes = Config.default.codes) :
    c.cmdHandshake = 0x01#8 ∧ c.cmdFileList = 0x02#8 ∧ c.cmdFileData = 0x03#8 ∧ c.cmdFileEnd = 0x04#8 ∧
      c.cmdAck = 0x05#8 ∧ c.cmdNack = 0x06#8 := by
  simpa [Config.codes, Config.default] using h

/-- What each command code decodes to, with the command codes of this hardware (R204, R212). -/
theorem decodeBody_default {c : Config} (h : c.codes = Config.default.codes) :
    (∀ x p, decodeBody c x 0x01#8 p = some (.handshake p)) ∧ (∀ x p, decodeBody c x 0x02#8 p = some (.fileList p)) ∧
    (∀ p, decodeBody c .info 0x03#8 p = some (.fileDataInfo p)) ∧
    (∀ p, decodeBody c .chunks 0x03#8 p = some (.fileDataChunk p)) ∧
    (∀ x p, decodeBody c x 0x04#8 p = some (.fileEnd p)) ∧ (∀ x p, decodeBody c x 0x05#8 p = some (.ack p)) ∧
    (∀ x p, decodeBody c x 0x06#8 p = some (.nack p)) := by
  obtain ⟨h1, h2, h3, h4, h5, h6⟩ := Config.codes_default h
  simp [decodeBody, h1, h2, h3, h4, h5, h6]

/-- The codes a wait for a request expects (R310), with the command codes of this hardware. -/
theorem expected_default {c : Config} (h : c.codes = Config.default.codes) :
    expected c .awaitingHandshake = [0x01#8] ∧ expected c .awaitingFileList = [0x02#8] ∧
    expected c .transferringFile = [0x03#8, 0x04#8] := by
  obtain ⟨h1, h2, h3, h4, -⟩ := Config.codes_default h
  simp [expected, h1, h2, h3, h4]

theorem mem_expected_default {c : Config} (h : c.codes = Config.default.codes) {ph : Phase} {cmd : Byte}
    (hc : cmd ∈ expected c ph) :
    (ph = .awaitingHandshake ∧ cmd = 0x01#8) ∨ (ph = .awaitingFileList ∧ cmd = 0x02#8) ∨
      (ph = .transferringFile ∧ (cmd = 0x03#8 ∨ cmd = 0x04#8)) := by
  obtain ⟨e1, e2, e3⟩ := expected_default h
  cases ph <;> simp_all [expected]

/-- Settles O16: the code is not expected, so `exec_unexpected_wreq` applies, and the mask is that of the phase. -/
theorem wrongCommandFailsSession : Obligations.WrongCommandFailsSession := by
  intro s cmd hcodes ha mask h
  obtain ⟨e1, e2, e3⟩ := expected_default hcodes
  have hmask : codeMask (expected s.cfg s.phase) = mask ∧ cmd ∉ expected s.cfg s.phase := by
    rcases h with ⟨hp, rfl, hc⟩ | ⟨hp, rfl, hc⟩ | ⟨hp, rfl, h3, h4⟩ <;> rw [hp]
    · rw [e1]
      exact ⟨by decide, by simpa using hc⟩
    · rw [e2]
      exact ⟨by decide, by simpa using hc⟩
    · rw [e3]
      exact ⟨by decide, by simp [h3, h4]⟩
  obtain ⟨rfl, hc⟩ := hmask
  exact ⟨rfl, State.unexpectedFrame_wreq ha cmd,
    fun i hi => (exec_unexpected_wreq ha hc hi).trans (State.unexpectedFrame_wreq ha cmd)⟩

/-! #### A byte that produces an outcome (R310, 40_codec.md R260) -/

/-- An outcome leaves everything but the parser, which is reset. -/
theorem Parsed.outcome {b : Byte} {s t : State} {o : ParseOutcome} (h : Parsed b s t (some o)) :
    t = { s with parser := t.parser } ∧ t.parser.hc = 0#3 ∧ t.parser.pcnt = 0#16 := by
  cases h <;> exact ⟨rfl, rfl, rfl⟩

/-- A consistent parser has room for a payload byte. -/
theorem Parser.consistent_room {c : Config} (hl : c.legal = true) {p : Parser} (h : p.consistent c = true) :
    p.headerStage c = true ∨ paybufImplemented c p.pcnt.toNat = true := by
  refine or_iff_not_imp_left.2 fun hh => ?_
  rw [Parser.consistent, if_neg hh, Bool.and_eq_true, decide_eq_true_eq] at h
  have hlt := h.2
  rw [paybufImplemented, decide_eq_true_eq, (Config.legal_layout hl).2.1]
  omega

/-- A byte that produces an outcome dispatches it in the same step. -/
theorem receiveByte_outcome {b : Byte} {s t : State} {o : ParseOutcome} (hl : s.cfg.legal = true)
    (hc : s.parser.consistent s.cfg = true) (h : parseByte b s = (t, some o)) :
    receiveByte b s = onOutcome o t := by
  unfold receiveByte
  rw [if_neg, h]
  rcases Parser.consistent_room hl hc with hr | hr <;> simp [hr]

/-! #### An expected frame runs its rule (R310) -/

theorem onOutcome_request {cmd code : Byte} {p : List Byte} {i : Instr} {rule : State → State} {s : State}
    (ha : s.act = .wreq) (hd : decodeBody s.cfg s.xsub cmd p = some i) (hi : exec i s = s.onRequest code rule)
    (hc : code ∈ expected s.cfg s.phase) (len : Half) : onOutcome (.frame cmd len p) s = .next (rule s) := by
  rw [onOutcome_decoded hd, hi, State.onRequest_expected ha hc]

theorem onOutcome_answer {cmd code : Byte} {p : List Byte} {i : Instr} {rule : State → State} {s : State}
    (ha : s.act = .wrsp) (hd : decodeBody s.cfg s.xsub cmd p = some i) (hi : exec i s = s.onAnswer code rule)
    (len : Half) : onOutcome (.frame cmd len p) s = .next (rule s) := by
  rw [onOutcome_decoded hd, hi, State.onAnswer_expected ha]

theorem fileDataRule_info {s : State} (h : s.xsub = .info) (p : List Byte) : fileDataRule p s = infoRule p s := by
  simp only [fileDataRule, h]

theorem fileDataRule_chunks {s : State} (h : s.xsub = .chunks) (p : List Byte) : fileDataRule p s = chunkRule p s := by
  simp only [fileDataRule, h]

/-- Settles O15: the byte's own step by `Parsed`, and each outcome in each wait by its lemma. -/
theorem outcomesAreDispatchedByWait : Obligations.OutcomesAreDispatchedByWait := by
  intro s hl hcodes
  obtain ⟨d1, d2, dInfo, dChunk, d4, d5, d6⟩ := decodeBody_default hcodes
  refine ⟨fun b t o hc h => ?byte, fun ha => ?wreq, fun ha => ?wrsp⟩
  case byte =>
    have hp := parseByte_parsed hl b
    rw [h] at hp
    exact ⟨receiveByte_outcome hl hc h, hp.outcome⟩
  case wreq =>
    refine ⟨fun m => State.badFrame_wreq ha _ _ _, fun c k => State.badFrame_wreq ha _ _ _, fun len p hp => ?handshake,
      fun len p hp => ?fileList, fun len p hp hx => ?info, fun len p hp hx => ?chunk, fun len p hp => ?fileEnd,
      fun cmd len p n1 n2 n3 => ?other⟩
    case handshake => exact onOutcome_request ha (d1 _ p) rfl (by simp [expected, hp]) len
    case fileList => exact onOutcome_request ha (d2 _ p) rfl (by simp [expected, hp]) len
    case info =>
      rw [← fileDataRule_info hx]
      exact onOutcome_request ha (hx ▸ dInfo p) rfl (by simp [expected, hp]) len
    case chunk =>
      rw [← fileDataRule_chunks hx]
      exact onOutcome_request ha (hx ▸ dChunk p) rfl (by simp [expected, hp]) len
    case fileEnd => exact onOutcome_request ha (d4 _ p) rfl (by simp [expected, hp]) len
    case other =>
      have hc : cmd ∉ expected s.cfg s.phase := fun hm =>
        (mem_expected_default hcodes hm).elim n1 fun hm => hm.elim n2 n3
      rw [onOutcome_unexpected fun i => exec_unexpected_wreq ha hc, State.unexpectedFrame_wreq ha]
  case wrsp =>
    refine ⟨fun m => State.badFrame_wrsp ha _ _ _, fun c k => State.badFrame_wrsp ha _ _ _,
      fun len p => onOutcome_answer ha (d5 _ p) rfl len, fun len p => onOutcome_answer ha (d6 _ p) rfl len,
      fun cmd len p n5 n6 => ?other⟩
    obtain ⟨-, -, -, -, hack, hnack⟩ := Config.codes_default hcodes
    rw [onOutcome_unexpected fun i => exec_unexpected_wrsp ha (hack ▸ n5) (hnack ▸ n6), State.unexpectedFrame_wrsp ha,
      State.unexpectedInAnswer, hack, hnack]
    rfl

end Sys2Proof.Machine

namespace Sys2Proof.Machine

/-! ### HANDSHAKE received (spec/42_handshake.md R352) -/

theorem handshakeOperands_wrongLength {p : List Byte} (h : p.length ≠ 5) : handshakeOperands p = .error 5 := if_pos h

theorem handshakeOperands_ok {p : List Byte} (h : p.length = 5) : handshakeOperands p = .ok ⟨byteAt p 0, le32 p 1⟩ :=
  if_neg (not_not.2 h)

theorem handshakeRule_wrongLength {p : List Byte} (h : p.length ≠ 5) (s : State) :
    handshakeRule p s = s.malformedRequest 5 p.length := by
  rw [handshakeRule, handshakeOperands_wrongLength h]

/-- The two fields are stored before the ACK is sent; a latched abort is honoured after it, by `enter`. -/
theorem handshakeRule_accepted {p : List Byte} (h : p.length = 5) (s : State) :
    handshakeRule p s = State.enter .adv { s with
      sess.rxVersion := byteAt p 0, sess.rxTimestamp := le32 p 1, phase := .handshakeDone
      port.out := s.port.out ++ [.frame (encodeFrame s.cfg s.cfg.cmdAck [])] } := by
  rw [handshakeRule, handshakeOperands_ok h]
  rfl

theorem exec_handshake_expected {s : State} (hp : s.phase = .awaitingHandshake) (ha : s.act = .wreq) (p : List Byte) :
    exec (.handshake p) s = .next (handshakeRule p s) :=
  State.onRequest_expected ha (by simp [expected, hp]) (handshakeRule p)

/-- Settles O17: the frame is expected, so its rule runs, and the length picks the branch of the rule. -/
theorem handshakeReceived : Obligations.HandshakeReceived := by
  intro s p hp ha
  rw [exec_handshake_expected hp ha]
  exact ⟨fun h => congrArg _ (handshakeRule_wrongLength h s), fun h => congrArg _ (handshakeRule_accepted h s)⟩

/-! ### A request sent (spec/41_session.md R305, R306) -/

/-- A request is kept in `txbuf` and its answer waited for. A latched abort does not stop it: WRSP is inside an exchange. -/
theorem State.enter_wrsp_emitRequest (s : State) (f : List Byte) (n : Half) :
    State.enter .wrsp { s.emitRequest f with sess.txN := n } = { s with
      port.out := s.port.out ++ [.frame f], txbuf := f, sess.txN := n
      act := .wrsp, parser.hc := 0#3, parser.pcnt := 0#16
      frTimer := if s.phase.handshake then s.frTimer else s.conf.frTimeout } :=
  State.enter_wait (fun h => nomatch h.2) rfl

/-- In a handshake phase the wait does not load the frame timer (R319). -/
theorem State.enter_wrsp_emitRequest_handshake {s : State} (h : s.phase.handshake = true) (f : List Byte) (n : Half) :
    State.enter .wrsp { s.emitRequest f with sess.txN := n } = { s with
      port.out := s.port.out ++ [.frame f], txbuf := f, sess.txN := n
      act := .wrsp, parser.hc := 0#3, parser.pcnt := 0#16 } := by
  rw [State.enter_wrsp_emitRequest, if_pos h]

theorem State.enter_wrsp_emitRequest_timed {s : State} (h : s.phase.handshake = false) (f : List Byte) (n : Half) :
    State.enter .wrsp { s.emitRequest f with sess.txN := n } = { s with
      port.out := s.port.out ++ [.frame f], txbuf := f, sess.txN := n
      act := .wrsp, parser.hc := 0#3, parser.pcnt := 0#16, frTimer := s.conf.frTimeout } := by
  rw [State.enter_wrsp_emitRequest, if_neg (ne_true_of_eq_false h)]

/-! ### HANDSHAKE and FILE_LIST sent (spec/42_handshake.md R356, 43_file_list.md R395) -/

theorem internalStep_sendHandshake {s : State} (hp : s.phase = .sendingHandshake) (ha : s.act = .txreq) :
    internalStep s = .next (sendHandshake s) := by
  simp only [internalStep, ha, hp]

theorem internalStep_sendFileList {s : State} (hp : s.phase = .sendingFileList) (ha : s.act = .txreq) :
    internalStep s = .next (sendFileList s) := by
  simp only [internalStep, ha, hp]

/-- With the 64-byte name slots of this hardware a descriptor is 80 bytes and begins with its name (10_state.md R101). -/
theorem descName_eq_readN {c : Config} (h : c.nameSlot = 64) (desc : Memory) :
    descName c desc = fun i => Memory.readN desc (80 * i) 64 := by
  funext i
  rw [descName, Config.descBytes, h]

/-- Settles O29: TXREQ sends the phase's request, and only the wait outside the handshake loads the frame timer. -/
theorem handshakeAndFileListSent : Obligations.HandshakeAndFileListSent := by
  refine ⟨fun s f hp ha hf => ?handshake, fun s f hn hp ha hf => ?fileList⟩
  case handshake =>
    rw [internalStep_sendHandshake hp ha, sendHandshake, ← hf,
      State.enter_wrsp_emitRequest_handshake (s.phase.handshake_iff.2 (.inr hp))]
  case fileList =>
    rw [internalStep_sendFileList hp ha, sendFileList, fileListPayload, descName_eq_readN hn, ← hf,
      State.enter_wrsp_emitRequest_timed (by rw [hp]; rfl)]

end Sys2Proof.Machine

namespace Sys2Proof.Machine

/-! ### The table of received names (spec/10_state.md R102, 40_codec.md R256) -/

/-- Names stored from entry `i` on touch no byte before that entry and none after the last name. -/
theorem read_storeNames_outside {c : Config} {m : Memory} {i y : Nat} {slots : List (List Byte)}
    (hlen : ∀ slot ∈ slots, slot.length ≤ c.nameSlot)
    (hy : y < c.nameSlot * i ∨ c.nameSlot * (i + slots.length) ≤ y) :
    Memory.read (storeNames c m i slots) y = Memory.read m y := by
  induction slots generalizing m i with
  | nil => rfl
  | cons slot slots ih =>
    obtain ⟨hslot, hslots⟩ := List.forall_mem_cons.1 hlen
    have hstrip := Memory.strip_length c slot hslot
    have hnext : c.nameSlot * (i + 1) = c.nameSlot * i + c.nameSlot := Nat.mul_succ ..
    have hend : c.nameSlot * (i + 1) ≤ c.nameSlot * (i + 1 + slots.length) := Nat.mul_le_mul_left _ (Nat.le_add_right ..)
    rw [List.length_cons, Nat.add_comm slots.length, ← Nat.add_assoc] at hy
    rw [storeNames, ih hslots (by omega), Memory.read_writeN_outside (by omega)]

/-- Entry `i + k` holds name `k`, stripped: it is written once, and the names after it are stored past it. -/
theorem read_storeNames_inside {c : Config} {m : Memory} {i k j : Nat} {slots : List (List Byte)} (hm : Memory.wf m)
    (hlen : ∀ slot ∈ slots, slot.length ≤ c.nameSlot) (hk : k < slots.length) (hj : j < c.nameSlot) :
    Memory.read (storeNames c m i slots) (c.nameSlot * (i + k) + j) = byteAt (strip c slots[k]) j := by
  induction slots generalizing m i k with
  | nil => cases hk
  | cons slot slots ih =>
    obtain ⟨hslot, hslots⟩ := List.forall_mem_cons.1 hlen
    cases k with
    | zero =>
      have hstrip : j < (strip c slot).length := (Memory.strip_length c slot hslot).symm ▸ hj
      rw [storeNames, Nat.add_zero i, read_storeNames_outside hslots (.inl (by rw [Nat.mul_succ]; omega)),
        Memory.read_writeN_inside hm hstrip]
      exact (List.getD_eq_getElem _ _ hstrip).symm
    | succ k =>
      rw [storeNames, ← Nat.add_assoc, Nat.add_right_comm i k 1]
      exact ih (Memory.writeN_wf hm ..) hslots (Nat.lt_of_succ_lt_succ hk)

/-! ### FILE_LIST received (spec/43_file_list.md R383) -/

/-- The name slots of a list with `count` names, in order (30_encoding.md R211). -/
def nameSlots (n : Nat) (p : List Byte) (count : Nat) : List (List Byte) :=
  (List.range count).map fun i => slice p (1 + n * i) (1 + n * i + n)

@[simp] theorem nameSlots_length (n : Nat) (p : List Byte) (count : Nat) : (nameSlots n p count).length = count := by
  simp [nameSlots]

theorem nameSlots_getElem {n : Nat} {p : List Byte} {count i : Nat} (h : i < (nameSlots n p count).length) :
    (nameSlots n p count)[i] = slice p (1 + n * i) (1 + n * (i + 1)) := by
  simp [nameSlots, Nat.mul_succ, Nat.add_assoc]

theorem length_le_of_mem_nameSlots {n : Nat} {p slot : List Byte} {count : Nat} (h : slot ∈ nameSlots n p count) :
    slot.length ≤ n := by
  obtain ⟨i, -, rfl⟩ := List.mem_map.1 h
  rw [slice, Nat.add_sub_cancel_left]
  exact List.length_take_le ..

theorem fileListOperands_empty {p : List Byte} (h : p.length = 0) (n : Nat) : fileListOperands n p = .error 1 :=
  if_pos h

theorem fileListOperands_wrongLength {n : Nat} {p : List Byte} (h0 : p.length ≠ 0)
    (h : p.length ≠ 1 + n * (byteAt p 0).toNat) : fileListOperands n p = .error (1 + n * (byteAt p 0).toNat) :=
  (if_neg h0).trans (if_pos h)

theorem fileListOperands_ok {n : Nat} {p : List Byte} (h : p.length = 1 + n * (byteAt p 0).toNat) :
    fileListOperands n p = .ok (nameSlots n p (byteAt p 0).toNat) :=
  (if_neg (by omega)).trans (if_neg (not_not.2 h))

theorem fileListRule_malformed {s : State} {p : List Byte} {required : Nat}
    (h : fileListOperands s.cfg.nameSlot p = .error required) :
    fileListRule p s = s.malformedRequest required p.length := by
  rw [fileListRule, h]

/-- An accepted list without names ends the session. -/
theorem fileListRule_noNames {s : State} {p : List Byte} {slots : List (List Byte)}
    (h : fileListOperands s.cfg.nameSlot p = .ok slots) (hc : byteAt p 0 = 0#8) :
    fileListRule p s = State.finish { s with
      rxname := storeNames s.cfg s.rxname 0 slots, sess.pendCount := byteAt p 0
      port.out := s.port.out ++ [.frame (encodeFrame s.cfg s.cfg.cmdAck [])] } := by
  rw [fileListRule, h]
  exact if_pos hc

/-- An accepted list with names starts the transfer of its first file. -/
theorem fileListRule_names {s : State} {p : List Byte} {slots : List (List Byte)}
    (h : fileListOperands s.cfg.nameSlot p = .ok slots) (hc : byteAt p 0 ≠ 0#8) :
    fileListRule p s = State.enter .wreq { s with
      rxname := storeNames s.cfg s.rxname 0 slots, sess.pendCount := byteAt p 0
      sess.filePtr := 0#8, xsub := .info, phase := .transferringFile
      port.out := s.port.out ++ [.frame (encodeFrame s.cfg s.cfg.cmdAck [])] } := by
  rw [fileListRule, h]
  exact if_neg hc

theorem exec_fileList_expected {s : State} (hp : s.phase = .awaitingFileList) (ha : s.act = .wreq) (p : List Byte) :
    exec (.fileList p) s = .next (fileListRule p s) :=
  State.onRequest_expected ha (by simp [expected, hp]) (fileListRule p)

/-- Settles O18: the frame is expected, so its rule runs; the length picks the branch of the rule, and the laws of the
table of names say what an accepted list stores. -/
theorem fileListReceived : Obligations.FileListReceived := by
  rintro s p _ rfl hp ha hwf
  rw [exec_fileList_expected hp ha]
  refine ⟨fun h => ?empty, fun h0 h => ?wrongLength, fun h => ?accepted⟩
  case empty =>
    rw [fileListRule_malformed (fileListOperands_empty h _), h]
    rfl
  case wrongLength => exact congrArg _ (fileListRule_malformed (fileListOperands_wrongLength h0 h))
  case accepted =>
    have hok := fileListOperands_ok h
    have hlen := nameSlots_length s.cfg.nameSlot p (byteAt p 0).toNat
    refine ⟨_, Memory.storeNames_wf hwf s.cfg 0 (nameSlots s.cfg.nameSlot p (byteAt p 0).toNat), fun i j hi hj => ?names,
      fun a hbeyond => ?others, fun hc => congrArg _ (fileListRule_noNames hok hc),
      fun hc => congrArg _ (fileListRule_names hok hc)⟩
    case names =>
      have hread := read_storeNames_inside (i := 0) hwf (fun _ => length_le_of_mem_nameSlots) (hlen.symm ▸ hi) hj
      rwa [Nat.zero_add, nameSlots_getElem] at hread
    case others =>
      exact read_storeNames_outside (fun _ => length_le_of_mem_nameSlots) (.inr (by rwa [hlen, Nat.zero_add]))

end Sys2Proof.Machine

namespace Sys2Proof.Machine

/-! ### The request frames of a transfer (spec/41_session.md R310, 30_encoding.md R212) -/

/-- Either spelling of FILE_DATA runs the rule of the form `xsub` selects. -/
theorem exec_fileData_expected {s : State} {p : List Byte} {i : Instr} (hi : i = .fileDataInfo p ∨ i = .fileDataChunk p)
    (hp : s.phase = .transferringFile) (ha : s.act = .wreq) : exec i s = .next (fileDataRule p s) := by
  have hexec : exec i s = s.onRequest s.cfg.cmdFileData (fileDataRule p) := by rcases hi with rfl | rfl <;> rfl
  rw [hexec, State.onRequest_expected ha (by simp [expected, hp])]

theorem exec_fileEnd_expected {s : State} (hp : s.phase = .transferringFile) (ha : s.act = .wreq) (p : List Byte) :
    exec (.fileEnd p) s = .next (fileEndRule p s) :=
  State.onRequest_expected ha (by simp [expected, hp]) (fileEndRule p)

/-- Settles O21: the frame is expected, and its rule is the ACK and a new wait. -/
theorem fileEndReceived : Obligations.FileEndReceived :=
  fun _ p hp ha => exec_fileEnd_expected hp ha p

/-! ### The current name (10_state.md R58) -/

/-- A whole name written to `CURNAME` fills its bytes and no other. -/
theorem read_writeN_name {m : Memory} (hm : Memory.wf m) {name : List Byte} {n : Nat} (hn : name.length = n) :
    (∀ j, j < n → Memory.read (Memory.writeN m 0 name) j = byteAt name j) ∧
    (∀ a, n ≤ a → Memory.read (Memory.writeN m 0 name) a = Memory.read m a) := by
  subst hn
  refine ⟨fun j hj => ?inside, fun a ha => Memory.read_writeN_outside (.inr (by omega))⟩
  case inside =>
    rw [byteAt_of_lt hj, ← Memory.read_writeN_inside hm hj, Nat.zero_add]

/-! ### FILE_DATA received in the info form (spec/44_transfer.md R412) -/

theorem infoOperands_wrongLength {n : Nat} {p : List Byte} (h : p.length ≠ 5 + n) :
    infoOperands n p = .error (5 + n) := if_pos h

theorem infoOperands_ok {n : Nat} {p : List Byte} (h : p.length = 5 + n) :
    infoOperands n p = .ok ⟨byteAt p 0, le32 p 1, slice p 5 (5 + n)⟩ := if_neg (not_not.2 h)

theorem infoRule_malformed {s : State} {p : List Byte} {required : Nat}
    (h : infoOperands s.cfg.nameSlot p = .error required) : infoRule p s = s.malformedRequest required p.length := by
  rw [infoRule, h]

/-- A file with content is started at the sink and its chunks are waited for. -/
theorem infoRule_content {s : State} {p : List Byte} {op : InfoOperands}
    (h : infoOperands s.cfg.nameSlot p = .ok op) (hsize : op.size ≠ 0#32) :
    infoRule p s = State.enter .wreq { s with
      sess.curIndex := op.index, sess.curSize := op.size, sess.bytesDone := 0#32, sess.chunkIdx := 0#16
      curname := Memory.writeN s.curname 0 (strip s.cfg op.slot), xsub := .chunks
      port.out := s.port.out ++ [.sink (.fileStart s.sess.filePtr op.index op.size (strip s.cfg op.slot)),
        .frame (encodeFrame s.cfg s.cfg.cmdAck [])] } := by
  rw [infoRule, h]
  refine (if_neg hsize).trans ?_
  simp [State.respondAck, State.emit, State.sinkPut]

/-- An empty file is started and ended at the sink, and counted. -/
theorem infoRule_empty {s : State} {p : List Byte} {op : InfoOperands}
    (h : infoOperands s.cfg.nameSlot p = .ok op) (hsize : op.size = 0#32) :
    infoRule p s = State.fileComplete { s with
      sess.curIndex := op.index, sess.curSize := 0#32, sess.bytesDone := 0#32, sess.chunkIdx := 0#16
      curname := Memory.writeN s.curname 0 (strip s.cfg op.slot), xsub := .chunks
      port.out := s.port.out ++ [.sink (.fileStart s.sess.filePtr op.index 0#32 (strip s.cfg op.slot)),
        .sink (.fileEnd s.sess.filePtr), .frame (encodeFrame s.cfg s.cfg.cmdAck [])] } := by
  rw [infoRule, h]
  refine (if_pos hsize).trans ?_
  simp [State.respondAck, State.emit, State.sinkPut, hsize]

/-- Settles O19: the frame is expected and read in the info form; its length and size pick the branch of the rule, and
`CURNAME` is one write of the stripped name. -/
theorem fileInfoReceived : Obligations.FileInfoReceived := by
  rintro s p i _ rfl hi hp hx ha hwf
  rw [exec_fileData_expected hi hp ha, fileDataRule_info hx]
  refine ⟨fun h => congrArg _ (infoRule_malformed (infoOperands_wrongLength h)), fun h => ?accepted⟩
  case accepted =>
    have hok := infoOperands_ok h
    have hslot : (slice p 5 (5 + s.cfg.nameSlot)).length ≤ s.cfg.nameSlot := by simp [slice]
    obtain ⟨hname, hothers⟩ := read_writeN_name hwf (Memory.strip_length s.cfg _ hslot)
    refine ⟨_, Memory.writeN_wf hwf 0 _, hname, hothers, fun hsize => ?content, fun hsize => ?empty⟩
    case content => rw [infoRule_content hok hsize]
    case empty => rw [infoRule_empty hok hsize]

/-! ### FILE_DATA received in the chunk form (spec/44_transfer.md R425) -/

theorem chunkOperands_short {p : List Byte} (h : p.length < 4) : chunkOperands p = .error 4 := if_pos h

theorem chunkOperands_wrongLength {p : List Byte} (h4 : 4 ≤ p.length) (h : p.length ≠ 4 + (le16 p 2).toNat) :
    chunkOperands p = .error (4 + (le16 p 2).toNat) := (if_neg (not_lt.2 h4)).trans (if_pos h)

/-- The data of a chunk is everything after its two fields. -/
theorem chunkOperands_ok {p : List Byte} (h : p.length = 4 + (le16 p 2).toNat) :
    chunkOperands p = .ok ⟨le16 p 0, le16 p 2, p.drop 4⟩ := by
  have hdata : slice p 4 (4 + (le16 p 2).toNat) = p.drop 4 :=
    List.take_of_length_le (by rw [List.length_drop]; omega)
  rw [← hdata]
  exact (if_neg (by omega)).trans (if_neg (not_not.2 h))

/-- The overrun check in numbers: the chunk has more bytes than the file still lacks. -/
theorem overrun_iff {done size : Word} (h : done.toNat ≤ size.toNat) (n : Half) :
    size - done < n.setWidth 32 ↔ size.toNat < done.toNat + n.toNat := by
  rw [BitVec.lt_def, BitVec.toNat_sub_of_le h, BitVec.toNat_setWidth_of_le (by decide)]
  omega

theorem bytesDone_add (done : Word) (n : Half) :
    done + n.setWidth 32 = BitVec.ofNat 32 (done.toNat + n.toNat) := by
  rw [BitVec.ofNat_add, BitVec.ofNat_toNat, BitVec.ofNat_toNat, BitVec.setWidth_eq]

theorem chunkRule_malformed {s : State} {p : List Byte} {required : Nat} (h : chunkOperands p = .error required) :
    chunkRule p s = s.malformedRequest required p.length := by
  rw [chunkRule, h]

theorem chunkRule_wrongIndex {s : State} {p : List Byte} {op : ChunkOperands} (h : chunkOperands p = .ok op)
    (hidx : op.index ≠ s.sess.chunkIdx) :
    chunkRule p s = rejectChunk (s.sess.chunkIdx.setWidth 32) (op.index.setWidth 32) s := by
  rw [chunkRule, h]
  exact if_pos hidx

theorem chunkRule_overrun {s : State} {p : List Byte} {op : ChunkOperands} (h : chunkOperands p = .ok op)
    (hidx : op.index = s.sess.chunkIdx) (hover : s.sess.curSize - s.sess.bytesDone < op.size.setWidth 32) :
    chunkRule p s = rejectChunk (s.sess.curSize - s.sess.bytesDone) (op.size.setWidth 32) s := by
  rw [chunkRule, h]
  exact (if_neg (not_not.2 hidx)).trans (if_pos hover)

/-- A chunk that leaves the file unfinished goes to the sink, and the next one is waited for. -/
theorem chunkRule_unfinished {s : State} {p : List Byte} {op : ChunkOperands} (h : chunkOperands p = .ok op)
    (hidx : op.index = s.sess.chunkIdx) (hover : ¬ s.sess.curSize - s.sess.bytesDone < op.size.setWidth 32)
    (hend : s.sess.bytesDone + op.size.setWidth 32 ≠ s.sess.curSize) :
    chunkRule p s = State.enter .wreq { s with
      sess.bytesDone := s.sess.bytesDone + op.size.setWidth 32, sess.chunkIdx := s.sess.chunkIdx + 1#16
      port.out := s.port.out ++ [.sink (.data op.data), .frame (encodeFrame s.cfg s.cfg.cmdAck [])] } := by
  rw [chunkRule, h]
  refine ((if_neg (not_not.2 hidx)).trans (if_neg hover)).trans ((if_neg hend).trans ?_)
  simp [State.respondAck, State.emit, State.sinkPut]

/-- The chunk that reaches the announced size ends the file. -/
theorem chunkRule_last {s : State} {p : List Byte} {op : ChunkOperands} (h : chunkOperands p = .ok op)
    (hidx : op.index = s.sess.chunkIdx) (hover : ¬ s.sess.curSize - s.sess.bytesDone < op.size.setWidth 32)
    (hend : s.sess.bytesDone + op.size.setWidth 32 = s.sess.curSize) :
    chunkRule p s = State.fileComplete { s with
      sess.bytesDone := s.sess.curSize, sess.chunkIdx := s.sess.chunkIdx + 1#16
      port.out := s.port.out ++ [.sink (.data op.data), .sink (.fileEnd s.sess.filePtr),
        .frame (encodeFrame s.cfg s.cfg.cmdAck [])] } := by
  rw [chunkRule, h]
  refine ((if_neg (not_not.2 hidx)).trans (if_neg hover)).trans ((if_pos hend).trans ?_)
  simp [State.respondAck, State.emit, State.sinkPut, hend]

/-- Settles O20: the frame is expected and read in the chunk form; the checks are the rule's, and `overrun_iff` and
`bytesDone_add` put its word arithmetic into numbers. -/
theorem fileChunkReceived : Obligations.FileChunkReceived := by
  intro s p i hi hp hx ha hdone
  rw [exec_fileData_expected hi hp ha, fileDataRule_chunks hx]
  have hover := overrun_iff hdone (le16 p 2)
  have hadd := bytesDone_add s.sess.bytesDone (le16 p 2)
  refine ⟨fun h => congrArg _ (chunkRule_malformed (chunkOperands_short h)),
    fun h4 h => congrArg _ (chunkRule_malformed (chunkOperands_wrongLength h4 h)),
    fun h hidx => ?wrongIndex, fun h hidx hgt => ?overrun, fun h hidx hlt => ?unfinished, fun h hidx heq => ?last⟩
  case wrongIndex => rw [chunkRule_wrongIndex (chunkOperands_ok h) hidx, rejectChunk]
  case overrun => rw [chunkRule_overrun (chunkOperands_ok h) hidx (hover.2 hgt), rejectChunk]
  case unfinished =>
    have hend : s.sess.bytesDone + (le16 p 2).setWidth 32 ≠ s.sess.curSize := by
      rw [hadd]
      bv_omega
    rw [chunkRule_unfinished (chunkOperands_ok h) hidx (mt hover.1 (by omega)) hend, hadd]
  case last =>
    have hend : s.sess.bytesDone + (le16 p 2).setWidth 32 = s.sess.curSize := by
      rw [hadd, heq, BitVec.ofNat_toNat, BitVec.setWidth_eq]
    rw [chunkRule_last (chunkOperands_ok h) hidx (mt hover.1 (by omega)) hend]

/-! ### FILE_DATA sent in the info form (spec/44_transfer.md R435) -/

theorem internalStep_sendInfo {s : State} (hp : s.phase = .transferringFile) (hx : s.xsub = .info) (ha : s.act = .txreq) :
    internalStep s = sendInfo s := by
  simp only [internalStep, ha, hp, hx]

/-- With the 64-byte name slots of this hardware SIZE follows the name at +0x40 (10_state.md R101). -/
theorem descSize_eq_le32 {c : Config} (h : c.nameSlot = 64) (desc : Memory) (i : Nat) :
    descSize c desc i = le32 (Memory.readN desc (80 * i + 64) 4) 0 := by
  rw [descSize, Config.descBytes, Config.descSizeAt, h, Memory.readWord]

/-- With the 64-byte name slots of this hardware INDEX stands at +0x44 (10_state.md R101). -/
theorem descIndex_eq_read {c : Config} (h : c.nameSlot = 64) (desc : Memory) (i : Nat) :
    descIndex c desc i = Memory.read desc (80 * i + 68) := by
  rw [descIndex, Config.descBytes, Config.descIndexAt, h]

/-- The file is announced from its descriptor's name, size and index, and the answer waited for. -/
theorem sendInfo_descriptor {s : State} {name f : List Byte} {size : Word} {index : Byte}
    (hp : s.phase = .transferringFile) (hptr : s.sess.filePtr.toNat < s.cfg.maxFiles)
    (hname : name = descName s.cfg s.desc s.sess.filePtr.toNat)
    (hsize : size = descSize s.cfg s.desc s.sess.filePtr.toNat)
    (hindex : index = descIndex s.cfg s.desc s.sess.filePtr.toNat)
    (hf : f = encodeFrame s.cfg s.cfg.cmdFileData ([index] ++ bytes32 size ++ name)) :
    sendInfo s = .next { s with
      sess.curSize := size, sess.curIndex := index, sess.bytesDone := 0#32, sess.chunkIdx := 0#16, sess.txN := 0#16
      curname := Memory.writeN s.curname 0 name, port.out := s.port.out ++ [.frame f], txbuf := f
      act := .wrsp, parser.hc := 0#3, parser.pcnt := 0#16, frTimer := s.conf.frTimeout } := by
  subst hname hsize hindex hf
  exact (if_pos hptr).trans (congrArg _ (State.enter_wrsp_emitRequest_timed (by exact congrArg Phase.handshake hp) _ _))

/-- Settles O30: `CURNAME` is one write of the descriptor's name, whose bytes are those of the table. -/
theorem fileInfoSent : Obligations.FileInfoSent := by
  rintro s _ size index f hl hn hp hx ha hptr hwf rfl hsize hindex hf
  obtain ⟨hname, hothers⟩ := read_writeN_name hwf (Memory.readN_length s.desc (80 * s.sess.filePtr.toNat) 64)
  refine ⟨_, Memory.writeN_wf hwf 0 _, fun j hj => ?bytes, hothers, ?step⟩
  case bytes =>
    rw [hname j hj, byteAt, List.getD_eq_getElem?_getD, Memory.readN_getElem? _ _ _ _ hj, Option.getD_some]
  case step =>
    rw [internalStep_sendInfo hp hx ha]
    exact sendInfo_descriptor hp ((Config.legal_layout hl).2.2.symm ▸ hptr) (by rw [descName_eq_readN hn])
      (hsize.trans (descSize_eq_le32 hn ..).symm) (hindex.trans (descIndex_eq_read hn ..).symm) hf

/-! ### The splitter (spec/44_transfer.md R436, R437) -/

theorem internalStep_sendChunkRequest {s : State} (hp : s.phase = .transferringFile) (hx : s.xsub = .chunks)
    (ha : s.act = .txreq) : internalStep s = .next (sendChunkRequest s) := by
  simp only [internalStep, ha, hp, hx]

/-- With no abort latched the next chunk is asked of the source. -/
theorem sendChunkRequest_asked {s : State} (h : s.abortReq = false) :
    sendChunkRequest s = State.requestSource ⟨s.sess.filePtr, s.sess.bytesDone, s.chunkLen⟩ { s with act := .wsrc } := by
  have he : s.enter .wsrc = { s with act := .wsrc } := State.enter_noWait (fun hc => by rw [h] at hc; cases hc.1) rfl
  simp only [sendChunkRequest, he, if_true]

/-- A latched abort ends the session instead. -/
theorem sendChunkRequest_aborted {s : State} (h : s.abortReq = true) :
    sendChunkRequest s = s.fail .aborted 0#32 0#32 := by
  have he : s.enter .wsrc = s.fail .aborted 0#32 0#32 := State.enter_aborted ⟨h, rfl⟩
  rw [sendChunkRequest, he]
  rfl

/-- The source's answer is sent as the next chunk. -/
theorem srcRespStep_answered {s : State} {d : List Byte} (hs : s.srcPending = true) (ha : s.act = .wsrc)
    (hd : d.length = s.chunkLen) :
    srcRespStep d s = .next (State.enter .wrsp { State.emitRequest
      (encodeFrame s.cfg s.cfg.cmdFileData (bytes16 s.sess.chunkIdx ++ bytes16 (BitVec.ofNat 16 s.chunkLen) ++ d))
      { s with srcPending := false } with sess.txN := BitVec.ofNat 16 s.chunkLen }) := if_pos ⟨hs, ha, hd⟩

/-- Settles O31: TXREQ asks the source unless an abort is latched, and the answer is sent and kept as a request. -/
theorem chunkRequestedAndSent : Obligations.ChunkRequestedAndSent := by
  refine ⟨fun s n hp hx ha hn => ?request, fun s d f n hp hx ha hs hn hd hf => ?answer⟩
  case request =>
    subst hn
    rw [internalStep_sendChunkRequest hp hx ha]
    exact ⟨fun h => congrArg _ (sendChunkRequest_asked h), fun h => congrArg _ (sendChunkRequest_aborted h)⟩
  case answer =>
    subst hn hf
    exact (srcRespStep_answered hs ha hd).trans
      (congrArg _ (State.enter_wrsp_emitRequest_timed (by exact congrArg Phase.handshake hp) _ _))

end Sys2Proof.Machine

namespace Sys2Proof.Machine

/-! ### What a step puts out (spec/10_state.md R95 to R97, 41_session.md R305, R307) -/

@[simp] theorem State.enter_port (s : State) (a : Act) : (s.enter a).port = s.port := by
  rcases s.enter_cases a with ⟨-, -, h⟩ | ⟨-, -, h⟩ | ⟨-, -, h⟩ <;> simp [h]

@[simp] theorem State.fileComplete_port (s : State) : s.fileComplete.port = s.port := by
  rcases s.fileComplete_cases with ⟨-, h⟩ | ⟨-, h⟩ <;> simp [h]

/-- The frames with which the engine answers a request (R307). -/
def IsAnswer (c : Config) (f : List Byte) : Prop :=
  f = encodeFrame c c.cmdAck [] ∨ f = encodeFrame c c.cmdNack []

/-- A request is answered: sink events, then one ACK or NACK. -/
def Answers (s t : State) : Prop :=
  ∃ (sinks : List SinkEvent) (f : List Byte), IsAnswer s.cfg f ∧
    t.port.out = s.port.out ++ sinks.map .sink ++ [.frame f]

theorem answers_malformedRequest (s : State) (required len : Nat) : Answers s (s.malformedRequest required len) :=
  ⟨[], _, .inr rfl, by simp [State.malformedRequest]⟩

theorem answers_handshakeRule (p : List Byte) (s : State) : Answers s (handshakeRule p s) := by
  by_cases h : p.length = 5
  · exact ⟨[], _, .inl rfl, by simp [handshakeRule_accepted h]⟩
  · rw [handshakeRule_wrongLength h]
    exact answers_malformedRequest s _ _

theorem answers_fileListRule (p : List Byte) (s : State) : Answers s (fileListRule p s) := by
  cases h : fileListOperands s.cfg.nameSlot p with
  | error required =>
    rw [fileListRule_malformed h]
    exact answers_malformedRequest s _ _
  | ok slots =>
    by_cases hc : byteAt p 0 = 0#8
    · exact ⟨[], _, .inl rfl, by simp [fileListRule_noNames h hc]⟩
    · exact ⟨[], _, .inl rfl, by simp [fileListRule_names h hc]⟩

theorem answers_infoRule (p : List Byte) (s : State) : Answers s (infoRule p s) := by
  cases h : infoOperands s.cfg.nameSlot p with
  | error required =>
    rw [infoRule_malformed h]
    exact answers_malformedRequest s _ _
  | ok op =>
    by_cases hsize : op.size = 0#32
    · exact ⟨[.fileStart s.sess.filePtr op.index 0#32 (strip s.cfg op.slot), .fileEnd s.sess.filePtr], _, .inl rfl,
        by simp [infoRule_empty h hsize]⟩
    · exact ⟨[.fileStart s.sess.filePtr op.index op.size (strip s.cfg op.slot)], _, .inl rfl,
        by simp [infoRule_content h hsize]⟩

theorem answers_rejectChunk (e o : Word) (s : State) : Answers s (rejectChunk e o s) :=
  ⟨[], _, .inr rfl, by simp [rejectChunk]⟩

theorem answers_chunkRule (p : List Byte) (s : State) : Answers s (chunkRule p s) := by
  cases h : chunkOperands p with
  | error required =>
    rw [chunkRule_malformed h]
    exact answers_malformedRequest s _ _
  | ok op =>
    by_cases hidx : op.index = s.sess.chunkIdx
    · by_cases hover : s.sess.curSize - s.sess.bytesDone < op.size.setWidth 32
      · rw [chunkRule_overrun h hidx hover]
        exact answers_rejectChunk _ _ s
      · by_cases hend : s.sess.bytesDone + op.size.setWidth 32 = s.sess.curSize
        · exact ⟨[.data op.data, .fileEnd s.sess.filePtr], _, .inl rfl, by simp [chunkRule_last h hidx hover hend]⟩
        · exact ⟨[.data op.data], _, .inl rfl, by simp [chunkRule_unfinished h hidx hover hend]⟩
    · rw [chunkRule_wrongIndex h hidx]
      exact answers_rejectChunk _ _ s

theorem answers_fileDataRule (p : List Byte) (s : State) : Answers s (fileDataRule p s) := by
  cases hx : s.xsub with
  | info =>
    rw [fileDataRule_info hx]
    exact answers_infoRule p s
  | chunks =>
    rw [fileDataRule_chunks hx]
    exact answers_chunkRule p s

@[simp] theorem ackAccepted_port (s : State) : (ackAccepted s).port = s.port := by
  unfold ackAccepted
  split
  · simp
  · split <;> simp
  · split <;> (simp only; split <;> simp)

@[simp] theorem ackRule_port (p : List Byte) (s : State) : (ackRule p s).port = s.port := by
  unfold ackRule
  split
  · rfl
  · exact ackAccepted_port s

@[simp] theorem nackRule_port (p : List Byte) (s : State) : (nackRule p s).port = s.port := by
  unfold nackRule
  split
  · rfl
  · simp

/-- A frame ended in a wait for a request is answered; one ended in a wait for an answer puts nothing out. -/
theorem Dispatched.output {u t : State} (h : Dispatched u t) :
    (u.act = .wreq ∧ Answers u t) ∨ (u.act = .wrsp ∧ t.port = u.port) := by
  cases h with
  | nacked code e o ha => exact .inl ⟨ha, [], _, .inr rfl, by simp⟩
  | ignored code e o ha => exact .inr ⟨ha, rfl⟩
  | wrongRequest cmd ha => exact .inl ⟨ha, [], _, .inr rfl, by simp [State.unexpectedInRequest]⟩
  | wrongAnswer cmd ha => exact .inr ⟨ha, rfl⟩
  | handshake p ha => exact .inl ⟨ha, answers_handshakeRule p u⟩
  | fileList p ha => exact .inl ⟨ha, answers_fileListRule p u⟩
  | fileData p ha => exact .inl ⟨ha, answers_fileDataRule p u⟩
  | fileEnd p ha => exact .inl ⟨ha, [], _, .inl rfl, by simp [fileEndRule]⟩
  | ack p ha => exact .inr ⟨ha, ackRule_port p u⟩
  | nack p ha => exact .inr ⟨ha, nackRule_port p u⟩

/-- Parsing a byte puts nothing out. -/
theorem Parsed.out_cfg_eq {b : Byte} {s u : State} {o : Option ParseOutcome} (h : Parsed b s u o) :
    u.port.out = s.port.out ∧ u.cfg = s.cfg := by
  cases h <;> exact ⟨rfl, rfl⟩

@[simp] theorem frameExpiry_port (s : State) : (frameExpiry s).port = s.port := by
  unfold frameExpiry
  split <;> rfl

@[simp] theorem tickStep_port (s : State) : (tickStep s).port = s.port := by
  unfold tickStep
  split
  · simp only
    split <;> rfl
  · split
    · simp only
      split
      · exact frameExpiry_port _
      · rfl
    · rfl

@[simp] theorem advStep_port (s : State) : (advStep s).port = s.port := by
  unfold advStep
  split
  · simp
  · split <;> simp

theorem State.writeConf_port (s : State) (v : Word) (loc : HifLoc) : (s.writeConf v loc).port = s.port := by
  cases loc <;> rfl

/-- The splitter puts out at most its request to the source. -/
theorem sendChunkRequest_out (s : State) :
    (sendChunkRequest s).port.out = s.port.out ∨
      ∃ r, (sendChunkRequest s).port.out = s.port.out ++ [.srcReq r] := by
  cases h : s.abortReq with
  | false => exact .inr ⟨_, by rw [sendChunkRequest_asked h]; rfl⟩
  | true => exact .inl (by rw [sendChunkRequest_aborted h]; rfl)

/-- The frames a step from this state can send: the answers, the request of each sending phase, and the kept request
again (R305, R307; 46_host_commands.md R512). -/
inductive State.Sends (s : State) : List Byte → Prop where
  | answer (f : List Byte) (h : IsAnswer s.cfg f) : State.Sends s f
  | handshake : State.Sends s
      (encodeFrame s.cfg s.cfg.cmdHandshake ([s.conf.txVersion] ++ bytes32 s.conf.txTimestamp))
  | fileList : State.Sends s
      (encodeFrame s.cfg s.cfg.cmdFileList (fileListPayload s.cfg s.desc s.sess.pendCount))
  | info : State.Sends s
      (encodeFrame s.cfg s.cfg.cmdFileData ([descIndex s.cfg s.desc s.sess.filePtr.toNat] ++
        bytes32 (descSize s.cfg s.desc s.sess.filePtr.toNat) ++ descName s.cfg s.desc s.sess.filePtr.toNat))
  | chunk (d : List Byte) (hd : d.length = s.chunkLen) : State.Sends s
      (encodeFrame s.cfg s.cfg.cmdFileData (bytes16 s.sess.chunkIdx ++ bytes16 (BitVec.ofNat 16 s.chunkLen) ++ d))
  | again (h : s.act = .whost) : State.Sends s s.txbuf

/-- What an event puts out follows what is already out, and every frame in it is one the state can send. -/
def Appends (s t : State) : Prop :=
  ∃ l, t.port.out = s.port.out ++ l ∧ ∀ f, .frame f ∈ l → s.Sends f

theorem Appends.of_same {s t : State} (h : t.port.out = s.port.out) : Appends s t := ⟨[], by simp [h], by simp⟩

theorem Appends.of_frame {s t : State} {f : List Byte} (h : t.port.out = s.port.out ++ [.frame f]) (hf : s.Sends f) :
    Appends s t := ⟨_, h, by simpa using hf⟩

theorem Answers.appends {s u t : State} (h : Answers u t) (hsame : u.port.out = s.port.out) (hcfg : u.cfg = s.cfg) :
    Appends s t := by
  obtain ⟨sinks, f, hf, hout⟩ := h
  rw [hsame, List.append_assoc] at hout
  refine ⟨_, hout, fun g hg => ?_⟩
  obtain rfl : g = f := by simpa using hg
  exact .answer g (hcfg ▸ hf)

theorem Moved.appends {e : Event} {s t : State} (h : Moved e s t) : Appends s t := by
  cases h with
  | stay | peer | abortNow | abortLatched | irqClear | irqEnable | reset => exact .of_same rfl
  | parsed b q u _ _ hp => exact .of_same hp.out_cfg_eq.1
  | completed b q u t o _ _ hp _ hd =>
    obtain ⟨hout, hcfg⟩ := hp.out_cfg_eq
    rcases hd.output with ⟨-, hans⟩ | ⟨-, hsame⟩
    · exact hans.appends hout hcfg
    · exact .of_same ((congrArg Ports.out hsame).trans hout)
  | tick => exact .of_same (by simp)
  | start => exact .of_same (by split <;> simp)
  | retry ha => exact .of_frame (by simp) (.again ha)
  | configure => exact .of_same (by rw [State.writeConf_port])
  | hostRead a v => exact ⟨_, rfl, by simp⟩
  | srcResp d _ _ hd => exact .of_frame (by simp) (.chunk d hd)
  | adv => exact .of_same (by simp)
  | sendHandshake => exact .of_frame (by simp [Machine.sendHandshake]) .handshake
  | sendFileList => exact .of_frame (by simp [Machine.sendFileList]) .fileList
  | sendInfo t _ _ _ ht =>
    obtain ⟨-, name, f, size, index, rfl, rfl, rfl, rfl, rfl⟩ := sendInfo_next ht
    exact .of_frame (by simp) .info
  | sendChunk =>
    rcases sendChunkRequest_out s with h | ⟨r, h⟩
    · exact .of_same h
    · exact ⟨_, h, by simp⟩

/-! ### The engine never sends FILE_END (spec/44_transfer.md R452) -/

/-- The frame of an instruction other than FILE_END, of a length its header can state. -/
def NoFileEnd (c : Config) (f : List Byte) : Prop :=
  ∃ i : Instr, i.fits c = true ∧ encode c i = .frame f ∧ ∀ p, i ≠ .fileEnd p

/-- With legal parameters such a frame has another command than FILE_END. -/
theorem NoFileEnd.command_ne {c : Config} {f : List Byte} (hl : c.legal = true) (h : NoFileEnd c f) :
    byteAt f 2 ≠ c.cmdFileEnd := by
  obtain ⟨i, -, hf, hi⟩ := h
  have hcodes := Config.legal_codes hl
  simp only [Config.codes, List.nodup_cons, List.mem_cons, List.not_mem_nil, or_false, not_or] at hcodes
  obtain ⟨⟨-, -, hhandshake, -⟩, ⟨-, hfileList, -⟩, ⟨hfileData, -⟩, ⟨hack, hnack⟩, -⟩ := hcodes
  cases i with
  | handshake p => cases hf; exact hhandshake
  | fileList p => cases hf; exact hfileList
  | fileDataInfo p | fileDataChunk p => cases hf; exact hfileData
  | fileEnd p => exact absurd rfl (hi p)
  | ack p => cases hf; exact Ne.symm hack
  | nack p => cases hf; exact Ne.symm hnack
  | start | abort | retry => cases hf

theorem Instr.fits_of_length_le {c : Config} (hl : c.legal = true) {i : Instr} (h : i.payload.length ≤ 65535) :
    i.fits c = true :=
  decide_eq_true ((Config.legal_layout hl).2.1.symm ▸ h)

theorem noFileEnd_handshake {c : Config} (hl : c.legal = true) (version : Byte) (timestamp : Word) :
    NoFileEnd c (encodeFrame c c.cmdHandshake ([version] ++ bytes32 timestamp)) :=
  ⟨.handshake _, Instr.fits_of_length_le hl (by simp [Instr.payload]), rfl, nofun⟩

theorem fileListPayload_length (c : Config) (desc : Memory) (count : Byte) :
    (fileListPayload c desc count).length = 1 + count.toNat * c.nameSlot := by
  simp [fileListPayload, List.length_flatMap, descName]
  omega

/-- A list of 255 names fits a frame, whatever the legal name slot. -/
theorem noFileEnd_fileList {c : Config} (hl : c.legal = true) (desc : Memory) (count : Byte) :
    NoFileEnd c (encodeFrame c c.cmdFileList (fileListPayload c desc count)) := by
  refine ⟨.fileList _, Instr.fits_of_length_le hl ?_, rfl, nofun⟩
  obtain ⟨-, -, hslot⟩ := Config.legal_slot hl
  have hmul := Nat.mul_le_mul (Nat.le_of_lt count.isLt) hslot
  rw [Instr.payload, fileListPayload_length]
  omega

theorem noFileEnd_info {c : Config} (hl : c.legal = true) (index : Byte) (size : Word) (desc : Memory) (i : Nat) :
    NoFileEnd c (encodeFrame c c.cmdFileData ([index] ++ bytes32 size ++ descName c desc i)) := by
  refine ⟨.fileDataInfo _, Instr.fits_of_length_le hl ?_, rfl, nofun⟩
  obtain ⟨-, -, hslot⟩ := Config.legal_slot hl
  simp [Instr.payload, descName]
  omega

/-- A chunk of at most `CHUNK_SIZE` bytes fits a frame. -/
theorem noFileEnd_chunk {c : Config} (hl : c.legal = true) (index size : Half) {d : List Byte}
    (hd : d.length ≤ c.chunkSize) :
    NoFileEnd c (encodeFrame c c.cmdFileData (bytes16 index ++ bytes16 size ++ d)) := by
  refine ⟨.fileDataChunk _, Instr.fits_of_length_le hl ?_, rfl, nofun⟩
  obtain ⟨-, hchunk⟩ := Config.legal_chunk hl
  simp [Instr.payload]
  omega

theorem State.chunkLen_le (s : State) : s.chunkLen ≤ s.cfg.chunkSize := Nat.min_le_left ..

/-- In WHOST `txbuf` is the phase's request, and a chunk in it has `tx_n` bytes of data. -/
theorem State.requestInv_whost {s : State} (h : s.requestInv = true) (ha : s.act = .whost) :
    some s.txbuf = s.requestFrame ∧
      (s.phase = .transferringFile → s.xsub = .chunks → s.txbuf.length = 10 + s.sess.txN.toNat) := by
  simpa [State.requestInv, ha, or_iff_not_imp_left] using h

/-- A sender in WHOST has a chunk of the splitter's size in flight. -/
theorem State.splitterInv_whost {s : State} (h : s.splitterInv = true) (ha : s.act = .whost)
    (hp : s.phase = .transferringFile) (hx : s.xsub = .chunks) (hsend : s.conf.send = true) :
    s.sess.txN.toNat = s.chunkLen := by
  simp only [State.splitterInv, hp, hx, ha, hsend, decide_true, decide_false, reduceCtorEq, Bool.and_self, Bool.not_true,
    Bool.or_true, Bool.false_or, Bool.and_eq_true, decide_eq_true_eq] at h
  exact h.2

/-- Only a sender waits for its host in TRANSFERRING_FILE (41_session.md R301). -/
theorem State.controlInv_whost {s : State} (h : s.controlInv = true) (ha : s.act = .whost)
    (hp : s.phase = .transferringFile) : s.conf.send = true := by
  simp only [State.controlInv, Bool.and_eq_true] at h
  simpa [State.rolesFit, hp, ha] using h.1.2

/-- The request kept for RETRY is no FILE_END: it is rebuilt by `requestFrame`, and its data has the splitter's size. -/
theorem noFileEnd_txbuf {s : State} (hl : s.cfg.legal = true) (hcontrol : s.controlInv = true)
    (hrequest : s.requestInv = true) (hsplitter : s.splitterInv = true) (ha : s.act = .whost) :
    NoFileEnd s.cfg s.txbuf := by
  obtain ⟨hframe, hlen⟩ := State.requestInv_whost hrequest ha
  unfold State.requestFrame at hframe
  split at hframe
  · rw [Option.some.inj hframe]
    exact noFileEnd_handshake hl _ _
  · rw [Option.some.inj hframe]
    exact noFileEnd_fileList hl _ _
  · rename_i hp
    split at hframe
    · rw [Option.some.inj hframe]
      exact noFileEnd_info hl _ _ _ _
    · rename_i hx
      have hn := State.splitterInv_whost hsplitter ha hp hx (State.controlInv_whost hcontrol ha hp)
      have hdata : (s.txbuf.drop 10).length ≤ s.cfg.chunkSize := by
        rw [List.length_drop, hlen hp hx, hn, Nat.add_sub_cancel_left]
        exact s.chunkLen_le
      rw [Option.some.inj hframe]
      exact noFileEnd_chunk hl _ _ hdata
  · cases hframe

/-- No frame the engine can send under the invariants is a FILE_END. -/
theorem State.Sends.noFileEnd {s : State} {f : List Byte} (h : s.Sends f) (hl : s.cfg.legal = true)
    (hcontrol : s.controlInv = true) (hrequest : s.requestInv = true) (hsplitter : s.splitterInv = true) :
    NoFileEnd s.cfg f := by
  cases h with
  | answer f hf =>
    rcases hf with rfl | rfl
    · exact ⟨.ack [], Instr.fits_of_length_le hl (Nat.zero_le _), rfl, nofun⟩
    · exact ⟨.nack [], Instr.fits_of_length_le hl (Nat.zero_le _), rfl, nofun⟩
  | handshake => exact noFileEnd_handshake hl _ _
  | fileList => exact noFileEnd_fileList hl _ _
  | info => exact noFileEnd_info hl _ _ _ _
  | chunk d hd => exact noFileEnd_chunk hl _ _ (hd.trans_le s.chunkLen_le)
  | again ha => exact noFileEnd_txbuf hl hcontrol hrequest hsplitter ha

/-- Settles O55: what a step appends is what its state can send, and none of that is a FILE_END. -/
theorem neverSendsFileEnd : Obligations.NeverSendsFileEnd := by
  rintro s t f h hcontrol - hrequest hsplitter ⟨l, hl, hf⟩
  obtain ⟨hlegal, e, es, hm, -⟩ := step_moved h
  obtain ⟨l', hl', hsends⟩ := hm.appends
  obtain rfl : l = l' := List.append_cancel_left (hl.symm.trans hl')
  have hno : NoFileEnd s.cfg f := (hsends f hf).noFileEnd hlegal hcontrol hrequest hsplitter
  exact ⟨hno.command_ne hlegal, hno⟩

end Sys2Proof.Machine

namespace Sys2Proof.Machine

/-! ### ACK and NACK received (spec/45_flow_control.md R472, R474) -/

theorem answerOperands_payload {p : List Byte} (h : p.length ≠ 0) : answerOperands p = .error 0 := if_pos h

theorem answerOperands_ok {p : List Byte} (h : p.length = 0) : answerOperands p = .ok () := if_neg (not_not.2 h)

theorem ackRule_payload {p : List Byte} (h : p.length ≠ 0) (s : State) :
    ackRule p s = s.malformedAnswer 0 p.length := by
  rw [ackRule, answerOperands_payload h]

theorem ackRule_accepted {p : List Byte} (h : p.length = 0) (s : State) : ackRule p s = ackAccepted s := by
  rw [ackRule, answerOperands_ok h]

theorem ackAccepted_handshake {s : State} (hp : s.phase = .sendingHandshake) :
    ackAccepted s = State.enter .adv { s with phase := .handshakeDone } := by
  simp only [ackAccepted, hp]

theorem ackAccepted_noFiles {s : State} (hp : s.phase = .sendingFileList) (h : s.sess.pendCount = 0#8) :
    ackAccepted s = s.finish := by
  simp only [ackAccepted, hp]
  exact if_pos h

theorem ackAccepted_files {s : State} (hp : s.phase = .sendingFileList) (h : s.sess.pendCount ≠ 0#8) :
    ackAccepted s =
      State.enter .txreq { s with sess.filePtr := 0#8, xsub := .info, phase := .transferringFile } := by
  simp only [ackAccepted, hp]
  exact if_neg h

/-- An ACK of the info form opens the chunks of the file; an empty file has none and is complete. -/
theorem ackAccepted_info {s : State} (hp : s.phase = .transferringFile) (hx : s.xsub = .info) :
    ackAccepted s =
      if s.sess.curSize = 0#32 then State.fileComplete { s with xsub := .chunks }
      else State.enter .txreq { s with xsub := .chunks } := by
  simp only [ackAccepted, hp, hx, and_self, if_true]

/-- An ACK of a chunk counts the `txN` bytes that were sent; the chunk that reaches the announced size ends the file. -/
theorem ackAccepted_chunk {s : State} (hp : s.phase = .transferringFile) (hx : s.xsub = .chunks) :
    ackAccepted s =
      if s.sess.bytesDone + s.sess.txN.setWidth 32 = s.sess.curSize then
        State.fileComplete { s with
          sess.bytesDone := s.sess.bytesDone + s.sess.txN.setWidth 32, sess.chunkIdx := s.sess.chunkIdx + 1#16 }
      else State.enter .txreq { s with
          sess.bytesDone := s.sess.bytesDone + s.sess.txN.setWidth 32, sess.chunkIdx := s.sess.chunkIdx + 1#16 } := by
  simp only [ackAccepted, hp, hx, reduceCtorEq, and_false, if_false]

theorem exec_ack_expected {s : State} (ha : s.act = .wrsp) (p : List Byte) :
    exec (.ack p) s = .next (ackRule p s) :=
  State.onAnswer_expected ha s.cfg.cmdAck (ackRule p)

/-- Settles O22: the wait is for an answer, so the ACK's rule runs; the payload and the phase pick its branch. -/
theorem ackReceived : Obligations.AckReceived := by
  intro s p ha
  rw [exec_ack_expected ha]
  have haccept (h : p.length = 0) : ackRule p s = ackAccepted s := ackRule_accepted h s
  refine ⟨fun h => congrArg _ (ackRule_payload h s), fun h hp => ?handshake, fun h hp h0 => ?noFiles,
    fun h hp h0 => ?files, fun h hp hx h0 => ?emptyFile, fun h hp hx h0 => ?openFile, fun h hp hx hend => ?lastChunk,
    fun h hp hx hend => ?chunk⟩
  case handshake => rw [haccept h, ackAccepted_handshake hp]
  case noFiles => rw [haccept h, ackAccepted_noFiles hp h0]
  case files => rw [haccept h, ackAccepted_files hp h0]
  case emptyFile => rw [haccept h, ackAccepted_info hp hx, if_pos h0]
  case openFile => rw [haccept h, ackAccepted_info hp hx, if_neg h0]
  case lastChunk => rw [haccept h, ackAccepted_chunk hp hx, if_pos hend, hend]
  case chunk => rw [haccept h, ackAccepted_chunk hp hx, if_neg hend]

theorem nackRule_payload {p : List Byte} (h : p.length ≠ 0) (s : State) :
    nackRule p s = s.malformedAnswer 0 p.length := by
  rw [nackRule, answerOperands_payload h]

theorem nackRule_accepted {p : List Byte} (h : p.length = 0) (s : State) :
    nackRule p s = (s.irqSet .nack).enter .whost := by
  rw [nackRule, answerOperands_ok h]

theorem exec_nack_expected {s : State} (ha : s.act = .wrsp) (p : List Byte) :
    exec (.nack p) s = .next (nackRule p s) :=
  State.onAnswer_expected ha s.cfg.cmdNack (nackRule p)

/-- Settles O23: the NACK's rule raises its interrupt bit and enters WHOST, which lies between exchanges, so a latched
abort is honoured there. -/
theorem nackReceived : Obligations.NackReceived := by
  intro s p ha
  rw [exec_nack_expected ha]
  refine ⟨fun h => congrArg _ (nackRule_payload h s), fun h hno => ?stops, fun h habort => ?aborts⟩
  case stops =>
    have hgo : ¬ ((s.irqSet .nack).abortReq = true ∧ Act.whost.betweenExchanges = true) := by simp [hno]
    rw [nackRule_accepted h, State.enter_noWait hgo rfl]
    rfl
  case aborts =>
    have hlatched : (s.irqSet .nack).abortReq = true ∧ Act.whost.betweenExchanges = true := ⟨habort, rfl⟩
    rw [nackRule_accepted h, State.enter_aborted hlatched]
    rfl

end Sys2Proof.Machine

namespace Sys2Proof.Machine

/-! ### The host's commands (spec/46_host_commands.md R505, R508, R512) -/

theorem Phase.active_of_ne {p : Phase} (h1 : p ≠ .idle) (h2 : p ≠ .done) (h3 : p ≠ .failed) : p.active = true :=
  Bool.eq_true_of_not_eq_false fun h => (p.active_eq_false_iff.1 h).elim h1 (·.elim h2 h3)

/-! #### START (R505) -/

theorem execStart_active {s : State} (h : s.phase.active = true) : execStart s = .next s := if_pos h

/-- The responder waits for HANDSHAKE with a fresh parser. A session begins with no abort latched, and the handshake
phases load no frame timer. -/
theorem execStart_responder {s : State} (h : s.phase.active = false) (hr : s.conf.initiator = false) :
    execStart s = .next { s.newSession with
      phase := .awaitingHandshake, act := .wreq, parser.hc := 0#3, parser.pcnt := 0#16 } := by
  rw [execStart, if_neg (ne_true_of_eq_false h), if_neg (ne_true_of_eq_false hr)]
  exact congrArg _ (State.enter_of_no_abort rfl .wreq)

theorem execStart_initiator {s : State} (h : s.phase.active = false) (hr : s.conf.initiator = true) :
    execStart s = .next { s.newSession with phase := .sendingHandshake, act := .txreq } := by
  rw [execStart, if_neg (ne_true_of_eq_false h), if_pos hr]
  exact congrArg _ (State.enter_of_no_abort rfl .txreq)

/-- Settles O24: START is ignored in a session; otherwise the role picks how the new session begins. -/
theorem startBeginsSession : Obligations.StartBeginsSession := by
  refine fun s => ⟨fun h1 h2 h3 => execStart_active (Phase.active_of_ne h1 h2 h3), ?_⟩
  rintro hp t rfl
  have hidle : s.phase.active = false := s.phase.active_eq_false_iff.2 hp
  exact ⟨execStart_responder hidle, execStart_initiator hidle⟩

/-! #### ABORT (R508) -/

theorem execAbort_inactive {s : State} (h : s.phase.active = false) : execAbort s = .next s :=
  if_neg (ne_true_of_eq_false h)

theorem execAbort_now {s : State} (h : s.phase.active = true)
    (ha : s.act = .txreq ∨ s.act = .wsrc ∨ s.act = .whost ∨ s.act = .adv) :
    execAbort s = .next (s.fail .aborted 0#32 0#32) := by
  rw [execAbort, if_pos h, if_pos ha]

theorem execAbort_latched {s : State} (h : s.phase.active = true) (ha : s.act = .wreq ∨ s.act = .wrsp) :
    execAbort s = .next { s with abortReq := true } := by
  have hwait : ¬ (s.act = .txreq ∨ s.act = .wsrc ∨ s.act = .whost ∨ s.act = .adv) := by
    rcases ha with ha | ha <;> simp [ha]
  rw [execAbort, if_pos h, if_neg hwait]

/-- Settles O25: without a session nothing happens; in one, the activity decides between failing now and latching. -/
theorem abortFailsOrLatches : Obligations.AbortFailsOrLatches := by
  refine fun s => ⟨fun hp => execAbort_inactive (s.phase.active_eq_false_iff.2 hp), fun h1 h2 h3 => ?_⟩
  have hactive : s.phase.active = true := Phase.active_of_ne h1 h2 h3
  exact ⟨execAbort_now hactive, execAbort_latched hactive⟩

/-! #### RETRY (R512) -/

theorem execRetry_ignored {s : State} (h : s.act ≠ .whost) : execRetry s = .next s := if_neg h

/-- The kept request is sent again and kept again, so `txbuf` does not change; WRSP is inside an exchange, so no latched
abort stops it. -/
theorem execRetry_whost {s : State} (h : s.act = .whost) :
    execRetry s = .next { s with
      port.out := s.port.out ++ [.frame s.txbuf], act := .wrsp, parser.hc := 0#3, parser.pcnt := 0#16
      frTimer := if s.phase.handshake then s.frTimer else s.conf.frTimeout } := by
  rw [execRetry, if_pos h]
  exact congrArg _ (s.enter_wrsp_emitRequest s.txbuf s.sess.txN)

/-- Settles O26: RETRY acts in WHOST alone, where it is a request sent again. -/
theorem retryResendsRequest : Obligations.RetryResendsRequest := by
  intro s
  simp only [← Phase.handshake_iff]
  exact ⟨execRetry_ignored, execRetry_whost⟩

end Sys2Proof.Machine

namespace Sys2Proof.Machine

/-! ### What `enter` and `file_complete()` leave unchanged (spec/41_session.md R306, R315) -/

section
variable (s : State) (a : Act)

/-- `enter(A)` changes the control state, the error and status registers, the parser's counts and the frame timer only. -/
theorem State.enter_frame :
    s.enter a = { s with
      phase := (s.enter a).phase, act := (s.enter a).act, linkOwned := (s.enter a).linkOwned
      abortReq := (s.enter a).abortReq, srcPending := (s.enter a).srcPending, err := (s.enter a).err
      irqStatus := (s.enter a).irqStatus, frTimer := (s.enter a).frTimer
      parser.hc := (s.enter a).parser.hc, parser.pcnt := (s.enter a).parser.pcnt } := by
  rcases s.enter_cases a with ⟨-, -, h⟩ | ⟨-, -, h⟩ | ⟨-, -, h⟩
  · rw [h]
    rfl
  · rw [h]
  · rw [h]

@[simp] theorem State.enter_cfg : (s.enter a).cfg = s.cfg := by
  rw [s.enter_frame]
@[simp] theorem State.enter_conf : (s.enter a).conf = s.conf := by
  rw [s.enter_frame]
@[simp] theorem State.enter_desc : (s.enter a).desc = s.desc := by
  rw [s.enter_frame]
@[simp] theorem State.enter_xsub : (s.enter a).xsub = s.xsub := by
  rw [s.enter_frame]
@[simp] theorem State.enter_sess : (s.enter a).sess = s.sess := by
  rw [s.enter_frame]
@[simp] theorem State.enter_curname : (s.enter a).curname = s.curname := by
  rw [s.enter_frame]
@[simp] theorem State.enter_rxname : (s.enter a).rxname = s.rxname := by
  rw [s.enter_frame]
@[simp] theorem State.enter_txbuf : (s.enter a).txbuf = s.txbuf := by
  rw [s.enter_frame]
@[simp] theorem State.enter_irqEnable : (s.enter a).irqEnable = s.irqEnable := by
  rw [s.enter_frame]

/-- `enter(A)` either keeps the parser or resets it. -/
theorem State.enter_parser :
    (s.enter a).parser = s.parser ∨ (s.enter a).parser = { s.parser with hc := 0#3, pcnt := 0#16 } := by
  rcases s.enter_cases a with ⟨-, -, h⟩ | ⟨-, -, h⟩ | ⟨-, -, h⟩ <;> simp [h]

/-- `file_complete()` counts the file, may turn `xsub` back, and ends as `enter` or `done()` does. -/
theorem State.fileComplete_frame :
    s.fileComplete = { s with
      sess.filePtr := s.sess.filePtr + 1#8, xsub := s.fileComplete.xsub
      phase := s.fileComplete.phase, act := s.fileComplete.act, linkOwned := s.fileComplete.linkOwned
      abortReq := s.fileComplete.abortReq, srcPending := s.fileComplete.srcPending, err := s.fileComplete.err
      irqStatus := s.fileComplete.irqStatus, frTimer := s.fileComplete.frTimer
      parser.hc := s.fileComplete.parser.hc, parser.pcnt := s.fileComplete.parser.pcnt } := by
  rcases s.fileComplete_cases with ⟨-, h⟩ | ⟨-, h⟩ <;> rw [h]
  · rfl
  · rw [State.enter_frame]
    rfl

@[simp] theorem State.fileComplete_cfg : s.fileComplete.cfg = s.cfg := by
  rw [s.fileComplete_frame]
@[simp] theorem State.fileComplete_conf : s.fileComplete.conf = s.conf := by
  rw [s.fileComplete_frame]
@[simp] theorem State.fileComplete_desc : s.fileComplete.desc = s.desc := by
  rw [s.fileComplete_frame]
@[simp] theorem State.fileComplete_sess : s.fileComplete.sess = { s.sess with filePtr := s.sess.filePtr + 1#8 } := by
  rw [s.fileComplete_frame]
@[simp] theorem State.fileComplete_curname : s.fileComplete.curname = s.curname := by
  rw [s.fileComplete_frame]
@[simp] theorem State.fileComplete_rxname : s.fileComplete.rxname = s.rxname := by
  rw [s.fileComplete_frame]
@[simp] theorem State.fileComplete_txbuf : s.fileComplete.txbuf = s.txbuf := by
  rw [s.fileComplete_frame]
@[simp] theorem State.fileComplete_irqEnable : s.fileComplete.irqEnable = s.irqEnable := by
  rw [s.fileComplete_frame]

theorem State.fileComplete_parser :
    s.fileComplete.parser = s.parser ∨ s.fileComplete.parser = { s.parser with hc := 0#3, pcnt := 0#16 } := by
  rcases s.fileComplete_cases with ⟨-, h⟩ | ⟨-, h⟩ <;> rw [h]
  · exact .inl rfl
  · exact State.enter_parser _ _

end

/-! ### The branches of the rules (spec/41_session.md R310 to 45_flow_control.md R474) -/

/-- Everything a completed frame can do, one constructor for each branch of each rule. -/
inductive Ruled (u : State) : State → Prop where
  | restarted (code : ErrCode) (e o : Word) (ha : u.act = .wreq) :
    Ruled u ((u.recover code e o).respondNack.enter .wreq)
  | recorded (code : ErrCode) (e o : Word) (ha : u.act = .wrsp) : Ruled u (u.recover code e o)
  | refused (code : ErrCode) (e o : Word) (ha : u.act = .wreq) (hcode : code ≠ .none) :
    Ruled u (u.respondNack.fail code e o)
  | unexpectedAnswer (code : ErrCode) (e o : Word) (ha : u.act = .wrsp) (hcode : code ≠ .none) :
    Ruled u (u.fail code e o)
  | handshake (version : Byte) (timestamp : Word) (ha : u.act = .wreq) (hp : u.phase = .awaitingHandshake) :
    Ruled u (State.enter .adv { u with
      sess.rxVersion := version, sess.rxTimestamp := timestamp, phase := .handshakeDone
      port.out := u.port.out ++ [.frame (encodeFrame u.cfg u.cfg.cmdAck [])] })
  | emptyList (p : List Byte) (slots : List (List Byte)) (ha : u.act = .wreq) (hp : u.phase = .awaitingFileList)
    (hs : fileListOperands u.cfg.nameSlot p = .ok slots) (hc : byteAt p 0 = 0#8) :
    Ruled u (State.finish { u with
      rxname := storeNames u.cfg u.rxname 0 slots, sess.pendCount := byteAt p 0
      port.out := u.port.out ++ [.frame (encodeFrame u.cfg u.cfg.cmdAck [])] })
  | list (p : List Byte) (slots : List (List Byte)) (ha : u.act = .wreq) (hp : u.phase = .awaitingFileList)
    (hs : fileListOperands u.cfg.nameSlot p = .ok slots) (hc : byteAt p 0 ≠ 0#8) :
    Ruled u (State.enter .wreq { u with
      rxname := storeNames u.cfg u.rxname 0 slots, sess.pendCount := byteAt p 0
      sess.filePtr := 0#8, xsub := .info, phase := .transferringFile
      port.out := u.port.out ++ [.frame (encodeFrame u.cfg u.cfg.cmdAck [])] })
  | emptyFile (index : Byte) (name : List Byte) (ha : u.act = .wreq) (hp : u.phase = .transferringFile)
    (hx : u.xsub = .info) (hname : name.length = u.cfg.nameSlot) :
    Ruled u (State.fileComplete { u with
      sess.curIndex := index, sess.curSize := 0#32, sess.bytesDone := 0#32, sess.chunkIdx := 0#16
      curname := Memory.writeN u.curname 0 name, xsub := .chunks
      port.out := u.port.out ++ [.sink (.fileStart u.sess.filePtr index 0#32 name),
        .sink (.fileEnd u.sess.filePtr), .frame (encodeFrame u.cfg u.cfg.cmdAck [])] })
  | file (index : Byte) (size : Word) (name : List Byte) (ha : u.act = .wreq) (hp : u.phase = .transferringFile)
    (hx : u.xsub = .info) (hname : name.length = u.cfg.nameSlot) (hsize : size ≠ 0#32) :
    Ruled u (State.enter .wreq { u with
      sess.curIndex := index, sess.curSize := size, sess.bytesDone := 0#32, sess.chunkIdx := 0#16
      curname := Memory.writeN u.curname 0 name, xsub := .chunks
      port.out := u.port.out ++ [.sink (.fileStart u.sess.filePtr index size name),
        .frame (encodeFrame u.cfg u.cfg.cmdAck [])] })
  | lastChunk (n : Half) (d : List Byte) (ha : u.act = .wreq) (hp : u.phase = .transferringFile)
    (hx : u.xsub = .chunks) (hd : d.length = n.toNat)
    (hfits : ¬ u.sess.curSize - u.sess.bytesDone < n.setWidth 32)
    (hend : u.sess.bytesDone + n.setWidth 32 = u.sess.curSize) :
    Ruled u (State.fileComplete { u with
      sess.bytesDone := u.sess.curSize, sess.chunkIdx := u.sess.chunkIdx + 1#16
      port.out := u.port.out ++ [.sink (.data d), .sink (.fileEnd u.sess.filePtr),
        .frame (encodeFrame u.cfg u.cfg.cmdAck [])] })
  | chunk (n : Half) (d : List Byte) (ha : u.act = .wreq) (hp : u.phase = .transferringFile)
    (hx : u.xsub = .chunks) (hd : d.length = n.toNat)
    (hfits : ¬ u.sess.curSize - u.sess.bytesDone < n.setWidth 32)
    (hend : u.sess.bytesDone + n.setWidth 32 ≠ u.sess.curSize) :
    Ruled u (State.enter .wreq { u with
      sess.bytesDone := u.sess.bytesDone + n.setWidth 32, sess.chunkIdx := u.sess.chunkIdx + 1#16
      port.out := u.port.out ++ [.sink (.data d), .frame (encodeFrame u.cfg u.cfg.cmdAck [])] })
  | fileEnd (ha : u.act = .wreq) (hp : u.phase = .transferringFile) : Ruled u (u.respondAck.enter .wreq)
  | ackHandshake (ha : u.act = .wrsp) (hp : u.phase = .sendingHandshake) :
    Ruled u (State.enter .adv { u with phase := .handshakeDone })
  | ackEmptyList (ha : u.act = .wrsp) (hp : u.phase = .sendingFileList) (hc : u.sess.pendCount = 0#8) :
    Ruled u u.finish
  | ackList (ha : u.act = .wrsp) (hp : u.phase = .sendingFileList) (hc : u.sess.pendCount ≠ 0#8) :
    Ruled u (State.enter .txreq { u with sess.filePtr := 0#8, xsub := .info, phase := .transferringFile })
  | ackEmptyFile (ha : u.act = .wrsp) (hp : u.phase = .transferringFile) (hx : u.xsub = .info)
    (hsize : u.sess.curSize = 0#32) : Ruled u (State.fileComplete { u with xsub := .chunks })
  | ackFile (ha : u.act = .wrsp) (hp : u.phase = .transferringFile) (hx : u.xsub = .info)
    (hsize : u.sess.curSize ≠ 0#32) : Ruled u (State.enter .txreq { u with xsub := .chunks })
  | ackLastChunk (ha : u.act = .wrsp) (hp : u.phase ≠ .sendingHandshake ∧ u.phase ≠ .sendingFileList)
    (hx : ¬ (u.phase = .transferringFile ∧ u.xsub = .info))
    (hend : u.sess.bytesDone + u.sess.txN.setWidth 32 = u.sess.curSize) :
    Ruled u (State.fileComplete { u with sess.bytesDone := u.sess.curSize, sess.chunkIdx := u.sess.chunkIdx + 1#16 })
  | ackChunk (ha : u.act = .wrsp) (hp : u.phase ≠ .sendingHandshake ∧ u.phase ≠ .sendingFileList)
    (hx : ¬ (u.phase = .transferringFile ∧ u.xsub = .info))
    (hend : u.sess.bytesDone + u.sess.txN.setWidth 32 ≠ u.sess.curSize) :
    Ruled u (State.enter .txreq { u with
      sess.bytesDone := u.sess.bytesDone + u.sess.txN.setWidth 32, sess.chunkIdx := u.sess.chunkIdx + 1#16 })
  | nack (ha : u.act = .wrsp) : Ruled u ((u.irqSet .nack).enter .whost)

theorem ruled_handshakeRule (p : List Byte) {u : State} (ha : u.act = .wreq) (hp : u.phase = .awaitingHandshake) :
    Ruled u (handshakeRule p u) := by
  by_cases h : p.length = 5
  · rw [handshakeRule_accepted h]
    exact .handshake _ _ ha hp
  · rw [handshakeRule_wrongLength h]
    exact .restarted _ _ _ ha

theorem ruled_fileListRule (p : List Byte) {u : State} (ha : u.act = .wreq) (hp : u.phase = .awaitingFileList) :
    Ruled u (fileListRule p u) := by
  cases h : fileListOperands u.cfg.nameSlot p with
  | error required =>
    rw [fileListRule_malformed h]
    exact .restarted _ _ _ ha
  | ok slots =>
    by_cases hc : byteAt p 0 = 0#8
    · rw [fileListRule_noNames h hc]
      exact .emptyList p slots ha hp h hc
    · rw [fileListRule_names h hc]
      exact .list p slots ha hp h hc

/-- A slot taken out of an info payload of the right length fills `CURNAME` when stripped. -/
theorem infoOperands_name {c : Config} {p : List Byte} {op : InfoOperands} (h : infoOperands c.nameSlot p = .ok op) :
    (strip c op.slot).length = c.nameSlot := by
  unfold infoOperands at h
  split at h
  · cases h
  · cases h
    exact Memory.strip_length c _ (by simp [slice])

/-- A chunk whose length is right has as many data bytes as it says. -/
theorem chunkOperands_data {p : List Byte} {op : ChunkOperands} (h : chunkOperands p = .ok op) :
    op.data.length = op.size.toNat := by
  have hlen : p.length = 4 + (le16 p 2).toNat := by
    by_contra hne
    by_cases h4 : p.length < 4
    · rw [chunkOperands_short h4] at h
      cases h
    · rw [chunkOperands_wrongLength (by omega) hne] at h
      cases h
  rw [chunkOperands_ok hlen] at h
  cases h
  simp [hlen]

theorem ruled_infoRule (p : List Byte) {u : State} (ha : u.act = .wreq) (hp : u.phase = .transferringFile)
    (hx : u.xsub = .info) : Ruled u (infoRule p u) := by
  cases h : infoOperands u.cfg.nameSlot p with
  | error required =>
    rw [infoRule_malformed h]
    exact .restarted _ _ _ ha
  | ok op =>
    by_cases hsize : op.size = 0#32
    · rw [infoRule_empty h hsize]
      exact .emptyFile _ _ ha hp hx (infoOperands_name h)
    · rw [infoRule_content h hsize]
      exact .file _ _ _ ha hp hx (infoOperands_name h) hsize

theorem ruled_chunkRule (p : List Byte) {u : State} (ha : u.act = .wreq) (hp : u.phase = .transferringFile)
    (hx : u.xsub = .chunks) : Ruled u (chunkRule p u) := by
  cases h : chunkOperands p with
  | error required =>
    rw [chunkRule_malformed h]
    exact .restarted _ _ _ ha
  | ok op =>
    by_cases hidx : op.index = u.sess.chunkIdx
    · by_cases hover : u.sess.curSize - u.sess.bytesDone < op.size.setWidth 32
      · rw [chunkRule_overrun h hidx hover]
        exact .refused _ _ _ ha (by decide)
      · by_cases hend : u.sess.bytesDone + op.size.setWidth 32 = u.sess.curSize
        · rw [chunkRule_last h hidx hover hend]
          exact .lastChunk _ _ ha hp hx (chunkOperands_data h) hover hend
        · rw [chunkRule_unfinished h hidx hover hend]
          exact .chunk _ _ ha hp hx (chunkOperands_data h) hover hend
    · rw [chunkRule_wrongIndex h hidx]
      exact .refused _ _ _ ha (by decide)

theorem ruled_fileDataRule (p : List Byte) {u : State} (ha : u.act = .wreq) (hp : u.phase = .transferringFile) :
    Ruled u (fileDataRule p u) := by
  cases hx : u.xsub with
  | info =>
    rw [fileDataRule_info hx]
    exact ruled_infoRule p ha hp hx
  | chunks =>
    rw [fileDataRule_chunks hx]
    exact ruled_chunkRule p ha hp hx

/-- In a phase that is no sending phase of its own and not the info exchange, an ACK counts a chunk. -/
theorem ackAccepted_counts {s : State} (hp : s.phase ≠ .sendingHandshake ∧ s.phase ≠ .sendingFileList)
    (hx : ¬ (s.phase = .transferringFile ∧ s.xsub = .info)) :
    ackAccepted s =
      if s.sess.bytesDone + s.sess.txN.setWidth 32 = s.sess.curSize then
        State.fileComplete { s with
          sess.bytesDone := s.sess.bytesDone + s.sess.txN.setWidth 32, sess.chunkIdx := s.sess.chunkIdx + 1#16 }
      else State.enter .txreq { s with
          sess.bytesDone := s.sess.bytesDone + s.sess.txN.setWidth 32, sess.chunkIdx := s.sess.chunkIdx + 1#16 } := by
  unfold ackAccepted
  split
  · exact absurd ‹_› hp.1
  · exact absurd ‹_› hp.2
  · exact if_neg hx

theorem ruled_ackAccepted {u : State} (ha : u.act = .wrsp) : Ruled u (ackAccepted u) := by
  by_cases h1 : u.phase = .sendingHandshake
  · rw [ackAccepted_handshake h1]
    exact .ackHandshake ha h1
  by_cases h2 : u.phase = .sendingFileList
  · by_cases hc : u.sess.pendCount = 0#8
    · rw [ackAccepted_noFiles h2 hc]
      exact .ackEmptyList ha h2 hc
    · rw [ackAccepted_files h2 hc]
      exact .ackList ha h2 hc
  by_cases hx : u.phase = .transferringFile ∧ u.xsub = .info
  · rw [ackAccepted_info hx.1 hx.2]
    by_cases hsize : u.sess.curSize = 0#32
    · rw [if_pos hsize]
      exact .ackEmptyFile ha hx.1 hx.2 hsize
    · rw [if_neg hsize]
      exact .ackFile ha hx.1 hx.2 hsize
  · rw [ackAccepted_counts ⟨h1, h2⟩ hx]
    by_cases hend : u.sess.bytesDone + u.sess.txN.setWidth 32 = u.sess.curSize
    · rw [if_pos hend, hend]
      exact .ackLastChunk ha ⟨h1, h2⟩ hx hend
    · rw [if_neg hend]
      exact .ackChunk ha ⟨h1, h2⟩ hx hend

theorem ruled_ackRule (p : List Byte) {u : State} (ha : u.act = .wrsp) : Ruled u (ackRule p u) := by
  by_cases h : p.length = 0
  · rw [ackRule_accepted h]
    exact ruled_ackAccepted ha
  · rw [ackRule_payload h]
    exact .recorded _ _ _ ha

theorem ruled_nackRule (p : List Byte) {u : State} (ha : u.act = .wrsp) : Ruled u (nackRule p u) := by
  by_cases h : p.length = 0
  · rw [nackRule_accepted h]
    exact .nack ha
  · rw [nackRule_payload h]
    exact .recorded _ _ _ ha

/-- The dispatch of an outcome takes one branch of one rule. -/
theorem Dispatched.ruled {u t : State} (h : Dispatched u t) : Ruled u t := by
  cases h with
  | nacked code e o ha => exact .restarted code e o ha
  | ignored code e o ha => exact .recorded code e o ha
  | wrongRequest cmd ha => exact .refused _ _ _ ha (by decide)
  | wrongAnswer cmd ha => exact .unexpectedAnswer _ _ _ ha (by decide)
  | handshake p ha hp => exact ruled_handshakeRule p ha hp
  | fileList p ha hp => exact ruled_fileListRule p ha hp
  | fileData p ha hp => exact ruled_fileDataRule p ha hp
  | fileEnd p ha hp => exact .fileEnd ha hp
  | ack p ha => exact ruled_ackRule p ha
  | nack p ha => exact ruled_nackRule p ha

end Sys2Proof.Machine

namespace Sys2Proof.Machine

/-! ### What a step can do, for the proofs of what every step keeps -/

/-- What holds of a state whatever its schedule, and is kept by every event, is kept by every step. -/
theorem step_keeps {P : State → Prop} (hport : ∀ s es, P s → P { s with port.events := es })
    (hmoved : ∀ e s t, s.cfg.legal = true → Moved e s t → P s → P t) {s t : State} (h : step s = .next t) (hs : P s) :
    P t := by
  obtain ⟨hl, e, es, hm, -⟩ := step_moved h
  exact hmoved e { s with port.events := es } t hl hm (hport s es hs)

/-- Parsing a byte changes the parser and the frame timer only. -/
theorem Parsed.frame {b : Byte} {s u : State} {o : Option ParseOutcome} (h : Parsed b s u o) :
    u = { s with parser := u.parser, frTimer := u.frTimer } := by
  cases h <;> rfl

/-- A tick counts one timer down, or counts none, and on the expiry of that timer ends the session with an error. -/
theorem tickStep_cases (s : State) :
    ∃ h f : Word, (f ≠ s.frTimer → s.phase.handshake = false ∧ s.act.waits = true ∧ f = tickDown s.frTimer) ∧
      (tickStep s = { s with hsTimer := h, frTimer := f } ∨
        ((s.phase.handshake = true ∨ s.act.waits = true) ∧
          ∃ code e o, code ≠ ErrCode.none ∧ tickStep s = ({ s with hsTimer := h, frTimer := f } : State).fail code e o)) := by
  by_cases hp : s.phase.handshake = true
  · refine ⟨tickDown s.hsTimer, s.frTimer, fun h => absurd rfl h, ?_⟩
    by_cases hz : tickDown s.hsTimer = 0#32
    · exact .inr ⟨.inl hp, .handshakeTimeout, _, _, by decide, (if_pos hp).trans (if_pos hz)⟩
    · exact .inl ((if_pos hp).trans (if_neg hz))
  · by_cases hw : s.act.waits = true
    · refine ⟨s.hsTimer, tickDown s.frTimer, fun _ => ⟨by simpa using hp, hw, rfl⟩, ?_⟩
      have htick : tickStep s = if tickDown s.frTimer = 0#32 then frameExpiry { s with frTimer := tickDown s.frTimer }
          else { s with frTimer := tickDown s.frTimer } := (if_neg hp).trans (if_pos hw)
      by_cases hz : tickDown s.frTimer = 0#32
      · refine .inr ⟨.inr hw, ?_⟩
        rw [htick, if_pos hz, frameExpiry]
        split
        · exact ⟨_, _, _, by decide, rfl⟩
        · exact ⟨_, _, _, by decide, rfl⟩
      · exact .inl (htick.trans (if_neg hz))
    · exact ⟨s.hsTimer, s.frTimer, fun h => absurd rfl h, .inl ((if_neg hp).trans (if_neg hw))⟩

/-- Everything the ADV step can do (R309). -/
theorem advStep_cases (s : State) :
    (s.conf.single = true ∧
      advStep s = State.enter (if s.conf.send then .txreq else .wreq) { s with
        sess.pendCount := 1#8, sess.filePtr := 0#8, xsub := .info, phase := .transferringFile }) ∨
    (s.conf.single = false ∧ s.conf.send = true ∧
      advStep s = State.enter .txreq { s with sess.pendCount := s.conf.descCount, phase := .sendingFileList }) ∨
    (s.conf.single = false ∧ s.conf.send = false ∧
      advStep s = State.enter .wreq { s with phase := .awaitingFileList }) := by
  cases hm : s.conf.single with
  | true => exact .inl ⟨rfl, if_pos hm⟩
  | false =>
    have hadv := (if_neg (ne_true_of_eq_false hm) : advStep s = _)
    cases hd : s.conf.send with
    | true => exact .inr (.inl ⟨rfl, rfl, hadv.trans (if_pos hd)⟩)
    | false => exact .inr (.inr ⟨rfl, rfl, hadv.trans (if_neg (ne_true_of_eq_false hd))⟩)

/-! ### The control invariant (spec/41_session.md R301) -/

theorem State.controlInv_iff (s : State) :
    s.controlInv = true ↔
      s.legalTriple = true ∧ s.rolesFit = true ∧ s.linkOwned = s.phase.active ∧
      s.srcPending = decide (s.act = .wsrc) ∧ (s.abortReq = true → s.act.waits = true) ∧
      (s.err.failCause ≠ .none ↔ s.phase = .failed) := by
  simp only [State.controlInv, State.latchesFit, Bool.and_eq_true, beq_iff_eq, Bool.or_eq_true, Bool.not_eq_true',
    decide_eq_decide, and_assoc]
  rw [← Bool.not_eq_true, ← imp_iff_not_or]

theorem State.legalTriple_of_same {s t : State} (h : s.legalTriple = true) (hp : t.phase = s.phase) (ha : t.act = s.act)
    (hx : t.xsub = s.xsub) : t.legalTriple = true := by
  rw [← h, State.legalTriple, State.legalTriple, hp, ha, hx]

theorem State.rolesFit_of_same {s t : State} (h : s.rolesFit = true) (hp : t.phase = s.phase) (ha : t.act = s.act)
    (hc : t.conf = s.conf) : t.rolesFit = true := by
  rw [← h, State.rolesFit, State.rolesFit, hp, ha, hc]

/-- Every activity that is no frame wait lies between exchanges. -/
theorem Act.betweenExchanges_of_not_waits {a : Act} (hw : a.waits = false) (ha : a ≠ .none) :
    a.betweenExchanges = true := by
  cases a <;> simp_all [Act.waits, Act.betweenExchanges]

/-- The latches of a running session in which the source has nothing to answer. -/
def State.inSession (s : State) : Prop := s.linkOwned = true ∧ s.srcPending = false ∧ s.err.failCause = .none

/-- Only in a session has the engine something to do. -/
theorem State.legalTriple_active {s : State} (h : s.legalTriple = true) (ha : s.act ≠ .none) : s.phase.active = true := by
  unfold State.legalTriple at h
  split at h <;> simp_all [Phase.active]

theorem State.controlInv_session {s : State} (h : s.controlInv = true) (ha : s.act ≠ .none) (hsrc : s.act ≠ .wsrc) :
    s.inSession ∧ s.phase.active = true := by
  obtain ⟨ht, -, hlink, hpending, -, hcause⟩ := s.controlInv_iff.1 h
  have hactive := State.legalTriple_active ht ha
  refine ⟨⟨hlink.trans hactive, hpending.trans (decide_eq_false hsrc), ?_⟩, hactive⟩
  by_contra hne
  rw [hcause.1 hne] at hactive
  cases hactive

/-- An engine that waits for a request in TRANSFERRING_FILE receives. -/
theorem State.controlInv_receiver {s : State} (h : s.controlInv = true) (ha : s.act = .wreq)
    (hp : s.phase = .transferringFile) : s.conf.send = false := by
  obtain ⟨-, hroles, -⟩ := s.controlInv_iff.1 h
  simpa [State.rolesFit, hp, ha] using hroles

/-- Any other engine in TRANSFERRING_FILE sends. -/
theorem State.controlInv_sender {s : State} (h : s.controlInv = true) (ha : s.act ≠ .wreq)
    (hp : s.phase = .transferringFile) : s.conf.send = true := by
  obtain ⟨-, hroles, -⟩ := s.controlInv_iff.1 h
  simpa [State.rolesFit, hp, ha] using hroles

/-- An ACK that answers neither a HANDSHAKE, a FILE_LIST nor an info frame answers a chunk. -/
theorem State.controlInv_chunkAnswered {s : State} (h : s.controlInv = true) (ha : s.act = .wrsp)
    (hp : s.phase ≠ .sendingHandshake ∧ s.phase ≠ .sendingFileList)
    (hx : ¬ (s.phase = .transferringFile ∧ s.xsub = .info)) : s.phase = .transferringFile ∧ s.xsub = .chunks := by
  obtain ⟨ht, -⟩ := s.controlInv_iff.1 h
  have hphase : s.phase = .transferringFile := by
    unfold State.legalTriple at ht
    split at ht <;> simp_all
  refine ⟨hphase, ?_⟩
  cases hsub : s.xsub with
  | info => exact absurd ⟨hphase, hsub⟩ hx
  | chunks => rfl

/-- Only a sender between two chunks waits for its source. -/
theorem State.controlInv_source {s : State} (h : s.controlInv = true) (ha : s.act = .wsrc) :
    s.phase = .transferringFile ∧ s.xsub = .chunks := by
  obtain ⟨ht, -⟩ := s.controlInv_iff.1 h
  unfold State.legalTriple at ht
  split at ht <;> simp_all

theorem State.controlInv_fail (s : State) {code : ErrCode} (hcode : code ≠ .none) (e o : Word) :
    (s.fail code e o).controlInv = true :=
  (State.controlInv_iff _).2 ⟨rfl, rfl, rfl, rfl, nofun, fun _ => rfl, fun _ => hcode⟩

theorem State.controlInv_finish {s : State} (h : s.inSession) : s.finish.controlInv = true :=
  (State.controlInv_iff _).2 ⟨rfl, rfl, rfl, h.2.1, nofun, fun hc => absurd h.2.2 hc, nofun⟩

/-- Entering an activity of a session, where the triple and the end fit it. -/
theorem State.controlInv_enter {s : State} {a : Act} (h : s.inSession) (ha : a ≠ .none) (hsrc : a ≠ .wsrc)
    (ht : ({ s with act := a } : State).legalTriple = true) (hr : ({ s with act := a } : State).rolesFit = true) :
    (s.enter a).controlInv = true := by
  have hactive : s.phase.active = true := State.legalTriple_active (s := { s with act := a }) ht ha
  have hcause : s.err.failCause ≠ .none ↔ s.phase = .failed :=
    ⟨fun hc => absurd h.2.2 hc, fun hp => by rw [hp] at hactive; cases hactive⟩
  have hlink := h.1.trans hactive.symm
  have hpending := h.2.1.trans (decide_eq_false hsrc).symm
  rcases s.enter_cases a with ⟨-, -, he⟩ | ⟨-, hw, he⟩ | ⟨hgo, hw, he⟩ <;> rw [he]
  · exact s.controlInv_fail (by decide) _ _
  · exact (State.controlInv_iff _).2 ⟨ht, hr, hlink, hpending, fun _ => hw, hcause⟩
  · refine (State.controlInv_iff _).2 ⟨ht, hr, hlink, hpending, fun hab => ?_, hcause⟩
    rcases hgo with hgo | hgo
    · exact absurd hab (ne_true_of_eq_false hgo)
    · exact absurd (Act.betweenExchanges_of_not_waits hw ha) (ne_true_of_eq_false hgo)

/-- `file_complete()` ends a file of a running transfer, at either end. -/
theorem State.controlInv_fileComplete {s : State} (h : s.inSession) (hp : s.phase = .transferringFile) :
    s.fileComplete.controlInv = true := by
  rcases s.fileComplete_cases with ⟨-, he⟩ | ⟨-, he⟩ <;> rw [he]
  · exact State.controlInv_finish h
  · cases hsend : s.conf.send with
    | true => exact State.controlInv_enter h nofun nofun (by simp [State.legalTriple, hp]) (by simp [State.rolesFit, hp, hsend])
    | false => exact State.controlInv_enter h nofun nofun (by simp [State.legalTriple, hp]) (by simp [State.rolesFit, hp, hsend])

theorem Ruled.controlInv {u t : State} (h : Ruled u t) (hu : u.controlInv = true) : t.controlInv = true := by
  obtain ⟨ht, hr, -, -, habort, -⟩ := u.controlInv_iff.1 hu
  have hwait : u.act = .wreq ∨ u.act = .wrsp → u.inSession := fun ha => by
    refine (State.controlInv_session hu ?_ ?_).1 <;> rcases ha with ha | ha <;> simp [ha]
  cases h with
  | restarted code e o ha =>
    exact State.controlInv_enter (hwait (.inl ha)) nofun nofun (State.legalTriple_of_same ht rfl ha.symm rfl)
      (State.rolesFit_of_same hr rfl ha.symm rfl)
  | recorded code e o ha => exact hu
  | refused code e o ha hcode => exact State.controlInv_fail _ hcode _ _
  | unexpectedAnswer code e o ha hcode => exact State.controlInv_fail _ hcode _ _
  | handshake version timestamp ha hp => exact State.controlInv_enter (hwait (.inl ha)) nofun nofun rfl rfl
  | emptyList p slots ha => exact State.controlInv_finish (hwait (.inl ha))
  | list p slots ha hp =>
    have hreceiver : u.conf.single = false ∧ u.conf.send = false := by simpa [State.rolesFit, hp] using hr
    exact State.controlInv_enter (hwait (.inl ha)) nofun nofun rfl (by simp [State.rolesFit, hreceiver.2])
  | emptyFile index name ha hp => exact State.controlInv_fileComplete (hwait (.inl ha)) hp
  | file index size name ha hp =>
    exact State.controlInv_enter (hwait (.inl ha)) nofun nofun (by simp [State.legalTriple, hp])
      (by simp [State.rolesFit, hp, State.controlInv_receiver hu ha hp])
  | lastChunk n d ha hp => exact State.controlInv_fileComplete (hwait (.inl ha)) hp
  | chunk n d ha hp | fileEnd ha hp =>
    exact State.controlInv_enter (hwait (.inl ha)) nofun nofun (by simp [State.legalTriple, hp])
      (by simp [State.rolesFit, hp, State.controlInv_receiver hu ha hp])
  | ackHandshake ha hp => exact State.controlInv_enter (hwait (.inr ha)) nofun nofun rfl rfl
  | ackEmptyList ha => exact State.controlInv_finish (hwait (.inr ha))
  | ackList ha hp =>
    have hsender : u.conf.single = false ∧ u.conf.send = true := by simpa [State.rolesFit, hp] using hr
    exact State.controlInv_enter (hwait (.inr ha)) nofun nofun rfl (by simp [State.rolesFit, hsender.2])
  | ackEmptyFile ha hp => exact State.controlInv_fileComplete (hwait (.inr ha)) hp
  | ackFile ha hp =>
    exact State.controlInv_enter (hwait (.inr ha)) nofun nofun (by simp [State.legalTriple, hp])
      (by simp [State.rolesFit, hp, State.controlInv_sender hu (by simp [ha]) hp])
  | ackLastChunk ha hp hx =>
    exact State.controlInv_fileComplete (hwait (.inr ha)) (State.controlInv_chunkAnswered hu ha hp hx).1
  | ackChunk ha hp hx =>
    obtain ⟨hp, -⟩ := State.controlInv_chunkAnswered hu ha hp hx
    exact State.controlInv_enter (hwait (.inr ha)) nofun nofun (by simp [State.legalTriple, hp])
      (by simp [State.rolesFit, hp, State.controlInv_sender hu (by simp [ha]) hp])
  | nack ha =>
    refine State.controlInv_enter (hwait (.inr ha)) nofun nofun ?_ ?_
    · revert ht
      cases hp : u.phase <;> simp [State.legalTriple, ha, hp]
    · simpa [State.rolesFit, ha] using hr

/-- A request is sent from an activity of the session and its answer waited for. -/
theorem State.controlInv_request {s x : State} (hs : s.controlInv = true) (hx : x.inSession)
    (ha : s.act = .txreq ∨ s.act = .wsrc ∨ s.act = .whost) (hsame : x.phase = s.phase ∧ x.xsub = s.xsub ∧ x.conf = s.conf) :
    (x.enter .wrsp).controlInv = true := by
  obtain ⟨hphase, hsub, hconf⟩ := hsame
  obtain ⟨ht, hr, -⟩ := s.controlInv_iff.1 hs
  refine State.controlInv_enter hx nofun nofun ?_ ?_
  · revert ht
    cases hp : s.phase <;> rcases ha with ha | ha | ha <;> simp [State.legalTriple, ha, hp, hphase]
  · revert hr
    cases hp : s.phase <;> rcases ha with ha | ha | ha <;> simp [State.rolesFit, ha, hp, hphase, hconf]

theorem State.controlInv_resetStep (u : PowerUp) (s : State) : (resetStep u s).controlInv = true := rfl

/-- Without a session a configuration write changes no register the invariant reads. -/
theorem State.controlInv_writeConf {s : State} (hs : s.controlInv = true) (ha : s.phase.active = false) (v : Word)
    (loc : HifLoc) : (s.writeConf v loc).controlInv = true := by
  have hroles (c : ConfRegs) : ({ s with conf := c } : State).controlInv = true := by
    obtain ⟨ht, hr, hrest⟩ := s.controlInv_iff.1 hs
    refine (State.controlInv_iff _).2 ⟨ht, ?_, hrest⟩
    revert ha
    cases hp : s.phase <;> simp [State.rolesFit, Phase.active]
  cases loc with
  | ctrl | txVersion | txTimestamp | hsTimeout | frTimeout | descCount => exact hroles _
  | _ => exact hs

theorem Moved.controlInv {e : Event} {s t : State} (h : Moved e s t) (hs : s.controlInv = true) : t.controlInv = true := by
  obtain ⟨ht, hr, hlink, hpending, habort, hcause⟩ := s.controlInv_iff.1 hs
  cases h with
  | stay | peer | irqClear | irqEnable | hostRead => exact hs
  | parsed b q u _ _ hp =>
    rw [hp.frame]
    exact hs
  | completed b q u t o _ _ hp _ hd =>
    refine hd.ruled.controlInv ?_
    rw [hp.frame]
    exact hs
  | tick =>
    obtain ⟨h, f, -, he | ⟨-, code, e, o, hcode, he⟩⟩ := tickStep_cases s <;> rw [he]
    · exact hs
    · exact State.controlInv_fail _ hcode _ _
  | start ha =>
    split
    · rename_i hi
      exact State.controlInv_enter ⟨rfl, rfl, rfl⟩ nofun nofun rfl hi
    · rename_i hi
      exact State.controlInv_enter ⟨rfl, rfl, rfl⟩ nofun nofun rfl (by simpa [State.rolesFit] using hi)
  | abortNow => exact State.controlInv_fail s (by decide) _ _
  | abortLatched ha hx =>
    refine (State.controlInv_iff _).2 ⟨ht, hr, hlink, hpending, fun _ => ?_, hcause⟩
    revert ht ha hx
    cases hp : s.phase <;> cases hact : s.act <;> simp [State.legalTriple, hp, hact, Phase.active, Act.waits]
  | retry ha =>
    exact State.controlInv_request hs (State.controlInv_session hs (by simp [ha]) (by simp [ha])).1 (.inr (.inr ha))
      ⟨rfl, rfl, rfl⟩
  | configure v a ha => exact State.controlInv_writeConf hs ha v _
  | srcResp d _ ha =>
    have hactive := State.legalTriple_active ht (by simp [ha])
    have hnone : s.err.failCause = .none := by
      by_contra hne
      rw [hcause.1 hne] at hactive
      cases hactive
    exact State.controlInv_request hs ⟨hlink.trans hactive, rfl, hnone⟩ (.inr (.inl ha)) ⟨rfl, rfl, rfl⟩
  | reset u => exact State.controlInv_resetStep u s
  | adv ha hp =>
    have hsession := (State.controlInv_session hs (by simp [ha]) (by simp [ha])).1
    rcases advStep_cases s with ⟨-, he⟩ | ⟨hm, hd, he⟩ | ⟨hm, hd, he⟩ <;> rw [he]
    · split <;> rename_i hd
      · exact State.controlInv_enter hsession nofun nofun rfl (by simpa [State.rolesFit] using hd)
      · exact State.controlInv_enter hsession nofun nofun rfl (by simpa [State.rolesFit] using hd)
    · exact State.controlInv_enter hsession nofun nofun rfl (by simp [State.rolesFit, hm, hd])
    · exact State.controlInv_enter hsession nofun nofun rfl (by simp [State.rolesFit, hm, hd])
  | sendHandshake ha | sendFileList ha =>
    exact State.controlInv_request hs (State.controlInv_session hs (by simp [ha]) (by simp [ha])).1 (.inl ha)
      ⟨rfl, rfl, rfl⟩
  | sendInfo t ha _ _ hsend =>
    obtain ⟨-, name, f, size, index, -, -, -, -, rfl⟩ := sendInfo_next hsend
    have hsession := (State.controlInv_session hs (by simp [ha]) (by simp [ha])).1
    exact State.controlInv_request hs hsession (.inl ha) ⟨rfl, rfl, rfl⟩
  | sendChunk ha hp hx =>
    cases hab : s.abortReq with
    | true =>
      rw [sendChunkRequest_aborted hab]
      exact State.controlInv_fail s (by decide) _ _
    | false =>
      rw [sendChunkRequest_asked hab]
      have hsend := State.controlInv_sender hs (by simp [ha]) hp
      refine (State.controlInv_iff _).2 ⟨?_, ?_, hlink, rfl, ?_, hcause⟩
      · simp [State.legalTriple, hp, hx]
      · simp [State.rolesFit, hp, hsend]
      · simp [hab]

/-- Settles O43: every event keeps the control invariant; an entered activity fits its phase and end, and FAILED and DONE
release the latches. -/
theorem legalControlStateIsKept : Obligations.LegalControlStateIsKept := fun _ _ h hs =>
  step_keeps (P := fun s => s.controlInv = true) (fun _ _ => id) (fun _ _ _ _ hm => hm.controlInv) h hs

end Sys2Proof.Machine

namespace Sys2Proof.Machine

/-! ### The counters (spec/10_state.md R57, R59; 44_transfer.md R425, R440) -/

/-- `bytes_done` and `file_ptr` are in their ranges. -/
def State.bounded (s : State) : Prop :=
  s.sess.bytesDone.toNat ≤ s.sess.curSize.toNat ∧ s.sess.filePtr.toNat ≤ s.sess.pendCount.toNat

/-- A request is outstanding. -/
def State.awaitsAnswer (s : State) : Prop := s.act = .wrsp ∨ s.act = .whost

theorem State.countersInv_iff (s : State) :
    s.countersInv = true ↔
      s.bounded ∧
      (s.phase = .transferringFile → s.sess.filePtr.toNat < s.sess.pendCount.toNat ∧
        (s.xsub = .info → s.awaitsAnswer → s.sess.bytesDone = 0#32 ∧ s.sess.chunkIdx = 0#16) ∧
        (s.xsub = .chunks → s.sess.bytesDone.toNat < s.sess.curSize.toNat ∧
          (s.awaitsAnswer → 1 ≤ s.sess.txN.toNat ∧ s.sess.txN.toNat ≤ s.sess.curSize.toNat - s.sess.bytesDone.toNat))) ∧
      (s.phase ≠ .transferringFile → s.phase ≠ .done → s.phase ≠ .failed → s.sess.filePtr = 0#8) := by
  unfold State.countersInv State.bounded State.awaitsAnswer
  cases hp : s.phase <;> cases hx : s.xsub <;>
    simp [or_iff_not_imp_left]

theorem State.countersInv_fail {s : State} (h : s.bounded) (code : ErrCode) (e o : Word) :
    (s.fail code e o).countersInv = true :=
  (State.countersInv_iff _).2 ⟨h, nofun, fun _ _ hf => absurd rfl hf⟩

theorem State.countersInv_finish {s : State} (h : s.bounded) : s.finish.countersInv = true :=
  (State.countersInv_iff _).2 ⟨h, nofun, fun _ hd => absurd rfl hd⟩

theorem State.countersInv_enter {s : State} {a : Act} (h : ({ s with act := a } : State).countersInv = true) :
    (s.enter a).countersInv = true := by
  rcases s.enter_cases a with ⟨-, -, he⟩ | ⟨-, -, he⟩ | ⟨-, -, he⟩ <;> rw [he]
  · exact State.countersInv_fail ((State.countersInv_iff _).1 h).1 _ _ _
  · exact h
  · exact h

/-- An activity of the transfer in which no request is outstanding. -/
theorem State.countersInv_enterTransfer {s : State} {a : Act} (h1 : a ≠ .wrsp) (h2 : a ≠ .whost)
    (hp : s.phase = .transferringFile) (hdone : s.sess.bytesDone.toNat ≤ s.sess.curSize.toNat)
    (hptr : s.sess.filePtr.toNat < s.sess.pendCount.toNat)
    (hchunks : s.xsub = .chunks → s.sess.bytesDone.toNat < s.sess.curSize.toNat) : (s.enter a).countersInv = true := by
  have hnone : ¬ ({ s with act := a } : State).awaitsAnswer := fun h => h.elim h1 h2
  refine State.countersInv_enter ((State.countersInv_iff _).2 ⟨⟨hdone, hptr.le⟩, fun _ => ⟨hptr, ?_, ?_⟩, ?_⟩)
  · exact fun _ ha => absurd ha hnone
  · exact fun hx => ⟨hchunks hx, fun ha => absurd ha hnone⟩
  · exact fun hne => absurd hp hne

/-- An activity before the transfer, where no file is counted. -/
theorem State.countersInv_enterBefore {s : State} (a : Act) (hp : s.phase ≠ .transferringFile)
    (hdone : s.sess.bytesDone.toNat ≤ s.sess.curSize.toNat) (hptr : s.sess.filePtr = 0#8) :
    (s.enter a).countersInv = true := by
  have hle : s.sess.filePtr.toNat ≤ s.sess.pendCount.toNat := by
    rw [hptr]
    exact Nat.zero_le _
  exact State.countersInv_enter ((State.countersInv_iff _).2
    ⟨⟨hdone, hle⟩, fun h => absurd h hp, fun _ _ _ => hptr⟩)

/-- The file counter of a running transfer does not wrap. -/
theorem filePtr_succ {ptr count : Byte} (h : ptr.toNat < count.toNat) : (ptr + 1#8).toNat = ptr.toNat + 1 := by
  have := count.isLt
  rw [BitVec.toNat_add_of_lt (by simp; omega)]
  rfl

theorem State.countersInv_fileComplete {s : State} (hdone : s.sess.bytesDone.toNat ≤ s.sess.curSize.toNat)
    (hptr : s.sess.filePtr.toNat < s.sess.pendCount.toNat) (hp : s.phase = .transferringFile) :
    s.fileComplete.countersInv = true := by
  have hsucc := filePtr_succ hptr
  have hle : (s.sess.filePtr + 1#8).toNat ≤ s.sess.pendCount.toNat := by omega
  rcases s.fileComplete_cases with ⟨-, he⟩ | ⟨hne, he⟩ <;> rw [he]
  · exact State.countersInv_finish ⟨hdone, hle⟩
  · have hlt : (s.sess.filePtr + 1#8).toNat < s.sess.pendCount.toNat :=
      Nat.lt_of_le_of_ne hle fun h => hne (BitVec.eq_of_toNat_eq h)
    exact State.countersInv_enterTransfer (by split <;> decide) (by split <;> decide) hp hdone hlt nofun

/-- The bytes of a chunk that fits are counted without wrapping. -/
theorem bytesDone_add_toNat {done size : Word} {n : Half} (hdone : done.toNat ≤ size.toNat)
    (hn : n.toNat ≤ size.toNat - done.toNat) : (done + n.setWidth 32).toNat = done.toNat + n.toNat := by
  have := size.isLt
  rw [bytesDone_add, BitVec.toNat_ofNat, Nat.mod_eq_of_lt (by omega)]

/-- A chunk that fits and does not end the file leaves some of it. -/
theorem bytesDone_add_lt {done size : Word} {n : Half} (hdone : done.toNat ≤ size.toNat)
    (hn : n.toNat ≤ size.toNat - done.toNat) (hend : done + n.setWidth 32 ≠ size) :
    (done + n.setWidth 32).toNat < size.toNat := by
  have hadd := bytesDone_add_toNat hdone hn
  exact Nat.lt_of_le_of_ne (by omega) fun h => hend (BitVec.eq_of_toNat_eq h)

/-- The overrun check lets a chunk pass that fits in what is left. -/
theorem chunk_fits {done size : Word} {n : Half} (hdone : done.toNat ≤ size.toNat)
    (h : ¬ size - done < n.setWidth 32) : n.toNat ≤ size.toNat - done.toNat := by
  have := mt (overrun_iff hdone n).2 h
  omega

/-- The size of the next chunk in numbers (44_transfer.md R455). -/
theorem State.chunkLen_eq {s : State} (h : s.sess.bytesDone.toNat ≤ s.sess.curSize.toNat) :
    s.chunkLen = min s.cfg.chunkSize (s.sess.curSize.toNat - s.sess.bytesDone.toNat) := by
  rw [State.chunkLen, BitVec.toNat_sub_of_le h]

/-- A chunk's size fits the 16-bit field that carries it. -/
theorem State.chunkLen_field {s : State} (hl : s.cfg.legal = true) : (BitVec.ofNat 16 s.chunkLen).toNat = s.chunkLen := by
  have hle := s.chunkLen_le
  obtain ⟨-, hmax⟩ := Config.legal_chunk hl
  rw [BitVec.toNat_ofNat, Nat.mod_eq_of_lt (by omega)]

theorem toNat_pos {n : Nat} {x : BitVec n} (h : x ≠ 0#n) : 0 < x.toNat :=
  Nat.pos_of_ne_zero fun hz => h (BitVec.eq_of_toNat_eq (by simpa using hz))

theorem Ruled.countersInv {u t : State} (h : Ruled u t) (hcontrol : u.controlInv = true) (hu : u.countersInv = true) :
    t.countersInv = true := by
  obtain ⟨⟨hdone, hptr⟩, htransfer, hstart⟩ := u.countersInv_iff.1 hu
  cases h with
  | restarted code e o ha =>
    by_cases hp : u.phase = .transferringFile
    · obtain ⟨hlt, -, hchunks⟩ := htransfer hp
      exact State.countersInv_enterTransfer nofun nofun hp hdone hlt fun hx => (hchunks hx).1
    · exact State.countersInv_enter ((State.countersInv_iff _).2 ⟨⟨hdone, hptr⟩, fun h => absurd h hp, hstart⟩)
  | recorded code e o ha => exact hu
  | refused code e o ha hcode => exact State.countersInv_fail (s := u.respondNack) ⟨hdone, hptr⟩ _ _ _
  | unexpectedAnswer code e o ha hcode => exact State.countersInv_fail ⟨hdone, hptr⟩ _ _ _
  | handshake version timestamp ha hp | ackHandshake ha hp =>
    exact State.countersInv_enterBefore _ nofun hdone (hstart (by simp [hp]) (by simp [hp]) (by simp [hp]))
  | emptyList p slots ha hp hs hc =>
    have hzero := hstart (by simp [hp]) (by simp [hp]) (by simp [hp])
    exact State.countersInv_finish ⟨hdone, by simp [hzero]⟩
  | list p slots ha hp hs hc =>
    exact State.countersInv_enterTransfer nofun nofun rfl hdone (toNat_pos hc) nofun
  | emptyFile index name ha hp => exact State.countersInv_fileComplete (Nat.le_refl _) (htransfer hp).1 hp
  | file index size name ha hp hx hname hsize =>
    exact State.countersInv_enterTransfer nofun nofun hp (Nat.zero_le _) (htransfer hp).1 fun _ => toNat_pos hsize
  | lastChunk n d ha hp => exact State.countersInv_fileComplete (Nat.le_refl _) (htransfer hp).1 hp
  | chunk n d ha hp hx hd hfits hend =>
    have hlt := bytesDone_add_lt hdone (chunk_fits hdone hfits) hend
    exact State.countersInv_enterTransfer nofun nofun hp hlt.le (htransfer hp).1 fun _ => hlt
  | fileEnd ha hp =>
    obtain ⟨hlt, -, hchunks⟩ := htransfer hp
    exact State.countersInv_enterTransfer nofun nofun hp hdone hlt fun hx => (hchunks hx).1
  | ackEmptyList ha hp hc => exact State.countersInv_finish ⟨hdone, hptr⟩
  | ackList ha hp hc => exact State.countersInv_enterTransfer nofun nofun rfl hdone (toNat_pos hc) nofun
  | ackEmptyFile ha hp => exact State.countersInv_fileComplete hdone (htransfer hp).1 hp
  | ackFile ha hp hx hsize =>
    obtain ⟨hlt, hinfo, -⟩ := htransfer hp
    have hzero := (hinfo hx (.inl ha)).1
    refine State.countersInv_enterTransfer nofun nofun hp hdone hlt fun _ => ?_
    rw [hzero]
    exact toNat_pos hsize
  | ackLastChunk ha hp hx =>
    obtain ⟨hp, -⟩ := State.controlInv_chunkAnswered hcontrol ha hp hx
    exact State.countersInv_fileComplete (Nat.le_refl _) (htransfer hp).1 hp
  | ackChunk ha hp hx hend =>
    obtain ⟨hp, hx⟩ := State.controlInv_chunkAnswered hcontrol ha hp hx
    obtain ⟨hlt, -, hchunks⟩ := htransfer hp
    have hleft := bytesDone_add_lt hdone ((hchunks hx).2 (.inl ha)).2 hend
    exact State.countersInv_enterTransfer nofun nofun hp hleft.le hlt fun _ => hleft
  | nack ha =>
    refine State.countersInv_enter ((State.countersInv_iff _).2 ⟨⟨hdone, hptr⟩, fun hp => ?_, hstart⟩)
    obtain ⟨hlt, hinfo, hchunks⟩ := htransfer hp
    exact ⟨hlt, fun hx _ => hinfo hx (.inl ha), fun hx => ⟨(hchunks hx).1, fun _ => (hchunks hx).2 (.inl ha)⟩⟩

theorem Moved.countersInv {e : Event} {s t : State} (h : Moved e s t) (hl : s.cfg.legal = true)
    (hcontrol : s.controlInv = true) (hs : s.countersInv = true) : t.countersInv = true := by
  obtain ⟨⟨hdone, hptr⟩, htransfer, hstart⟩ := s.countersInv_iff.1 hs
  cases h with
  | stay | peer | irqClear | irqEnable | hostRead | abortLatched => exact hs
  | parsed b q u _ _ hp =>
    rw [hp.frame]
    exact hs
  | completed b q u t o _ _ hp _ hd =>
    refine hd.ruled.countersInv ?_ ?_ <;> rw [hp.frame]
    · exact hcontrol
    · exact hs
  | tick =>
    obtain ⟨h, f, -, he | ⟨-, code, e, o, -, he⟩⟩ := tickStep_cases s <;> rw [he]
    · exact hs
    · exact State.countersInv_fail (s := { s with hsTimer := h, frTimer := f }) ⟨hdone, hptr⟩ code e o
  | start => split <;> exact State.countersInv_enterBefore _ nofun (Nat.le_refl _) rfl
  | abortNow => exact State.countersInv_fail ⟨hdone, hptr⟩ _ _ _
  | retry ha =>
    refine State.countersInv_enter ((State.countersInv_iff _).2 ⟨⟨hdone, hptr⟩, fun hp => ?_, hstart⟩)
    obtain ⟨hlt, hinfo, hchunks⟩ := htransfer hp
    exact ⟨hlt, fun hx _ => hinfo hx (.inr ha), fun hx => ⟨(hchunks hx).1, fun _ => (hchunks hx).2 (.inr ha)⟩⟩
  | configure v a =>
    generalize hifLoc s.cfg a.toNat = loc
    cases loc <;> exact hs
  | srcResp d _ ha =>
    obtain ⟨hp, hx⟩ := State.controlInv_source hcontrol ha
    obtain ⟨hlt, -, hchunks⟩ := htransfer hp
    have hleft := (hchunks hx).1
    have hpos := (Config.legal_chunk hl).1
    have hlen := State.chunkLen_eq hdone
    refine State.countersInv_enter ((State.countersInv_iff _).2
      ⟨⟨hdone, hptr⟩, fun _ => ⟨hlt, fun hi => ?_, fun _ => ⟨hleft, fun _ => ?_⟩⟩, fun hne => absurd hp hne⟩)
    · rw [show s.xsub = .info from hi] at hx
      cases hx
    · show 1 ≤ (BitVec.ofNat 16 s.chunkLen).toNat ∧ _ ≤ _
      rw [State.chunkLen_field hl]
      show 1 ≤ s.chunkLen ∧ s.chunkLen ≤ s.sess.curSize.toNat - s.sess.bytesDone.toNat
      omega
  | reset => rfl
  | adv ha hp =>
    have hzero := hstart (by simp [hp]) (by simp [hp]) (by simp [hp])
    rcases advStep_cases s with ⟨-, he⟩ | ⟨-, -, he⟩ | ⟨-, -, he⟩ <;> rw [he]
    · exact State.countersInv_enterTransfer (by split <;> decide) (by split <;> decide) rfl hdone Nat.one_pos nofun
    · exact State.countersInv_enterBefore _ nofun hdone hzero
    · exact State.countersInv_enterBefore _ nofun hdone hzero
  | sendHandshake ha hp | sendFileList ha hp =>
    refine State.countersInv_enterBefore _ ?_ hdone (hstart (by simp [hp]) (by simp [hp]) (by simp [hp]))
    exact fun h => nomatch hp.symm.trans h
  | sendInfo t ha hp hx hsend =>
    obtain ⟨-, name, f, size, index, -, -, -, -, rfl⟩ := sendInfo_next hsend
    refine State.countersInv_enter ((State.countersInv_iff _).2
      ⟨⟨Nat.zero_le _, hptr⟩, fun _ => ⟨(htransfer hp).1, fun _ _ => ⟨rfl, rfl⟩, fun hc => ?_⟩, fun hne => absurd hp hne⟩)
    exact nomatch hx.symm.trans hc
  | sendChunk ha hp hx =>
    obtain ⟨hlt, -, hchunks⟩ := htransfer hp
    cases hab : s.abortReq with
    | true =>
      rw [sendChunkRequest_aborted hab]
      exact State.countersInv_fail ⟨hdone, hptr⟩ _ _ _
    | false =>
      rw [sendChunkRequest_asked hab]
      refine (State.countersInv_iff _).2 ⟨⟨hdone, hptr⟩, fun _ => ⟨hlt, fun _ hw => ?_, fun _ => ?_⟩, fun hne => absurd hp hne⟩
      · exact hw.elim nofun nofun
      · exact ⟨(hchunks hx).1, fun hw => hw.elim nofun nofun⟩

/-- Settles O46: each rule counts within what its guards and the invariant leave, so no counter wraps. -/
theorem countersStayInRange : Obligations.CountersStayInRange := by
  intro s t h hcontrol hcounters
  obtain ⟨hl, e, es, hm, -⟩ := step_moved h
  exact hm.countersInv hl hcontrol hcounters

end Sys2Proof.Machine

namespace Sys2Proof.Machine

/-! ### The splitter (spec/44_transfer.md R455) -/

theorem State.splitterInv_iff (s : State) :
    s.splitterInv = true ↔
      (s.phase = .transferringFile → s.conf.send = true → s.xsub = .chunks →
        s.sess.bytesDone.toNat % s.cfg.chunkSize = 0 ∧
        s.sess.chunkIdx = BitVec.ofNat 16 (s.sess.bytesDone.toNat / s.cfg.chunkSize) ∧
        (s.awaitsAnswer → s.sess.txN.toNat = s.chunkLen)) := by
  unfold State.splitterInv State.awaitsAnswer
  cases s.phase <;> cases s.conf.send <;> cases s.xsub <;> simp [or_iff_not_imp_left, and_assoc]

/-- The law says nothing outside the chunks a sender sends. -/
theorem State.splitterInv_outside {s : State}
    (h : s.phase = .transferringFile → s.conf.send = true → s.xsub = .chunks → False) : s.splitterInv = true :=
  s.splitterInv_iff.2 fun hp hsend hx => (h hp hsend hx).elim

theorem State.splitterInv_enter {s : State} {a : Act} (h : ({ s with act := a } : State).splitterInv = true) :
    (s.enter a).splitterInv = true := by
  rcases s.enter_cases a with ⟨-, -, he⟩ | ⟨-, -, he⟩ | ⟨-, -, he⟩ <;> rw [he]
  · exact State.splitterInv_outside nofun
  · exact h
  · exact h

theorem State.splitterInv_enterOutside {s : State} (a : Act)
    (h : s.phase = .transferringFile → s.conf.send = true → s.xsub = .chunks → False) :
    (s.enter a).splitterInv = true :=
  State.splitterInv_enter (State.splitterInv_outside h)

/-- A complete file is followed by the next info exchange or by DONE. -/
theorem State.splitterInv_fileComplete (s : State) : s.fileComplete.splitterInv = true := by
  rcases s.fileComplete_cases with ⟨-, he⟩ | ⟨-, he⟩ <;> rw [he]
  · exact State.splitterInv_outside nofun
  · exact State.splitterInv_enterOutside _ nofun

/-- A chunk that does not end the file is a whole one, so the next position is again a whole number of chunks. -/
theorem splitter_next {size done n c : Nat} (hc : 0 < c) (hdone : done % c = 0) (hn : n = min c (size - done))
    (hleft : done + n ≠ size) (hle : done ≤ size) : (done + n) % c = 0 ∧ (done + n) / c = done / c + 1 := by
  obtain rfl : n = c := by omega
  exact ⟨by rw [Nat.add_mod_right, hdone], Nat.add_div_right done hc⟩

theorem Ruled.splitterInv {u t : State} (h : Ruled u t) (hl : u.cfg.legal = true) (hcontrol : u.controlInv = true)
    (hcounters : u.countersInv = true) (hu : u.splitterInv = true) : t.splitterInv = true := by
  have hreceiver (ha : u.act = .wreq) (hp : u.phase = .transferringFile) (hsend : u.conf.send = true) : False :=
    absurd (State.controlInv_receiver hcontrol ha hp) (by simp [hsend])
  obtain ⟨⟨hdone, -⟩, htransfer, -⟩ := u.countersInv_iff.1 hcounters
  cases h with
  | restarted code e o ha => exact State.splitterInv_enterOutside _ fun hp hsend _ => hreceiver ha hp hsend
  | recorded code e o ha => exact hu
  | refused | unexpectedAnswer | emptyList | ackEmptyList => exact State.splitterInv_outside nofun
  | handshake | list | ackHandshake | ackList => exact State.splitterInv_enterOutside _ nofun
  | emptyFile | lastChunk | ackEmptyFile | ackLastChunk => exact State.splitterInv_fileComplete _
  | file index size name ha hp | chunk n d ha hp | fileEnd ha hp =>
    exact State.splitterInv_enterOutside _ fun _ hsend _ => hreceiver ha hp hsend
  | ackFile ha hp hx hsize =>
    obtain ⟨hzero, hidx⟩ := (htransfer hp).2.1 hx (.inl ha)
    refine State.splitterInv_enter ((State.splitterInv_iff _).2 fun _ _ _ => ⟨?_, ?_, fun hw => hw.elim nofun nofun⟩)
    · rw [hzero]
      exact Nat.zero_mod _
    · rw [hzero, hidx]
      simp
  | ackChunk ha hp hx hend =>
    obtain ⟨hp, hx⟩ := State.controlInv_chunkAnswered hcontrol ha hp hx
    have hsend := State.controlInv_sender hcontrol (by simp [ha]) hp
    obtain ⟨hmod, hidx, hsize⟩ := u.splitterInv_iff.1 hu hp hsend hx
    obtain ⟨-, hn⟩ := ((htransfer hp).2.2 hx).2 (.inl ha)
    have hadd := bytesDone_add_toNat hdone hn
    have hleft : u.sess.bytesDone.toNat + u.sess.txN.toNat ≠ u.sess.curSize.toNat := fun h =>
      hend (BitVec.eq_of_toNat_eq (hadd.trans h))
    obtain ⟨hmod', hdiv'⟩ := splitter_next (Config.legal_chunk hl).1 hmod
      ((hsize (.inl ha)).trans (State.chunkLen_eq hdone)) hleft hdone
    refine State.splitterInv_enter ((State.splitterInv_iff _).2 fun _ _ _ => ⟨?_, ?_, fun hw => hw.elim nofun nofun⟩)
    · rw [hadd]
      exact hmod'
    · rw [hadd, hdiv', hidx, BitVec.ofNat_add]
  | nack ha =>
    refine State.splitterInv_enter ((State.splitterInv_iff _).2 fun hp hsend hx => ?_)
    obtain ⟨hmod, hidx, hsize⟩ := u.splitterInv_iff.1 hu hp hsend hx
    exact ⟨hmod, hidx, fun _ => hsize (.inl ha)⟩

theorem Moved.splitterInv {e : Event} {s t : State} (h : Moved e s t) (hl : s.cfg.legal = true)
    (hcontrol : s.controlInv = true) (hcounters : s.countersInv = true) (hs : s.splitterInv = true) :
    t.splitterInv = true := by
  cases h with
  | stay | peer | irqClear | irqEnable | hostRead | abortLatched => exact hs
  | parsed b q u _ _ hp =>
    rw [hp.frame]
    exact hs
  | completed b q u t o _ _ hp _ hd =>
    refine hd.ruled.splitterInv ?_ ?_ ?_ ?_ <;> rw [hp.frame] <;> assumption
  | tick =>
    obtain ⟨h, f, -, he | ⟨-, code, e, o, -, he⟩⟩ := tickStep_cases s <;> rw [he]
    · exact hs
    · exact State.splitterInv_outside nofun
  | start => split <;> exact State.splitterInv_enterOutside _ nofun
  | abortNow => exact State.splitterInv_outside nofun
  | retry ha =>
    refine State.splitterInv_enter ((State.splitterInv_iff _).2 fun hp hsend hx => ?_)
    obtain ⟨hmod, hidx, hsize⟩ := s.splitterInv_iff.1 hs hp hsend hx
    exact ⟨hmod, hidx, fun _ => hsize (.inr ha)⟩
  | configure v a ha =>
    obtain ⟨-, hphase, -⟩ := s.writeConf_control v (hifLoc s.cfg a.toNat)
    refine State.splitterInv_outside fun hp => ?_
    rw [← hphase, hp] at ha
    cases ha
  | srcResp d _ ha =>
    refine State.splitterInv_enter ((State.splitterInv_iff _).2 fun hp hsend hx => ?_)
    obtain ⟨hmod, hidx, -⟩ := s.splitterInv_iff.1 hs hp hsend hx
    exact ⟨hmod, hidx, fun _ => State.chunkLen_field hl⟩
  | reset => rfl
  | adv =>
    rcases advStep_cases s with ⟨-, he⟩ | ⟨-, -, he⟩ | ⟨-, -, he⟩ <;> rw [he] <;>
      exact State.splitterInv_enterOutside _ nofun
  | sendHandshake ha hp | sendFileList ha hp =>
    exact State.splitterInv_enterOutside _ fun hp' _ _ => nomatch hp.symm.trans hp'
  | sendInfo t ha hp hx hsend =>
    obtain ⟨-, name, f, size, index, -, -, -, -, rfl⟩ := sendInfo_next hsend
    exact State.splitterInv_enterOutside _ fun _ _ hx' => nomatch hx.symm.trans hx'
  | sendChunk ha hp hx =>
    cases hab : s.abortReq with
    | true =>
      rw [sendChunkRequest_aborted hab]
      exact State.splitterInv_outside nofun
    | false =>
      rw [sendChunkRequest_asked hab]
      refine (State.splitterInv_iff _).2 fun hp hsend hx => ?_
      obtain ⟨hmod, hidx, -⟩ := s.splitterInv_iff.1 hs hp hsend hx
      exact ⟨hmod, hidx, fun hw => hw.elim nofun nofun⟩

/-- Settles O48: only the ACK of a chunk moves a sender's position, and it moves it by a whole chunk or ends the file. -/
theorem splitterLawIsKept : Obligations.SplitterLawIsKept := by
  intro s t h hcontrol hcounters hsplitter
  obtain ⟨hl, e, es, hm, -⟩ := step_moved h
  exact hm.splitterInv hl hcontrol hcounters hsplitter

/-- Settles O49: the last chunk in flight has what is left of the file, and its ACK counts it. -/
theorem lastChunkCompletesFile : Obligations.LastChunkCompletesFile := by
  intro s hl hcontrol hcounters hsplitter hp hx ha hlast
  have hsend := State.controlInv_sender hcontrol (by simp [ha]) hp
  obtain ⟨⟨hdone, -⟩, htransfer, -⟩ := s.countersInv_iff.1 hcounters
  obtain ⟨hpos, hn⟩ := ((htransfer hp).2.2 hx).2 (.inl ha)
  obtain ⟨hmod, hidx, hsize⟩ := s.splitterInv_iff.1 hsplitter hp hsend hx
  have hlen := (hsize (.inl ha)).trans (State.chunkLen_eq hdone)
  have hend : s.sess.bytesDone + s.sess.txN.setWidth 32 = s.sess.curSize :=
    BitVec.eq_of_toNat_eq ((bytesDone_add_toNat hdone hn).trans hlast)
  refine ⟨_, exec_ack_expected ha [], ?_⟩
  rw [ackRule_accepted rfl, ackAccepted_chunk hp hx, if_pos hend, hend]
  have hc := (Config.legal_chunk hl).1
  generalize s.cfg.chunkSize = c at *
  generalize hd : s.sess.bytesDone.toNat = done at *
  obtain ⟨q, rfl⟩ := Nat.dvd_of_mod_eq_zero hmod
  rw [Nat.mul_div_cancel_left q hc] at hidx
  refine ⟨by simp, by simp, ?_, ?_⟩
  · have hceil : (s.sess.curSize.toNat + c - 1) / c = q + 1 := by
      rw [← hlast, show c * q + s.sess.txN.toNat + c - 1 = (s.sess.txN.toNat - 1) + c * (q + 1) by rw [Nat.mul_succ]; omega,
        Nat.add_mul_div_left _ _ hc, Nat.div_eq_of_lt (by omega), Nat.zero_add]
    simp [hceil, hidx, BitVec.ofNat_add]
  · rw [← hlast, Nat.mul_add_mod]
    rcases Nat.lt_or_ge s.sess.txN.toNat c with hlt | hge
    · rw [Nat.mod_eq_of_lt hlt, if_neg (by omega)]
    · obtain hfull : s.sess.txN.toNat = c := by omega
      rw [hfull, Nat.mod_self, if_pos rfl]

end Sys2Proof.Machine

namespace Sys2Proof.Machine

/-! ### The outstanding request (spec/10_state.md R62, 45_flow_control.md R470) -/

theorem State.requestInv_iff (s : State) :
    s.requestInv = true ↔
      (s.awaitsAnswer → some s.txbuf = s.requestFrame ∧
        (s.phase = .transferringFile → s.xsub = .chunks → s.txbuf.length = 10 + s.sess.txN.toNat)) := by
  unfold State.requestInv State.awaitsAnswer
  simp [or_iff_not_imp_left]

theorem State.requestSent_iff (s : State) :
    s.requestSent = true ↔ (s.awaitsAnswer → s.port.frames.getLast? = some s.txbuf) := by
  unfold State.requestSent State.awaitsAnswer
  simp [or_iff_not_imp_left]

/-- The request of `s` is outstanding in `t` too, with everything it was built from and no frame sent after it; the
configuration is locked only in a session (10_state.md R74). -/
structure KeepsRequest (s t : State) : Prop where
  awaits : s.awaitsAnswer
  cfg : t.cfg = s.cfg
  conf : s.phase.active = true → t.conf = s.conf ∧ t.desc = s.desc
  phase : t.phase = s.phase
  xsub : t.xsub = s.xsub
  sess : t.sess = s.sess
  txbuf : t.txbuf = s.txbuf
  frames : t.port.frames = s.port.frames

/-- What the invariant reads is what `KeepsRequest` keeps. -/
theorem KeepsRequest.requestInv {s t : State} (h : KeepsRequest s t) (hcontrol : s.controlInv = true)
    (hs : s.requestInv = true) : t.requestInv = true := by
  have hactive : s.phase.active = true := by
    refine (State.controlInv_session hcontrol ?_ ?_).2 <;> rcases h.awaits with ha | ha <;> simp [ha]
  obtain ⟨hconf, hdesc⟩ := h.conf hactive
  have hframe : t.requestFrame = s.requestFrame := by
    rw [State.requestFrame, State.requestFrame, h.cfg, hconf, hdesc, h.phase, h.xsub, h.sess, h.txbuf]
  refine t.requestInv_iff.2 fun _ => ?_
  rw [hframe, h.phase, h.xsub, h.sess, h.txbuf]
  exact s.requestInv_iff.1 hs h.awaits

theorem KeepsRequest.requestSent {s t : State} (h : KeepsRequest s t) (hs : s.requestSent = true) : t.requestSent = true := by
  refine t.requestSent_iff.2 fun _ => ?_
  rw [h.frames, h.txbuf]
  exact s.requestSent_iff.1 hs h.awaits

/-- After `enter` of any other activity no request is outstanding. -/
theorem State.enter_not_awaits (s : State) {a : Act} (h1 : a ≠ .wrsp) (h2 : a ≠ .whost) : ¬ (s.enter a).awaitsAnswer := by
  rcases s.enter_cases a with ⟨-, -, he⟩ | ⟨-, -, he⟩ | ⟨-, -, he⟩ <;> rw [he]
  · exact fun h => h.elim nofun nofun
  · exact fun h => h.elim h1 h2
  · exact fun h => h.elim h1 h2

theorem State.fail_not_awaits (s : State) (code : ErrCode) (e o : Word) : ¬ (s.fail code e o).awaitsAnswer :=
  fun h => h.elim nofun nofun

theorem State.finish_not_awaits (s : State) : ¬ s.finish.awaitsAnswer := fun h => h.elim nofun nofun

theorem State.fileComplete_not_awaits (s : State) : ¬ s.fileComplete.awaitsAnswer := by
  rcases s.fileComplete_cases with ⟨-, he⟩ | ⟨-, he⟩ <;> rw [he]
  · exact State.finish_not_awaits _
  · exact State.enter_not_awaits _ (by split <;> decide) (by split <;> decide)

/-- A completed frame leaves a request outstanding only as a recorded error or an accepted NACK. -/
theorem Ruled.keepsRequest {u t : State} (h : Ruled u t) (ht : t.awaitsAnswer) : KeepsRequest u t := by
  cases h with
  | recorded code e o ha => exact ⟨.inl ha, rfl, fun _ => ⟨rfl, rfl⟩, rfl, rfl, rfl, rfl, rfl⟩
  | nack ha =>
    rcases State.enter_cases .whost (u.irqSet .nack) with ⟨-, -, he⟩ | ⟨-, hw, -⟩ | ⟨-, -, he⟩
    · rw [he] at ht
      exact absurd ht (State.fail_not_awaits _ _ _ _)
    · cases hw
    · rw [he]
      exact ⟨.inl ha, rfl, fun _ => ⟨rfl, rfl⟩, rfl, rfl, rfl, rfl, rfl⟩
  | refused | unexpectedAnswer => exact absurd ht (State.fail_not_awaits _ _ _ _)
  | emptyList | ackEmptyList => exact absurd ht (State.finish_not_awaits _)
  | emptyFile | lastChunk | ackEmptyFile | ackLastChunk => exact absurd ht (State.fileComplete_not_awaits _)
  | restarted | handshake | list | file | chunk | fileEnd | ackHandshake | ackList | ackFile | ackChunk =>
    exact absurd ht (State.enter_not_awaits _ nofun nofun)

/-- A request just sent: `x` is the state with the registers it was built from. -/
def SendsRequest (x t : State) (f : List Byte) : Prop := t = State.enter .wrsp (x.emitRequest f)

theorem SendsRequest.requestInv {x t : State} {f : List Byte} (h : SendsRequest x t f)
    (hf : some f = ({ x with txbuf := f } : State).requestFrame)
    (hlen : x.phase = .transferringFile → x.xsub = .chunks → f.length = 10 + x.sess.txN.toNat) : t.requestInv = true := by
  subst h
  rw [show State.enter .wrsp (x.emitRequest f) = _ from State.enter_wait (fun hc => nomatch hc.2) rfl]
  exact (State.requestInv_iff _).2 fun _ => ⟨hf, hlen⟩

theorem SendsRequest.requestSent {x t : State} {f : List Byte} (h : SendsRequest x t f) : t.requestSent = true := by
  subst h
  refine (State.requestSent_iff _).2 fun _ => ?_
  simp [State.emitRequest, State.emit]

/-- Where a request is outstanding after an event, it was outstanding before, or the event sends it: the kept one again, or
a new one that is the frame of the registers it was built from. -/
theorem Moved.request {e : Event} {s t : State} (h : Moved e s t) (hl : s.cfg.legal = true) (ht : t.awaitsAnswer) :
    KeepsRequest s t ∨ ∃ x f, SendsRequest x t f ∧ (s.controlInv = true → s.requestInv = true →
      some f = ({ x with txbuf := f } : State).requestFrame ∧
        (x.phase = .transferringFile → x.xsub = .chunks → f.length = 10 + x.sess.txN.toNat)) := by
  cases h with
  | stay | peer | irqClear | irqEnable | abortLatched => exact .inl ⟨ht, rfl, fun _ => ⟨rfl, rfl⟩, rfl, rfl, rfl, rfl, rfl⟩
  | hostRead a v =>
    exact .inl ⟨ht, rfl, fun _ => ⟨rfl, rfl⟩, rfl, rfl, rfl, rfl, Ports.frames_hostRead _ _ _ a v⟩
  | parsed b q u _ _ hp =>
    rw [hp.frame] at ht ⊢
    exact .inl ⟨ht, rfl, fun _ => ⟨rfl, rfl⟩, rfl, rfl, rfl, rfl, rfl⟩
  | completed b q u t o _ _ hp _ hd =>
    have hu := hd.ruled.keepsRequest ht
    rw [hp.frame] at hu
    obtain ⟨hw, hcfg, hconf, hphase, hxsub, hsess, htxbuf, hframes⟩ := hu
    exact .inl ⟨hw, hcfg, hconf, hphase, hxsub, hsess, htxbuf, hframes⟩
  | tick =>
    obtain ⟨h, f, -, he | ⟨-, code, e, o, -, he⟩⟩ := tickStep_cases s <;> rw [he] at ht ⊢
    · exact .inl ⟨ht, rfl, fun _ => ⟨rfl, rfl⟩, rfl, rfl, rfl, rfl, rfl⟩
    · exact absurd ht (State.fail_not_awaits _ _ _ _)
  | start =>
    split at ht
    · exact absurd ht (State.enter_not_awaits _ nofun nofun)
    · exact absurd ht (State.enter_not_awaits _ nofun nofun)
  | abortNow => exact absurd ht (State.fail_not_awaits _ _ _ _)
  | retry ha =>
    exact .inr ⟨s, s.txbuf, rfl, fun _ hs => s.requestInv_iff.1 hs (.inr ha)⟩
  | configure v a ha =>
    have hkeeps (loc : HifLoc) (hw : (s.writeConf v loc).awaitsAnswer) : KeepsRequest s (s.writeConf v loc) := by
      cases loc <;> exact ⟨hw, rfl, fun hactive => absurd hactive (by simp [ha]), rfl, rfl, rfl, rfl, rfl⟩
    exact .inl (hkeeps _ ht)
  | srcResp d _ ha hd =>
    refine .inr ⟨{ s with srcPending := false, sess.txN := BitVec.ofNat 16 s.chunkLen }, _, rfl, fun hcontrol _ => ?_⟩
    obtain ⟨hp, hx⟩ := State.controlInv_source hcontrol ha
    refine ⟨?_, fun _ _ => ?_⟩
    · simp only [State.requestFrame, hp, hx]
      rfl
    · show (encodeFrame s.cfg s.cfg.cmdFileData _).length = 10 + (BitVec.ofNat 16 s.chunkLen).toNat
      rw [State.chunkLen_field hl, ← hd]
      simp only [encodeFrame_length, List.length_append, bytes16_length]
      omega
  | reset => exact ht.elim nofun nofun
  | adv =>
    rcases advStep_cases s with ⟨-, he⟩ | ⟨-, -, he⟩ | ⟨-, -, he⟩ <;> rw [he] at ht
    · exact absurd ht (State.enter_not_awaits _ (by split <;> decide) (by split <;> decide))
    · exact absurd ht (State.enter_not_awaits _ nofun nofun)
    · exact absurd ht (State.enter_not_awaits _ nofun nofun)
  | sendHandshake ha hp | sendFileList ha hp =>
    refine .inr ⟨{ s with sess.txN := 0#16 }, _, rfl, fun _ _ => ⟨?_, fun hp' => nomatch hp.symm.trans hp'⟩⟩
    simp only [State.requestFrame, hp]
    rfl
  | sendInfo t ha hp hx hsend =>
    obtain ⟨-, name, f, size, index, hname, -, -, hf, rfl⟩ := sendInfo_next hsend
    refine .inr ⟨{ s with
      sess.curSize := size, sess.curIndex := index, sess.bytesDone := 0#32, sess.chunkIdx := 0#16, sess.txN := 0#16
      curname := Memory.writeN s.curname 0 name }, f, rfl, fun _ _ => ⟨?_, fun _ hx' => nomatch hx.symm.trans hx'⟩⟩
    simp only [State.requestFrame, hp, hx]
    rw [hf, hname]
  | sendChunk ha hp hx =>
    cases hab : s.abortReq with
    | true =>
      rw [sendChunkRequest_aborted hab] at ht
      exact absurd ht (State.fail_not_awaits _ _ _ _)
    | false =>
      rw [sendChunkRequest_asked hab] at ht
      exact ht.elim nofun nofun

theorem Moved.requestInv {e : Event} {s t : State} (h : Moved e s t) (hl : s.cfg.legal = true)
    (hcontrol : s.controlInv = true) (hs : s.requestInv = true) : t.requestInv = true := by
  by_cases ht : t.awaitsAnswer
  · rcases h.request hl ht with hkeeps | ⟨x, f, hsends, hnew⟩
    · exact hkeeps.requestInv hcontrol hs
    · obtain ⟨hf, hlen⟩ := hnew hcontrol hs
      exact hsends.requestInv hf hlen
  · exact t.requestInv_iff.2 fun hw => absurd hw ht

theorem Moved.requestSent {e : Event} {s t : State} (h : Moved e s t) (hl : s.cfg.legal = true)
    (hs : s.requestSent = true) : t.requestSent = true := by
  by_cases ht : t.awaitsAnswer
  · rcases h.request hl ht with hkeeps | ⟨x, f, hsends, -⟩
    · exact hkeeps.requestSent hs
    · exact hsends.requestSent
  · exact t.requestSent_iff.2 fun hw => absurd hw ht

/-- Settles O47: `Moved.request` says where an outstanding request comes from, and each origin keeps both clauses. -/
theorem outstandingRequestIsKept : Obligations.OutstandingRequestIsKept := by
  refine ⟨fun s t h hcontrol hs => ?rebuilt, fun s t h hs => ?sent⟩ <;> obtain ⟨hl, e, es, hm, -⟩ := step_moved h
  case rebuilt => exact hm.requestInv hl hcontrol hs
  case sent => exact hm.requestSent hl hs

end Sys2Proof.Machine

namespace Sys2Proof.Machine

/-! ### The received files (spec/44_transfer.md R427, R458) -/

theorem assembleFrom_append (f : SinkFiles) (es fs : List SinkEvent) :
    assembleFrom f (es ++ fs) = (assembleFrom f es).bind fun g => assembleFrom g fs := by
  induction es generalizing f with
  | nil => rfl
  | cons e es ih =>
    rw [List.cons_append, assembleFrom, assembleFrom]
    cases f.take e with
    | none => rfl
    | some g => exact ih g

theorem assemble_append {es : List SinkEvent} {f : SinkFiles} (h : assemble es = some f) (fs : List SinkEvent) :
    assemble (es ++ fs) = assembleFrom f fs := by
  rw [assemble, assembleFrom_append, show assembleFrom ⟨[], none⟩ es = some f from h]
  rfl

/-- The sink events among some outputs. -/
def sinkEvents (l : List Output) : List SinkEvent := l.filterMap fun | .sink e => some e | _ => none

theorem Ports.sink_append {p q : Ports} {l : List Output} (h : q.out = p.out ++ l) : q.sink = p.sink ++ sinkEvents l := by
  rw [Ports.sink, h, List.filterMap_append]
  rfl

/-- A receiver is inside a file. -/
def State.receiving (s : State) : Prop := s.phase = .transferringFile ∧ s.conf.send = false ∧ s.xsub = .chunks

/-- The file being received, as far as it is received. -/
def State.receives (s : State) (c : SinkFile) : Prop :=
  c.pos = s.sess.filePtr ∧ c.index = s.sess.curIndex ∧ c.size = s.sess.curSize ∧
    c.name = Memory.readN s.curname 0 s.cfg.nameSlot ∧ c.content.length = s.sess.bytesDone.toNat

theorem State.assemblerInv_iff (s : State) :
    s.assemblerInv = true ↔
      ∃ f, assemble s.port.sink = some f ∧ (s.receiving → ∃ c, f.current = some c ∧ s.receives c) := by
  unfold State.assemblerInv State.receiving State.receives
  cases assemble s.port.sink with
  | none => simp
  | some f =>
    cases hc : f.current with
    | none => cases s.phase <;> cases s.conf.send <;> cases s.xsub <;> simp [hc]
    | some c =>
      cases s.phase <;> cases s.conf.send <;> cases s.xsub <;> simp [hc, and_assoc]

/-- Outside a file only the stream must keep its law. -/
theorem State.assemblerInv_outside {s : State} {f : SinkFiles} (hf : assemble s.port.sink = some f) (h : ¬ s.receiving) :
    s.assemblerInv = true := s.assemblerInv_iff.2 ⟨f, hf, fun hr => absurd hr h⟩

theorem State.assemblerInv_enter {s : State} (a : Act) (h : s.assemblerInv = true) : (s.enter a).assemblerInv = true := by
  obtain ⟨f, hf, -⟩ := s.assemblerInv_iff.1 h
  rcases s.enter_cases a with ⟨-, -, he⟩ | ⟨-, -, he⟩ | ⟨-, -, he⟩ <;> rw [he]
  · exact State.assemblerInv_outside hf fun hr => nomatch hr.1
  · exact h
  · exact h

theorem State.assemblerInv_fileComplete {s : State} {f : SinkFiles} (hf : assemble s.port.sink = some f) :
    s.fileComplete.assemblerInv = true := by
  rcases s.fileComplete_cases with ⟨-, he⟩ | ⟨-, he⟩ <;> rw [he]
  · exact State.assemblerInv_outside hf fun hr => nomatch hr.1
  · exact State.assemblerInv_enter _ (State.assemblerInv_outside hf fun hr => nomatch hr.2.2)

/-- The host goes on from the files it has with the sink events that are appended. -/
theorem assemble_port {p q : Ports} {l : List Output} {f : SinkFiles} {g : Option SinkFiles}
    (hf : assemble p.sink = some f) (h : q.out = p.out ++ l) (hg : assembleFrom f (sinkEvents l) = g) :
    assemble q.sink = g := by
  rw [Ports.sink_append h, assemble_append hf, hg]

theorem Ruled.assemblerInv {u t : State} (h : Ruled u t) (hcontrol : u.controlInv = true)
    (hcounters : u.countersInv = true) (hname : Memory.wf u.curname) (hu : u.assemblerInv = true) :
    t.assemblerInv = true := by
  obtain ⟨f, hf, hfile⟩ := u.assemblerInv_iff.1 hu
  obtain ⟨⟨hdone, -⟩, htransfer, -⟩ := u.countersInv_iff.1 hcounters
  cases h with
  | restarted code e o ha =>
    exact State.assemblerInv_enter _ ((State.assemblerInv_iff _).2 ⟨f, assemble_port hf rfl rfl, hfile⟩)
  | recorded code e o ha => exact hu
  | refused code e o ha => exact State.assemblerInv_outside (assemble_port hf rfl rfl) fun hr => nomatch hr.1
  | unexpectedAnswer code e o ha => exact State.assemblerInv_outside hf fun hr => nomatch hr.1
  | emptyList p slots => exact State.assemblerInv_outside (assemble_port hf rfl rfl) fun hr => nomatch hr.1
  | handshake version timestamp =>
    exact State.assemblerInv_enter _ (State.assemblerInv_outside (assemble_port hf rfl rfl) fun hr => nomatch hr.1)
  | list p slots =>
    exact State.assemblerInv_enter _ (State.assemblerInv_outside (assemble_port hf rfl rfl) fun hr => nomatch hr.2.2)
  | emptyFile index name ha hp hx hlen =>
    refine State.assemblerInv_fileComplete (f := ⟨f.committed ++ [⟨u.sess.filePtr, index, 0#32, name, []⟩], none⟩) ?_
    refine assemble_port hf rfl ?_
    simp [sinkEvents, assembleFrom, SinkFiles.take]
  | file index size name ha hp hx hlen hsize =>
    refine State.assemblerInv_enter _ ((State.assemblerInv_iff _).2
      ⟨{ f with current := some ⟨u.sess.filePtr, index, size, name, []⟩ }, assemble_port hf rfl rfl,
        fun _ => ⟨_, rfl, rfl, rfl, rfl, ?_, rfl⟩⟩)
    have hread := Memory.readN_writeN hname 0 name
    rw [hlen] at hread
    exact hread.symm
  | lastChunk n d ha hp hx hd hfits hend =>
    obtain ⟨c, hc, hpos, hindex, hcsize, hcname, hcontent⟩ :=
      hfile ⟨hp, State.controlInv_receiver hcontrol ha hp, hx⟩
    have hadd := bytesDone_add_toNat hdone (chunk_fits hdone hfits)
    have hlen : c.content.length + d.length = c.size.toNat := by rw [hcontent, hd, hcsize, ← hend, hadd]
    refine State.assemblerInv_fileComplete (f := ⟨f.committed ++ [{ c with content := c.content ++ d }], none⟩) ?_
    refine assemble_port hf rfl ?_
    simp [sinkEvents, assembleFrom, SinkFiles.take, hc, hpos, hlen]
  | chunk n d ha hp hx hd hfits hend =>
    obtain ⟨c, hc, hpos, hindex, hcsize, hcname, hcontent⟩ :=
      hfile ⟨hp, State.controlInv_receiver hcontrol ha hp, hx⟩
    have hadd := bytesDone_add_toNat hdone (chunk_fits hdone hfits)
    refine State.assemblerInv_enter _ ((State.assemblerInv_iff _).2
      ⟨{ f with current := some { c with content := c.content ++ d } }, ?_,
        fun _ => ⟨_, rfl, hpos, hindex, hcsize, hcname, ?_⟩⟩)
    · refine assemble_port hf rfl ?_
      simp [sinkEvents, assembleFrom, SinkFiles.take, hc]
    · rw [List.length_append, hcontent, hd]
      exact hadd.symm
  | fileEnd ha hp =>
    exact State.assemblerInv_enter _ ((State.assemblerInv_iff _).2 ⟨f, assemble_port hf rfl rfl, hfile⟩)
  | ackEmptyList => exact State.assemblerInv_outside hf fun hr => nomatch hr.1
  | ackHandshake => exact State.assemblerInv_enter _ (State.assemblerInv_outside hf fun hr => nomatch hr.1)
  | ackList => exact State.assemblerInv_enter _ (State.assemblerInv_outside hf fun hr => nomatch hr.2.2)
  | ackEmptyFile | ackLastChunk => exact State.assemblerInv_fileComplete hf
  | ackFile ha hp hx =>
    have hsend := State.controlInv_sender hcontrol (by simp [ha]) hp
    exact State.assemblerInv_enter _ (State.assemblerInv_outside hf fun hr => nomatch hsend.symm.trans hr.2.1)
  | ackChunk ha hp hx =>
    obtain ⟨hp, -⟩ := State.controlInv_chunkAnswered hcontrol ha hp hx
    have hsend := State.controlInv_sender hcontrol (by simp [ha]) hp
    exact State.assemblerInv_enter _ (State.assemblerInv_outside hf fun hr => nomatch hsend.symm.trans hr.2.1)
  | nack ha => exact State.assemblerInv_enter _ ((State.assemblerInv_iff _).2 ⟨f, hf, hfile⟩)

/-- A request is no sink event. -/
theorem State.assemblerInv_request {s x : State} {f : SinkFiles} (hf : assemble s.port.sink = some f)
    (h : ∃ g, x.port.out = s.port.out ++ [.frame g]) (hout : ¬ x.receiving) : (x.enter .wrsp).assemblerInv = true := by
  obtain ⟨g, h⟩ := h
  exact State.assemblerInv_enter _ (State.assemblerInv_outside (assemble_port hf h rfl) hout)

theorem Moved.assemblerInv {e : Event} {s t : State} (h : Moved e s t) (hcontrol : s.controlInv = true)
    (hcounters : s.countersInv = true) (hname : Memory.wf s.curname) (hs : s.assemblerInv = true) :
    t.assemblerInv = true := by
  obtain ⟨f, hf, hfile⟩ := s.assemblerInv_iff.1 hs
  have hsender (ha : s.act ≠ .wreq) : ¬ s.receiving := fun hr =>
    nomatch (State.controlInv_sender hcontrol ha hr.1).symm.trans hr.2.1
  cases h with
  | stay | peer | irqClear | irqEnable | abortLatched => exact hs
  | hostRead => exact (State.assemblerInv_iff _).2 ⟨f, assemble_port hf rfl rfl, hfile⟩
  | parsed b q u _ _ hp =>
    rw [hp.frame]
    exact hs
  | completed b q u t o _ _ hp _ hd =>
    refine hd.ruled.assemblerInv ?_ ?_ ?_ ?_ <;> rw [hp.frame] <;> assumption
  | tick =>
    obtain ⟨h, f, -, he | ⟨-, code, e, o, -, he⟩⟩ := tickStep_cases s <;> rw [he]
    · exact hs
    · exact State.assemblerInv_outside hf fun hr => nomatch hr.1
  | start =>
    split <;> exact State.assemblerInv_enter _ (State.assemblerInv_outside hf fun hr => nomatch hr.1)
  | abortNow | reset => exact State.assemblerInv_outside hf fun hr => nomatch hr.1
  | configure v a ha =>
    have hphase (loc : HifLoc) : (s.writeConf v loc).assemblerInv = true := by
      refine State.assemblerInv_outside (f := f) (by rw [State.writeConf_port]; exact hf) fun hr => ?_
      rw [← (s.writeConf_control v loc).2.1, hr.1] at ha
      cases ha
    exact hphase _
  | retry ha => exact State.assemblerInv_request hf ⟨_, rfl⟩ (hsender (by simp [ha]))
  | srcResp d _ ha => exact State.assemblerInv_request hf ⟨_, rfl⟩ (hsender (by simp [ha]))
  | adv =>
    rcases advStep_cases s with ⟨-, he⟩ | ⟨-, -, he⟩ | ⟨-, -, he⟩ <;> rw [he]
    · exact State.assemblerInv_enter _ (State.assemblerInv_outside hf fun hr => nomatch hr.2.2)
    · exact State.assemblerInv_enter _ (State.assemblerInv_outside hf fun hr => nomatch hr.1)
    · exact State.assemblerInv_enter _ (State.assemblerInv_outside hf fun hr => nomatch hr.1)
  | sendHandshake ha | sendFileList ha => exact State.assemblerInv_request hf ⟨_, rfl⟩ (hsender (by simp [ha]))
  | sendInfo t ha hp hx hsend =>
    obtain ⟨-, name, g, size, index, -, -, -, -, rfl⟩ := sendInfo_next hsend
    exact State.assemblerInv_request hf ⟨_, rfl⟩ (hsender (by simp [ha]))
  | sendChunk ha hp hx =>
    cases hab : s.abortReq with
    | true =>
      rw [sendChunkRequest_aborted hab]
      exact State.assemblerInv_outside hf fun hr => nomatch hr.1
    | false =>
      rw [sendChunkRequest_asked hab]
      exact State.assemblerInv_outside (assemble_port hf rfl rfl) (hsender (by simp [ha]))

/-- Settles O50: a rule puts its sink events out as it counts them, and only a receiver inside a file does. -/
theorem assemblerLawIsKept : Obligations.AssemblerLawIsKept := by
  rintro s t h hcontrol hcounters ⟨-, -, ⟨hname, -⟩, -⟩ hs
  obtain ⟨-, e, es, hm, -⟩ := step_moved h
  exact hm.assemblerInv hcontrol hcounters hname hs

end Sys2Proof.Machine

namespace Sys2Proof.Machine

/-! ### Decoding an encoded frame (spec/30_encoding.md R200, R221; 40_codec.md R255) -/

theorem le16_low (p : List Byte) (i : Nat) : (le16 p i).extractLsb' 0 8 = byteAt p i := by
  apply BitVec.eq_of_getLsbD_eq
  intro k hk
  simp [le16, hk, show k < 16 by omega]

theorem le16_high (p : List Byte) (i : Nat) : (le16 p i).extractLsb' 8 8 = byteAt p (i + 1) := by
  apply BitVec.eq_of_getLsbD_eq
  intro k hk
  simp [le16, hk, show 8 + k < 16 by omega]

/-- What a byte sequence is for the receiver: no whole frame yet, or the outcome of the frame at its front. The parser and
the decoder are both held to it. -/
def frameOutcome (c : Config) (bytes : List Byte) : Option ParseOutcome :=
  if bytes.length < 6 then none
  else if le16 bytes 0 ≠ c.magic then some (.badMagic (le16 bytes 0))
  else if bytes.length < 6 + (le16 bytes 3).toNat then none
  else
    some (if xorfold ((bytes.drop 6).take (le16 bytes 3).toNat) ≠ byteAt bytes 5 then
      .csumBad (xorfold ((bytes.drop 6).take (le16 bytes 3).toNat)) (byteAt bytes 5)
    else .frame (byteAt bytes 2) (le16 bytes 3) ((bytes.drop 6).take (le16 bytes 3).toNat))

section
variable {c : Config} {bytes : List Byte}

theorem frameOutcome_shortHeader (h : bytes.length < 6) : frameOutcome c bytes = none := if_pos h

theorem frameOutcome_badMagic (h6 : 6 ≤ bytes.length) (hm : le16 bytes 0 ≠ c.magic) :
    frameOutcome c bytes = some (.badMagic (le16 bytes 0)) :=
  (if_neg (Nat.not_lt.2 h6)).trans (if_pos hm)

theorem frameOutcome_shortPayload (hm : le16 bytes 0 = c.magic) (h : bytes.length < 6 + (le16 bytes 3).toNat) :
    frameOutcome c bytes = none := by
  by_cases h6 : bytes.length < 6
  · exact frameOutcome_shortHeader h6
  · exact (if_neg h6).trans ((if_neg (not_not.2 hm)).trans (if_pos h))

theorem frameOutcome_whole (hm : le16 bytes 0 = c.magic) (h : 6 + (le16 bytes 3).toNat ≤ bytes.length) :
    frameOutcome c bytes =
      some (if xorfold ((bytes.drop 6).take (le16 bytes 3).toNat) ≠ byteAt bytes 5 then
        .csumBad (xorfold ((bytes.drop 6).take (le16 bytes 3).toNat)) (byteAt bytes 5)
      else .frame (byteAt bytes 2) (le16 bytes 3) ((bytes.drop 6).take (le16 bytes 3).toNat)) :=
  (if_neg (by omega)).trans ((if_neg (not_not.2 hm)).trans (if_neg (Nat.not_lt.2 h)))

/-- The decoder's answer is the receiver's outcome, read as an instruction. -/
theorem decodeFrame_eq (hl : c.legal = true) (x : XSub) (bytes : List Byte) :
    decodeFrame c x bytes =
      match frameOutcome c bytes with
      | none => .error (if bytes.length < 6 then .shortHeader else .shortPayload)
      | some (.badMagic m) => .error (.badMagic m)
      | some (.csumBad computed claimed) => .error (.badChecksum computed claimed)
      | some (.frame cmd len p) =>
        match decodeBody c x cmd p with
        | some i => .ok (i, bytes.drop (6 + len.toNat))
        | none => .error (.unknownCommand cmd) := by
  unfold decodeFrame
  rw [(Config.legal_layout hl).1]
  by_cases h6 : bytes.length < 6
  · rw [if_pos h6, frameOutcome_shortHeader h6]
    simp [h6]
  rw [if_neg h6]
  by_cases hm : le16 bytes 0 = c.magic
  · rw [if_neg (not_not.2 hm)]
    simp only [List.length_drop]
    by_cases hlen : bytes.length < 6 + (le16 bytes 3).toNat
    · rw [if_pos (by omega), frameOutcome_shortPayload hm hlen]
      simp [h6]
    · rw [if_neg (by omega), frameOutcome_whole hm (by omega)]
      split
      · rfl
      · simp only [List.drop_drop] <;> rfl
  · rw [if_pos hm, frameOutcome_badMagic (by omega) hm]

/-- What a decoded frame was: a whole frame with the right magic and checksum, whose command stands for the instruction. -/
theorem decodeFrame_ok {x : XSub} {i : Instr} {rest : List Byte} (hl : c.legal = true)
    (h : decodeFrame c x bytes = .ok (i, rest)) :
    le16 bytes 0 = c.magic ∧ 6 + (le16 bytes 3).toNat ≤ bytes.length ∧ rest = bytes.drop (6 + (le16 bytes 3).toNat) ∧
      xorfold ((bytes.drop 6).take (le16 bytes 3).toNat) = byteAt bytes 5 ∧
      decodeBody c x (byteAt bytes 2) ((bytes.drop 6).take (le16 bytes 3).toNat) = some i := by
  rw [decodeFrame_eq hl] at h
  by_cases hm : le16 bytes 0 = c.magic
  · by_cases hlen : bytes.length < 6 + (le16 bytes 3).toNat
    · rw [frameOutcome_shortPayload hm hlen] at h
      cases h
    · rw [frameOutcome_whole hm (by omega)] at h
      by_cases hx : xorfold ((bytes.drop 6).take (le16 bytes 3).toNat) = byteAt bytes 5
      · rw [if_neg (not_not.2 hx)] at h
        simp only at h
        split at h
        · cases h
          exact ⟨hm, by omega, rfl, hx, ‹_›⟩
        · cases h
      · rw [if_pos hx] at h
        cases h
  · by_cases h6 : bytes.length < 6
    · rw [frameOutcome_shortHeader h6] at h
      cases h
    · rw [frameOutcome_badMagic (by omega) hm] at h
      cases h

end

/-- An encoded frame, whatever follows it, is the whole frame of its command and payload. -/
theorem frameOutcome_encodeFrame {c : Config} (cmd : Byte) {p : List Byte} (hp : p.length ≤ 65535) (rest : List Byte) :
    frameOutcome c (encodeFrame c cmd p ++ rest) = some (.frame cmd (BitVec.ofNat 16 p.length) p) := by
  have hlen : (le16 (encodeFrame c cmd p ++ rest) 3).toNat = p.length := by
    rw [le16_encodeFrame_length, BitVec.toNat_ofNat, Nat.mod_eq_of_lt (by omega)]
  have hpayload : ((encodeFrame c cmd p ++ rest).drop 6).take p.length = p := by
    rw [drop_encodeFrame, List.take_left']
    rfl
  rw [frameOutcome_whole (le16_encodeFrame_magic c cmd p rest) (by simp [hlen]), hlen, hpayload,
    byteAt_encodeFrame_checksum, le16_encodeFrame_length, if_neg (not_not.2 rfl)]
  rfl

/-- The frame of a frame instruction carries its code and its payload. -/
theorem encode_of_code {c : Config} {i : Instr} {cmd : Byte} (h : i.code c = some cmd) :
    encode c i = .frame (encodeFrame c cmd i.payload) := by
  cases i <;> cases h <;> rfl

/-- A frame instruction has a code, and a host command has none. -/
theorem encode_frame {c : Config} {i : Instr} {f : List Byte} (h : encode c i = .frame f) :
    ∃ cmd, i.code c = some cmd ∧ f = encodeFrame c cmd i.payload := by
  cases i <;> cases h <;> exact ⟨_, rfl, rfl⟩

/-- Distinct codes are read back as the instruction that carries them. -/
theorem decodeBody_of_code {c : Config} (hl : c.legal = true) {i : Instr} {cmd : Byte} (h : i.code c = some cmd) :
    decodeBody c i.form cmd i.payload = some i := by
  have hcodes := Config.legal_codes hl
  simp only [Config.codes, List.nodup_cons, List.mem_cons, List.not_mem_nil, or_false, not_or] at hcodes
  obtain ⟨⟨h1, h2, h3, h4, h5⟩, ⟨h6, h7, h8, h9⟩, ⟨h10, h11, h12⟩, ⟨h13, h14⟩, h15, -⟩ := hcodes
  cases i <;> cases h <;>
    simp [decodeBody, Instr.payload, Instr.form, Ne.symm h1, Ne.symm h2, Ne.symm h3, Ne.symm h4, Ne.symm h5, Ne.symm h6,
      Ne.symm h7, Ne.symm h8, Ne.symm h9, Ne.symm h10, Ne.symm h11, Ne.symm h12, Ne.symm h13, Ne.symm h14, Ne.symm h15]

theorem decodeFrame_encode {c : Config} (hl : c.legal = true) {i : Instr} (hfits : i.fits c = true) {f : List Byte}
    (hf : encode c i = .frame f) (rest : List Byte) : decodeFrame c i.form (f ++ rest) = .ok (i, rest) := by
  obtain ⟨cmd, hcode, rfl⟩ := encode_frame hf
  have hp : i.payload.length ≤ 65535 := by
    rw [Instr.fits, decide_eq_true_eq, (Config.legal_layout hl).2.1] at hfits
    exact hfits
  have hrest : (encodeFrame c cmd i.payload ++ rest).drop (6 + (BitVec.ofNat 16 i.payload.length).toNat) = rest := by
    rw [BitVec.toNat_ofNat, Nat.mod_eq_of_lt (by omega), List.drop_left' (by simp)]
  rw [decodeFrame_eq hl, frameOutcome_encodeFrame cmd hp]
  simp only [decodeBody_of_code hl hcode, hrest]

/-- A sequence of at least six bytes is its header and the rest. -/
theorem header_append_drop {bytes : List Byte} (h : 6 ≤ bytes.length) :
    [byteAt bytes 0, byteAt bytes 1, byteAt bytes 2, byteAt bytes 3, byteAt bytes 4, byteAt bytes 5] ++ bytes.drop 6 =
      bytes := by
  match bytes, h with
  | b0 :: b1 :: b2 :: b3 :: b4 :: b5 :: rest, _ => rfl

/-- A whole frame with the right magic and checksum is the encoding of its command and payload. -/
theorem encodeFrame_of_whole {c : Config} {bytes : List Byte} (hm : le16 bytes 0 = c.magic)
    (hlen : 6 + (le16 bytes 3).toNat ≤ bytes.length)
    (hx : xorfold ((bytes.drop 6).take (le16 bytes 3).toNat) = byteAt bytes 5) :
    encodeFrame c (byteAt bytes 2) ((bytes.drop 6).take (le16 bytes 3).toNat) ++
      bytes.drop (6 + (le16 bytes 3).toNat) = bytes := by
  have hp : ((bytes.drop 6).take (le16 bytes 3).toNat).length = (le16 bytes 3).toNat := by
    rw [List.length_take, List.length_drop]
    omega
  rw [encodeFrame_eq, hp, BitVec.ofNat_toNat, BitVec.setWidth_eq, le16_low, le16_high, ← hm, le16_low, le16_high, hx,
    ← List.drop_drop]
  simp only [List.cons_append, List.take_append_drop]
  exact header_append_drop (by omega)

/-- The ignored bits of a command word are sent as 0 (30_encoding.md R219). -/
theorem command_code (w : Word) : w &&& 0xFF#32 = (w.extractLsb' 0 8).setWidth 32 := by
  apply BitVec.eq_of_toNat_eq
  rw [BitVec.toNat_and, BitVec.toNat_setWidth_of_le (by decide), BitVec.extractLsb'_toNat, Nat.shiftRight_zero]
  exact Nat.and_two_pow_sub_one_eq_mod w.toNat 8

/-- Settles O3: a frame is read back through `frameOutcome`, and a decoded frame is put together again from its fields. -/
theorem decodeAndEncodeAgree : Obligations.DecodeAndEncodeAgree := by
  refine ⟨fun c i hl hfits => ⟨?_, fun f rest hf => decodeFrame_encode hl hfits hf rest⟩,
    fun c x bytes i rest hl h => ?frame, fun c w i h => ?command⟩
  · cases hf : encode c i with
    | frame f =>
      have := decodeFrame_encode hl hfits hf []
      rwa [List.append_nil] at this
    | command w => cases i <;> cases hf <;> rfl
  case frame =>
    obtain ⟨hm, hlen, rfl, hx, hbody⟩ := decodeFrame_ok hl h
    obtain ⟨hpayload, hcode⟩ := decodeBody_some hbody
    have hfits : i.payload.length ≤ 65535 := by
      rw [hpayload, List.length_take]
      have := (le16 bytes 3).isLt
      omega
    refine ⟨Instr.fits_of_length_le hl hfits, _, encode_of_code hcode, ?_⟩
    rw [hpayload]
    exact encodeFrame_of_whole hm hlen hx
  case command =>
    rw [command_code]
    rcases decodeCommand_ok h with ⟨rfl, hw⟩ | ⟨rfl, hw⟩ | ⟨rfl, hw⟩ <;> rw [hw] <;> rfl

end Sys2Proof.Machine

namespace Sys2Proof.Machine

/-! ### The parser holds the bytes it collected (spec/10_state.md R63, R64; 40_codec.md section 4) -/

theorem Parser.consistent_header {c : Config} {p : Parser} (h : p.headerStage c = true) :
    p.consistent c = true ↔ p.pcnt = 0#16 := by
  rw [Parser.consistent, if_pos h, decide_eq_true_eq]

theorem Parser.consistent_payload {c : Config} {p : Parser} (h : p.headerStage c = false) :
    p.consistent c = true ↔
      p.hc = 6#3 ∧ le16 p.hdr.bytes 0 = c.magic ∧ p.pcmd = byteAt p.hdr.bytes 2 ∧ p.plen = le16 p.hdr.bytes 3 ∧
        p.pcsum = byteAt p.hdr.bytes 5 ∧ p.pcnt.toNat < p.plen.toNat := by
  rw [Parser.consistent, if_neg (ne_true_of_eq_false h)]
  simp only [Bool.and_eq_true, decide_eq_true_eq, and_assoc]

theorem Parser.collected_header {c : Config} {p : Parser} (h : p.headerStage c = true) :
    p.collected c = p.hdr.bytes.take p.hc.toNat := if_pos h

theorem Parser.collected_payload {c : Config} {p : Parser} (h : p.headerStage c = false) :
    p.collected c = p.hdr.bytes ++ Memory.readN p.paybuf 0 p.pcnt.toNat := if_neg (ne_true_of_eq_false h)

@[simp] theorem Header.bytes_length (h : Header) : h.bytes.length = 6 := rfl

theorem Header.take_set (h : Header) (b : Byte) {k : Nat} (hk : k < 6) :
    (h.set k b).bytes.take (k + 1) = h.bytes.take k ++ [b] := by
  match k, hk with
  | 0, _ | 1, _ | 2, _ | 3, _ | 4, _ | 5, _ => rfl

theorem readN_write_next {m : Memory} (h : Memory.wf m) (n : Nat) (b : Byte) :
    Memory.readN (Memory.write m n b) 0 (n + 1) = Memory.readN m 0 n ++ [b] := by
  simp only [Memory.readN, List.range_succ, List.map_append, List.map_cons, List.map_nil, Nat.zero_add]
  rw [Memory.read_write_same h]
  congr 1
  refine List.map_congr_left fun k hk => Memory.read_write_other ?_ b
  exact Nat.ne_of_lt (List.mem_range.1 hk)

/-- The count of a header byte does not wrap. -/
theorem headerCount_succ {x : BitVec 3} (h : x.toNat < 6) : (x + 1#3).toNat = x.toNat + 1 := by
  bv_omega

theorem payloadCount_succ {x y : Half} (h : x.toNat < y.toNat) : (x + 1#16).toNat = x.toNat + 1 := by
  bv_omega

/-- At rest the parser has collected nothing. -/
theorem Parser.rest {c : Config} (hl : c.legal = true) {p : Parser} (hc : p.hc = 0#3) (hp : p.pcnt = 0#16) :
    p.headerStage c = true ∧ p.consistent c = true ∧ p.collected c = [] := by
  have hh : p.headerStage c = true := by
    rw [Parser.headerStage_eq hl, hc]
    rfl
  refine ⟨hh, (Parser.consistent_header hh).2 hp, ?_⟩
  rw [Parser.collected_header hh, hc]
  rfl

/-- A byte of the header stage makes one more header byte; the sixth makes the header whole. -/
theorem collected_headerByte {c : Config} (hl : c.legal = true) {p : Parser} (h : p.headerStage c = true) (b : Byte) :
    p.hc.toNat < 6 ∧ (p.collected c).length = p.hc.toNat ∧
      (p.hdr.set p.hc.toNat b).bytes.take (p.hc.toNat + 1) = p.collected c ++ [b] := by
  have hlt : p.hc.toNat < 6 := by
    rw [Parser.headerStage_eq hl, decide_eq_true_eq] at h
    exact h
  refine ⟨hlt, ?_, ?_⟩
  · rw [Parser.collected_header h, List.length_take, Header.bytes_length]
    omega
  · rw [Parser.collected_header h, Header.take_set _ _ hlt]

theorem collected_headerEnd {c : Config} (hl : c.legal = true) {p : Parser} (h : p.headerStage c = true)
    (hc : p.hc + 1#3 = 6#3) (b : Byte) :
    (p.hdr.set p.hc.toNat b).bytes = p.collected c ++ [b] := by
  obtain ⟨hlt, -, htake⟩ := collected_headerByte hl h b
  have hfive : p.hc.toNat + 1 = 6 := by
    rw [← headerCount_succ hlt, hc]
    rfl
  rw [← htake, hfive]
  rfl

/-- A byte of the payload stage makes one more payload byte. -/
theorem collected_payloadByte {c : Config} {p : Parser} (h : p.headerStage c = false) (hm : Memory.wf p.paybuf) (b : Byte) :
    p.hdr.bytes ++ Memory.readN (Memory.write p.paybuf p.pcnt.toNat b) 0 (p.pcnt.toNat + 1) = p.collected c ++ [b] := by
  rw [Parser.collected_payload h, readN_write_next hm, List.append_assoc]

/-- After a header byte that is not the sixth the parser is still in the header stage. -/
theorem Parser.headerStage_next {c : Config} (hl : c.legal = true) {p q : Parser} (h : p.headerStage c = true)
    (hc : p.hc + 1#3 ≠ 6#3) (hq : q.hc = p.hc + 1#3) : q.headerStage c = true := by
  have hlt : p.hc.toNat < 6 := by
    rw [Parser.headerStage_eq hl, decide_eq_true_eq] at h
    exact h
  have hne : (p.hc + 1#3).toNat ≠ 6 := fun e => hc (BitVec.eq_of_toNat_eq e)
  have hsucc := headerCount_succ hlt
  rw [Parser.headerStage_eq hl, decide_eq_true_eq, hq]
  omega

/-- With a whole header, and while payload bytes come in, the parser is in the payload stage. -/
theorem Parser.headerStage_full {c : Config} (hl : c.legal = true) {p : Parser} (h : p.hc = 6#3) :
    p.headerStage c = false := by
  rw [Parser.headerStage_eq hl, h]
  rfl

/-- Parsing keeps the parser consistent; a parser that ended a frame is at rest. -/
theorem Parsed.consistent {b : Byte} {s u : State} {o : Option ParseOutcome} (h : Parsed b s u o)
    (hl : s.cfg.legal = true) (hs : s.parser.consistent s.cfg = true) : u.parser.consistent u.cfg = true := by
  cases h with
  | header h hc =>
    exact (Parser.consistent_header (Parser.headerStage_next hl h hc rfl)).2 ((Parser.consistent_header h).1 hs)
  | headerEnd hdr h hc hh hm hlen =>
    exact (Parser.consistent_payload (Parser.headerStage_full hl rfl)).2 ⟨rfl, hm, rfl, rfl, rfl, toNat_pos hlen⟩
  | payload h hc =>
    obtain ⟨hhc, hm, hcmd, hplen, hcsum, hlt⟩ := (Parser.consistent_payload h).1 hs
    have hsucc := payloadCount_succ hlt
    have hne : (s.parser.pcnt + 1#16).toNat ≠ s.parser.plen.toNat := fun e => hc (BitVec.eq_of_toNat_eq e)
    have hstage : Parser.headerStage s.cfg { s.parser with
        paybuf := Memory.write s.parser.paybuf s.parser.pcnt.toNat b, pcnt := s.parser.pcnt + 1#16 } = false := h
    refine (Parser.consistent_payload hstage).2 ⟨hhc, hm, hcmd, hplen, hcsum, ?_⟩
    show (s.parser.pcnt + 1#16).toNat < s.parser.plen.toNat
    omega
  | badMagic | emptyFrame | fullFrame => exact (Parser.rest hl rfl rfl).2.1

/-- Parsing keeps the payload buffer's canonical form. -/
theorem Parsed.paybuf_wf {b : Byte} {s u : State} {o : Option ParseOutcome} (h : Parsed b s u o)
    (hs : Memory.wf s.parser.paybuf) : Memory.wf u.parser.paybuf := by
  cases h with
  | header | headerEnd | badMagic | emptyFrame => exact hs
  | payload => exact Memory.write_wf hs _ _
  | fullFrame m h hc hm => exact hm ▸ Memory.write_wf hs _ _

/-- A header byte that is not the sixth is collected. -/
theorem Parser.collected_afterHeaderByte {c : Config} (hl : c.legal = true) {p : Parser} (h : p.headerStage c = true)
    (hc : p.hc + 1#3 ≠ 6#3) (b : Byte) :
    Parser.collected c { p with hdr := p.hdr.set p.hc.toNat b, hc := p.hc + 1#3 } = p.collected c ++ [b] := by
  obtain ⟨hlt, -, htake⟩ := collected_headerByte hl h b
  rw [Parser.collected_header (Parser.headerStage_next hl h hc rfl), ← htake, ← headerCount_succ hlt]

/-- A payload byte is collected. -/
theorem Parser.collected_afterPayloadByte {c : Config} {p : Parser} (h : p.headerStage c = false)
    (hm : Memory.wf p.paybuf) (hcount : (p.pcnt + 1#16).toNat = p.pcnt.toNat + 1) (b : Byte) :
    Parser.collected c { p with paybuf := Memory.write p.paybuf p.pcnt.toNat b, pcnt := p.pcnt + 1#16 } =
      p.collected c ++ [b] := by
  have hstage : Parser.headerStage c
      { p with paybuf := Memory.write p.paybuf p.pcnt.toNat b, pcnt := p.pcnt + 1#16 } = false := h
  rw [Parser.collected_payload hstage, ← collected_payloadByte h hm b, hcount]

/-- Without an outcome the byte is collected (40_codec.md R261, R266). -/
theorem Parsed.collected {b : Byte} {s u : State} (h : Parsed b s u none) (hl : s.cfg.legal = true)
    (hs : s.parser.consistent s.cfg = true) (hm : Memory.wf s.parser.paybuf) :
    u.parser.collected s.cfg = s.parser.collected s.cfg ++ [b] := by
  generalize ho : (none : Option ParseOutcome) = o at h
  cases h with
  | header h hc => exact Parser.collected_afterHeaderByte hl h hc b
  | headerEnd hdr h hc hh hmagic hlen =>
    rw [Parser.collected_payload (Parser.headerStage_full hl rfl), ← collected_headerEnd hl h hc b, ← hh]
    exact List.append_nil _
  | payload h hc =>
    obtain ⟨-, -, -, -, -, hlt⟩ := (Parser.consistent_payload h).1 hs
    exact Parser.collected_afterPayloadByte h hm (payloadCount_succ hlt) b
  | badMagic | emptyFrame | fullFrame => cases ho

/-- A parsed byte gives the outcome of the bytes collected with it. -/
theorem Parsed.outcome_eq {b : Byte} {s u : State} {o : Option ParseOutcome} (h : Parsed b s u o)
    (hl : s.cfg.legal = true) (hs : s.parser.consistent s.cfg = true) (hm : Memory.wf s.parser.paybuf) :
    o = frameOutcome s.cfg (s.parser.collected s.cfg ++ [b]) := by
  cases h with
  | header h hc =>
    obtain ⟨hlt, hlen, -⟩ := collected_headerByte hl h b
    have hsucc := headerCount_succ hlt
    have hne : (s.parser.hc + 1#3).toNat ≠ 6 := fun e => hc (BitVec.eq_of_toNat_eq e)
    refine (frameOutcome_shortHeader ?_).symm
    rw [List.length_append, hlen, List.length_singleton]
    omega
  | headerEnd hdr h hc hh hmagic hlen =>
    rw [← collected_headerEnd hl h hc b, ← hh]
    refine (frameOutcome_shortPayload hmagic ?_).symm
    have := toNat_pos hlen
    rw [Header.bytes_length]
    omega
  | payload h hc =>
    obtain ⟨-, hmagic, -, hplen, -, hlt⟩ := (Parser.consistent_payload h).1 hs
    have hsucc := payloadCount_succ hlt
    have hne : (s.parser.pcnt + 1#16).toNat ≠ s.parser.plen.toNat := fun e => hc (BitVec.eq_of_toNat_eq e)
    rw [← collected_payloadByte h hm b]
    generalize hq : Memory.readN (Memory.write s.parser.paybuf s.parser.pcnt.toNat b) 0 (s.parser.pcnt.toNat + 1) = q
    have hlen : q.length = s.parser.pcnt.toNat + 1 := by rw [← hq, Memory.readN_length]
    refine (frameOutcome_shortPayload (bytes := s.parser.hdr.bytes ++ q) hmagic ?_).symm
    show _ < 6 + (le16 s.parser.hdr.bytes 3).toNat
    rw [List.length_append, Header.bytes_length, ← hplen]
    omega
  | badMagic hdr h hc hh hmagic =>
    rw [← collected_headerEnd hl h hc b, ← hh]
    exact (frameOutcome_badMagic (bytes := hdr.bytes) (Nat.le_refl 6) hmagic).symm
  | emptyFrame hdr h hc hh hmagic hlen =>
    rw [← collected_headerEnd hl h hc b, ← hh, frameOutcome_whole hmagic (by simp [hlen]), hlen]
    rfl
  | fullFrame m h hc hm' =>
    obtain ⟨-, hmagic, hcmd, hplen, hcsum, hlt⟩ := (Parser.consistent_payload h).1 hs
    have hcount : s.parser.pcnt.toNat + 1 = (le16 s.parser.hdr.bytes 3).toNat := by
      rw [← payloadCount_succ hlt, hc, hplen]
    rw [← collected_payloadByte h hm b, ← hm', hcount, hplen, hcmd, hcsum]
    generalize hp : Memory.readN m 0 (le16 s.parser.hdr.bytes 3).toNat = p
    have hlen : p.length = (le16 s.parser.hdr.bytes 3).toNat := by rw [← hp, Memory.readN_length]
    have htake : ((s.parser.hdr.bytes ++ p).drop 6).take (le16 s.parser.hdr.bytes 3).toNat = p := by
      rw [← hlen]
      exact List.take_length
    have hlen3 : le16 (s.parser.hdr.bytes ++ p) 3 = le16 s.parser.hdr.bytes 3 := rfl
    have hmagic' : le16 (s.parser.hdr.bytes ++ p) 0 = s.cfg.magic := hmagic
    rw [frameOutcome_whole hmagic' (by rw [hlen3, List.length_append, hlen]; rfl), hlen3, htake]
    rfl

/-! ### Parsing a byte sequence -/

theorem parseBytes_append (l m : List Byte) (s : State) :
    parseBytes (l ++ m) s =
      ((parseBytes m (parseBytes l s).1).1, (parseBytes l s).2 ++ (parseBytes m (parseBytes l s).1).2) := by
  induction l generalizing s with
  | nil => rfl
  | cons b l ih =>
    rw [List.cons_append, parseBytes, ih, parseBytes]
    simp only [List.append_assoc]

theorem parseBytes_singleton (b : Byte) (s : State) : parseBytes [b] s = ((parseByte b s).1, (parseByte b s).2.toList) := by
  simp [parseBytes]

/-- A front of bytes that are no frame yet is no frame yet either. -/
theorem frameOutcome_none_of_append {c : Config} {l : List Byte} {b : Byte} (h : frameOutcome c (l ++ [b]) = none) :
    frameOutcome c l = none := by
  by_cases h6 : l.length < 6
  · exact frameOutcome_shortHeader h6
  have hle (k : Nat) (hk : k < 5) : le16 (l ++ [b]) k = le16 l k := by
    rw [le16, le16, byteAt_append_left (by omega), byteAt_append_left (by omega)]
  by_cases hm : le16 l 0 = c.magic
  · refine frameOutcome_shortPayload hm ?_
    by_contra hlen
    rw [frameOutcome_whole ((hle 0 (by omega)).trans hm) (by rw [hle 3 (by omega), List.length_append]; omega)] at h
    cases h
  · rw [frameOutcome_badMagic (by rw [List.length_append]; omega) (by rw [hle 0 (by omega)]; exact hm)] at h
    cases h

/-- The parser at rest, ready for a frame. -/
structure State.atRest (s : State) : Prop where
  legal : s.cfg.legal = true
  hc : s.parser.hc = 0#3
  pcnt : s.parser.pcnt = 0#16
  paybuf : Memory.wf s.parser.paybuf

/-- Bytes that are no frame yet give no outcome and are what the parser then holds. -/
theorem parseBytes_incomplete {s : State} (hs : s.atRest) {l : List Byte} (h : frameOutcome s.cfg l = none) :
    (parseBytes l s).2 = [] ∧ (parseBytes l s).1.cfg = s.cfg ∧
      (parseBytes l s).1.parser.consistent s.cfg = true ∧ Memory.wf (parseBytes l s).1.parser.paybuf ∧
      (parseBytes l s).1.parser.collected s.cfg = l := by
  induction l using List.reverseRecOn with
  | nil =>
    obtain ⟨-, hcons, hcoll⟩ := Parser.rest hs.legal hs.hc hs.pcnt
    exact ⟨rfl, rfl, hcons, hs.paybuf, hcoll⟩
  | append_singleton l b ih =>
    obtain ⟨hout, hcfg, hcons, hwf, hcoll⟩ := ih (frameOutcome_none_of_append h)
    rw [parseBytes_append, parseBytes_singleton, hout]
    generalize (parseBytes l s).1 = u at *
    have hl : u.cfg.legal = true := hcfg ▸ hs.legal
    rw [← hcfg] at h hcons hcoll ⊢
    have hp := parseByte_parsed hl b
    have ho : (parseByte b u).2 = none := by rw [hp.outcome_eq hl hcons hwf, hcoll, h]
    rw [ho] at hp ⊢
    have hcfg' := parseByte_cfg hl b
    exact ⟨rfl, hcfg', hcfg' ▸ hp.consistent hl hcons, hp.paybuf_wf hwf, by rw [hp.collected hl hcons hwf, hcoll]⟩

/-- The byte after them gives the outcome of them all, and an outcome leaves the parser at rest. -/
theorem parseBytes_outcome {s : State} (hs : s.atRest) {l : List Byte} (h : frameOutcome s.cfg l = none) (b : Byte) :
    (parseBytes (l ++ [b]) s).2 = (frameOutcome s.cfg (l ++ [b])).toList ∧
      (frameOutcome s.cfg (l ++ [b]) ≠ none →
        (parseBytes (l ++ [b]) s).1.parser.hc = 0#3 ∧ (parseBytes (l ++ [b]) s).1.parser.pcnt = 0#16) := by
  obtain ⟨hout, hcfg, hcons, hwf, hcoll⟩ := parseBytes_incomplete hs h
  rw [parseBytes_append, parseBytes_singleton, hout]
  generalize (parseBytes l s).1 = u at *
  have hl : u.cfg.legal = true := hcfg ▸ hs.legal
  rw [← hcfg] at hcons hcoll ⊢
  have hp := parseByte_parsed hl b
  have ho := hp.outcome_eq hl hcons hwf
  rw [hcoll] at ho
  refine ⟨by rw [ho]; rfl, fun hne => ?_⟩
  obtain ⟨o, hsome⟩ := Option.ne_none_iff_exists'.1 hne
  rw [ho.trans hsome] at hp
  exact hp.outcome.2

/-- A front of `bytes` one byte longer than one that is no frame yet. -/
theorem parseBytes_take {s : State} (hs : s.atRest) {bytes : List Byte} {n : Nat} (hn : n < bytes.length)
    (h : frameOutcome s.cfg (bytes.take n) = none) :
    (parseBytes (bytes.take (n + 1)) s).2 = (frameOutcome s.cfg (bytes.take (n + 1))).toList ∧
      (frameOutcome s.cfg (bytes.take (n + 1)) ≠ none →
        (parseBytes (bytes.take (n + 1)) s).1.parser.hc = 0#3 ∧ (parseBytes (bytes.take (n + 1)) s).1.parser.pcnt = 0#16) := by
  rw [List.take_succ_eq_append_getElem hn]
  exact parseBytes_outcome hs h _

/-! #### The outcome of a front -/

section
variable {c : Config} {bytes : List Byte}

theorem byteAt_take {k n : Nat} (h : k < n) : byteAt (bytes.take n) k = byteAt bytes k := by
  simp [byteAt, h]

theorem le16_take {k n : Nat} (h : k + 1 < n) : le16 (bytes.take n) k = le16 bytes k := by
  rw [le16, le16, byteAt_take (by omega), byteAt_take h]

/-- The sixth byte shows a wrong magic. -/
theorem frameOutcome_take_badMagic (h6 : 6 ≤ bytes.length) (hm : le16 bytes 0 ≠ c.magic) :
    frameOutcome c (bytes.take 6) = some (.badMagic (le16 bytes 0)) := by
  rw [← le16_take (n := 6) (by omega)] at hm ⊢
  exact frameOutcome_badMagic (by rw [List.length_take]; omega) hm

/-- Before its last byte a frame with the right magic has no outcome. -/
theorem frameOutcome_take_short (hm : le16 bytes 0 = c.magic) {n : Nat} (hn : n < 6 + (le16 bytes 3).toNat) :
    frameOutcome c (bytes.take n) = none := by
  by_cases h6 : n < 6
  · exact frameOutcome_shortHeader (by rw [List.length_take]; omega)
  · refine frameOutcome_shortPayload ((le16_take (by omega)).trans hm) ?_
    rw [le16_take (by omega), List.length_take]
    omega

/-- Its last byte gives the outcome, whatever follows. -/
theorem frameOutcome_take_whole (hm : le16 bytes 0 = c.magic) (h : 6 + (le16 bytes 3).toNat ≤ bytes.length) :
    frameOutcome c (bytes.take (6 + (le16 bytes 3).toNat)) = frameOutcome c bytes := by
  have hpayload : ((bytes.take (6 + (le16 bytes 3).toNat)).drop 6).take (le16 bytes 3).toNat =
      (bytes.drop 6).take (le16 bytes 3).toNat := by
    rw [List.drop_take, Nat.add_sub_cancel_left, List.take_take, Nat.min_self]
  have h3 : le16 (bytes.take (6 + (le16 bytes 3).toNat)) 3 = le16 bytes 3 := le16_take (by omega)
  rw [frameOutcome_whole hm h, frameOutcome_whole ((le16_take (by omega)).trans hm) (by rw [h3, List.length_take]; omega),
    h3, hpayload, byteAt_take (by omega), byteAt_take (by omega)]

end

/-- A frame with the right magic: nothing before its last byte, its outcome there. -/
theorem parseBytes_whole {s : State} (hs : s.atRest) {bytes : List Byte} (hm : le16 bytes 0 = s.cfg.magic)
    (h : 6 + (le16 bytes 3).toNat ≤ bytes.length) :
    (parseBytes (bytes.take (6 + (le16 bytes 3).toNat)) s).2 = (frameOutcome s.cfg bytes).toList ∧
      (parseBytes (bytes.take (6 + (le16 bytes 3).toNat)) s).1.parser.hc = 0#3 ∧
      (parseBytes (bytes.take (6 + (le16 bytes 3).toNat)) s).1.parser.pcnt = 0#16 := by
  have hshort : frameOutcome s.cfg (bytes.take (5 + (le16 bytes 3).toNat)) = none :=
    frameOutcome_take_short hm (by omega)
  have hlast := parseBytes_take hs (by omega) hshort
  rw [show 5 + (le16 bytes 3).toNat + 1 = 6 + (le16 bytes 3).toNat by omega, frameOutcome_take_whole hm h] at hlast
  exact ⟨hlast.1, hlast.2 (by rw [frameOutcome_whole hm h]; nofun)⟩

/-- Settles O4: an encoded frame is a whole frame with the right magic, and its outcome is its command and payload. -/
theorem parserReadsEncodedFrame : Obligations.ParserReadsEncodedFrame := by
  intro s cmd p hl hhc hpcnt hwf hp
  have hs : s.atRest := ⟨hl, hhc, hpcnt, hwf⟩
  have hm : le16 (encodeFrame s.cfg cmd p) 0 = s.cfg.magic := half_of_bytes _
  have hlen : (le16 (encodeFrame s.cfg cmd p) 3).toNat = p.length := by
    rw [show le16 (encodeFrame s.cfg cmd p) 3 = BitVec.ofNat 16 p.length from half_of_bytes _, BitVec.toNat_ofNat,
      Nat.mod_eq_of_lt (by omega)]
  have hout : frameOutcome s.cfg (encodeFrame s.cfg cmd p) = some (.frame cmd (BitVec.ofNat 16 p.length) p) := by
    have := frameOutcome_encodeFrame (c := s.cfg) cmd hp []
    rwa [List.append_nil] at this
  obtain ⟨hlast, hrest⟩ := parseBytes_whole hs hm (by rw [hlen, encodeFrame_length])
  rw [hlen, List.take_of_length_le (by rw [encodeFrame_length])] at hlast hrest
  refine ⟨by rw [hlast, hout]; rfl, fun k hk => ?_, hrest⟩
  exact (parseBytes_incomplete hs (frameOutcome_take_short hm (by rw [hlen]; exact hk))).1

/-- Settles O5: the parser gives `frameOutcome` at the byte where it is determined, and the decoder answers by it. -/
theorem parserRefinesDecoder : Obligations.ParserRefinesDecoder := by
  intro s x bytes hl hhc hpcnt hwf
  have hs : s.atRest := ⟨hl, hhc, hpcnt, hwf⟩
  rw [decodeFrame_eq hl]
  by_cases h6 : bytes.length < 6
  · rw [frameOutcome_shortHeader h6]
    exact ⟨fun _ _ _ => (parseBytes_incomplete hs (frameOutcome_shortHeader h6)).1, by simp [h6], by simp [h6],
      by simp [h6], by simp [h6]⟩
  by_cases hm : le16 bytes 0 = s.cfg.magic
  · by_cases hlen : bytes.length < 6 + (le16 bytes 3).toNat
    · have hnone := frameOutcome_shortPayload hm hlen
      rw [hnone]
      exact ⟨fun _ _ _ => (parseBytes_incomplete hs hnone).1, by simp [h6], by simp [h6], by simp [h6], by simp [h6]⟩
    · have hlast := (parseBytes_whole hs hm (by omega)).1
      rw [frameOutcome_whole hm (by omega)] at hlast ⊢
      generalize hp : (bytes.drop 6).take (le16 bytes 3).toNat = p at *
      by_cases hx : xorfold p = byteAt bytes 5
      · rw [if_neg (not_not.2 hx)] at hlast ⊢
        cases hbody : decodeBody s.cfg x (byteAt bytes 2) p with
        | none =>
          refine ⟨by simp [hbody], by simp [hbody], by simp [hbody], ?_, by simp [hbody]⟩
          simp only [hbody]
          rintro cmd ⟨⟩
          exact ⟨hlast, decodeBody_none hbody⟩
        | some i =>
          refine ⟨by simp [hbody], by simp [hbody], by simp [hbody], by simp [hbody], ?_⟩
          simp only [hbody]
          rintro j rest ⟨⟩
          obtain ⟨hpayload, hcode⟩ := decodeBody_some hbody
          refine ⟨_, hcode, ?_⟩
          rw [List.length_drop, show bytes.length - (bytes.length - (6 + (le16 bytes 3).toNat)) = 6 + (le16 bytes 3).toNat by omega,
            hpayload]
          exact hlast
      · rw [if_pos hx] at hlast ⊢
        refine ⟨by simp, by simp, ?_, by simp, by simp⟩
        rintro computed claimed ⟨⟩
        exact hlast
  · rw [frameOutcome_badMagic (by omega) hm]
    have hshort : frameOutcome s.cfg (bytes.take 5) = none := frameOutcome_shortHeader (by rw [List.length_take]; omega)
    have hlast := parseBytes_take hs (by omega) hshort
    rw [frameOutcome_take_badMagic (by omega) hm] at hlast
    refine ⟨by simp, ?_, by simp, by simp, by simp⟩
    rintro m ⟨⟩
    exact ⟨hlast.1, (hlast.2 nofun).1⟩

end Sys2Proof.Machine

namespace Sys2Proof.Machine

/-! ### Stale contents (spec/10_state.md R62, R64, R105) -/

/-- Two parsers that differ only in contents no rule may read. -/
def SameParser (c : Config) (p q : Parser) : Prop :=
  q.hc = p.hc ∧ q.pcnt = p.pcnt ∧ q.collected c = p.collected c ∧
    (p.headerStage c = false → q.plen = p.plen ∧ q.pcmd = p.pcmd ∧ q.pcsum = p.pcsum)

/-- The state with other parser contents and another kept frame. -/
def State.withStale (s : State) (p : Parser) (x : List Byte) : State := { s with parser := p, txbuf := x }

/-- A state that differs from `s` only in stale contents is `s` with other ones. -/
theorem State.sameButStale_iff {s t : State} :
    s.sameButStale t ↔
      ∃ p x, SameParser s.cfg s.parser p ∧ (s.awaitsAnswer → x = s.txbuf) ∧ t = s.withStale p x := by
  constructor
  · rintro ⟨ht, hhc, hpcnt, hcoll, hfields, htx⟩
    exact ⟨t.parser, t.txbuf, ⟨hhc, hpcnt, hcoll, hfields⟩, htx, ht⟩
  · rintro ⟨p, x, ⟨hhc, hpcnt, hcoll, hfields⟩, htx, rfl⟩
    exact ⟨rfl, hhc, hpcnt, hcoll, hfields, htx⟩

theorem State.sameButStale_withStale {s : State} {p : Parser} {x : List Byte} (hp : SameParser s.cfg s.parser p)
    (hx : s.awaitsAnswer → x = s.txbuf) : s.sameButStale (s.withStale p x) :=
  State.sameButStale_iff.2 ⟨p, x, hp, hx, rfl⟩

theorem SameParser.refl (c : Config) (p : Parser) : SameParser c p p := ⟨rfl, rfl, rfl, fun _ => ⟨rfl, rfl, rfl⟩⟩

theorem State.sameButStale_refl (s : State) : s.sameButStale s :=
  State.sameButStale_withStale (p := s.parser) (x := s.txbuf) (SameParser.refl _ _) fun _ => rfl

/-- Reset parsers hold nothing that can be read. -/
theorem SameParser.of_rest {c : Config} (hl : c.legal = true) {p q : Parser} (hp : p.hc = 0#3 ∧ p.pcnt = 0#16)
    (hq : q.hc = 0#3 ∧ q.pcnt = 0#16) : SameParser c p q := by
  obtain ⟨hstage, -, hnil⟩ := Parser.rest hl hp.1 hp.2
  refine ⟨hq.1.trans hp.1.symm, hq.2.trans hp.2.symm, (Parser.rest hl hq.1 hq.2).2.2.trans hnil.symm, fun h => ?_⟩
  rw [hstage] at h
  cases h

theorem SameParser.headerStage {c : Config} {p q : Parser} (h : SameParser c p q) :
    q.headerStage c = p.headerStage c := by
  rw [Parser.headerStage, Parser.headerStage, h.1]

/-! #### The shared operations -/

section
variable {s t : State} (hl : s.cfg.legal = true) (h : s.sameButStale t)
include hl h

theorem same_fail (code : ErrCode) (e o : Word) : (s.fail code e o).sameButStale (t.fail code e o) := by
  obtain ⟨p, x, hp, hx, rfl⟩ := State.sameButStale_iff.1 h
  exact State.sameButStale_withStale (s := s.fail code e o) (SameParser.of_rest hl ⟨rfl, rfl⟩ ⟨rfl, rfl⟩)
    fun hw => absurd hw (State.fail_not_awaits s code e o)

/-- An activity in which a request is outstanding is entered with the same request kept. -/
theorem same_enter {a : Act} (ha : a = .wrsp ∨ a = .whost → t.txbuf = s.txbuf) :
    (s.enter a).sameButStale (t.enter a) := by
  have hfail := same_fail hl h .aborted 0#32 0#32
  obtain ⟨p, x, hp, hx, rfl⟩ := State.sameButStale_iff.1 h
  by_cases hab : s.abortReq = true ∧ a.betweenExchanges = true
  · rw [State.enter_aborted hab, State.enter_aborted (s := s.withStale p x) hab]
    exact hfail
  · cases hw : a.waits with
    | true =>
      rw [State.enter_wait hab hw, State.enter_wait (s := s.withStale p x) hab hw]
      exact State.sameButStale_withStale (SameParser.of_rest hl ⟨rfl, rfl⟩ ⟨rfl, rfl⟩) ha
    | false =>
      rw [State.enter_noWait hab hw, State.enter_noWait (s := s.withStale p x) hab hw]
      exact State.sameButStale_withStale hp ha

omit hl in
theorem same_finish : s.finish.sameButStale t.finish := by
  obtain ⟨p, x, hp, hx, rfl⟩ := State.sameButStale_iff.1 h
  exact State.sameButStale_withStale (s := s.finish) hp fun hw => absurd hw s.finish_not_awaits

theorem same_fileComplete : s.fileComplete.sameButStale t.fileComplete := by
  obtain ⟨p, x, hp, hx, rfl⟩ := State.sameButStale_iff.1 h
  rcases s.fileComplete_cases with ⟨hptr, he⟩ | ⟨hptr, he⟩
  · rw [he, show (s.withStale p x).fileComplete = _ from if_pos hptr]
    apply same_finish
    exact State.sameButStale_withStale hp hx
  · rw [he, show (s.withStale p x).fileComplete = _ from if_neg hptr]
    apply same_enter
    exacts [hl, State.sameButStale_withStale hp hx, fun ha => by cases hsend : s.conf.send <;> rw [show _ from hsend] at ha <;> exact ha.elim nofun nofun]

theorem same_malformedRequest (required len : Nat) :
    (s.malformedRequest required len).sameButStale (t.malformedRequest required len) := by
  obtain ⟨p, x, hp, hx, rfl⟩ := State.sameButStale_iff.1 h
  exact same_enter hl (s := (s.recover .malformed _ _).respondNack) (State.sameButStale_withStale hp hx) nofun

/-! #### The rules of the frames -/

theorem same_handshakeRule (payload : List Byte) : (handshakeRule payload s).sameButStale (handshakeRule payload t) := by
  by_cases hlen : payload.length = 5
  · rw [handshakeRule_accepted hlen, handshakeRule_accepted hlen]
    obtain ⟨p, x, hp, hx, rfl⟩ := State.sameButStale_iff.1 h
    apply same_enter
    exacts [hl, State.sameButStale_withStale hp hx, nofun]
  · rw [handshakeRule_wrongLength hlen, handshakeRule_wrongLength hlen]
    exact same_malformedRequest hl h _ _

theorem same_fileListRule (payload : List Byte) : (fileListRule payload s).sameButStale (fileListRule payload t) := by
  have hmalformed := same_malformedRequest hl h
  obtain ⟨p, x, hp, hx, rfl⟩ := State.sameButStale_iff.1 h
  cases ho : fileListOperands s.cfg.nameSlot payload with
  | error required =>
    rw [fileListRule_malformed ho, fileListRule_malformed (s := s.withStale p x) ho]
    exact hmalformed _ _
  | ok slots =>
    by_cases hc : byteAt payload 0 = 0#8
    · rw [fileListRule_noNames ho hc, fileListRule_noNames (s := s.withStale p x) ho hc]
      apply same_finish
      exact State.sameButStale_withStale hp hx
    · rw [fileListRule_names ho hc, fileListRule_names (s := s.withStale p x) ho hc]
      apply same_enter
      exacts [hl, State.sameButStale_withStale hp hx, nofun]

theorem same_infoRule (payload : List Byte) : (infoRule payload s).sameButStale (infoRule payload t) := by
  have hmalformed := same_malformedRequest hl h
  obtain ⟨p, x, hp, hx, rfl⟩ := State.sameButStale_iff.1 h
  cases ho : infoOperands s.cfg.nameSlot payload with
  | error required =>
    rw [infoRule_malformed ho, infoRule_malformed (s := s.withStale p x) ho]
    exact hmalformed _ _
  | ok op =>
    by_cases hsize : op.size = 0#32
    · rw [infoRule_empty ho hsize, infoRule_empty (s := s.withStale p x) ho hsize]
      apply same_fileComplete
      exacts [hl, State.sameButStale_withStale hp hx]
    · rw [infoRule_content ho hsize, infoRule_content (s := s.withStale p x) ho hsize]
      apply same_enter
      exacts [hl, State.sameButStale_withStale hp hx, nofun]

theorem same_rejectChunk (e o : Word) : (rejectChunk e o s).sameButStale (rejectChunk e o t) := by
  obtain ⟨p, x, hp, hx, rfl⟩ := State.sameButStale_iff.1 h
  exact same_fail (s := s.respondNack) hl (State.sameButStale_withStale hp hx) _ _ _

theorem same_chunkRule (payload : List Byte) : (chunkRule payload s).sameButStale (chunkRule payload t) := by
  have hmalformed := same_malformedRequest hl h
  have hreject := same_rejectChunk hl h
  obtain ⟨p, x, hp, hx, rfl⟩ := State.sameButStale_iff.1 h
  cases ho : chunkOperands payload with
  | error required =>
    rw [chunkRule_malformed ho, chunkRule_malformed ho]
    exact hmalformed _ _
  | ok op =>
    by_cases hidx : op.index = s.sess.chunkIdx
    · by_cases hover : s.sess.curSize - s.sess.bytesDone < op.size.setWidth 32
      · rw [chunkRule_overrun ho hidx hover, chunkRule_overrun (s := s.withStale p x) ho hidx hover]
        exact hreject _ _
      · by_cases hend : s.sess.bytesDone + op.size.setWidth 32 = s.sess.curSize
        · rw [chunkRule_last ho hidx hover hend, chunkRule_last (s := s.withStale p x) ho hidx hover hend]
          apply same_fileComplete
          exacts [hl, State.sameButStale_withStale hp hx]
        · rw [chunkRule_unfinished ho hidx hover hend, chunkRule_unfinished (s := s.withStale p x) ho hidx hover hend]
          apply same_enter
          exacts [hl, State.sameButStale_withStale hp hx, nofun]
    · rw [chunkRule_wrongIndex ho hidx, chunkRule_wrongIndex (s := s.withStale p x) ho hidx]
      exact hreject _ _

theorem same_fileDataRule (payload : List Byte) : (fileDataRule payload s).sameButStale (fileDataRule payload t) := by
  have hinfo := same_infoRule hl h payload
  have hchunk := same_chunkRule hl h payload
  obtain ⟨p, x, hp, hx, rfl⟩ := State.sameButStale_iff.1 h
  cases hsub : s.xsub with
  | info => rwa [fileDataRule_info hsub, fileDataRule_info (s := s.withStale p x) hsub]
  | chunks => rwa [fileDataRule_chunks hsub, fileDataRule_chunks (s := s.withStale p x) hsub]

theorem same_fileEndRule (payload : List Byte) : (fileEndRule payload s).sameButStale (fileEndRule payload t) := by
  obtain ⟨p, x, hp, hx, rfl⟩ := State.sameButStale_iff.1 h
  exact same_enter (s := s.respondAck) hl (State.sameButStale_withStale hp hx) nofun

theorem same_ackAccepted : (ackAccepted s).sameButStale (ackAccepted t) := by
  have hfinish := same_finish h
  obtain ⟨p, x, hp, hx, rfl⟩ := State.sameButStale_iff.1 h
  by_cases h1 : s.phase = .sendingHandshake
  · rw [ackAccepted_handshake h1, ackAccepted_handshake (s := s.withStale p x) h1]
    apply same_enter
    exacts [hl, State.sameButStale_withStale hp hx, nofun]
  by_cases h2 : s.phase = .sendingFileList
  · by_cases hc : s.sess.pendCount = 0#8
    · rwa [ackAccepted_noFiles h2 hc, ackAccepted_noFiles (s := s.withStale p x) h2 hc]
    · rw [ackAccepted_files h2 hc, ackAccepted_files (s := s.withStale p x) h2 hc]
      apply same_enter
      exacts [hl, State.sameButStale_withStale hp hx, nofun]
  by_cases hsub : s.phase = .transferringFile ∧ s.xsub = .info
  · rw [ackAccepted_info hsub.1 hsub.2, ackAccepted_info (s := s.withStale p x) hsub.1 hsub.2]
    by_cases hsize : s.sess.curSize = 0#32
    · rw [if_pos hsize, if_pos (by exact hsize)]
      apply same_fileComplete
      exacts [hl, State.sameButStale_withStale hp hx]
    · rw [if_neg hsize, if_neg (by exact hsize)]
      apply same_enter
      exacts [hl, State.sameButStale_withStale hp hx, nofun]
  · rw [ackAccepted_counts ⟨h1, h2⟩ hsub, ackAccepted_counts (s := s.withStale p x) ⟨h1, h2⟩ hsub]
    by_cases hend : s.sess.bytesDone + s.sess.txN.setWidth 32 = s.sess.curSize
    · rw [if_pos hend, if_pos (by exact hend)]
      apply same_fileComplete
      exacts [hl, State.sameButStale_withStale hp hx]
    · rw [if_neg hend, if_neg (by exact hend)]
      apply same_enter
      exacts [hl, State.sameButStale_withStale hp hx, nofun]

omit hl in
theorem same_recover (code : ErrCode) (e o : Word) : (s.recover code e o).sameButStale (t.recover code e o) := by
  obtain ⟨p, x, hp, hx, rfl⟩ := State.sameButStale_iff.1 h
  exact State.sameButStale_withStale (s := s.recover code e o) hp hx

theorem same_ackRule (payload : List Byte) : (ackRule payload s).sameButStale (ackRule payload t) := by
  by_cases hlen : payload.length = 0
  · rw [ackRule_accepted hlen, ackRule_accepted hlen]
    exact same_ackAccepted hl h
  · rw [ackRule_payload hlen, ackRule_payload hlen]
    exact same_recover h _ _ _

/-- A NACK stops a request that is outstanding, so the kept frame is the same one. -/
theorem same_nackRule (ha : s.act = .wrsp) (payload : List Byte) :
    (nackRule payload s).sameButStale (nackRule payload t) := by
  by_cases hlen : payload.length = 0
  · rw [nackRule_accepted hlen, nackRule_accepted hlen]
    obtain ⟨p, x, hp, hx, rfl⟩ := State.sameButStale_iff.1 h
    exact same_enter (s := s.irqSet .nack) hl (State.sameButStale_withStale hp hx) fun _ => hx (.inl ha)
  · rw [nackRule_payload hlen, nackRule_payload hlen]
    exact same_recover h _ _ _

/-- A request just sent is the same in both. -/
theorem same_request (f : List Byte) (n : Half) :
    (State.enter .wrsp { s.emitRequest f with sess.txN := n }).sameButStale
      (State.enter .wrsp { t.emitRequest f with sess.txN := n }) := by
  obtain ⟨p, x, hp, hx, rfl⟩ := State.sameButStale_iff.1 h
  apply same_enter
  exacts [hl, State.sameButStale_withStale hp fun _ => rfl, fun _ => rfl]

end

/-- ABORT is latched wherever it is not honoured at once. -/
theorem execAbort_inside {s : State} (ha : s.phase.active = true)
    (hb : ¬ (s.act = .txreq ∨ s.act = .wsrc ∨ s.act = .whost ∨ s.act = .adv)) :
    execAbort s = .next { s with abortReq := true } := (if_pos ha).trans (if_neg hb)

/-! #### The outcomes of a step -/

/-- Two steps go to next states that differ only in stale contents, or stop alike. -/
inductive SameOut : Out → Out → Prop where
  | next {s t : State} (h : s.sameButStale t) : SameOut (.next s) (.next t)
  | fault (f : Fault) : SameOut (.fault f) (.fault f)
  | refused (r : Refusal) : SameOut (.refused r) (.refused r)

section
variable {s t : State} (hl : s.cfg.legal = true) (h : s.sameButStale t)
include hl h

theorem same_unexpectedFrame (cmd : Byte) : SameOut (s.unexpectedFrame cmd) (t.unexpectedFrame cmd) := by
  obtain ⟨p, x, hp, hx, rfl⟩ := State.sameButStale_iff.1 h
  have hact : (s.withStale p x).act = s.act := rfl
  unfold State.unexpectedFrame
  rw [hact]
  cases s.act with
  | wreq => exact .next (same_fail (s := s.respondNack) hl (State.sameButStale_withStale hp hx) _ _ _)
  | wrsp => exact .next (same_fail hl h _ _ _)
  | none | txreq | wsrc | whost | adv => exact .refused _

theorem same_badFrame (code : ErrCode) (e o : Word) : SameOut (s.badFrame code e o) (t.badFrame code e o) := by
  have hrecover := same_recover h code e o
  obtain ⟨p, x, hp, hx, rfl⟩ := State.sameButStale_iff.1 h
  have hact : (s.withStale p x).act = s.act := rfl
  unfold State.badFrame
  rw [hact]
  cases s.act with
  | wreq =>
    exact .next (same_enter (s := (s.recover code e o).respondNack) hl (State.sameButStale_withStale hp hx) nofun)
  | wrsp => exact .next hrecover
  | none | txreq | wsrc | whost | adv => exact .refused _

theorem same_onRequest (cmd : Byte) {rule : State → State} (hrule : (rule s).sameButStale (rule t)) :
    SameOut (s.onRequest cmd rule) (t.onRequest cmd rule) := by
  have hother := same_unexpectedFrame hl h cmd
  obtain ⟨p, x, hp, hx, rfl⟩ := State.sameButStale_iff.1 h
  by_cases hc : s.act = .wreq ∧ cmd ∈ expected s.cfg s.phase
  · rw [State.onRequest, State.onRequest, if_pos hc, if_pos (by exact hc)]
    exact .next hrule
  · rw [State.onRequest, State.onRequest, if_neg hc, if_neg (by exact hc)]
    exact hother

theorem same_onAnswer (cmd : Byte) {rule : State → State} (hrule : s.act = .wrsp → (rule s).sameButStale (rule t)) :
    SameOut (s.onAnswer cmd rule) (t.onAnswer cmd rule) := by
  have hother := same_unexpectedFrame hl h cmd
  obtain ⟨p, x, hp, hx, rfl⟩ := State.sameButStale_iff.1 h
  by_cases hc : s.act = .wrsp
  · rw [State.onAnswer, State.onAnswer, if_pos hc, if_pos (by exact hc)]
    exact .next (hrule hc)
  · rw [State.onAnswer, State.onAnswer, if_neg hc, if_neg (by exact hc)]
    exact hother

theorem same_execStart : SameOut (execStart s) (execStart t) := by
  obtain ⟨p, x, hp, hx, rfl⟩ := State.sameButStale_iff.1 h
  cases ha : s.phase.active with
  | true =>
    rw [execStart_active ha, execStart_active (s := s.withStale p x) ha]
    exact .next h
  | false =>
    cases hi : s.conf.initiator with
    | true =>
      rw [execStart_initiator ha hi, execStart_initiator (s := s.withStale p x) ha hi]
      refine .next ?_
      apply State.sameButStale_withStale
      exacts [hp, fun hw => hw.elim nofun nofun]
    | false =>
      rw [execStart_responder ha hi, execStart_responder (s := s.withStale p x) ha hi]
      refine .next ?_
      apply State.sameButStale_withStale
      exacts [SameParser.of_rest hl ⟨rfl, rfl⟩ ⟨rfl, rfl⟩, fun hw => hw.elim nofun nofun]

theorem same_execAbort : SameOut (execAbort s) (execAbort t) := by
  have hfail := same_fail hl h .aborted 0#32 0#32
  obtain ⟨p, x, hp, hx, rfl⟩ := State.sameButStale_iff.1 h
  cases ha : s.phase.active with
  | true =>
    by_cases hb : s.act = .txreq ∨ s.act = .wsrc ∨ s.act = .whost ∨ s.act = .adv
    · rw [execAbort_now ha hb, execAbort_now (s := s.withStale p x) ha hb]
      exact .next hfail
    · rw [execAbort_inside ha hb, execAbort_inside (s := s.withStale p x) ha hb]
      refine .next ?_
      apply State.sameButStale_withStale
      exacts [hp, hx]
  | false =>
    rw [execAbort_inactive ha, execAbort_inactive (s := s.withStale p x) ha]
    exact .next h

/-- RETRY re-emits the frame kept for a request that is outstanding. -/
theorem same_execRetry : SameOut (execRetry s) (execRetry t) := by
  obtain ⟨p, x, hp, hx, rfl⟩ := State.sameButStale_iff.1 h
  by_cases ha : s.act = .whost
  · obtain rfl := hx (.inr ha)
    rw [execRetry, execRetry, if_pos ha, if_pos (by exact ha)]
    exact .next (same_request hl h s.txbuf s.sess.txN)
  · rw [execRetry_ignored ha, execRetry_ignored (s := s.withStale p x) ha]
    exact .next h

theorem same_exec (i : Instr) : SameOut (exec i s) (exec i t) := by
  have hcfg : t.cfg = s.cfg := by rw [h.1]
  cases i with
  | handshake p =>
    simp only [exec, execHandshake, hcfg]
    exact same_onRequest hl h _ (same_handshakeRule hl h p)
  | fileList p =>
    simp only [exec, execFileList, hcfg]
    exact same_onRequest hl h _ (same_fileListRule hl h p)
  | fileDataInfo p =>
    simp only [exec, execFileDataInfo, hcfg]
    exact same_onRequest hl h _ (same_fileDataRule hl h p)
  | fileDataChunk p =>
    simp only [exec, execFileDataChunk, hcfg]
    exact same_onRequest hl h _ (same_fileDataRule hl h p)
  | fileEnd p =>
    simp only [exec, execFileEnd, hcfg]
    exact same_onRequest hl h _ (same_fileEndRule hl h p)
  | ack p =>
    simp only [exec, execAck, hcfg]
    exact same_onAnswer hl h _ fun _ => same_ackRule hl h p
  | nack p =>
    simp only [exec, execNack, hcfg]
    exact same_onAnswer hl h _ fun ha => same_nackRule hl h ha p
  | start => exact same_execStart hl h
  | abort => exact same_execAbort hl h
  | retry => exact same_execRetry hl h

theorem same_onOutcome (o : ParseOutcome) : SameOut (onOutcome o s) (onOutcome o t) := by
  have hcfg : t.cfg = s.cfg := by rw [h.1]
  have hsub : t.xsub = s.xsub := by rw [h.1]
  cases o with
  | badMagic m =>
    simp only [onOutcome, hcfg]
    exact same_badFrame hl h _ _ _
  | csumBad c k => exact same_badFrame hl h _ _ _
  | frame cmd len p =>
    simp only [onOutcome, hcfg, hsub]
    cases decodeBody s.cfg s.xsub cmd p with
    | some i => exact same_exec hl h i
    | none => exact same_unexpectedFrame hl h cmd

end

/-! #### Parsing -/

/-- Parsing is a function: what one of the cases of `Parsed` says is what it does, since the guards of the cases exclude
each other. -/
theorem parseByte_of_parsed {b : Byte} {s u : State} {o : Option ParseOutcome} (hl : s.cfg.legal = true)
    (h : Parsed b s u o) : parseByte b s = (u, o) := by
  have hp := parseByte_parsed hl b
  generalize parseByte b s = r at hp
  obtain ⟨v, q⟩ := r
  simp only at hp
  cases h <;> cases hp <;> simp_all

theorem Header.eq_of_bytes {h k : Header} (e : h.bytes = k.bytes) : h = k := by
  cases h
  cases k
  simpa [Header.bytes] using e

section
variable {s : State} {p : Parser} (hl : s.cfg.legal = true) (hp : SameParser s.cfg s.parser p) (b : Byte)
include hl hp

/-- Two parsers that collected the same five bytes make the same header with the sixth. -/
theorem SameParser.headerEnd (h : s.parser.headerStage s.cfg = true) (hc : s.parser.hc + 1#3 = 6#3) :
    s.parser.hdr.set s.parser.hc.toNat b = p.hdr.set p.hc.toNat b := by
  apply Header.eq_of_bytes
  rw [collected_headerEnd hl h hc, collected_headerEnd hl (hp.headerStage.trans h) (by rw [hp.1]; exact hc), hp.2.2.1]

omit hl in
/-- In the payload stage they hold the same header and the same payload so far. -/
theorem SameParser.payload (h : s.parser.headerStage s.cfg = false) :
    p.hdr = s.parser.hdr ∧ Memory.readN p.paybuf 0 p.pcnt.toNat = Memory.readN s.parser.paybuf 0 s.parser.pcnt.toNat := by
  have hcoll := hp.2.2.1
  rw [Parser.collected_payload h, Parser.collected_payload (hp.headerStage.trans h)] at hcoll
  obtain ⟨hbytes, hpayload⟩ := List.append_inj hcoll rfl
  exact ⟨Header.eq_of_bytes hbytes, hpayload⟩

/-- The same byte does the same to them. -/
theorem SameParser.parsed {u : State} {o : Option ParseOutcome} (h : Parsed b s u o) (x : List Byte)
    (hm : Memory.wf s.parser.paybuf) (hm' : Memory.wf p.paybuf)
    (hroom : s.parser.headerStage s.cfg = true ∨ s.parser.pcnt.toNat < 65535) :
    ∃ q, SameParser s.cfg u.parser q ∧ Parsed b (s.withStale p x) (u.withStale q x) o := by
  have hstage := hp.headerStage
  have hheader := hp.headerEnd hl b
  have hpayload := hp.payload
  have hsame := hp
  obtain ⟨hhc, hpcnt, hcoll, hfields⟩ := hp
  have hcount (h : s.parser.headerStage s.cfg = false) :
      (s.parser.pcnt + 1#16).toNat = s.parser.pcnt.toNat + 1 := by
    have := hroom.resolve_left (ne_true_of_eq_false h)
    bv_omega
  cases h with
  | header h hc =>
    have h' := hstage.trans h
    have hc' : p.hc + 1#3 ≠ 6#3 := by rwa [hhc]
    refine ⟨{ p with hdr := p.hdr.set p.hc.toNat b, hc := p.hc + 1#3 }, ⟨?_, hpcnt, ?_, fun hf => ?_⟩,
      Parsed.header (s := s.withStale p x) h' hc'⟩
    · rw [hhc]
    · rw [Parser.collected_afterHeaderByte hl h' hc', Parser.collected_afterHeaderByte hl h hc, hcoll]
    · rw [Parser.headerStage_next hl h hc rfl] at hf
      cases hf
  | headerEnd hdr h hc hh hmagic hlen =>
    refine ⟨{ p with
      hdr := hdr, hc := 6#3, pcnt := 0#16, pcmd := byteAt hdr.bytes 2, plen := le16 hdr.bytes 3, pcsum := byteAt hdr.bytes 5 },
      ⟨rfl, rfl, ?_, fun _ => ⟨rfl, rfl, rfl⟩⟩,
      Parsed.headerEnd (s := s.withStale p x) hdr (hstage.trans h) (by rw [← hc, ← hhc]; rfl)
        (hh.trans (hheader h hc)) hmagic hlen⟩
    rw [Parser.collected_payload (Parser.headerStage_full hl rfl), Parser.collected_payload (Parser.headerStage_full hl rfl)]
    rfl
  | payload h hc =>
    have h' := hstage.trans h
    have hcount' : (p.pcnt + 1#16).toNat = p.pcnt.toNat + 1 := by rw [hpcnt, hcount h]
    refine ⟨{ p with paybuf := Memory.write p.paybuf p.pcnt.toNat b, pcnt := p.pcnt + 1#16 },
      ⟨hhc, ?_, ?_, hfields⟩, Parsed.payload (s := s.withStale p x) h' ?_⟩
    · rw [hpcnt]
    · rw [Parser.collected_afterPayloadByte h' hm' hcount', Parser.collected_afterPayloadByte h hm (hcount h), hcoll]
    · show p.pcnt + 1#16 ≠ p.plen
      rwa [hpcnt, (hfields h).1]
  | badMagic hdr h hc hh hmagic =>
    exact ⟨{ p with hdr := hdr, hc := 0#3, pcnt := 0#16 }, SameParser.of_rest hl ⟨rfl, rfl⟩ ⟨rfl, rfl⟩,
      Parsed.badMagic (s := s.withStale p x) hdr (hstage.trans h) (by rw [← hc, ← hhc]; rfl) (hh.trans (hheader h hc)) hmagic⟩
  | emptyFrame hdr h hc hh hmagic hlen =>
    exact ⟨p.finished hdr 0#16 (byteAt hdr.bytes 2) (byteAt hdr.bytes 5) p.paybuf,
      SameParser.of_rest hl ⟨rfl, rfl⟩ ⟨rfl, rfl⟩,
      Parsed.emptyFrame (s := s.withStale p x) hdr (hstage.trans h) (by rw [← hc, ← hhc]; rfl) (hh.trans (hheader h hc))
        hmagic hlen⟩
  | fullFrame m h hc hmem =>
    have h' := hstage.trans h
    obtain ⟨hplen, hpcmd, hpcsum⟩ := hfields h
    have hread : Memory.readN (Memory.write p.paybuf p.pcnt.toNat b) 0 p.plen.toNat =
        Memory.readN m 0 s.parser.plen.toNat := by
      rw [hplen, ← hc, hcount h, hmem, readN_write_next hm, hpcnt, readN_write_next hm', ← (hpayload h).2, hpcnt]
    have hfull := Parsed.fullFrame (b := b) (s := s.withStale p x) _ h' (by
      show p.pcnt + 1#16 = p.plen
      rw [hpcnt, hplen, hc]) rfl
    refine ⟨p.finished p.hdr p.plen p.pcmd p.pcsum (Memory.write p.paybuf p.pcnt.toNat b),
      SameParser.of_rest hl ⟨rfl, rfl⟩ ⟨rfl, rfl⟩, ?_⟩
    rw [← hread, ← hplen, ← hpcmd, ← hpcsum]
    exact hfull

end

end Sys2Proof.Machine

namespace Sys2Proof.Machine

/-! #### Stale contents: the events -/

/-- A timeout's context reads only counted contents. -/
theorem SameParser.progress {c : Config} {p q : Parser} (h : SameParser c p q) : q.progress c = p.progress c := by
  have hstage := h.headerStage
  obtain ⟨hhc, hpcnt, -, hfields⟩ := h
  unfold Parser.progress
  rw [hstage, hhc, hpcnt]
  cases hs : p.headerStage c with
  | true => rfl
  | false => rw [(hfields hs).1]

/-- A tick of a handshake phase runs the handshake budget. -/
theorem tickStep_handshake {s : State} (hp : s.phase.handshake = true) :
    tickStep s = if tickDown s.hsTimer = 0#32 then handshakeExpiry { s with hsTimer := tickDown s.hsTimer }
      else { s with hsTimer := tickDown s.hsTimer } := if_pos hp

/-- A tick of a frame wait outside the handshake phases runs the frame timer. -/
theorem tickStep_frame {s : State} (hp : s.phase.handshake = false) (hw : s.act.waits = true) :
    tickStep s = if tickDown s.frTimer = 0#32 then frameExpiry { s with frTimer := tickDown s.frTimer }
      else { s with frTimer := tickDown s.frTimer } := (if_neg (ne_true_of_eq_false hp)).trans (if_pos hw)

section
variable {s t : State} (hl : s.cfg.legal = true) (h : s.sameButStale t)
include hl h

theorem same_receiveByte (b : Byte) (hm : Memory.wf s.parser.paybuf) (hm' : Memory.wf t.parser.paybuf) :
    SameOut (receiveByte b s) (receiveByte b t) := by
  obtain ⟨p, x, hp, hx, rfl⟩ := State.sameButStale_iff.1 h
  have hguard : (!(s.withStale p x).parser.headerStage s.cfg && !paybufImplemented s.cfg (s.withStale p x).parser.pcnt.toNat) =
      (!s.parser.headerStage s.cfg && !paybufImplemented s.cfg s.parser.pcnt.toNat) := by
    show (!p.headerStage s.cfg && !paybufImplemented s.cfg p.pcnt.toNat) = _
    rw [hp.headerStage, hp.2.1]
  unfold receiveByte
  rw [show (s.withStale p x).cfg = s.cfg from rfl, hguard]
  by_cases hg : (!s.parser.headerStage s.cfg && !paybufImplemented s.cfg s.parser.pcnt.toNat) = true
  · rw [if_pos hg, if_pos hg]
    exact .fault _
  · rw [if_neg hg, if_neg hg]
    have hroom : s.parser.headerStage s.cfg = true ∨ s.parser.pcnt.toNat < 65535 := by
      refine parser_bound hl ?_
      simpa [or_iff_not_imp_left] using hg
    have hparsed := parseByte_parsed hl b
    generalize hr : parseByte b s = r at hparsed
    obtain ⟨u, o⟩ := r
    replace hparsed : Parsed b s u o := hparsed
    obtain ⟨q, hq, hparsed'⟩ := hp.parsed hl b hparsed x hm hm' hroom
    rw [parseByte_of_parsed (s := s.withStale p x) hl hparsed']
    have hframe := hparsed.frame
    have hux : u.awaitsAnswer → x = u.txbuf := by
      rw [hframe]
      exact hx
    have hucfg : u.cfg = s.cfg := by rw [hframe]
    rw [← hucfg] at hq
    cases o with
    | none => exact .next (State.sameButStale_withStale hq hux)
    | some o => exact same_onOutcome (hucfg ▸ hl) (State.sameButStale_withStale hq hux) o

theorem same_rxByteStep (hm : Memory.wf s.parser.paybuf) (hm' : Memory.wf t.parser.paybuf) :
    SameOut (rxByteStep s) (rxByteStep t) := by
  obtain ⟨p, x, hp, hx, rfl⟩ := State.sameButStale_iff.1 h
  have hconsumes : (s.withStale p x).consumes = s.consumes := rfl
  have hrxq : (s.withStale p x).port.rxq = s.port.rxq := rfl
  unfold rxByteStep
  rw [hconsumes, hrxq]
  by_cases hc : s.consumes = true
  · rw [if_pos hc, if_pos hc]
    cases s.port.rxq with
    | nil => exact .next h
    | cons b q =>
      refine same_receiveByte (s := { s with port.rxq := q }) hl ?_ b hm hm'
      exact State.sameButStale_withStale (s := { s with port.rxq := q }) hp hx
  · rw [if_neg hc, if_neg hc]
    exact .next h

theorem same_handshakeExpiry : (handshakeExpiry s).sameButStale (handshakeExpiry t) := by
  obtain ⟨p, x, hp, hx, rfl⟩ := State.sameButStale_iff.1 h
  have hprogress : (s.withStale p x).parser.progress (s.withStale p x).cfg = s.parser.progress s.cfg := hp.progress
  unfold handshakeExpiry
  rw [hprogress]
  exact same_fail hl h _ _ _

theorem same_frameExpiry : (frameExpiry s).sameButStale (frameExpiry t) := by
  obtain ⟨p, x, hp, hx, rfl⟩ := State.sameButStale_iff.1 h
  have hprogress : (s.withStale p x).parser.progress (s.withStale p x).cfg = s.parser.progress s.cfg := hp.progress
  unfold frameExpiry
  rw [hprogress]
  by_cases hc : s.phase = .transferringFile ∧ s.xsub = .chunks ∧ s.conf.send = false
  · rw [if_pos hc, if_pos (by exact hc)]
    exact same_fail hl h _ _ _
  · rw [if_neg hc, if_neg (by exact hc)]
    exact same_fail hl h _ _ _

theorem same_tickStep : (tickStep s).sameButStale (tickStep t) := by
  obtain ⟨p, x, hp, hx, rfl⟩ := State.sameButStale_iff.1 h
  cases hh : s.phase.handshake with
  | true =>
    rw [tickStep_handshake hh, tickStep_handshake (s := s.withStale p x) hh]
    by_cases hz : tickDown s.hsTimer = 0#32
    · rw [if_pos hz, if_pos (by exact hz)]
      apply same_handshakeExpiry
      exacts [hl, State.sameButStale_withStale hp hx]
    · rw [if_neg hz, if_neg (by exact hz)]
      apply State.sameButStale_withStale
      exacts [hp, hx]
  | false =>
    cases hw : s.act.waits with
    | true =>
      rw [tickStep_frame hh hw, tickStep_frame (s := s.withStale p x) hh hw]
      by_cases hz : tickDown s.frTimer = 0#32
      · rw [if_pos hz, if_pos (by exact hz)]
        apply same_frameExpiry
        exacts [hl, State.sameButStale_withStale hp hx]
      · rw [if_neg hz, if_neg (by exact hz)]
        apply State.sameButStale_withStale
        exacts [hp, hx]
    | false =>
      rw [tickStep_noTimer hh hw, tickStep_noTimer (s := s.withStale p x) hh hw]
      exact h

omit hl in
/-- A host read answers the same value. -/
theorem same_hostReadStep (w : Nat) (a : BitVec 16) : SameOut (hostReadStep w a s) (hostReadStep w a t) := by
  obtain ⟨p, x, hp, hx, rfl⟩ := State.sameButStale_iff.1 h
  have hview : (s.withStale p x).parserView = s.parserView := by
    show (if p.headerStage s.cfg then p.hc.setWidth 32 else 0#15 ++ 1#1 ++ p.pcnt) = _
    rw [hp.headerStage, hp.1, hp.2.1]
    rfl
  have hvalue (loc : HifLoc) : (s.withStale p x).hifValue loc = s.hifValue loc := by
    cases loc with
    | parser => exact hview
    | _ => rfl
  unfold hostReadStep
  rw [hvalue]
  by_cases hd : accessDefined w a = true
  · rw [if_pos hd, if_pos hd]
    refine .next ?_
    apply State.sameButStale_withStale
    exacts [hp, hx]
  · rw [if_neg hd, if_neg hd]
    exact .refused _

omit hl in
theorem same_writeConf (v : Word) (loc : HifLoc) : (s.writeConf v loc).sameButStale (t.writeConf v loc) := by
  obtain ⟨p, x, hp, hx, rfl⟩ := State.sameButStale_iff.1 h
  cases loc <;> exact State.sameButStale_withStale (s := s.writeConf v _) hp hx

theorem same_hifWrite (v : Word) (loc : HifLoc) : SameOut (s.hifWrite v loc) (t.hifWrite v loc) := by
  have hexec := same_exec hl h
  have hconf := same_writeConf h v
  obtain ⟨p, x, hp, hx, rfl⟩ := State.sameButStale_iff.1 h
  by_cases h1 : loc = .cmd
  · subst h1
    unfold State.hifWrite
    cases decodeCommand v with
    | ok i => exact hexec i
    | error r => exact .next h
  by_cases h2 : loc = .irqStatus
  · subst h2
    exact .next (State.sameButStale_withStale (s := s.irqClear (v.extractLsb' 0 5)) hp hx)
  by_cases h3 : loc = .irqEnable
  · subst h3
    exact .next (State.sameButStale_withStale (s := { s with irqEnable := v.extractLsb' 0 5 }) hp hx)
  · rw [State.hifWrite_locked h1 h2 h3, State.hifWrite_locked h1 h2 h3]
    by_cases ha : s.phase.active = true
    · rw [if_pos ha, if_pos (by exact ha)]
      exact .next h
    · rw [if_neg ha, if_neg (by exact ha)]
      exact .next (hconf loc)

theorem same_hostWriteStep (w : Nat) (a : BitVec 16) (v : Word) :
    SameOut (hostWriteStep w a v s) (hostWriteStep w a v t) := by
  have hcfg : t.cfg = s.cfg := by rw [h.1]
  unfold hostWriteStep
  rw [hcfg]
  by_cases hd : accessDefined w a = true
  · rw [if_pos hd, if_pos hd]
    exact same_hifWrite hl h v _
  · rw [if_neg hd, if_neg hd]
    exact .refused _

theorem same_srcRespStep (d : List Byte) : SameOut (srcRespStep d s) (srcRespStep d t) := by
  obtain ⟨p, x, hp, hx, rfl⟩ := State.sameButStale_iff.1 h
  by_cases hc : s.srcPending = true ∧ s.act = .wsrc ∧ d.length = s.chunkLen
  · rw [srcRespStep_answered hc.1 hc.2.1 hc.2.2, srcRespStep_answered (s := s.withStale p x) hc.1 hc.2.1 hc.2.2]
    refine .next ?_
    apply same_request
    exacts [hl, State.sameButStale_withStale (s := { s with srcPending := false }) hp hx]
  · rw [srcRespStep, srcRespStep, if_neg hc, if_neg (by exact hc)]
    exact .refused _

theorem same_sendInfo : SameOut (sendInfo s) (sendInfo t) := by
  obtain ⟨p, x, hp, hx, rfl⟩ := State.sameButStale_iff.1 h
  by_cases hptr : s.sess.filePtr.toNat < s.cfg.maxFiles
  · rw [sendInfo, sendInfo, if_pos hptr, if_pos (by exact hptr)]
    refine .next ?_
    apply same_request
    · exact hl
    · apply State.sameButStale_withStale
      exacts [hp, hx]
  · rw [sendInfo, sendInfo, if_neg hptr, if_neg (by exact hptr)]
    exact .fault _

theorem same_sendChunkRequest : (sendChunkRequest s).sameButStale (sendChunkRequest t) := by
  have hfail := same_fail hl h .aborted 0#32 0#32
  obtain ⟨p, x, hp, hx, rfl⟩ := State.sameButStale_iff.1 h
  cases hab : s.abortReq with
  | true => rwa [sendChunkRequest_aborted hab, sendChunkRequest_aborted (s := s.withStale p x) hab]
  | false =>
    rw [sendChunkRequest_asked hab, sendChunkRequest_asked (s := s.withStale p x) hab]
    apply State.sameButStale_withStale
    exacts [hp, fun hw => hw.elim nofun nofun]

theorem same_advStep : (advStep s).sameButStale (advStep t) := by
  obtain ⟨p, x, hp, hx, rfl⟩ := State.sameButStale_iff.1 h
  cases hm : s.conf.single with
  | true =>
    rw [advStep_single hm, advStep_single (s := s.withStale p x) hm]
    apply same_enter
    exacts [hl, State.sameButStale_withStale hp hx, fun ha => by
      cases hsend : s.conf.send <;>
        rw [hsend] at ha <;> exact ha.elim nofun nofun]
  | false =>
    cases hd : s.conf.send with
    | true =>
      rw [advStep_listSender hm hd, advStep_listSender (s := s.withStale p x) hm hd]
      apply same_enter
      exacts [hl, State.sameButStale_withStale hp hx, fun ha => ha.elim nofun nofun]
    | false =>
      rw [advStep_listReceiver hm hd, advStep_listReceiver (s := s.withStale p x) hm hd]
      apply same_enter
      exacts [hl, State.sameButStale_withStale hp hx, fun ha => ha.elim nofun nofun]

theorem same_internalStep : SameOut (internalStep s) (internalStep t) := by
  have hadv := same_advStep hl h
  have hinfo := same_sendInfo hl h
  have hchunk := same_sendChunkRequest hl h
  obtain ⟨p, x, hp, hx, rfl⟩ := State.sameButStale_iff.1 h
  have hact : (s.withStale p x).act = s.act := rfl
  have hphase : (s.withStale p x).phase = s.phase := rfl
  have hsub : (s.withStale p x).xsub = s.xsub := rfl
  unfold internalStep
  rw [hact, hphase, hsub]
  cases s.act with
  | adv =>
    by_cases hp : s.phase = .handshakeDone
    · simp only [if_pos hp]
      exact .next hadv
    · simp only [if_neg hp]
      exact .fault _
  | txreq =>
    cases s.phase with
    | sendingHandshake => exact .next (same_request hl h _ _)
    | sendingFileList => exact .next (same_request hl h _ _)
    | transferringFile =>
      cases s.xsub with
      | info => exact hinfo
      | chunks => exact .next hchunk
    | idle | awaitingHandshake | handshakeDone | awaitingFileList | done | failed => exact .fault _
  | none | wreq | wrsp | wsrc | whost => exact .next h

theorem same_runEvent (e : Event) (hm : Memory.wf s.parser.paybuf) (hm' : Memory.wf t.parser.paybuf) :
    SameOut (runEvent e s) (runEvent e t) := by
  cases e with
  | peer b =>
    obtain ⟨p, x, hp, hx, rfl⟩ := State.sameButStale_iff.1 h
    exact .next (State.sameButStale_withStale (s := { s with port.rxq := s.port.rxq ++ [b] }) hp hx)
  | rxByte => exact same_rxByteStep hl h hm hm'
  | tick => exact .next (same_tickStep hl h)
  | hostWrite w a v => exact same_hostWriteStep hl h w a v
  | hostRead w a => exact same_hostReadStep h w a
  | srcResp d => exact same_srcRespStep hl h d
  | reset u =>
    obtain ⟨p, x, -, -, rfl⟩ := State.sameButStale_iff.1 h
    exact .next (State.sameButStale_refl (resetStep u s))
  | internal => exact same_internalStep hl h

end

theorem same_step {s t : State} (h : s.sameButStale t) (hm : Memory.wf s.parser.paybuf)
    (hm' : Memory.wf t.parser.paybuf) : SameOut (step s) (step t) := by
  obtain ⟨p, x, hp, hx, rfl⟩ := State.sameButStale_iff.1 h
  cases hl : s.cfg.legal with
  | true =>
    cases he : s.port.events with
    | nil =>
      rw [step_idle hl he, step_idle (s := s.withStale p x) hl he]
      exact same_internalStep hl h
    | cons e es =>
      rw [step_event hl he, step_event (s := s.withStale p x) hl he]
      exact same_runEvent (s := { s with port.events := es }) hl
        (State.sameButStale_withStale (s := { s with port.events := es }) hp hx) e hm hm'
  | false =>
    rw [step, step, stepOnce, stepOnce, if_neg (ne_true_of_eq_false hl), if_neg (ne_true_of_eq_false (by exact hl))]
    exact .refused _

/-- Settles O59: no rule reads a stale content, so the two steps go on or stop alike (`same_step`). -/
theorem staleContentsAreNeverObserved : Obligations.StaleContentsAreNeverObserved := by
  intro s t h hm hm'
  have hout := same_step h hm.2.2.2.1 hm'.2.2.2.1
  revert hout
  generalize step s = a
  generalize step t = b
  intro hout
  cases hout with
  | next hsame =>
    refine ⟨fun s' hs => ?_, fun _ hf => (nomatch hf), fun _ hr => (nomatch hr)⟩
    cases hs
    exact ⟨_, rfl, hsame⟩
  | fault f => exact ⟨fun _ hs => (nomatch hs), fun _ hf => hf, fun _ hr => (nomatch hr)⟩
  | refused r => exact ⟨fun _ hs => (nomatch hs), fun _ hf => (nomatch hf), fun _ hr => hr⟩

end Sys2Proof.Machine

namespace Sys2Proof.Machine

/-! ### The parser outside the bytes it reads (spec/40_codec.md section 4) -/

/-- The parser is as it was, or a partial frame in it is dropped by `parser_reset()`. -/
def KeepsParser (s t : State) : Prop :=
  t.parser = s.parser ∨ t.parser = { s.parser with hc := 0#3, pcnt := 0#16 }

theorem KeepsParser.paybuf {s t : State} (h : KeepsParser s t) : t.parser.paybuf = s.parser.paybuf := by
  rcases h with h | h <;> rw [h]

/-- A parser kept or reset stays consistent. -/
theorem KeepsParser.consistent {s t : State} (h : KeepsParser s t) (hl : s.cfg.legal = true) (hcfg : t.cfg = s.cfg)
    (hs : s.parser.consistent s.cfg = true) : t.parser.consistent t.cfg = true := by
  rw [hcfg]
  rcases h with h | h <;> rw [h]
  · exact hs
  · exact (Parser.rest hl rfl rfl).2.1

/-- A parser at rest that is kept or reset is still at rest. -/
theorem KeepsParser.rest {s t : State} (h : KeepsParser s t) (hs : s.parser.hc = 0#3 ∧ s.parser.pcnt = 0#16) :
    t.parser.hc = 0#3 ∧ t.parser.pcnt = 0#16 := by
  rcases h with h | h <;> rw [h]
  · exact hs
  · exact ⟨rfl, rfl⟩

/-- No rule does anything else to the parser. -/
theorem Ruled.keepsParser {u t : State} (h : Ruled u t) : KeepsParser u t := by
  cases h with
  | recorded | emptyList | ackEmptyList => exact .inl rfl
  | refused | unexpectedAnswer => exact .inr rfl
  | emptyFile | lastChunk | ackEmptyFile | ackLastChunk => exact State.fileComplete_parser _
  | restarted | handshake | list | file | chunk | fileEnd | ackHandshake | ackList | ackFile | ackChunk | nack =>
    exact State.enter_parser _ _

theorem Ruled.cfg_eq {u t : State} (h : Ruled u t) : t.cfg = u.cfg := by
  cases h <;> simp

theorem writeConf_parser (s : State) (v : Word) (loc : HifLoc) : (s.writeConf v loc).parser = s.parser := by
  cases loc <;> rfl

theorem writeConf_cfg (s : State) (v : Word) (loc : HifLoc) : (s.writeConf v loc).cfg = s.cfg := by
  cases loc <;> rfl

/-- Where the parser of the next state comes from: a parsed byte, a reset, or the parser before. -/
theorem Moved.parser {e : Event} {s t : State} (h : Moved e s t) :
    KeepsParser s t ∨
    (∃ b q u o, s.consumes = true ∧ Parsed b { s with port.rxq := q } u o ∧
      (s.parser.headerStage s.cfg = true ∨ s.parser.pcnt.toNat < 65535) ∧ KeepsParser u t ∧ (o = none → t = u)) ∨
    ∃ u, t = resetStep u s := by
  cases h with
  | stay | peer | abortLatched | irqClear | irqEnable | hostRead => exact .inl (.inl rfl)
  | parsed b q u hc _ hp hb => exact .inr (.inl ⟨b, q, t, none, hc, hp, hb, .inl rfl, fun _ => rfl⟩)
  | completed b q u t o hc _ hp hb hd => exact .inr (.inl ⟨b, q, u, _, hc, hp, hb, hd.ruled.keepsParser, nofun⟩)
  | tick =>
    obtain ⟨h, f, -, he | ⟨-, code, e, o, -, he⟩⟩ := tickStep_cases s <;> rw [he]
    · exact .inl (.inl rfl)
    · exact .inl (.inr rfl)
  | start => left; split <;> exact State.enter_parser _ _
  | abortNow => exact .inl (.inr rfl)
  | retry | srcResp | sendHandshake | sendFileList => exact .inl (State.enter_parser _ _)
  | configure v a => exact .inl (.inl (writeConf_parser s v _))
  | reset u => exact .inr (.inr ⟨u, rfl⟩)
  | adv =>
    rcases advStep_cases s with ⟨-, he⟩ | ⟨-, -, he⟩ | ⟨-, -, he⟩ <;> rw [he]
    all_goals exact .inl (State.enter_parser _ _)
  | sendInfo t _ _ _ ht =>
    obtain ⟨-, name, f, size, index, -, -, -, -, rfl⟩ := sendInfo_next ht
    exact .inl (State.enter_parser _ _)
  | sendChunk =>
    cases hab : s.abortReq with
    | true => rw [sendChunkRequest_aborted hab]; exact .inl (.inr rfl)
    | false => rw [sendChunkRequest_asked hab]; exact .inl (.inl rfl)

/-- No event writes the parameters. -/
theorem Moved.cfg_eq {e : Event} {s t : State} (h : Moved e s t) : t.cfg = s.cfg := by
  cases h with
  | stay | peer | abortNow | abortLatched | irqClear | irqEnable | hostRead | reset => rfl
  | parsed b q u _ _ hp => exact hp.out_cfg_eq.2
  | completed b q u t o _ _ hp _ hd => exact hd.ruled.cfg_eq.trans hp.out_cfg_eq.2
  | tick =>
    obtain ⟨h, f, -, he | ⟨-, code, e, o, -, he⟩⟩ := tickStep_cases s <;> simp [he]
  | start => split <;> simp
  | retry | srcResp => simp
  | sendHandshake => simp [Machine.sendHandshake]
  | sendFileList => simp [Machine.sendFileList]
  | configure v a => exact writeConf_cfg s v _
  | adv => rcases advStep_cases s with ⟨-, he⟩ | ⟨-, -, he⟩ | ⟨-, -, he⟩ <;> rw [he] <;> simp
  | sendInfo t _ _ _ ht =>
    obtain ⟨-, name, f, size, index, -, -, -, -, rfl⟩ := sendInfo_next ht
    simp
  | sendChunk =>
    cases hab : s.abortReq with
    | true => rw [sendChunkRequest_aborted hab]; rfl
    | false => rw [sendChunkRequest_asked hab]; rfl

theorem Moved.parserConsistent {e : Event} {s t : State} (h : Moved e s t) (hl : s.cfg.legal = true)
    (hs : s.parser.consistent s.cfg = true) : t.parser.consistent t.cfg = true := by
  have hcfg := h.cfg_eq
  rcases h.parser with hk | ⟨b, q, u, o, -, hp, -, hk, -⟩ | ⟨u, rfl⟩
  · exact hk.consistent hl hcfg hs
  · have hu : u.cfg = s.cfg := hp.out_cfg_eq.2
    exact hk.consistent (hu ▸ hl) (hcfg.trans hu.symm) (hp.consistent hl hs)
  · exact (Parser.rest hl rfl rfl).2.1

/-- Settles O44: a parsed byte keeps the parser consistent, and nothing else does more than reset it. -/
theorem parserStaysConsistent : Obligations.ParserStaysConsistent := by
  intro s t h hs
  obtain ⟨hl, e, es, hm, -⟩ := step_moved h
  exact hm.parserConsistent hl hs

/-! ### A partial frame is dropped (spec/40_codec.md R269, 60_exceptions.md R610) -/

theorem State.parserIdle_iff (s : State) :
    s.parserIdle = true ↔ (s.act.waits = false → s.parser.hc = 0#3 ∧ s.parser.pcnt = 0#16) := by
  unfold State.parserIdle
  cases s.act.waits <;> simp

/-- With nothing of a frame held, entering any activity leaves an idle parser. -/
theorem State.parserIdle_enter (s : State) (a : Act) (h : s.parser.hc = 0#3 ∧ s.parser.pcnt = 0#16) :
    (s.enter a).parserIdle = true :=
  (State.parserIdle_iff _).2 fun _ => KeepsParser.rest (s.enter_parser a) h

/-- Entering FAILED empties the parser. -/
theorem State.enter_intoFailed {s : State} {a : Act} (hs : s.phase ≠ .failed) (ht : (s.enter a).phase = .failed) :
    (s.enter a).parser.hc = 0#3 ∧ (s.enter a).parser.pcnt = 0#16 := by
  rcases s.enter_cases a with ⟨-, -, h⟩ | ⟨-, -, h⟩ | ⟨-, -, h⟩ <;> rw [h] at ht ⊢
  · exact ⟨rfl, rfl⟩
  · exact absurd ht hs
  · exact absurd ht hs

/-- A byte that ends a frame leaves the parser at rest. -/
theorem parser_rest_of_completed {b : Byte} {s u t : State} {o : ParseOutcome} (hp : Parsed b s u (some o))
    (hd : Dispatched u t) : t.parser.hc = 0#3 ∧ t.parser.pcnt = 0#16 :=
  hd.ruled.keepsParser.rest hp.outcome.2

theorem writeConf_phase_act (s : State) (v : Word) (loc : HifLoc) :
    (s.writeConf v loc).phase = s.phase ∧ (s.writeConf v loc).act = s.act := (s.writeConf_control v loc).2

theorem Moved.parserIdle {e : Event} {s t : State} (h : Moved e s t) (hcontrol : s.controlInv = true)
    (hs : s.parserIdle = true) : t.parserIdle = true := by
  have hrest : s.act.waits = false → s.parser.hc = 0#3 ∧ s.parser.pcnt = 0#16 := s.parserIdle_iff.1 hs
  have hnot {a : Act} (ha : s.act = a) (hw : a.waits = false) := hrest (ha ▸ hw)
  cases h with
  | stay | peer | abortLatched | irqClear | irqEnable | hostRead => exact hs
  | parsed b q u hc _ hp =>
    refine State.parserIdle_waits ?_
    rw [hp.frame]
    exact (Bool.and_eq_true_iff.1 hc).2
  | completed b q u t o _ _ hp _ hd => exact (State.parserIdle_iff _).2 fun _ => parser_rest_of_completed hp hd
  | tick =>
    obtain ⟨h, f, -, he | ⟨-, code, e, o, -, he⟩⟩ := tickStep_cases s <;> rw [he]
    · exact hs
    · exact State.parserIdle_fail _ _ _ _
  | start ha =>
    have hnone : s.act = .none := by
      by_contra hne
      rw [State.legalTriple_active (s.controlInv_iff.1 hcontrol).1 hne] at ha
      cases ha
    split <;> exact State.parserIdle_enter _ _ (hnot hnone rfl)
  | abortNow => exact State.parserIdle_fail _ _ _ _
  | retry ha => exact State.parserIdle_enter _ _ (hnot ha rfl)
  | srcResp d _ ha => exact State.parserIdle_enter _ _ (hnot ha rfl)
  | configure v a =>
    rw [State.parserIdle, writeConf_parser, (writeConf_phase_act s v _).2]
    exact hs
  | reset u => rfl
  | adv ha =>
    rcases advStep_cases s with ⟨-, he⟩ | ⟨-, -, he⟩ | ⟨-, -, he⟩ <;> rw [he]
    all_goals exact State.parserIdle_enter _ _ (hnot ha rfl)
  | sendHandshake ha | sendFileList ha => exact State.parserIdle_enter _ _ (hnot ha rfl)
  | sendInfo t ha _ _ ht =>
    obtain ⟨-, name, f, size, index, -, -, -, -, rfl⟩ := sendInfo_next ht
    exact State.parserIdle_enter _ _ (hnot ha rfl)
  | sendChunk ha =>
    cases hab : s.abortReq with
    | true =>
      rw [sendChunkRequest_aborted hab]
      exact State.parserIdle_fail _ _ _ _
    | false =>
      rw [sendChunkRequest_asked hab]
      exact (State.parserIdle_iff _).2 fun _ => hnot ha rfl

/-- Every way into FAILED empties the parser. -/
theorem Moved.intoFailed {e : Event} {s t : State} (h : Moved e s t) (hs : s.phase ≠ .failed) (ht : t.phase = .failed) :
    t.parser.hc = 0#3 ∧ t.parser.pcnt = 0#16 := by
  cases h with
  | stay | peer | abortLatched | irqClear | irqEnable | hostRead => exact absurd ht hs
  | parsed b q u _ _ hp =>
    rw [hp.frame] at ht
    exact absurd ht hs
  | completed b q u t o _ _ hp _ hd => exact parser_rest_of_completed hp hd
  | tick =>
    obtain ⟨h, f, -, he | ⟨-, code, e, o, -, he⟩⟩ := tickStep_cases s <;> rw [he] at ht ⊢
    · exact absurd ht hs
    · exact ⟨rfl, rfl⟩
  | start =>
    split at ht <;> rename_i hi <;> simp only [hi, if_true, if_false, Bool.false_eq_true] at ht ⊢
    · exact State.enter_intoFailed nofun ht
    · exact State.enter_intoFailed nofun ht
  | abortNow => exact ⟨rfl, rfl⟩
  | retry | srcResp | sendHandshake | sendFileList => exact State.enter_intoFailed hs ht
  | configure v a =>
    rw [(writeConf_phase_act s v _).1] at ht
    exact absurd ht hs
  | reset u => cases ht
  | adv =>
    rcases advStep_cases s with ⟨-, he⟩ | ⟨-, -, he⟩ | ⟨-, -, he⟩ <;> rw [he] at ht ⊢
    all_goals exact State.enter_intoFailed nofun ht
  | sendInfo t _ _ _ hsend =>
    obtain ⟨-, name, f, size, index, -, -, -, -, rfl⟩ := sendInfo_next hsend
    exact State.enter_intoFailed hs ht
  | sendChunk =>
    cases hab : s.abortReq with
    | true =>
      rw [sendChunkRequest_aborted hab]
      exact ⟨rfl, rfl⟩
    | false =>
      rw [sendChunkRequest_asked hab] at ht
      exact absurd ht hs

/-- A parser at rest shows 0 to the host (10_state.md R82). -/
theorem State.parserView_rest {s : State} (hl : s.cfg.legal = true) (hc : s.parser.hc = 0#3) (hp : s.parser.pcnt = 0#16) :
    s.parserView = 0#32 := by
  rw [State.parserView, if_pos (Parser.rest hl hc hp).1, hc]
  rfl

/-- Settles O60: only a frame wait fills the parser, and the ways out of one, above all the one into FAILED, empty it. -/
theorem partialFrameIsDiscarded : Obligations.PartialFrameIsDiscarded := by
  refine ⟨fun s t h hcontrol hs => ?idle, fun s t h hs ht => ?failed⟩
  case idle =>
    obtain ⟨-, e, es, hm, -⟩ := step_moved h
    exact hm.parserIdle hcontrol hs
  case failed =>
    obtain ⟨hl, e, es, hm, -⟩ := step_moved h
    obtain ⟨hc, hp⟩ := hm.intoFailed hs ht
    exact ⟨hc, hp, State.parserView_rest (hm.cfg_eq ▸ hl) hc hp⟩

end Sys2Proof.Machine

namespace Sys2Proof.Machine

/-! ### Where the cells of a written memory come from (spec/20_memory.md section 1) -/

theorem Memory.mem_writeN {m : Memory} {a : Nat} {bs : List Byte} {c : Host.Cell} (h : c ∈ Memory.writeN m a bs) :
    (a ≤ c.1 ∧ c.1 < a + bs.length) ∨ c ∈ m := by
  induction bs generalizing m a with
  | nil => exact .inr h
  | cons b bs ih =>
    rw [List.length_cons]
    rcases ih h with hin | hin
    · exact .inl (by omega)
    · rcases Memory.mem_write hin with ⟨rfl, -⟩ | hin
      · exact .inl (by simp)
      · exact .inr hin

/-- A memory made of cells lists only addresses of its space. -/
theorem Memory.ofCells_implemented (space : Nat → Bool) (cells : List Host.Cell) :
    ∀ c ∈ Memory.ofCells space cells, space c.1 = true := by
  induction cells with
  | nil => nofun
  | cons d cells ih =>
    obtain ⟨a, b⟩ := d
    rw [Memory.ofCells]
    split
    · intro c hc
      rcases Memory.mem_write hc with ⟨rfl, -⟩ | hc
      · assumption
      · exact ih c hc
    · exact ih

/-! ### Every byte space keeps its canonical form (spec/20_memory.md R150) -/

theorem State.memoryInv_of_same {s t : State} (hs : s.memoryInv) (hcfg : t.cfg = s.cfg) (hdesc : t.desc = s.desc)
    (hrx : t.rxname = s.rxname) (hcur : t.curname = s.curname) (hpay : t.parser.paybuf = s.parser.paybuf) :
    t.memoryInv := by
  rw [State.memoryInv, hcfg, hdesc, hrx, hcur, hpay]
  exact hs

theorem State.memoryInv_enter {s : State} (a : Act) (hs : s.memoryInv) : (s.enter a).memoryInv :=
  State.memoryInv_of_same hs (s.enter_cfg a) (s.enter_desc a) (s.enter_rxname a) (s.enter_curname a)
    (KeepsParser.paybuf (s.enter_parser a))

theorem State.memoryInv_fileComplete {s : State} (hs : s.memoryInv) : s.fileComplete.memoryInv :=
  State.memoryInv_of_same hs s.fileComplete_cfg s.fileComplete_desc s.fileComplete_rxname s.fileComplete_curname
    (KeepsParser.paybuf s.fileComplete_parser)

/-- The slots of an accepted list are as long as a name slot, and no more than its count byte says. -/
theorem fileListOperands_slots {n : Nat} {p : List Byte} {slots : List (List Byte)}
    (h : fileListOperands n p = .ok slots) : (∀ slot ∈ slots, slot.length ≤ n) ∧ slots.length ≤ 255 := by
  have hlen : p.length = 1 + n * (byteAt p 0).toNat := by
    by_contra hne
    by_cases h0 : p.length = 0
    · rw [fileListOperands_empty h0] at h
      cases h
    · rw [fileListOperands_wrongLength h0 hne] at h
      cases h
  rw [fileListOperands_ok hlen] at h
  cases h
  refine ⟨fun _ => length_le_of_mem_nameSlots, ?_⟩
  rw [nameSlots_length]
  exact Nat.lt_succ_iff.1 (byteAt p 0).isLt

/-- The names of a list fit `RXNAME`. -/
theorem storeNames_canonical {c : Config} (hl : c.legal = true) {m : Memory} {p : List Byte} {slots : List (List Byte)}
    (hs : fileListOperands c.nameSlot p = .ok slots)
    (hm : Memory.wf m ∧ Memory.below (c.nameSlot * c.maxFiles) m) :
    Memory.wf (storeNames c m 0 slots) ∧ Memory.below (c.nameSlot * c.maxFiles) (storeNames c m 0 slots) := by
  obtain ⟨hslots, hcount⟩ := fileListOperands_slots hs
  refine ⟨Memory.storeNames_wf hm.1 c 0 slots, Memory.storeNames_below c hm.2 hslots ?_⟩
  rw [(Config.legal_layout hl).2.2, Nat.zero_add]
  exact hcount

/-- A whole name fits `CURNAME`. -/
theorem writeName_canonical {m : Memory} {n : Nat} {name : List Byte} (hname : name.length = n)
    (hm : Memory.wf m ∧ Memory.below n m) :
    Memory.wf (Memory.writeN m 0 name) ∧ Memory.below n (Memory.writeN m 0 name) :=
  ⟨Memory.writeN_wf hm.1 0 name, Memory.writeN_below hm.2 (by omega)⟩

theorem Ruled.memoryInv {u t : State} (h : Ruled u t) (hl : u.cfg.legal = true) (hu : u.memoryInv) : t.memoryInv := by
  obtain ⟨hdesc, hrx, hcur, hpay⟩ := hu
  have hu : u.memoryInv := ⟨hdesc, hrx, hcur, hpay⟩
  cases h with
  | recorded | refused | unexpectedAnswer | ackEmptyList => exact hu
  | restarted | handshake | chunk | fileEnd | ackHandshake | ackList | ackFile | ackChunk | nack =>
    exact State.memoryInv_enter _ hu
  | lastChunk | ackEmptyFile | ackLastChunk => exact State.memoryInv_fileComplete hu
  | emptyList p slots _ _ hs => exact ⟨hdesc, storeNames_canonical hl hs hrx, hcur, hpay⟩
  | list p slots _ _ hs =>
    exact State.memoryInv_enter _ ⟨hdesc, storeNames_canonical hl hs hrx, hcur, hpay⟩
  | emptyFile index name _ _ _ hname =>
    exact State.memoryInv_fileComplete ⟨hdesc, hrx, writeName_canonical hname hcur, hpay⟩
  | file index size name _ _ _ hname =>
    exact State.memoryInv_enter _ ⟨hdesc, hrx, writeName_canonical hname hcur, hpay⟩

/-- A parsed byte is stored inside `PAYBUF`. -/
theorem Parsed.memoryInv {b : Byte} {s u : State} {o : Option ParseOutcome} (h : Parsed b s u o)
    (hl : s.cfg.legal = true) (hb : s.parser.headerStage s.cfg = true ∨ s.parser.pcnt.toNat < 65535)
    (hs : s.memoryInv) : u.memoryInv := by
  obtain ⟨hdesc, hrx, hcur, hwf, hbelow⟩ := hs
  have hstored (hh : s.parser.headerStage s.cfg = false) :
      Memory.wf (Memory.write s.parser.paybuf s.parser.pcnt.toNat b) ∧
        Memory.below s.cfg.maxPayload (Memory.write s.parser.paybuf s.parser.pcnt.toNat b) := by
    refine ⟨Memory.write_wf hwf _ _, Memory.write_below hbelow ?_⟩
    rw [(Config.legal_layout hl).2.1]
    exact hb.resolve_left (ne_true_of_eq_false hh)
  cases h with
  | header | headerEnd | badMagic | emptyFrame => exact ⟨hdesc, hrx, hcur, hwf, hbelow⟩
  | payload hh => exact ⟨hdesc, hrx, hcur, hstored hh⟩
  | fullFrame m hh _ hm => exact ⟨hdesc, hrx, hcur, hm ▸ hstored hh⟩

theorem descImplemented_iff {c : Config} {a : Nat} :
    descImplemented c a = true ↔ a < c.maxFiles * c.descBytes ∧ a % c.descBytes ≤ c.descIndexAt := by
  simp [descImplemented]

/-- The bytes of an aligned NAME or SIZE word of the map are bytes of `DESC`. -/
theorem descImplemented_word {c : Config} {off a : Nat} (hoff : off + 3 < c.maxFiles * c.descBytes)
    (hfield : off % c.descBytes + 3 < c.descIndexAt) (ha : off ≤ a ∧ a < off + 4) : descImplemented c a = true := by
  have hsplit : a = off + (a - off) := by omega
  have hsize : c.descIndexAt < c.descBytes := by
    unfold Config.descIndexAt Config.descBytes
    omega
  have hmod : a % c.descBytes = off % c.descBytes + (a - off) := by
    conv_lhs => rw [hsplit, Nat.add_mod, Nat.mod_eq_of_lt (show a - off < c.descBytes by omega),
      Nat.mod_eq_of_lt (show off % c.descBytes + (a - off) < c.descBytes by omega)]
  exact descImplemented_iff.2 ⟨by omega, by omega⟩

/-- A host write of the configuration stays inside `DESC`. -/
theorem State.memoryInv_writeConf {s : State} (hl : s.cfg.legal = true) {a : Nat} (h4 : a % 4 = 0) (v : Word)
    (hs : s.memoryInv) : (s.writeConf v (hifLoc s.cfg a)).memoryInv := by
  obtain ⟨⟨hwf, hin⟩, hrest⟩ := hs
  have hinside {off : Nat} := hifLoc_desc_inside (off := off) hl h4
  generalize hifLoc s.cfg a = loc at hinside ⊢
  cases loc with
  | descWord off =>
    obtain ⟨hoff, hfield, -⟩ := hinside.1 rfl
    refine ⟨⟨Memory.writeWord_wf hwf off v, fun c hc => ?_⟩, hrest⟩
    rcases Memory.mem_writeN hc with ha | hc
    · exact descImplemented_word hoff hfield ha
    · exact hin c hc
  | descIndex off =>
    obtain ⟨hoff, hfield⟩ := hinside.2 rfl
    refine ⟨⟨Memory.write_wf hwf off _, fun c hc => ?_⟩, hrest⟩
    rcases Memory.mem_write hc with ⟨rfl, -⟩ | hc
    · exact descImplemented_iff.2 ⟨hoff, hfield.le⟩
    · exact hin c hc
  | _ => exact ⟨⟨hwf, hin⟩, hrest⟩

/-- What a reset brings from the environment is in canonical form. -/
theorem State.memoryInv_resetStep (u : PowerUp) (s : State) : (resetStep u s).memoryInv := by
  refine ⟨⟨Memory.ofCells_wf _ _, Memory.ofCells_implemented _ _⟩,
    ⟨Memory.ofCells_wf _ _, Memory.ofCells_below (fun a ha => ?_) _⟩, ⟨Memory.wf_nil, Memory.below_nil _⟩,
    Memory.ofCells_wf _ _, Memory.ofCells_below (fun a ha => of_decide_eq_true ha) _⟩
  exact Nat.mul_comm .. ▸ of_decide_eq_true ha

theorem Moved.memoryInv {e : Event} {s t : State} (h : Moved e s t) (hl : s.cfg.legal = true) (hs : s.memoryInv) :
    t.memoryInv := by
  obtain ⟨hdesc, hrx, hcur, hpay⟩ := hs
  have hs : s.memoryInv := ⟨hdesc, hrx, hcur, hpay⟩
  cases h with
  | stay | peer | abortNow | abortLatched | irqClear | irqEnable | hostRead => exact hs
  | parsed b q u _ _ hp hb => exact hp.memoryInv hl hb hs
  | completed b q u t o _ _ hp hb hd => exact hd.ruled.memoryInv (hp.out_cfg_eq.2 ▸ hl) (hp.memoryInv hl hb hs)
  | tick =>
    obtain ⟨h, f, -, he | ⟨-, code, e, o, -, he⟩⟩ := tickStep_cases s <;> rw [he]
    · exact hs
    · exact hs
  | start => split <;> exact State.memoryInv_enter _ ⟨hdesc, hrx, ⟨Memory.wf_nil, Memory.below_nil _⟩, hpay⟩
  | retry | srcResp | sendHandshake | sendFileList => exact State.memoryInv_enter _ hs
  | configure v a _ h4 => exact State.memoryInv_writeConf hl h4 v hs
  | reset u => exact State.memoryInv_resetStep u s
  | adv =>
    rcases advStep_cases s with ⟨-, he⟩ | ⟨-, -, he⟩ | ⟨-, -, he⟩ <;> rw [he]
    all_goals exact State.memoryInv_enter _ hs
  | sendInfo t _ _ _ ht =>
    obtain ⟨-, name, f, size, index, hname, -, -, -, rfl⟩ := sendInfo_next ht
    have hlen : name.length = s.cfg.nameSlot := by rw [hname, descName, Memory.readN_length]
    exact State.memoryInv_enter _ ⟨hdesc, hrx, writeName_canonical hlen hcur, hpay⟩
  | sendChunk =>
    cases hab : s.abortReq with
    | true => rw [sendChunkRequest_aborted hab]; exact hs
    | false => rw [sendChunkRequest_asked hab]; exact hs

/-- Settles O45: every write of a byte space is inside it and by an operation that keeps the canonical form. -/
theorem memoriesStayCanonical : Obligations.MemoriesStayCanonical := fun _ _ h hs =>
  step_keeps (P := State.memoryInv) (fun _ _ => id) (fun _ _ _ hl hm => hm.memoryInv hl) h hs

end Sys2Proof.Machine

namespace Sys2Proof.Machine

/-! ### The step of a received byte (spec/40_codec.md section 4) -/

section
variable {c : Config} {x : XSub} {bytes : List Byte}

/-- The receiver's outcome behind each answer of the decoder. -/
theorem frameOutcome_of_ok {i : Instr} {rest : List Byte} (hl : c.legal = true)
    (h : decodeFrame c x bytes = .ok (i, rest)) :
    ∃ cmd len p, frameOutcome c bytes = some (.frame cmd len p) ∧ decodeBody c x cmd p = some i := by
  rw [decodeFrame_eq hl] at h
  cases ho : frameOutcome c bytes with
  | none => simp [ho] at h
  | some o =>
    cases o with
    | badMagic m => simp [ho] at h
    | csumBad computed claimed => simp [ho] at h
    | frame cmd len p =>
      refine ⟨cmd, len, p, rfl, ?_⟩
      cases hd : decodeBody c x cmd p with
      | none => simp [ho, hd] at h
      | some j =>
        simp only [ho, hd, Except.ok.injEq, Prod.mk.injEq] at h
        rw [h.1]

theorem frameOutcome_of_error {r : Reject} (hl : c.legal = true) (h : decodeFrame c x bytes = .error r) :
    (frameOutcome c bytes = none ∧ (r = .shortHeader ∨ r = .shortPayload)) ∨
    (∃ m, frameOutcome c bytes = some (.badMagic m) ∧ r = .badMagic m) ∨
    (∃ computed claimed, frameOutcome c bytes = some (.csumBad computed claimed) ∧ r = .badChecksum computed claimed) ∨
    (∃ cmd len p, frameOutcome c bytes = some (.frame cmd len p) ∧ decodeBody c x cmd p = none ∧
      r = .unknownCommand cmd) := by
  rw [decodeFrame_eq hl] at h
  cases ho : frameOutcome c bytes with
  | none =>
    refine .inl ⟨rfl, ?_⟩
    simp only [ho, Except.error.injEq] at h
    rw [← h]
    split
    · exact .inl rfl
    · exact .inr rfl
  | some o =>
    cases o with
    | badMagic m =>
      simp only [ho, Except.error.injEq] at h
      exact .inr (.inl ⟨m, rfl, h.symm⟩)
    | csumBad computed claimed =>
      simp only [ho, Except.error.injEq] at h
      exact .inr (.inr (.inl ⟨computed, claimed, rfl, h.symm⟩))
    | frame cmd len p =>
      refine .inr (.inr (.inr ⟨cmd, len, p, rfl, ?_⟩))
      cases hd : decodeBody c x cmd p with
      | none =>
        simp only [ho, hd, Except.error.injEq] at h
        exact ⟨rfl, h.symm⟩
      | some j => simp [ho, hd] at h

end

/-- An incomplete frame is only collected. -/
theorem receiveByte_collects {b : Byte} {s t : State} (hl : s.cfg.legal = true)
    (hc : s.parser.consistent s.cfg = true) (h : parseByte b s = (t, none)) : receiveByte b s = .next t := by
  unfold receiveByte
  rw [if_neg, h]
  rcases Parser.consistent_room hl hc with hr | hr <;> simp [hr]

/-- The schedule's entry taken and the transport's byte taken out. -/
def State.taking (s : State) (es : List Event) (q : List Byte) : State := { s with port.events := es, port.rxq := q }

section
variable {s : State} {b : Byte} {q : List Byte} {es : List Event} (hl : s.cfg.legal = true)
  (hc : s.consumes = true) (he : s.port.events = .rxByte :: es) (hq : s.port.rxq = b :: q)
include hl hc he hq

/-- A consumed byte is received in the state it is taken from. -/
theorem step_rxByte : step s = receiveByte b (s.taking es q) := by
  have hc' : ({ s with port.events := es } : State).consumes = true := hc
  have hrx : rxByteStep { s with port.events := es } = receiveByte b (s.taking es q) := by
    rw [rxByteStep, if_pos hc']
    simp only [hq]
    rfl
  rw [step_event hl he]
  exact hrx

/-- The step of a consumed byte is decided by the outcome of the bytes collected with it. -/
theorem step_received (hs : s.parser.consistent s.cfg = true) (hm : Memory.wf s.parser.paybuf) :
    ∃ u, Parsed b (s.taking es q) u (frameOutcome s.cfg (s.parser.collected s.cfg ++ [b])) ∧
      (frameOutcome s.cfg (s.parser.collected s.cfg ++ [b]) = none → step s = .next u) ∧
      ∀ o, frameOutcome s.cfg (s.parser.collected s.cfg ++ [b]) = some o → step s = onOutcome o u := by
  have hparsed := parseByte_parsed (s := s.taking es q) hl b
  have ho : (parseByte b (s.taking es q)).2 = frameOutcome s.cfg (s.parser.collected s.cfg ++ [b]) :=
    hparsed.outcome_eq hl hs hm
  rw [ho] at hparsed
  have hpair : parseByte b (s.taking es q) =
      ((parseByte b (s.taking es q)).1, frameOutcome s.cfg (s.parser.collected s.cfg ++ [b])) := Prod.ext rfl ho
  refine ⟨_, hparsed, fun hnone => ?_, fun o hsome => ?_⟩
  · rw [step_rxByte hl hc he hq]
    exact receiveByte_collects hl hs (hpair.trans (by rw [hnone]))
  · rw [step_rxByte hl hc he hq]
    exact receiveByte_outcome hl hs (hpair.trans (by rw [hsome]))

end

/-- Settles O9: the byte completes the frame the decoder reads, so the step dispatches its instruction. -/
theorem stepRunsDecodedFrame : Obligations.StepRunsDecodedFrame := by
  intro s b q es i hl hc he hq hs hm hd
  obtain ⟨cmd, len, p, ho, hbody⟩ := frameOutcome_of_ok hl hd
  obtain ⟨u, hparsed, -, hstep⟩ := step_received hl hc he hq hs hm
  rw [ho] at hparsed
  obtain ⟨hu, hhc, hpcnt⟩ := hparsed.outcome
  have hbody' : decodeBody u.cfg u.xsub cmd p = some i := by
    rw [hu]
    exact hbody
  refine ⟨u.parser, hhc, hpcnt, ?_⟩
  rw [hstep _ ho, onOutcome_decoded hbody', hu]
  rfl

/-- Only the sixth byte of a frame reloads the frame timer, and only outside the handshake phases (R265, R319). -/
theorem Parsed.frTimer_collected {b : Byte} {s u : State} (h : Parsed b s u none) (hl : s.cfg.legal = true) :
    u.frTimer =
      if (s.parser.collected s.cfg).length = 5 ∧ s.phase.handshake = false then s.conf.frTimeout else s.frTimer := by
  generalize ho : (none : Option ParseOutcome) = o at h
  cases h with
  | header h hc =>
    obtain ⟨hlt, hlen, -⟩ := collected_headerByte hl h b
    refine (if_neg fun hfive => ?_).symm
    rw [hlen] at hfive
    exact hc (by bv_omega)
  | headerEnd hdr h hc hh hm hlen =>
    obtain ⟨hlt, hlen, -⟩ := collected_headerByte hl h b
    have hfive : s.parser.hc.toNat = 5 := by bv_omega
    rw [hlen, hfive]
    cases s.phase.handshake <;> simp
  | payload h hc =>
    refine (if_neg fun hfive => ?_).symm
    rw [Parser.collected_payload h, List.length_append, Header.bytes_length] at hfive
    omega
  | badMagic | emptyFrame | fullFrame => cases ho

/-- Settles O11: the decoder's answer is the receiver's outcome; none means the byte is collected, and each rejection is
dispatched by name in the state with the parser at rest. -/
theorem stepCollectsOrRejectsByte : Obligations.StepCollectsOrRejectsByte := by
  intro s b q es hl hc he hq hs hm
  obtain ⟨u, hparsed, hcollect, hstep⟩ := step_received hl hc he hq hs hm
  refine ⟨fun r hd hr => ?short, fun r hd h1 h2 => ?rejected⟩
  case short =>
    have ho : frameOutcome s.cfg (s.parser.collected s.cfg ++ [b]) = none := by
      rcases frameOutcome_of_error hl hd with ⟨ho, -⟩ | ⟨m, -, rfl⟩ | ⟨k, n, -, rfl⟩ | ⟨cmd, len, p, -, -, rfl⟩
      · exact ho
      · exact hr.elim nofun nofun
      · exact hr.elim nofun nofun
      · exact hr.elim nofun nofun
    rw [ho] at hparsed
    exact ⟨u, hcollect ho, hparsed.frame, hparsed.collected hl hs hm, hparsed.frTimer_collected hl⟩
  case rejected =>
    rcases frameOutcome_of_error hl hd with ⟨-, hr⟩ | ⟨m, ho, rfl⟩ | ⟨k, n, ho, rfl⟩ | ⟨cmd, len, p, ho, hbody, rfl⟩
    · exact absurd hr (not_or.2 ⟨h1, h2⟩)
    all_goals
      rw [ho] at hparsed
      obtain ⟨hu, hhc, hpcnt⟩ := hparsed.outcome
      refine ⟨u, hu, hhc, hpcnt, ?_⟩
      rw [hstep _ ho]
    · refine ⟨?_, nofun, nofun⟩
      rintro m' ⟨⟩
      rw [hu]
      rfl
    · refine ⟨nofun, ?_, nofun⟩
      rintro k' n' ⟨⟩
      rfl
    · refine ⟨nofun, nofun, ?_⟩
      rintro cmd' ⟨⟩
      have hbody' : decodeBody u.cfg u.xsub cmd p = none := by
        rw [hu]
        exact hbody
      simp only [onOutcome, hbody']

end Sys2Proof.Machine

namespace Sys2Proof.Machine

/-! ### Where the frame timer is loaded (spec/41_session.md R319, 40_codec.md R265) -/

/-- A wait for `a` outside the handshake phases has just begun: the frame timer is loaded and the parser at rest. -/
def BeginsTimedWait (a : Act) (s t : State) : Prop :=
  t.frTimer = s.conf.frTimeout ∧ t.phase.handshake = false ∧ t.act = a ∧ t.parser.hc = 0#3 ∧ t.parser.pcnt = 0#16

/-- `enter(A)` writes the frame timer only to begin a wait outside the handshake phases. -/
theorem State.enter_frTimer (s : State) (a : Act) :
    (s.enter a).frTimer = s.frTimer ∨ (a.waits = true ∧ BeginsTimedWait a s (s.enter a)) := by
  rcases s.enter_cases a with ⟨-, -, h⟩ | ⟨-, hw, h⟩ | ⟨-, -, h⟩ <;> rw [h]
  · exact .inl rfl
  · cases hp : s.phase.handshake with
    | true => exact .inl rfl
    | false => exact .inr ⟨hw, rfl, hp, rfl, rfl, rfl⟩
  · exact .inl rfl

theorem State.enter_frTimer_noWait (s : State) {a : Act} (h : a.waits = false) : (s.enter a).frTimer = s.frTimer :=
  (s.enter_frTimer a).resolve_right fun hw => by rw [h] at hw; cases hw.1

theorem State.enter_wreq_frTimer (s : State) :
    (s.enter .wreq).frTimer = s.frTimer ∨ BeginsTimedWait .wreq s (s.enter .wreq) := (s.enter_frTimer .wreq).imp_right And.right

theorem State.fileComplete_frTimer (s : State) :
    s.fileComplete.frTimer = s.frTimer ∨ BeginsTimedWait .wreq s s.fileComplete := by
  rcases s.fileComplete_cases with ⟨-, h⟩ | ⟨-, h⟩ <;> rw [h]
  · exact .inl rfl
  · split
    · exact .inl (State.enter_frTimer_noWait _ rfl)
    · exact State.enter_wreq_frTimer _

/-- A completed frame writes the frame timer only to begin the next wait for a request. -/
theorem Ruled.frTimer {u t : State} (h : Ruled u t) : t.frTimer = u.frTimer ∨ BeginsTimedWait .wreq u t := by
  cases h with
  | recorded | refused | unexpectedAnswer | emptyList | ackEmptyList => exact .inl rfl
  | restarted | list | file | chunk | fileEnd => exact State.enter_wreq_frTimer _
  | emptyFile | lastChunk | ackEmptyFile | ackLastChunk => exact State.fileComplete_frTimer _
  | handshake | ackHandshake | ackList | ackFile | ackChunk | nack => exact .inl (State.enter_frTimer_noWait _ rfl)

/-- Parsing writes the frame timer only at the sixth byte of a frame with a payload, outside the handshake phases. -/
theorem Parsed.frTimer {b : Byte} {s u : State} {o : Option ParseOutcome} (h : Parsed b s u o) :
    u.frTimer = s.frTimer ∨
      (u.frTimer = s.conf.frTimeout ∧ s.phase.handshake = false ∧ s.parser.hc = 5#3 ∧ u.parser.hc = 6#3 ∧
        u.parser.pcnt = 0#16) := by
  cases h with
  | headerEnd hdr h hc hh hm hlen =>
    cases hp : s.phase.handshake with
    | true => exact .inl rfl
    | false => exact .inr ⟨rfl, rfl, by bv_omega, rfl, rfl⟩
  | header | payload | badMagic | emptyFrame | fullFrame => exact .inl rfl

/-- Everything an event can do to the frame timer. -/
inductive WritesFrameTimer (e : Event) (s t : State) : Prop where
  | kept (h : t.frTimer = s.frTimer)
  | nextRequest (hw : s.act.waits = true) (he : e = .rxByte) (h : BeginsTimedWait .wreq s t)
  | firstWait (hw : s.act.waits = false) (a : Act) (ha : a.waits = true) (h : BeginsTimedWait a s t)
  | headerEnd (hw : s.act.waits = true) (he : e = .rxByte) (h : t.frTimer = s.conf.frTimeout)
    (hp : t.phase.handshake = false) (ha : t.act = s.act) (hs : s.parser.hc = 5#3)
    (ht : t.parser.hc = 6#3 ∧ t.parser.pcnt = 0#16)
  | tick (he : e = .tick) (hp : s.phase.handshake = false) (hw : s.act.waits = true) (h : t.frTimer = tickDown s.frTimer)
  | start (h : t.frTimer = 0#32) (hp : s.phase.active = false) (v : Word) (he : e = .hostWrite 4 0x0004#16 v)
    (hv : v.extractLsb' 0 8 = 0x01#8)
  | reset (h : t.frTimer = 0#32) (u : PowerUp) (he : e = .reset u)

/-- From no frame wait, entering an activity loads the timer at most for a first wait. -/
theorem writesFrameTimer_enter {e : Event} {s x : State} (a : Act) (hw : s.act.waits = false)
    (htimer : x.frTimer = s.frTimer) (hconf : x.conf = s.conf) : WritesFrameTimer e s (x.enter a) := by
  rcases x.enter_frTimer a with h | ⟨ha, hload, hrest⟩
  · exact .kept (h.trans htimer)
  · exact .firstWait hw a ha ⟨hconf ▸ hload, hrest⟩

/-- A session begins in a handshake phase with no abort latched, so its first wait loads no timer. -/
theorem newSession_enter_frTimer (s : State) {p : Phase} (hp : p.handshake = true) (a : Act) :
    (State.enter a { s.newSession with phase := p }).frTimer = 0#32 := by
  rcases State.enter_frTimer { s.newSession with phase := p } a with h | ⟨ha, -, hphase, -⟩
  · exact h
  · rw [State.enter_wait (fun h => by cases h.1) ha] at hphase
    exact absurd hphase (ne_false_of_eq_true hp)

theorem writeConf_frTimer (s : State) (v : Word) (loc : HifLoc) : (s.writeConf v loc).frTimer = s.frTimer := by
  cases loc <;> rfl

theorem Moved.frTimer {e : Event} {s t : State} (h : Moved e s t) : WritesFrameTimer e s t := by
  have hnot {a : Act} (ha : s.act = a) (hw : a.waits = false) : s.act.waits = false := ha ▸ hw
  cases h with
  | stay | peer | abortNow | abortLatched | irqClear | irqEnable | hostRead => exact .kept rfl
  | parsed b q u hc _ hp _ he =>
    have hw : s.act.waits = true := (Bool.and_eq_true_iff.1 hc).2
    rcases hp.frTimer with h | ⟨h, hphase, hs, ht⟩
    · exact .kept h
    · obtain ⟨-, hsame, hact⟩ := hp.control
      exact .headerEnd hw he h (hsame ▸ hphase) hact hs ht
  | completed b q u t o hc _ hp _ hd he =>
    have hw : s.act.waits = true := (Bool.and_eq_true_iff.1 hc).2
    have hu := hp.outcome.1
    rcases hd.ruled.frTimer with h | ⟨h, hrest⟩
    · rw [hu] at h
      exact .kept h
    · rw [hu] at h
      exact .nextRequest hw he ⟨h, hrest⟩
  | tick he =>
    obtain ⟨h, f, hf, htick⟩ := tickStep_cases s
    have hfr : (tickStep s).frTimer = f := by
      rcases htick with he | ⟨-, code, e, o, -, he⟩ <;> simp [he]
    by_cases hsame : f = s.frTimer
    · exact .kept (hfr.trans hsame)
    · obtain ⟨hp, hw, hdown⟩ := hf hsame
      exact .tick he hp hw (hfr.trans hdown)
  | start ha v he hv =>
    refine .start ?_ ha v he hv
    split
    · exact newSession_enter_frTimer s (p := .sendingHandshake) rfl .txreq
    · exact newSession_enter_frTimer s (p := .awaitingHandshake) rfl .wreq
  | retry ha | sendHandshake ha | sendFileList ha => exact writesFrameTimer_enter .wrsp (hnot ha rfl) rfl rfl
  | configure v a => exact .kept (writeConf_frTimer s v _)
  | srcResp d _ ha => exact writesFrameTimer_enter .wrsp (hnot ha rfl) rfl rfl
  | reset u he => exact .reset rfl u he
  | adv ha =>
    rcases advStep_cases s with ⟨-, he⟩ | ⟨-, -, he⟩ | ⟨-, -, he⟩ <;> rw [he]
    all_goals exact writesFrameTimer_enter _ (hnot ha rfl) rfl rfl
  | sendInfo t ha _ _ ht =>
    obtain ⟨-, name, f, size, index, -, -, -, -, rfl⟩ := sendInfo_next ht
    exact writesFrameTimer_enter .wrsp (hnot ha rfl) rfl rfl
  | sendChunk =>
    cases hab : s.abortReq with
    | true =>
      rw [sendChunkRequest_aborted hab]
      exact .kept rfl
    | false =>
      rw [sendChunkRequest_asked hab]
      exact .kept rfl

/-- The sixth byte of a frame with a payload loads the frame timer outside the handshake phases (R265). -/
theorem parseByte_headerEnd_frTimer {s : State} {b : Byte} (hl : s.cfg.legal = true) (hc : s.parser.hc = 5#3)
    (hm : le16 (s.parser.hdr.set 5 b).bytes 0 = s.cfg.magic) (hlen : le16 (s.parser.hdr.set 5 b).bytes 3 ≠ 0#16) :
    (parseByte b s).1.frTimer = if s.phase.handshake then s.frTimer else s.conf.frTimeout := by
  have hstage : s.parser.headerStage s.cfg = true := by
    rw [Parser.headerStage_eq hl, hc]
    rfl
  have hset : s.parser.hdr.set 5 b = s.parser.hdr.set s.parser.hc.toNat b := by rw [hc]; rfl
  rw [parseByte_of_parsed hl (Parsed.headerEnd (s.parser.hdr.set 5 b) hstage (by rw [hc]; rfl) hset hm hlen)]

/-- Settles O35: `enter` and the parser's sixth byte are the only loads, and `Moved.frTimer` gives every writer. -/
theorem frameTimerLoads : Obligations.FrameTimerLoads := by
  refine ⟨fun s a ha hp hact => ?enter, fun s b => parseByte_headerEnd_frTimer, fun s t h => ?writers⟩
  case enter =>
    have hw : a.waits = true := a.waits_iff.2 ha
    rcases s.enter_cases a with ⟨-, -, h⟩ | ⟨-, -, h⟩ | ⟨-, hn, -⟩
    · rw [h] at hact
      cases hact
      cases hw
    · rw [h]
      exact if_neg (ne_true_of_eq_false hp)
    · rw [hw] at hn
      cases hn
  case writers =>
    obtain ⟨-, e, es, hm, he⟩ := step_moved h
    have hevents (hne : e ≠ .internal) : s.port.events = e :: es := he.resolve_right fun h => hne h.2.2
    rcases hm.frTimer with h | ⟨hw, rfl, h, hp, ha, hrest⟩ | ⟨hw, a, hwait, h, hp, ha, hrest⟩ |
      ⟨hw, rfl, h, hp, ha, hs, ht⟩ | ⟨rfl, hp, hw, h⟩ | ⟨h, hp, v, rfl, hv⟩ | ⟨h, u, rfl⟩
    · exact .inl h
    · exact .inr (.inl ⟨h, hp, .inl ⟨hw, ha, ⟨es, hevents nofun⟩, hrest⟩⟩)
    · exact .inr (.inl ⟨h, hp, .inr (.inl ⟨hw, ha ▸ hwait, hrest⟩)⟩)
    · exact .inr (.inl ⟨h, hp, .inr (.inr ⟨hw, ha, ⟨es, hevents nofun⟩, hs, ht⟩)⟩)
    · exact .inr (.inr (.inl ⟨⟨es, hevents nofun⟩, hp, hw, h⟩))
    · exact .inr (.inr (.inr (.inl ⟨h, hp, v, es, hevents nofun, hv⟩)))
    · exact .inr (.inr (.inr (.inr ⟨h, u, es, hevents nofun⟩)))

end Sys2Proof.Machine

namespace Sys2Proof.Machine

/-! ### What an instruction leaves unchanged (spec/10_state.md sections 2 to 10) -/

/-- The state `s` with the control state, the latches, the error and status registers, the frame timer, the parser's
counts and the outputs of `t`. -/
def State.withControl (s t : State) : State := { s with
  phase := t.phase, act := t.act, linkOwned := t.linkOwned, abortReq := t.abortReq, srcPending := t.srcPending
  err := t.err, irqStatus := t.irqStatus, frTimer := t.frTimer
  parser.hc := t.parser.hc, parser.pcnt := t.parser.pcnt, port.out := t.port.out }

theorem State.enter_withControl (s : State) (a : Act) : s.enter a = s.withControl (s.enter a) := by
  rcases s.enter_cases a with ⟨-, -, h⟩ | ⟨-, -, h⟩ | ⟨-, -, h⟩ <;> rw [h] <;> rfl

theorem State.fileComplete_withControl (s : State) :
    s.fileComplete =
      ({ s with sess.filePtr := s.fileComplete.sess.filePtr, xsub := s.fileComplete.xsub } : State).withControl
        s.fileComplete := by
  rcases s.fileComplete_cases with ⟨-, h⟩ | ⟨-, h⟩ <;> rw [h]
  · rfl
  · rw [State.enter_withControl]
    rfl

/-- The state before an instruction with the data registers the instruction may write taken from the state after it. -/
def Instr.written (s t : State) : Instr → State
  | .handshake _ => { s with sess.rxVersion := t.sess.rxVersion, sess.rxTimestamp := t.sess.rxTimestamp }
  | .fileList _ => { s with
      rxname := t.rxname, sess.pendCount := t.sess.pendCount, sess.filePtr := t.sess.filePtr, xsub := t.xsub }
  | .fileDataInfo _ | .fileDataChunk _ => { s with
      curname := t.curname, sess.curIndex := t.sess.curIndex, sess.curSize := t.sess.curSize
      sess.bytesDone := t.sess.bytesDone, sess.chunkIdx := t.sess.chunkIdx, sess.filePtr := t.sess.filePtr
      xsub := t.xsub }
  | .ack _ => { s with
      sess.bytesDone := t.sess.bytesDone, sess.chunkIdx := t.sess.chunkIdx, sess.filePtr := t.sess.filePtr
      xsub := t.xsub }
  | .start => { s with sess := t.sess, xsub := t.xsub, curname := t.curname, hsTimer := t.hsTimer }
  | .fileEnd _ | .nack _ | .abort | .retry => s

/-- From `s` to `t` the instruction changed only what it may write and the control state. -/
def Frames (i : Instr) (s t : State) : Prop := t = (Instr.written s t i).withControl t

/-- A change of control alone is allowed to every instruction. -/
theorem Frames.of_control {i : Instr} {s t : State} (h : t = s.withControl t) : Frames i s t := by
  unfold Frames
  cases i <;> (rw [h]; rfl)

theorem frames_malformedRequest (i : Instr) (s : State) (required len : Nat) :
    Frames i s (s.malformedRequest required len) := by
  refine .of_control ?_
  rw [State.malformedRequest, State.enter_withControl]
  rfl

theorem frames_handshakeRule (p : List Byte) (s : State) : Frames (.handshake p) s (handshakeRule p s) := by
  by_cases h : p.length = 5
  · rw [handshakeRule_accepted h, Frames, State.enter_withControl]
    rfl
  · rw [handshakeRule_wrongLength h]
    exact frames_malformedRequest _ _ _ _

theorem frames_fileListRule (p : List Byte) (s : State) : Frames (.fileList p) s (fileListRule p s) := by
  cases h : fileListOperands s.cfg.nameSlot p with
  | error required =>
    rw [fileListRule_malformed h]
    exact frames_malformedRequest _ _ _ _
  | ok slots =>
    by_cases hc : byteAt p 0 = 0#8
    · rw [fileListRule_noNames h hc]
      rfl
    · rw [fileListRule_names h hc, Frames, State.enter_withControl]
      rfl

theorem frames_infoRule (p : List Byte) (s : State) : Frames (.fileDataInfo p) s (infoRule p s) := by
  cases h : infoOperands s.cfg.nameSlot p with
  | error required =>
    rw [infoRule_malformed h]
    exact frames_malformedRequest _ _ _ _
  | ok op =>
    by_cases hsize : op.size = 0#32
    · rw [infoRule_empty h hsize, Frames, State.fileComplete_withControl]
      rfl
    · rw [infoRule_content h hsize, Frames, State.enter_withControl]
      rfl

theorem frames_chunkRule (p : List Byte) (s : State) : Frames (.fileDataInfo p) s (chunkRule p s) := by
  cases h : chunkOperands p with
  | error required =>
    rw [chunkRule_malformed h]
    exact frames_malformedRequest _ _ _ _
  | ok op =>
    by_cases hidx : op.index = s.sess.chunkIdx
    · by_cases hover : s.sess.curSize - s.sess.bytesDone < op.size.setWidth 32
      · rw [chunkRule_overrun h hidx hover]
        exact .of_control rfl
      · by_cases hend : s.sess.bytesDone + op.size.setWidth 32 = s.sess.curSize
        · rw [chunkRule_last h hidx hover hend, Frames, State.fileComplete_withControl]
          rfl
        · rw [chunkRule_unfinished h hidx hover hend, Frames, State.enter_withControl]
          rfl
    · rw [chunkRule_wrongIndex h hidx]
      exact .of_control rfl

theorem frames_fileDataRule (p : List Byte) (s : State) : Frames (.fileDataInfo p) s (fileDataRule p s) := by
  cases hx : s.xsub with
  | info =>
    rw [fileDataRule_info hx]
    exact frames_infoRule p s
  | chunks =>
    rw [fileDataRule_chunks hx]
    exact frames_chunkRule p s

theorem frames_ackAccepted (p : List Byte) (s : State) : Frames (.ack p) s (ackAccepted s) := by
  unfold ackAccepted
  split
  · rw [Frames, State.enter_withControl]
    rfl
  · split
    · rfl
    · rw [Frames, State.enter_withControl]
      rfl
  · split <;> (simp only; split)
    · rw [Frames, State.fileComplete_withControl]
      rfl
    · rw [Frames, State.enter_withControl]
      rfl
    · rw [Frames, State.fileComplete_withControl]
      rfl
    · rw [Frames, State.enter_withControl]
      rfl

theorem frames_ackRule (p : List Byte) (s : State) : Frames (.ack p) s (ackRule p s) := by
  by_cases h : p.length = 0
  · rw [ackRule_accepted h]
    exact frames_ackAccepted p s
  · rw [ackRule_payload h]
    exact .of_control rfl

theorem frames_nackRule (p : List Byte) (s : State) : Frames (.nack p) s (nackRule p s) := by
  by_cases h : p.length = 0
  · rw [nackRule_accepted h, Frames, State.enter_withControl]
    rfl
  · rw [nackRule_payload h]
    exact .of_control rfl

theorem frames_onRequest {i : Instr} {cmd : Byte} {rule : State → State} {s t : State}
    (h : s.onRequest cmd rule = .next t) (hr : Frames i s (rule s)) : Frames i s t := by
  rcases State.onRequest_next h with ⟨-, -, rfl⟩ | ⟨-, -, rfl⟩ | ⟨-, rfl⟩
  · exact hr
  · exact .of_control rfl
  · exact .of_control rfl

theorem frames_onAnswer {i : Instr} {cmd : Byte} {rule : State → State} {s t : State}
    (h : s.onAnswer cmd rule = .next t) (hr : Frames i s (rule s)) : Frames i s t := by
  rcases State.onAnswer_next h with ⟨-, rfl⟩ | ⟨-, rfl⟩
  · exact hr
  · exact .of_control rfl

theorem frames_start {s t : State} (h : execStart s = .next t) : Frames .start s t := by
  cases ha : s.phase.active with
  | true =>
    rw [execStart_active ha] at h
    cases h
    rfl
  | false =>
    cases hr : s.conf.initiator with
    | true =>
      rw [execStart_initiator ha hr] at h
      cases h
      rfl
    | false =>
      rw [execStart_responder ha hr] at h
      cases h
      rfl

theorem frames_abort {s t : State} (h : execAbort s = .next t) : Frames .abort s t := by
  unfold execAbort at h
  split at h
  · split at h <;> cases h <;> rfl
  · cases h
    rfl

theorem frames_retry {s t : State} (h : execRetry s = .next t) : Frames .retry s t := by
  by_cases ha : s.act = .whost
  · rw [execRetry_whost ha] at h
    cases h
    rfl
  · rw [execRetry_ignored ha] at h
    cases h
    rfl

/-- Every instruction writes only its own registers and the control state. -/
theorem exec_frames {i : Instr} {s t : State} (h : exec i s = .next t) : Frames i s t := by
  cases i with
  | handshake p => exact frames_onRequest h (frames_handshakeRule p s)
  | fileList p => exact frames_onRequest h (frames_fileListRule p s)
  | fileDataInfo p => exact frames_onRequest h (frames_fileDataRule p s)
  | fileDataChunk p => exact frames_onRequest (i := .fileDataChunk p) h (frames_fileDataRule p s)
  | fileEnd p =>
    refine frames_onRequest (rule := fileEndRule p) h (.of_control ?_)
    rw [fileEndRule, State.enter_withControl]
    rfl
  | ack p => exact frames_onAnswer h (frames_ackRule p s)
  | nack p => exact frames_onAnswer h (frames_nackRule p s)
  | start => exact frames_start h
  | abort => exact frames_abort h
  | retry => exact frames_retry h

/-! #### The status bits and the outputs only grow -/

/-- Status bits are raised and outputs appended, and none of either is taken back. -/
def Grows (s t : State) : Prop := s.irqStatus &&& ~~~t.irqStatus = 0#5 ∧ ∃ l, t.port.out = s.port.out ++ l

theorem Raises.clears_nothing {s t : State} (h : Raises s t) : s.irqStatus &&& ~~~t.irqStatus = 0#5 := by
  refine BitVec.eq_of_getLsbD_eq fun k hk => ?_
  cases hs : s.irqStatus.getLsbD k with
  | false => simp [hs]
  | true => simp [h.keeps hs]

theorem Dispatched.grows {u t : State} (h : Dispatched u t) : Grows u t := by
  refine ⟨h.raises.clears_nothing, ?_⟩
  rcases h.output with ⟨-, sinks, f, -, hout⟩ | ⟨-, hsame⟩
  · exact ⟨_, hout.trans (List.append_assoc ..)⟩
  · exact ⟨[], by rw [hsame, List.append_nil]⟩

theorem grows_onRequest {cmd : Byte} {rule : State → State} {s t : State} (h : s.onRequest cmd rule = .next t)
    (hr : Raises s (rule s)) (ha : Answers s (rule s)) : Grows s t := by
  rcases State.onRequest_next h with ⟨-, -, rfl⟩ | ⟨ha, hc, rfl⟩ | ⟨ha, rfl⟩
  · obtain ⟨sinks, f, -, hout⟩ := ha
    exact ⟨hr.clears_nothing, _, hout.trans (List.append_assoc ..)⟩
  · exact (Dispatched.wrongRequest cmd ha hc).grows
  · exact (Dispatched.wrongAnswer cmd ha).grows

theorem grows_onAnswer {cmd : Byte} {rule : State → State} {s t : State} (h : s.onAnswer cmd rule = .next t)
    (hr : Raises s (rule s)) (ha : (rule s).port = s.port) : Grows s t := by
  rcases State.onAnswer_next h with ⟨-, rfl⟩ | ⟨-, rfl⟩
  · exact ⟨hr.clears_nothing, [], by rw [ha, List.append_nil]⟩
  · have hraises : Raises s (s.unexpectedInRequest cmd) :=
      (raises_fail _ _ _ _).after_same (u := s.respondNack) rfl (.inl rfl) rfl
    exact ⟨hraises.clears_nothing, _, rfl⟩

/-- A command grows the state as the host write of its code does. -/
theorem Moved.command_grows {v : Word} {s t : State} (h : Moved (.hostWrite 4 0x0004#16 v) s t) : Grows s t := by
  obtain ⟨l, hout, -⟩ := h.appends
  refine ⟨?_, l, hout⟩
  rcases h.irq with hr | ⟨w, he, -⟩ | ⟨u, he, -⟩
  · exact hr.clears_nothing
  · cases he
  · cases he

theorem exec_grows {i : Instr} {s t : State} (h : exec i s = .next t) : Grows s t := by
  cases i with
  | handshake p => exact grows_onRequest h (raises_handshakeRule p s) (answers_handshakeRule p s)
  | fileList p => exact grows_onRequest h (raises_fileListRule p s) (answers_fileListRule p s)
  | fileDataInfo p | fileDataChunk p => exact grows_onRequest h (raises_fileDataRule p s) (answers_fileDataRule p s)
  | fileEnd p =>
    exact grows_onRequest (rule := fileEndRule p) h ((raises_enter (by decide) _).after_same rfl (.inl rfl) rfl)
      ⟨[], _, .inl rfl, by simp [fileEndRule]⟩
  | ack p => exact grows_onAnswer h (raises_ackRule p s) (ackRule_port p s)
  | nack p => exact grows_onAnswer h (raises_nackRule p s) (nackRule_port p s)
  | start => exact (execStart_moved (v := 0x01#32) rfl h).command_grows
  | abort => exact (execAbort_moved (v := 0x02#32) h).command_grows
  | retry => exact (execRetry_moved (v := 0x03#32) h).command_grows

/-- Settles O27: each clause reads a register off `exec_frames` or `exec_grows`. -/
theorem instructionFrame : Obligations.InstructionFrame := by
  intro i s t h
  obtain ⟨hirq, hout⟩ := exec_grows h
  have hf : t = (Instr.written s t i).withControl t := exec_frames h
  have hall : t.cfg = s.cfg ∧ t.conf = s.conf ∧ t.desc = s.desc ∧ t.txbuf = s.txbuf ∧ t.irqEnable = s.irqEnable ∧
      t.port.events = s.port.events ∧ t.port.rxq = s.port.rxq ∧
      t.parser = { s.parser with hc := t.parser.hc, pcnt := t.parser.pcnt } := by
    cases i <;> (rw [hf]; exact ⟨rfl, rfl, rfl, rfl, rfl, rfl, rfl, rfl⟩)
  obtain ⟨h1, h2, h3, h4, h5, h6, h7, h8⟩ := hall
  refine ⟨h1, h2, h3, h4, h5, h6, h7, h8, hirq, hout, fun hs => ?_, fun hs hh => ?_, fun hl => ?_, fun hs hl => ?_,
    fun hs hd => ?_, fun hs hd => ?_, fun hs hd => ?_⟩
  · cases i with
    | start => exact absurd rfl hs
    | _ => rw [hf]; exact ⟨rfl, rfl⟩
  · cases i with
    | start => exact absurd rfl hs
    | handshake p => exact absurd rfl (hh p)
    | _ => rw [hf]; exact ⟨rfl, rfl⟩
  · cases i with
    | fileList p => exact absurd rfl (hl p)
    | _ => rw [hf]; rfl
  · cases i with
    | start => exact absurd rfl hs
    | fileList p => exact absurd rfl (hl p)
    | _ => rw [hf]; rfl
  · cases i with
    | start => exact absurd rfl hs
    | fileDataInfo p => exact absurd rfl (hd p).1
    | fileDataChunk p => exact absurd rfl (hd p).2
    | _ => rw [hf]; exact ⟨rfl, rfl, rfl⟩
  · cases i with
    | start => exact absurd rfl hs
    | fileDataInfo p => exact absurd rfl (hd p).1
    | fileDataChunk p => exact absurd rfl (hd p).2.1
    | ack p => exact absurd rfl (hd p).2.2
    | _ => rw [hf]; exact ⟨rfl, rfl⟩
  · cases i with
    | start => exact absurd rfl hs
    | fileDataInfo p => exact absurd rfl (hd p).1
    | fileDataChunk p => exact absurd rfl (hd p).2.1
    | ack p => exact absurd rfl (hd p).2.2.1
    | fileList p => exact absurd rfl (hd p).2.2.2
    | _ => rw [hf]; exact ⟨rfl, rfl⟩

end Sys2Proof.Machine

namespace Sys2Proof.Machine

/-! ### The configuration is locked in a session (spec/10_state.md R74) -/

theorem Ruled.config_eq {u t : State} (h : Ruled u t) : t.conf = u.conf ∧ t.desc = u.desc := by
  cases h <;> simp

/-- Only a configuration write outside a session and a reset write the configuration and the descriptors. -/
theorem Moved.config {e : Event} {s t : State} (h : Moved e s t) (ha : s.phase.active = true) (hr : ∀ u, e ≠ .reset u) :
    t.conf = s.conf ∧ t.desc = s.desc := by
  cases h with
  | stay | peer | abortNow | abortLatched | irqClear | irqEnable | hostRead => exact ⟨rfl, rfl⟩
  | parsed b q u _ _ hp => rw [hp.frame]; exact ⟨rfl, rfl⟩
  | completed b q u t o _ _ hp _ hd =>
    have hu := hp.frame
    have ht := hd.ruled.config_eq
    rw [hu] at ht
    exact ht
  | tick =>
    obtain ⟨h, f, -, he | ⟨-, code, e, o, -, he⟩⟩ := tickStep_cases s <;> rw [he] <;> exact ⟨rfl, rfl⟩
  | start hn | configure v a hn => rw [ha] at hn; cases hn
  | retry | srcResp => simp
  | sendHandshake => simp [Machine.sendHandshake]
  | sendFileList => simp [Machine.sendFileList]
  | reset u he => exact absurd he (hr u)
  | adv => rcases advStep_cases s with ⟨-, he⟩ | ⟨-, -, he⟩ | ⟨-, -, he⟩ <;> simp [he]
  | sendInfo t _ _ _ ht =>
    obtain ⟨-, name, f, size, index, -, -, -, -, rfl⟩ := sendInfo_next ht
    simp
  | sendChunk =>
    cases hab : s.abortReq with
    | true => rw [sendChunkRequest_aborted hab]; exact ⟨rfl, rfl⟩
    | false => rw [sendChunkRequest_asked hab]; exact ⟨rfl, rfl⟩

/-- With no reset next in the schedule the step is no reset. -/
theorem not_reset_of_events {s : State} {e : Event} {es : List Event}
    (he : s.port.events = e :: es ∨ (s.port.events = [] ∧ es = [] ∧ e = .internal))
    (hr : ∀ u es, s.port.events ≠ .reset u :: es) : ∀ u, e ≠ .reset u := by
  rintro u rfl
  rcases he with he | ⟨-, -, he⟩
  · exact hr u es he
  · cases he

/-- Settles O52: in a session the two ways to write the configuration are closed. -/
theorem configurationIsLockedInSession : Obligations.ConfigurationIsLockedInSession := by
  intro s t h ha hr
  obtain ⟨-, e, es, hm, he⟩ := step_moved h
  exact hm.config ha (not_reset_of_events he hr)

/-! ### The files of a transfer are fixed (spec/43_file_list.md R386) -/

/-- In TRANSFERRING_FILE no rule writes the number of files or their names. -/
theorem Ruled.files_eq {u t : State} (h : Ruled u t) (hp : u.phase = .transferringFile) :
    t.sess.pendCount = u.sess.pendCount ∧ t.rxname = u.rxname := by
  cases h with
  | emptyList p slots _ hlist | list p slots _ hlist => rw [hp] at hlist; cases hlist
  | _ => simp

theorem Moved.files {e : Event} {s t : State} (h : Moved e s t) (hp : s.phase = .transferringFile)
    (hr : ∀ u, e ≠ .reset u) : t.sess.pendCount = s.sess.pendCount ∧ t.rxname = s.rxname := by
  cases h with
  | stay | peer | abortNow | abortLatched | irqClear | irqEnable | hostRead => exact ⟨rfl, rfl⟩
  | parsed b q u _ _ hp => rw [hp.frame]; exact ⟨rfl, rfl⟩
  | completed b q u t o _ _ hparsed _ hd =>
    have hu := hparsed.frame
    have ht := hd.ruled.files_eq (by rw [hu]; exact hp)
    rw [hu] at ht
    exact ht
  | tick =>
    obtain ⟨h, f, -, he | ⟨-, code, e, o, -, he⟩⟩ := tickStep_cases s <;> rw [he] <;> exact ⟨rfl, rfl⟩
  | start hn | configure v a hn => rw [hp] at hn; cases hn
  | retry | srcResp => simp
  | reset u he => exact absurd he (hr u)
  | adv _ hadv => rw [hp] at hadv; cases hadv
  | sendHandshake _ hsend | sendFileList _ hsend => rw [hp] at hsend; cases hsend
  | sendInfo t _ _ _ ht =>
    obtain ⟨-, name, f, size, index, -, -, -, -, rfl⟩ := sendInfo_next ht
    simp
  | sendChunk =>
    cases hab : s.abortReq with
    | true => rw [sendChunkRequest_aborted hab]; exact ⟨rfl, rfl⟩
    | false => rw [sendChunkRequest_asked hab]; exact ⟨rfl, rfl⟩

/-- Settles O53: the list is read and the files are counted before the transfer; in it a FILE_LIST is a wrong command. -/
theorem fileSequenceIsFixed : Obligations.FileSequenceIsFixed := by
  refine ⟨fun s t h _ hp hr => ?fixed, fun s p hcodes hp ha => ?second⟩
  case fixed =>
    obtain ⟨-, e, es, hm, he⟩ := step_moved h
    exact hm.files hp (not_reset_of_events he hr)
  case second =>
    obtain ⟨-, hlist, -⟩ := Config.codes_default hcodes
    obtain ⟨hfails, -, hexec⟩ :=
      wrongCommandFailsSession s 0x02#8 hcodes ha 0x18#32 (.inr (.inr ⟨hp, rfl, by decide, by decide⟩))
    exact (hexec (.fileList p) (congrArg some hlist)).trans (congrArg _ hfails)

/-! ### Without a session the engine rests (spec/41_session.md R322, 60_exceptions.md R611) -/

/-- From `s` to `t` only the configuration, the descriptors, the interrupt registers and the ports changed, and on the
ports only bytes came in and host reads were answered. -/
def RestsFrom (s t : State) : Prop :=
  t = { s with conf := t.conf, desc := t.desc, irqStatus := t.irqStatus, irqEnable := t.irqEnable, port := t.port } ∧
    s.port.rxq <+: t.port.rxq ∧ ∃ reads : List (BitVec 16 × Word), t.port.out = s.port.out ++ reads.map fun r => .hostRead r.1 r.2

theorem RestsFrom.of_same_port {s t : State} (hport : t.port = s.port)
    (h : t = { s with conf := t.conf, desc := t.desc, irqStatus := t.irqStatus, irqEnable := t.irqEnable, port := t.port }) :
    RestsFrom s t := ⟨h, by rw [hport], [], by rw [hport]; simp⟩

/-- Without a session the engine has no activity and does not own the link. -/
theorem State.controlInv_inactive {s : State} (h : s.controlInv = true) (ha : s.phase.active = false) :
    s.act = .none ∧ s.linkOwned = false := by
  obtain ⟨ht, -, hlink, -⟩ := s.controlInv_iff.1 h
  refine ⟨?_, hlink.trans ha⟩
  by_contra hne
  rw [State.legalTriple_active ht hne] at ha
  cases ha

theorem Moved.rests {e : Event} {s t : State} (h : Moved e s t) (hcontrol : s.controlInv = true)
    (ha : s.phase.active = false) (hr : ∀ u, e ≠ .reset u)
    (hstart : ∀ v, e = .hostWrite 4 0x0004#16 v → v.extractLsb' 0 8 ≠ 0x01#8) : RestsFrom s t := by
  obtain ⟨hnone, hlink⟩ := State.controlInv_inactive hcontrol ha
  have hconsumes : s.consumes = false := by rw [State.consumes, hlink]; rfl
  have hhandshake : s.phase.handshake = false := by
    revert ha
    cases s.phase <;> simp [Phase.active, Phase.handshake]
  cases h with
  | stay => exact .of_same_port rfl rfl
  | peer b => exact ⟨rfl, ⟨[b], rfl⟩, [], by simp⟩
  | parsed b q u hc | completed b q u t o hc => rw [hconsumes] at hc; cases hc
  | tick =>
    rw [tickStep_noTimer hhandshake (by rw [hnone]; rfl)]
    exact .of_same_port rfl rfl
  | start _ v he hv => exact absurd hv (hstart v he)
  | abortNow hactive | abortLatched hactive => rw [ha] at hactive; cases hactive
  | irqClear v | irqEnable v => exact .of_same_port rfl rfl
  | configure v a =>
    refine .of_same_port (s.writeConf_port v _) ?_
    generalize hifLoc s.cfg a.toNat = loc
    cases loc <;> rfl
  | hostRead a v => exact ⟨rfl, ⟨[], List.append_nil _⟩, [(a, v)], rfl⟩
  | reset u he => exact absurd he (hr u)
  | retry hact | srcResp _ _ hact | adv hact | sendHandshake hact | sendFileList hact | sendInfo _ hact | sendChunk hact =>
    rw [hnone] at hact
    cases hact

/-- Settles O57: without a session nothing is enabled but host accesses and the peer's bytes. -/
theorem engineRestsWithoutSession : Obligations.EngineRestsWithoutSession := by
  refine ⟨fun _ _ _ _ => rfl, fun s t h hcontrol ha hr hstart => ?_⟩
  obtain ⟨-, e, es, hm, he⟩ := step_moved h
  have hrests := hm.rests hcontrol ha (not_reset_of_events he hr) fun v hv => by
    subst hv
    exact hstart v es (he.resolve_right fun h => nomatch h.2.2)
  exact hrests

/-! ### The streams keep their order (spec/20_memory.md R165) -/

theorem Ruled.rxq_eq {u t : State} (h : Ruled u t) : t.port.rxq = u.port.rxq := by
  cases h <;> simp

/-- What an event does to the transport's bytes. -/
theorem Moved.rxq {e : Event} {s t : State} (h : Moved e s t) :
    t.port.rxq = s.port.rxq ∨ (∃ b, e = .peer b ∧ t.port.rxq = s.port.rxq ++ [b]) ∨
      (∃ b, e = .rxByte ∧ s.consumes = true ∧ s.port.rxq = b :: t.port.rxq) := by
  cases h with
  | stay | abortNow | abortLatched | irqClear | irqEnable | hostRead | reset => exact .inl rfl
  | peer b he => exact .inr (.inl ⟨b, he, rfl⟩)
  | parsed b q u hc hq hp _ he =>
    rw [hp.frame]
    exact .inr (.inr ⟨b, he, hc, hq⟩)
  | completed b q u t o hc hq hp _ hd he =>
    have ht := hd.ruled.rxq_eq
    rw [hp.frame] at ht
    exact .inr (.inr ⟨b, he, hc, ht ▸ hq⟩)
  | tick => exact .inl (by simp)
  | start => exact .inl (by split <;> simp)
  | retry | srcResp => exact .inl (by simp)
  | configure v a => exact .inl (by rw [State.writeConf_port])
  | sendHandshake => exact .inl (by simp [Machine.sendHandshake])
  | sendFileList => exact .inl (by simp [Machine.sendFileList])
  | adv => exact .inl (by simp)
  | sendInfo t _ _ _ ht =>
    obtain ⟨-, name, f, size, index, -, -, -, -, rfl⟩ := sendInfo_next ht
    exact .inl (by simp)
  | sendChunk =>
    cases hab : s.abortReq with
    | true => rw [sendChunkRequest_aborted hab]; exact .inl rfl
    | false => rw [sendChunkRequest_asked hab]; exact .inl rfl

/-- Settles O58: outputs are only appended (`Moved.appends`), and a byte leaves the transport only by being received. -/
theorem streamsKeepTheirOrder : Obligations.StreamsKeepTheirOrder := by
  intro s t h
  obtain ⟨-, e, es, hm, he⟩ := step_moved h
  obtain ⟨l, hout, -⟩ := hm.appends
  have hevents (hne : e ≠ .internal) : s.port.events = e :: es := he.resolve_right fun h => hne h.2.2
  refine ⟨⟨l, hout.symm⟩, ?_⟩
  rcases hm.rxq with h | ⟨b, rfl, h⟩ | ⟨b, rfl, hc, h⟩
  · exact .inl h
  · exact .inr (.inl ⟨b, es, hevents nofun, h⟩)
  · exact .inr (.inr ⟨b, es, hevents nofun, hc, h⟩)

end Sys2Proof.Machine

namespace Sys2Proof.Machine

/-! ### The arcs of the transition table (spec/41_session.md R320) -/

/-- The arcs out of phase `p` under the configuration `c`, and staying in it. A reset has its own arc. -/
inductive Arc (p : Phase) (c : ConfRegs) (t : State) : Prop where
  | same (h : t.phase = p)
  | failed (h : t.phase = .failed) (hp : p.active = true)
  | responder (hp : p.active = false) (h : t.phase = .awaitingHandshake) (ha : t.act = .wreq) (hc : c.initiator = false)
  | initiator (hp : p.active = false) (h : t.phase = .sendingHandshake) (ha : t.act = .txreq) (hc : c.initiator = true)
  | handshakeReceived (hp : p = .awaitingHandshake) (h : t.phase = .handshakeDone)
  | handshakeAnswered (hp : p = .sendingHandshake) (h : t.phase = .handshakeDone)
  | toListReceiver (hp : p = .handshakeDone) (h : t.phase = .awaitingFileList) (hm : c.single = false)
    (hd : c.send = false)
  | toListSender (hp : p = .handshakeDone) (h : t.phase = .sendingFileList) (hm : c.single = false) (hd : c.send = true)
  | toSingle (hp : p = .handshakeDone) (h : t.phase = .transferringFile) (hx : t.xsub = .info) (hm : c.single = true)
  | listReceived (hp : p = .awaitingFileList) (h : t.phase = .transferringFile) (hx : t.xsub = .info)
  | emptyListReceived (hp : p = .awaitingFileList) (h : t.phase = .done) (hn : t.sess.pendCount = 0#8)
  | listAnswered (hp : p = .sendingFileList) (h : t.phase = .transferringFile) (hx : t.xsub = .info)
  | emptyListAnswered (hp : p = .sendingFileList) (h : t.phase = .done) (hn : t.sess.pendCount = 0#8)
  | lastFile (hp : p = .transferringFile) (h : t.phase = .done) (hn : t.sess.filePtr = t.sess.pendCount)

/-- Entering an activity in a session fails it on a latched abort, or follows the arc of the state it is entered from. -/
theorem arc_enter {p : Phase} {c : ConfRegs} {x : State} {a : Act} (hp : p.active = true)
    (h : ∀ t : State, t.phase = x.phase → t.xsub = x.xsub → t.sess = x.sess → Arc p c t) : Arc p c (x.enter a) := by
  rcases x.enter_cases a with ⟨-, -, he⟩ | ⟨-, -, he⟩ | ⟨-, -, he⟩ <;> rw [he]
  · exact .failed rfl hp
  · exact h _ rfl rfl rfl
  · exact h _ rfl rfl rfl

/-- The last file ends the session and any other leaves it in TRANSFERRING_FILE. -/
theorem arc_fileComplete {p : Phase} {c : ConfRegs} {x : State} (hp : p = .transferringFile) (hx : x.phase = p) :
    Arc p c x.fileComplete := by
  rcases x.fileComplete_cases with ⟨hlast, he⟩ | ⟨-, he⟩ <;> rw [he]
  · exact .lastFile hp rfl hlast
  · exact arc_enter (hp ▸ rfl) fun t ht _ _ => .same (ht.trans hx)

theorem Ruled.arc {u t : State} (h : Ruled u t) (hcontrol : u.controlInv = true) : Arc u.phase u.conf t := by
  have hactive (ha : u.act ≠ .none) : u.phase.active = true :=
    State.legalTriple_active (u.controlInv_iff.1 hcontrol).1 ha
  cases h with
  | restarted _ _ _ ha | fileEnd ha | nack ha | chunk _ _ ha | file _ _ _ ha =>
    exact arc_enter (hactive (by simp [ha])) fun t ht _ _ => .same ht
  | recorded => exact .same rfl
  | refused _ _ _ ha | unexpectedAnswer _ _ _ ha => exact .failed rfl (hactive (by simp [ha]))
  | handshake _ _ ha hp => exact arc_enter (hactive (by simp [ha])) fun t ht _ _ => .handshakeReceived hp ht
  | emptyList p slots ha hp _ hc => exact .emptyListReceived hp rfl hc
  | list p slots ha hp => exact arc_enter (hactive (by simp [ha])) fun t ht hx _ => .listReceived hp ht hx
  | emptyFile _ _ ha hp | lastChunk _ _ ha hp | ackEmptyFile ha hp => exact arc_fileComplete hp rfl
  | ackHandshake ha hp => exact arc_enter (hactive (by simp [ha])) fun t ht _ _ => .handshakeAnswered hp ht
  | ackEmptyList ha hp hc => exact .emptyListAnswered hp rfl hc
  | ackList ha hp => exact arc_enter (hactive (by simp [ha])) fun t ht hx _ => .listAnswered hp ht hx
  | ackFile ha | ackChunk ha => exact arc_enter (hactive (by simp [ha])) fun t ht _ _ => .same ht
  | ackLastChunk ha hp hx => exact arc_fileComplete (State.controlInv_chunkAnswered hcontrol ha hp hx).1 rfl

theorem Moved.arc {e : Event} {s t : State} (h : Moved e s t) (hcontrol : s.controlInv = true) :
    Arc s.phase s.conf t ∨ ∃ u, e = .reset u ∧ t.phase = .idle := by
  have hactive (ha : s.act ≠ .none) : s.phase.active = true :=
    State.legalTriple_active (s.controlInv_iff.1 hcontrol).1 ha
  cases h with
  | stay | peer | abortLatched | irqClear | irqEnable | hostRead => exact .inl (.same rfl)
  | parsed b q u _ _ hp => exact .inl (.same hp.control.2.1)
  | completed b q u t o _ _ hp _ hd =>
    have hu := hp.frame
    have harc := hd.ruled.arc (by rw [hu]; exact hcontrol)
    rw [hu] at harc
    exact .inl harc
  | tick =>
    obtain ⟨h, f, -, he | ⟨hruns, code, e, o, -, he⟩⟩ := tickStep_cases s <;> rw [he]
    · exact .inl (.same rfl)
    · refine .inl (.failed rfl ?_)
      rcases hruns with hh | hw
      · rcases s.phase.handshake_iff.1 hh with hp | hp <;> rw [hp] <;> rfl
      · exact hactive fun hn => by rw [hn] at hw; cases hw
  | start ha =>
    left
    split <;> rename_i hi <;> rw [State.enter_of_no_abort rfl]
    · exact .initiator ha rfl rfl hi
    · exact .responder ha rfl rfl (by simpa using hi)
  | abortNow ha => exact .inl (.failed rfl ha)
  | retry ha | srcResp _ _ ha | sendHandshake ha | sendFileList ha =>
    exact .inl (arc_enter (hactive (by simp [ha])) fun t ht _ _ => .same ht)
  | configure v a => exact .inl (.same (s.writeConf_control v _).2.1)
  | reset u he => exact .inr ⟨u, he, rfl⟩
  | adv ha hp =>
    have hin := hactive (by simp [ha])
    left
    rcases advStep_cases s with ⟨hm, he⟩ | ⟨hm, hd, he⟩ | ⟨hm, hd, he⟩ <;> rw [he]
    · exact arc_enter hin fun t ht hx _ => .toSingle hp ht hx hm
    · exact arc_enter hin fun t ht _ _ => .toListSender hp ht hm hd
    · exact arc_enter hin fun t ht _ _ => .toListReceiver hp ht hm hd
  | sendInfo t ha _ _ ht =>
    obtain ⟨-, name, f, size, index, -, -, -, -, rfl⟩ := sendInfo_next ht
    exact .inl (arc_enter (hactive (by simp [ha])) fun t ht _ _ => .same ht)
  | sendChunk ha =>
    cases hab : s.abortReq with
    | true =>
      rw [sendChunkRequest_aborted hab]
      exact .inl (.failed rfl (hactive (by simp [ha])))
    | false =>
      rw [sendChunkRequest_asked hab]
      exact .inl (.same rfl)

/-- Settles O56: `Moved.arc` is the table, and a step that changes the phase takes one of its arcs. -/
theorem phasesFollowTheArcs : Obligations.PhasesFollowTheArcs := by
  intro s t h hcontrol hne
  obtain ⟨-, e, es, hm, he⟩ := step_moved h
  rcases hm.arc hcontrol with harc | ⟨u, rfl, ht⟩
  · replace harc : Arc s.phase s.conf t := harc
    cases harc with
    | same h => exact absurd h.symm hne
    | failed h hp => exact .inl ⟨h, hp⟩
    | responder hp h ha hc => simp [hp, h, ha, hc]
    | initiator hp h ha hc => simp [hp, h, ha, hc]
    | handshakeReceived hp h | handshakeAnswered hp h => simp [hp, h]
    | toListReceiver hp h hm hd | toListSender hp h hm hd => simp [hp, h, hm, hd]
    | toSingle hp h hx hm => simp [hp, h, hx, hm]
    | listReceived hp h hx | listAnswered hp h hx => simp [hp, h, hx]
    | emptyListReceived hp h hn | emptyListAnswered hp h hn | lastFile hp h hn => simp [hp, h, hn]
  · exact .inr (.inl ⟨ht, u, es, he.resolve_right fun h => nomatch h.2.2⟩)

end Sys2Proof.Machine

namespace Sys2Proof.Machine

/-! ### Exchanges are lock-step (spec/45_flow_control.md R470, 10_state.md R96, R97) -/

/-- The step from `s` consumes a byte that ends a frame. -/
def State.endsFrame (s : State) : Prop :=
  ∃ b q es, s.port.events = .rxByte :: es ∧ s.port.rxq = b :: q ∧ s.linkOwned = true ∧ (parseByte b s).2.isSome = true

/-- From `s` to `t` sink events and then one answer are put out; sink events only in TRANSFERRING_FILE. -/
def AnswersOnce (s t : State) : Prop :=
  ∃ (sinks : List SinkEvent) (f : List Byte), IsAnswer s.cfg f ∧
    t.port.out = s.port.out ++ sinks.map .sink ++ [.frame f] ∧ (sinks ≠ [] → s.phase = .transferringFile)

theorem answersOnce_of_frame {s t : State} {f : List Byte} (hf : IsAnswer s.cfg f)
    (h : t.port.out = s.port.out ++ [.frame f]) : AnswersOnce s t := ⟨[], f, hf, by simpa using h, fun h => absurd rfl h⟩

/-- In a wait for a request a completed frame is answered once; in a wait for an answer nothing is put out. -/
theorem Ruled.answersOnce {u t : State} (h : Ruled u t) :
    (u.act = .wreq ∧ AnswersOnce u t) ∨ (u.act = .wrsp ∧ t.port.out = u.port.out) := by
  cases h with
  | restarted _ _ _ ha | refused _ _ _ ha => exact .inl ⟨ha, answersOnce_of_frame (.inr rfl) (by simp)⟩
  | handshake _ _ ha | emptyList _ _ ha | list _ _ ha | fileEnd ha =>
    exact .inl ⟨ha, answersOnce_of_frame (.inl rfl) (by simp)⟩
  | emptyFile index name ha hp =>
    exact .inl ⟨ha, [.fileStart u.sess.filePtr index 0#32 name, .fileEnd u.sess.filePtr], _, .inl rfl, by simp, fun _ => hp⟩
  | file index size name ha hp =>
    exact .inl ⟨ha, [.fileStart u.sess.filePtr index size name], _, .inl rfl, by simp, fun _ => hp⟩
  | lastChunk n d ha hp => exact .inl ⟨ha, [.data d, .fileEnd u.sess.filePtr], _, .inl rfl, by simp, fun _ => hp⟩
  | chunk n d ha hp => exact .inl ⟨ha, [.data d], _, .inl rfl, by simp, fun _ => hp⟩
  | recorded _ _ _ ha | unexpectedAnswer _ _ _ ha | ackHandshake ha | ackEmptyList ha | ackList ha | ackEmptyFile ha
  | ackFile ha | ackLastChunk ha | ackChunk ha | nack ha => exact .inr ⟨ha, by simp⟩

/-- Parsing reads no port. -/
theorem Parsed.withPort {b : Byte} {s u : State} {o : Option ParseOutcome} (h : Parsed b s u o) (p : Ports) :
    Parsed b { s with port := p } { u with port := p } o := by
  cases h with
  | header h hc => exact .header h hc
  | headerEnd hdr h hc hh hm hl => exact .headerEnd hdr h hc hh hm hl
  | payload h hc => exact .payload h hc
  | badMagic hdr h hc hh hm => exact .badMagic hdr h hc hh hm
  | emptyFrame hdr h hc hh hm hl => exact .emptyFrame hdr h hc hh hm hl
  | fullFrame m h hc hm => exact .fullFrame m h hc hm

theorem parseByte_outcome_port {s : State} (hl : s.cfg.legal = true) (b : Byte) (p : Ports) :
    (parseByte b { s with port := p }).2 = (parseByte b s).2 := by
  rw [parseByte_of_parsed (s := { s with port := p }) hl ((parseByte_parsed hl b).withPort p)]

/-- What a completed frame answers is answered from the state its last byte arrived in. -/
theorem Dispatched.answersOnce {b : Byte} {s u t : State} {o : ParseOutcome} (hp : Parsed b s u (some o))
    (hd : Dispatched u t) : (s.act = .wreq ∧ AnswersOnce s t) ∨ (s.act = .wrsp ∧ t.port.out = s.port.out) := by
  have h := hd.ruled.answersOnce
  rw [hp.outcome.1] at h
  exact h

/-- A byte that ends a frame in a wait for a request is answered. -/
theorem step_answersOnce {s t : State} (h : step s = .next t) (ha : s.act = .wreq) (hends : s.endsFrame) :
    AnswersOnce s t := by
  obtain ⟨b, q, es, he, hq, hlink, ho⟩ := hends
  have hl := (step_next h).1
  have hc : s.consumes = true := by rw [State.consumes, hlink, ha]; rfl
  rw [step_rxByte hl hc he hq] at h
  have hparsed := parseByte_parsed (s := s.taking es q) hl b
  have hsome : (parseByte b (s.taking es q)).2.isSome = true := by
    rw [show s.taking es q = { s with port := (s.taking es q).port } from rfl, parseByte_outcome_port hl]
    exact ho
  rcases (receiveByte_next h).2 with hx | ⟨u, o, hx, hout⟩
  · rw [hx] at hsome
    cases hsome
  · rw [hx] at hparsed
    have hd := onOutcome_dispatched (hparsed.out_cfg_eq.2 ▸ hl) hout
    rcases Dispatched.answersOnce hparsed hd with ⟨-, hans⟩ | ⟨ha', -⟩
    · exact hans
    · rw [show (s.taking es q).act = .wreq from ha] at ha'
      cases ha'

/-- Everything an event can put out. -/
inductive Exchange (e : Event) (s t : State) : Prop where
  | quiet (h : t.port.out = s.port.out)
  | noted (o : Output) (ho : (∃ a v, o = .hostRead a v) ∨ ∃ r, o = .srcReq r) (h : t.port.out = s.port.out ++ [o])
  | answered (ha : s.act = .wreq) (he : e = .rxByte) (b : Byte) (q : List Byte) (hq : s.port.rxq = b :: q)
    (hlink : s.linkOwned = true) (hends : (parseByte b s).2.isSome = true) (h : AnswersOnce s t)
  | requested (ha : s.act = .txreq ∨ s.act = .wsrc ∨ s.act = .whost) (h : t.port.out = s.port.out ++ [.frame t.txbuf])
    (ht : t.act = .wrsp)

theorem State.enter_wrsp_act (s : State) : (s.enter .wrsp).act = .wrsp := by
  rw [State.enter_wait (a := .wrsp) (fun h => nomatch h.2) rfl]

/-- A request put out is kept, and its answer waited for. -/
theorem exchange_request {e : Event} {s x : State} {f : List Byte}
    (ha : s.act = .txreq ∨ s.act = .wsrc ∨ s.act = .whost) (hf : x.txbuf = f)
    (hout : x.port.out = s.port.out ++ [.frame f]) : Exchange e s (x.enter .wrsp) :=
  .requested ha (by rw [State.enter_port, State.enter_txbuf, hf, hout]) x.enter_wrsp_act

theorem Moved.exchange {e : Event} {s t : State} (h : Moved e s t) (hl : s.cfg.legal = true) : Exchange e s t := by
  cases h with
  | stay | peer | abortNow | abortLatched | irqClear | irqEnable | reset => exact .quiet rfl
  | hostRead a v => exact .noted _ (.inl ⟨a, v, rfl⟩) rfl
  | parsed b q u _ _ hp => exact .quiet hp.out_cfg_eq.1
  | completed b q u t o hc hq hp _ hd he =>
    rcases Dispatched.answersOnce hp hd with ⟨ha, hans⟩ | ⟨-, hsame⟩
    · have hends : (parseByte b s).2 = some o := by
        rw [parseByte_of_parsed hl (hp.withPort s.port)]
      exact .answered ha he b q hq (Bool.and_eq_true_iff.1 hc).1 (by rw [hends]; rfl) hans
    · exact .quiet hsame
  | tick => exact .quiet (by simp)
  | start => exact .quiet (by split <;> simp)
  | retry ha => exact exchange_request (.inr (.inr ha)) rfl rfl
  | srcResp d _ ha => exact exchange_request (.inr (.inl ha)) rfl rfl
  | configure v a => exact .quiet (by rw [State.writeConf_port])
  | adv => exact .quiet (by simp)
  | sendHandshake ha | sendFileList ha => exact exchange_request (.inl ha) rfl rfl
  | sendInfo t ha _ _ ht =>
    obtain ⟨-, name, f, size, index, -, -, -, -, rfl⟩ := sendInfo_next ht
    exact exchange_request (.inl ha) rfl rfl
  | sendChunk =>
    rcases sendChunkRequest_out s with h | ⟨r, h⟩
    · exact .quiet h
    · exact .noted _ (.inr ⟨r, rfl⟩) h

/-- An answer's frame is the last output of its step. -/
theorem AnswersOnce.last {s t : State} (h : AnswersOnce s t) :
    ∃ (l : List Output) (f : List Byte), t.port.out = s.port.out ++ (l ++ [.frame f]) := by
  obtain ⟨sinks, f, -, hout, -⟩ := h
  exact ⟨_, f, hout.trans (List.append_assoc ..)⟩

theorem AnswersOnce.not_quiet {s t : State} (h : AnswersOnce s t) : t.port.out ≠ s.port.out := by
  obtain ⟨l, f, hout⟩ := h.last
  rw [hout]
  simp

theorem AnswersOnce.not_noted {s t : State} {o : Output} (h : AnswersOnce s t)
    (ho : (∃ a v, o = .hostRead a v) ∨ ∃ r, o = .srcReq r) : t.port.out ≠ s.port.out ++ [o] := by
  obtain ⟨l, f, hout⟩ := h.last
  rw [hout, Ne, List.append_cancel_left_eq]
  intro heq
  have hlast : Output.frame f = o := by simpa using congrArg List.getLast? heq
  rcases ho with ⟨a, v, rfl⟩ | ⟨r, rfl⟩ <;> cases hlast

/-- Settles O54: `Moved.exchange` gives what the step puts out, and a byte that ends a frame in WREQ is answered. -/
theorem exchangesAreLockStep : Obligations.ExchangesAreLockStep := by
  intro s t h
  obtain ⟨hl, e, es, hm, he⟩ := step_moved h
  have hanswer (ha : s.act = .wreq) (hends : s.endsFrame) : AnswersOnce s t := step_answersOnce h ha hends
  cases hm.exchange hl with
  | quiet hout =>
    replace hout : t.port.out = s.port.out := hout
    refine ⟨[], [], [], by simpa using hout, nofun, by simp, fun hn => absurd rfl hn, fun ha => ?_, nofun⟩
    exact ⟨nofun, fun hends => absurd hout (hanswer ha hends).not_quiet⟩
  | noted o ho hout =>
    replace hout : t.port.out = s.port.out ++ [o] := hout
    refine ⟨[], [], [o], by simpa using hout, by simpa using ho, by simp, fun hn => absurd rfl hn, fun ha => ?_, nofun⟩
    exact ⟨nofun, fun hends => absurd hout ((hanswer ha hends).not_noted ho)⟩
  | answered ha heq b q hq hlink hends hans =>
    subst heq
    obtain ⟨sinks, f, hf, hout, hsinks⟩ := hans
    have hev : s.port.events = .rxByte :: es := he.resolve_right fun h => nomatch h.2.2
    rw [parseByte_outcome_port (s := s) hl b] at hends
    refine ⟨sinks, [f], [], by simpa using hout, nofun, by simp, fun hn => ⟨ha, hsinks hn⟩, fun _ => ?_, ?_⟩
    · exact ⟨fun _ => ⟨b, q, es, hev, hq, hlink, hends⟩, fun _ => rfl⟩
    · intro g hg
      obtain rfl : g = f := by simpa using hg
      exact .inl ⟨ha, ⟨es, hev⟩, hf⟩
  | requested ha hout hact =>
    replace ha : s.act = .txreq ∨ s.act = .wsrc ∨ s.act = .whost := ha
    refine ⟨[], [t.txbuf], [], by simpa using hout, nofun, by simp, fun hn => absurd rfl hn, fun hreq => ?_, ?_⟩
    · rw [hreq] at ha
      rcases ha with ha | ha | ha <;> cases ha
    · intro g hg
      obtain rfl : g = t.txbuf := by simpa using hg
      exact .inr ⟨ha, hact, rfl⟩

end Sys2Proof.Machine

namespace Sys2Proof.Machine

/-! ### Which steps stop, and how (spec/93_implementation_defined.md section 3, 20_memory.md R155) -/

theorem State.unexpectedFrame_waits {s : State} (h : s.act.waits = true) (cmd : Byte) :
    ∃ t, s.unexpectedFrame cmd = .next t := by
  rcases s.act.waits_iff.1 h with ha | ha
  · exact ⟨_, State.unexpectedFrame_wreq ha cmd⟩
  · exact ⟨_, State.unexpectedFrame_wrsp ha cmd⟩

/-- Every outcome is dispatched in a frame wait. -/
theorem onOutcome_waits {s : State} (h : s.act.waits = true) (o : ParseOutcome) : ∃ t, onOutcome o s = .next t := by
  cases o with
  | badMagic m => exact State.badFrame_waits h _ _ _
  | csumBad c k => exact State.badFrame_waits h _ _ _
  | frame cmd len p =>
    cases hd : decodeBody s.cfg s.xsub cmd p with
    | some i =>
      rw [onOutcome_decoded hd]
      exact exec_waits h i
    | none =>
      simp only [onOutcome, hd]
      exact State.unexpectedFrame_waits h cmd

/-- A byte received in a frame wait stops the machine at most for want of an address. -/
theorem receiveByte_answers {s : State} (hl : s.cfg.legal = true) (hw : s.act.waits = true) (b : Byte) :
    (∃ t, receiveByte b s = .next t) ∨
      (receiveByte b s = .fault .noSuchAddress ∧
        ¬ (s.parser.headerStage s.cfg = true ∨ paybufImplemented s.cfg s.parser.pcnt.toNat = true)) := by
  unfold receiveByte
  split
  · rename_i hg
    exact .inr ⟨rfl, by simpa using hg⟩
  · refine .inl ?_
    have hparsed := parseByte_parsed hl b
    split
    · exact ⟨_, rfl⟩
    · rename_i u o hx
      rw [hx] at hparsed
      exact onOutcome_waits (hparsed.control.2.2 ▸ hw) o

theorem rxByteStep_answers {s : State} (hl : s.cfg.legal = true) :
    (∃ t, rxByteStep s = .next t) ∨
      (rxByteStep s = .fault .noSuchAddress ∧
        ¬ (s.parser.headerStage s.cfg = true ∨ paybufImplemented s.cfg s.parser.pcnt.toNat = true)) := by
  unfold rxByteStep
  split
  · rename_i hc
    split
    · exact .inl ⟨_, rfl⟩
    · rename_i b q _
      exact receiveByte_answers (s := { s with port.rxq := q }) hl (Bool.and_eq_true_iff.1 hc).2 b
  · exact .inl ⟨_, rfl⟩

/-- The info step stops only at a descriptor that does not exist. -/
theorem sendInfo_answers (s : State) :
    (∃ t, sendInfo s = .next t) ∨ (sendInfo s = .fault .noSuchAddress ∧ ¬ s.sess.filePtr.toNat < s.cfg.maxFiles) := by
  unfold sendInfo
  split
  · exact .inl ⟨_, rfl⟩
  · exact .inr ⟨rfl, ‹_›⟩

/-- The internal step stops only outside the legal triples, or at a descriptor that does not exist. -/
theorem internalStep_answers (s : State) :
    (∃ t, internalStep s = .next t) ∨
    (∃ f, internalStep s = .fault f ∧
      (s.legalTriple = true → s.phase = .transferringFile ∧ ¬ s.sess.filePtr.toNat < s.cfg.maxFiles)) := by
  have hillegal (h : internalStep s = .fault .illegalControlState) (ht : ¬ s.legalTriple = true) :
      ∃ f, internalStep s = .fault f ∧
        (s.legalTriple = true → s.phase = .transferringFile ∧ ¬ s.sess.filePtr.toNat < s.cfg.maxFiles) :=
    ⟨_, h, fun h => absurd h ht⟩
  cases ha : s.act with
  | none | wreq | wrsp | wsrc | whost => exact .inl ⟨s, by simp only [internalStep, ha]⟩
  | adv =>
    by_cases hp : s.phase = .handshakeDone
    · exact .inl ⟨_, internalStep_adv hp ha⟩
    · refine .inr (hillegal (by simp only [internalStep, ha, if_neg hp]) fun ht => hp ?_)
      revert ht
      cases hp : s.phase <;> simp [State.legalTriple, ha, hp]
  | txreq =>
    cases hp : s.phase with
    | sendingHandshake => exact .inl ⟨_, internalStep_sendHandshake hp ha⟩
    | sendingFileList => exact .inl ⟨_, internalStep_sendFileList hp ha⟩
    | transferringFile =>
      cases hx : s.xsub with
      | info =>
        rw [internalStep_sendInfo hp hx ha]
        rcases sendInfo_answers s with h | ⟨h, hptr⟩
        · exact .inl h
        · exact .inr ⟨_, h, fun _ => ⟨rfl, hptr⟩⟩
      | chunks => exact .inl ⟨_, internalStep_sendChunkRequest hp hx ha⟩
    | idle | awaitingHandshake | handshakeDone | awaitingFileList | done | failed =>
      rw [← hp]
      exact .inr (hillegal (by simp only [internalStep, ha, hp]) (by simp [State.legalTriple, ha, hp]))

/-- Every accepted entry but a received byte and the internal step completes, whatever the state. -/
theorem runEvent_accepted {e : Event} {s : State} (h : s.accepts e = true) (h1 : e ≠ .rxByte) (h2 : e ≠ .internal) :
    ∃ t, runEvent e s = .next t := by
  cases e with
  | rxByte => exact absurd rfl h1
  | internal => exact absurd rfl h2
  | peer b | tick | reset u => exact ⟨_, rfl⟩
  | hostWrite w a v =>
    obtain ⟨t, ht⟩ := s.hifWrite_completes v (hifLoc s.cfg a.toNat)
    exact ⟨t, (if_pos h).trans ht⟩
  | hostRead w a => exact ⟨_, if_pos h⟩
  | srcResp d =>
    simp only [State.accepts, Bool.and_eq_true, decide_eq_true_eq, and_assoc] at h
    exact ⟨_, srcRespStep_answered h.1 h.2.1 h.2.2⟩

/-- An entry the spec does not define is refused. -/
theorem runEvent_not_accepted {e : Event} {s : State} (h : s.accepts e = false) : ∃ r, runEvent e s = .refused r := by
  cases e with
  | rxByte | internal | peer | tick | reset => cases h
  | hostWrite w a v | hostRead w a => exact ⟨_, if_neg (ne_true_of_eq_false h)⟩
  | srcResp d =>
    refine ⟨_, if_neg fun hc => ?_⟩
    simp [State.accepts, hc] at h

/-- What stops an accepted entry is a fault, and only in a state no run reaches. -/
theorem runEvent_answers {e : Event} {s : State} (hl : s.cfg.legal = true) (h : s.accepts e = true) :
    (∃ t, runEvent e s = .next t) ∨ (∃ f, runEvent e s = .fault f ∧ s.inv = false) := by
  by_cases h1 : e = .rxByte
  · subst h1
    refine (rxByteStep_answers hl).imp_right fun ⟨hf, hroom⟩ => ⟨_, hf, ?_⟩
    by_contra hinv
    simp only [State.inv, Bool.not_eq_false, Bool.and_eq_true] at hinv
    exact hroom (Parser.consistent_room hl hinv.2)
  by_cases h2 : e = .internal
  · subst h2
    refine (internalStep_answers s).imp_right fun ⟨f, hf, hstop⟩ => ⟨f, hf, ?_⟩
    by_contra hinv
    simp only [State.inv, Bool.not_eq_false, Bool.and_eq_true] at hinv
    obtain ⟨⟨hcontrol, hcounters⟩, -⟩ := hinv
    obtain ⟨hp, hptr⟩ := hstop (s.controlInv_iff.1 hcontrol).1
    obtain ⟨-, htransfer, -⟩ := s.countersInv_iff.1 hcounters
    have hcount := s.sess.pendCount.isLt
    rw [(Config.legal_layout hl).2.2] at hptr
    have := (htransfer hp).1
    omega
  · exact .inl (runEvent_accepted h h1 h2)

/-- With legal parameters a step completes, or faults in a state no run reaches, or takes an entry the spec does not define
and is refused. -/
theorem step_answers {s : State} (hl : s.cfg.legal = true) :
    (∃ t, step s = .next t) ∨ (∃ f, step s = .fault f ∧ s.inv = false) ∨
    ((∃ r, step s = .refused r) ∧
      ∃ e es, s.port.events = e :: es ∧ State.accepts { s with port.events := es } e = false) := by
  cases he : s.port.events with
  | nil =>
    rw [step_idle hl he]
    exact (runEvent_answers (e := .internal) hl rfl).imp_right .inl
  | cons e es =>
    rw [step_event hl he]
    cases ha : State.accepts { s with port.events := es } e with
    | true => exact (runEvent_answers (s := { s with port.events := es }) hl ha).imp_right .inl
    | false => exact .inr (.inr ⟨runEvent_not_accepted ha, e, es, rfl, ha⟩)

/-- The legal parameters, with the arithmetic of the address map worked out. -/
theorem Config.legal_iff (c : Config) :
    c.legal = true ↔
      c.codes.Nodup ∧ (1 ≤ c.chunkSize ∧ c.chunkSize ≤ 65531) ∧
      (c.nameSlot % 4 = 0 ∧ 4 ≤ c.nameSlot ∧ c.nameSlot ≤ 96) ∧
      c.hdrBytes = 6 ∧ c.maxPayload = 65535 ∧ c.maxFiles = 255 ∧ c.registerBits = 32 ∧
      c.hostAddressBits = 16 ∧ c.sizeBits = 32 ∧ c.chunkIndexBits = 16 := by
  simp only [Config.legal, Config.slotLegal, Config.layoutLegal, Bool.and_eq_true, decide_eq_true_eq]
  rw [Config.descBytes]
  constructor
  · rintro ⟨⟨⟨⟨h1, h2⟩, h3⟩, ⟨⟨⟨⟨h4, h5⟩, h6⟩, h7⟩, h8⟩⟩, ⟨⟨⟨⟨⟨⟨h9, h10⟩, h11⟩, h12⟩, h13⟩, h14⟩, h15⟩⟩
    rw [h11] at h7 h8
    exact ⟨h1, ⟨h2, by omega⟩, ⟨h5, by omega, by omega⟩, h9, h10, h11, h12, h13, h14, h15⟩
  · rintro ⟨h1, ⟨h2, h3⟩, ⟨h4, h5, h6⟩, h9, h10, h11, h12, h13, h14, h15⟩
    rw [h11, h10]
    exact ⟨⟨⟨⟨h1, h2⟩, by omega⟩, ⟨⟨⟨⟨by omega, h4⟩, by omega⟩, by omega⟩, by omega⟩⟩,
      ⟨⟨⟨⟨⟨⟨h9, rfl⟩, rfl⟩, h12⟩, h13⟩, h14⟩, h15⟩⟩

theorem step_illegal {s : State} (hl : s.cfg.legal = false) : step s = .refused .illegalParameter :=
  if_neg (ne_true_of_eq_false hl)

/-- Settles O51: `step_answers` gives the outcomes with legal parameters, and with others every step is refused. -/
theorem noFaultAndNoOtherRefusal : Obligations.NoFaultAndNoOtherRefusal := by
  refine fun s => ⟨fun hinv f hf => ?fault, ⟨fun ⟨r, hr⟩ => ?refused, fun h => ?stops⟩, Config.legal_iff s.cfg⟩
  case fault =>
    cases hl : s.cfg.legal with
    | false => rw [step_illegal hl] at hf; cases hf
    | true =>
      rcases step_answers hl with ⟨t, ht⟩ | ⟨f', -, hnot⟩ | ⟨⟨r, hr⟩, -⟩
      · rw [ht] at hf; cases hf
      · rw [hinv] at hnot; cases hnot
      · rw [hr] at hf; cases hf
  case refused =>
    cases hl : s.cfg.legal with
    | false => exact .inl rfl
    | true =>
      rcases step_answers hl with ⟨t, ht⟩ | ⟨f, hf, -⟩ | ⟨-, h⟩
      · rw [ht] at hr; cases hr
      · rw [hf] at hr; cases hr
      · exact .inr h
  case stops =>
    rcases h with hl | ⟨e, es, he, ha⟩
    · exact ⟨_, step_illegal hl⟩
    · cases hl : s.cfg.legal with
      | false => exact ⟨_, step_illegal hl⟩
      | true =>
        rw [step_event hl he]
        exact runEvent_not_accepted ha

end Sys2Proof.Machine

namespace Sys2Proof.Machine

/-! ### The checksum (spec/40_codec.md R250 to R252) -/

theorem xorfold_singleton (b : Byte) : xorfold [b] = b := by
  rw [xorfold_cons, xorfold_nil, BitVec.xor_zero]

theorem xorfold_perm {p q : List Byte} (h : p.Perm q) : xorfold p = xorfold q := by
  induction h with
  | nil => rfl
  | cons b _ ih => rw [xorfold_cons, xorfold_cons, ih]
  | swap a b l => rw [xorfold_cons, xorfold_cons, xorfold_cons, xorfold_cons, ← BitVec.xor_assoc, BitVec.xor_comm b a, BitVec.xor_assoc]
  | trans _ _ ih₁ ih₂ => exact ih₁.trans ih₂

/-- A byte of a payload replaced: the old byte is folded out and the new one in. -/
theorem xorfold_set {p : List Byte} {k : Nat} (h : k < p.length) (v : Byte) :
    xorfold (p.set k v) = xorfold p ^^^ byteAt p k ^^^ v := by
  have hp : xorfold p = xorfold (p.take k) ^^^ (p[k] ^^^ xorfold (p.drop (k + 1))) := by
    rw [← xorfold_cons, ← xorfold_append, ← List.drop_eq_getElem_cons, List.take_append_drop]
  have hcancel (x y b : Byte) : x ^^^ (v ^^^ y) = x ^^^ (b ^^^ y) ^^^ b ^^^ v := by
    rw [BitVec.xor_assoc, BitVec.xor_assoc, BitVec.xor_comm v y, BitVec.xor_comm b y, BitVec.xor_assoc,
      ← BitVec.xor_assoc b b, BitVec.xor_self, BitVec.zero_xor]
  rw [List.set_eq_take_append_cons_drop, if_pos h, xorfold_append, xorfold_cons, byteAt_of_lt h, hp]
  exact hcancel _ _ _

/-- Flipping bits of a payload byte flips them in the checksum. -/
theorem xorfold_flip {p : List Byte} {k : Nat} (h : k < p.length) (m : Byte) :
    xorfold (p.set k (byteAt p k ^^^ m)) = xorfold p ^^^ m := by
  rw [xorfold_set h, BitVec.xor_assoc, ← BitVec.xor_assoc (byteAt p k), BitVec.xor_self, BitVec.zero_xor]

theorem byteAt_set_ne {p : List Byte} {k m : Nat} (h : k ≠ m) (v : Byte) : byteAt (p.set k v) m = byteAt p m := by
  rw [byteAt, byteAt, List.getD_eq_getElem?_getD, List.getD_eq_getElem?_getD, List.getElem?_set_ne h]

theorem verifyChecksum_iff (p : List Byte) (claimed : Byte) : verifyChecksum p claimed = true ↔ xorfold p = claimed :=
  beq_iff_eq

theorem verifyChecksum_eq_false {p : List Byte} {claimed : Byte} (h : xorfold p ≠ claimed) :
    verifyChecksum p claimed = false := Bool.eq_false_iff.2 (mt (verifyChecksum_iff p claimed).1 h)

/-- A flipped bit is a change. -/
theorem xor_bit_ne (x : Byte) {j : Nat} (hj : j < 8) : x ^^^ (1#8 <<< j) ≠ x := by
  intro h
  have hbit : (x ^^^ (1#8 <<< j)).getLsbD j = x.getLsbD j := by rw [h]
  simp [hj] at hbit

/-- Settles O1: the fold is a sum in the group of bytes under XOR, so it is read off term by term. -/
theorem checksumIsXorAndSeesOneFlippedBit : Obligations.ChecksumIsXorAndSeesOneFlippedBit := by
  refine ⟨rfl, fun p b => ?_, fun p q => xorfold_perm, verifyChecksum_iff, fun c => ?_, by decide, by decide,
    fun p => (verifyChecksum_iff p _).2 rfl, fun p k j hk hj => ⟨xorfold_flip hk _, ?_, ?_⟩, fun p k m j hk hm hne => ?_,
    fun p q => ?_⟩
  · rw [xorfold_append, xorfold_singleton]
  · rw [verifyChecksum_iff]
    exact eq_comm
  · refine verifyChecksum_eq_false ?_
    rw [xorfold_flip hk]
    exact xor_bit_ne _ hj
  · exact verifyChecksum_eq_false (xor_bit_ne _ hj).symm
  · rw [← byteAt_set_ne hne (byteAt p k ^^^ (1#8 <<< j)), xorfold_flip (by simpa using hm), xorfold_flip hk,
      BitVec.xor_assoc, BitVec.xor_self, BitVec.xor_zero]
  · rw [xorfold_append, xorfold_append, xorfold_cons, BitVec.zero_xor]

/-! ### The bytes of a frame and of its fields (spec/30_encoding.md R200, 00_scope.md R13) -/

/-- A value put above the bits of another adds to it at its weight. -/
theorem toNat_or_shiftLeft {w k : Nat} {x y : BitVec w} (hx : x.toNat < 2 ^ k) (hy : y.toNat <<< k < 2 ^ w) :
    (x ||| (y <<< k)).toNat = x.toNat + 2 ^ k * y.toNat := by
  rw [BitVec.toNat_or, BitVec.toNat_shiftLeft, Nat.mod_eq_of_lt hy, Nat.or_comm, ← Nat.shiftLeft_add_eq_or_of_lt hx,
    Nat.shiftLeft_eq, Nat.mul_comm, Nat.add_comm]

theorem le16_toNat (p : List Byte) (i : Nat) :
    (le16 p i).toNat = (byteAt p i).toNat + 256 * (byteAt p (i + 1)).toNat := by
  have h0 := (byteAt p i).isLt
  have h1 := (byteAt p (i + 1)).isLt
  have hbyte (k : Nat) : ((byteAt p k).setWidth 16).toNat = (byteAt p k).toNat := BitVec.toNat_setWidth_of_le (by decide)
  rw [le16, toNat_or_shiftLeft, hbyte, hbyte]
  · omega
  · rw [hbyte]
    exact h0
  · rw [hbyte, Nat.shiftLeft_eq]
    omega

theorem le32_toNat (p : List Byte) (i : Nat) :
    (le32 p i).toNat =
      (byteAt p i).toNat + 256 * (byteAt p (i + 1)).toNat + 65536 * (byteAt p (i + 2)).toNat +
        16777216 * (byteAt p (i + 3)).toNat := by
  have hbyte (k : Nat) : ((byteAt p k).setWidth 32).toNat = (byteAt p k).toNat := BitVec.toNat_setWidth_of_le (by decide)
  have hlt (k : Nat) : (byteAt p k).toNat < 256 := (byteAt p k).isLt
  have h0 := hlt i
  have h1 := hlt (i + 1)
  have h2 := hlt (i + 2)
  have h3 := hlt (i + 3)
  have hlow : ((byteAt p i).setWidth 32 ||| ((byteAt p (i + 1)).setWidth 32 <<< 8)).toNat =
      (byteAt p i).toNat + 2 ^ 8 * (byteAt p (i + 1)).toNat := by
    rw [toNat_or_shiftLeft, hbyte, hbyte]
    · rw [hbyte]
      exact h0
    · rw [hbyte, Nat.shiftLeft_eq]
      omega
  have hmid : ((byteAt p i).setWidth 32 ||| ((byteAt p (i + 1)).setWidth 32 <<< 8) |||
      ((byteAt p (i + 2)).setWidth 32 <<< 16)).toNat =
      (byteAt p i).toNat + 2 ^ 8 * (byteAt p (i + 1)).toNat + 2 ^ 16 * (byteAt p (i + 2)).toNat := by
    rw [toNat_or_shiftLeft, hlow, hbyte]
    · rw [hlow]
      omega
    · rw [hbyte, Nat.shiftLeft_eq]
      omega
  rw [le32, toNat_or_shiftLeft, hmid, hbyte]
  · omega
  · rw [hmid]
    omega
  · rw [hbyte, Nat.shiftLeft_eq]
    omega

/-- Settles O2: a frame's bytes are those of `encodeFrame_eq`, and its fields read back by the laws of the byte order. -/
theorem frameBytesAndFieldOrder : Obligations.FrameBytesAndFieldOrder := by
  refine ⟨fun c cmd p hp => ?frame, rfl, rfl, rfl, rfl, fun s => ⟨rfl, rfl⟩, le16_toNat, le32_toNat, le16_bytes16,
    le32_bytes32⟩
  have hmagic : le16 (encodeFrame c cmd p) 0 = c.magic := half_of_bytes c.magic
  have hlength : le16 (encodeFrame c cmd p) 3 = BitVec.ofNat 16 p.length := half_of_bytes _
  refine ⟨encodeFrame_length c cmd p, ?_, rfl, ?_, rfl, rfl⟩
  · rw [← le16_toNat, hmagic]
  · rw [← le16_toNat, hlength, BitVec.toNat_ofNat, Nat.mod_eq_of_lt (by omega)]

/-! ### Known words (spec/30_encoding.md sections 1, 2 and 5) -/

/-- Settles O7: the decoder evaluated on each word. -/
theorem knownWordsDecode : Obligations.KnownWordsDecode :=
  ⟨rfl, rfl, rfl, rfl, rfl, rfl, rfl, rfl, rfl, rfl⟩

/-! ### The schedule (spec/41_session.md section 1, 10_state.md section 9) -/

theorem rxByteStep_disabled {s : State} (h : s.linkOwned = false ∨ s.act ≠ .wreq ∧ s.act ≠ .wrsp ∨ s.port.rxq = []) :
    rxByteStep s = .next s := by
  unfold rxByteStep
  split
  · rename_i hc
    obtain ⟨hlink, hw⟩ := Bool.and_eq_true_iff.1 hc
    rcases h with h | ⟨h1, h2⟩ | h
    · rw [h] at hlink
      cases hlink
    · exact absurd hw (ne_true_of_eq_false (Act.waits_eq_false h1 h2))
    · rw [h]
  · rfl

theorem internalStep_disabled {s : State} (h1 : s.act ≠ .txreq) (h2 : s.act ≠ .adv) : internalStep s = .next s := by
  unfold internalStep
  split
  · exact absurd ‹_› h2
  · exact absurd ‹_› h1
  · rfl

/-- Settles O8: `step` takes the schedule's head, and the two disabled events do nothing. -/
theorem stepTakesNextScheduleEntry : Obligations.StepTakesNextScheduleEntry :=
  fun _ hl => ⟨step_idle hl, fun _ _ => step_event hl, fun _ => rfl, rxByteStep_disabled, internalStep_disabled⟩

end Sys2Proof.Machine

namespace Sys2Proof.Machine

/-! ### Where the machine stops by name (spec/30_encoding.md R224, 93_implementation_defined.md I35) -/

/-- Outside the two frame waits no frame has a meaning. -/
theorem exec_outside_wait {i : Instr} {cmd : Byte} {s : State} (h1 : s.act ≠ .wreq) (h2 : s.act ≠ .wrsp)
    (h : i.code s.cfg = some cmd) : exec i s = .refused .frameOutsideWait := by
  have hunexpected : s.unexpectedFrame cmd = .refused .frameOutsideWait := by
    unfold State.unexpectedFrame
    split
    · exact absurd ‹_› h1
    · exact absurd ‹_› h2
    · rfl
  rcases exec_of_code h with ⟨rule, he⟩ | ⟨-, rule, he⟩
  · rw [he, State.onRequest_unexpected fun hm => h1 hm.1, hunexpected]
  · rw [he, State.onAnswer_unexpected h2, hunexpected]

theorem srcRespStep_refused {s : State} {d : List Byte}
    (h : s.srcPending = false ∨ s.act ≠ .wsrc ∨ d.length ≠ s.chunkLen) : srcRespStep d s = .refused .srcRespForm := by
  refine if_neg fun hc => ?_
  obtain ⟨hpending, hact, hlen⟩ := hc
  rcases h with h | h | h
  · rw [h] at hpending
    cases hpending
  · exact h hact
  · exact h hlen

/-- Settles O39: a frame outside a wait, an answer nobody asked for, and the descriptor after the last. -/
theorem stopsAreByName : Obligations.StopsAreByName := by
  refine ⟨fun s i cmd => exec_outside_wait, fun s d => srcRespStep_refused, fun s hl hp hx ha hptr => ?_⟩
  rw [internalStep_sendInfo hp hx ha]
  refine if_neg ?_
  rw [hptr, (Config.legal_layout hl).2.2]
  decide

/-! ### Reset (spec/10_state.md R105, 70_reset_and_hazards.md R700 to R702) -/

/-- A byte written below every listed cell is put in front. -/
theorem Memory.write_front {m : Memory} {a : Nat} {b : Byte} (h : Memory.wf ((a, b) :: m)) :
    Memory.write m a b = (a, b) :: m := by
  have hb : b ≠ Memory.unlisted := h.2 (a, b) (List.mem_cons_self ..)
  cases m with
  | nil => rw [Memory.write, if_neg hb]
  | cons c m =>
    obtain ⟨x, y⟩ := c
    have hlt : a < x := Memory.wf_head_lt h (x, y) (List.mem_cons_self ..)
    rw [Memory.write, if_pos hlt, if_neg hb]

/-- Every canonical memory inside the space is the memory of its own cells. -/
theorem Memory.ofCells_self {space : Nat → Bool} {m : Memory} (h : Memory.wf m) (hin : ∀ c ∈ m, space c.1 = true) :
    Memory.ofCells space m = m := by
  induction m with
  | nil => rfl
  | cons c m ih =>
    obtain ⟨a, b⟩ := c
    obtain ⟨ha, hm⟩ := List.forall_mem_cons.1 hin
    rw [Memory.ofCells, ih (Memory.wf_tail h) hm, if_pos ha, Memory.write_front h]

/-- A byte of the space reads as the first cell brought for it. -/
theorem Memory.read_ofCells {space : Nat → Bool} {cells : List Host.Cell} {a : Nat} {c : Host.Cell}
    (ha : space a = true) (h : cells.find? (fun d => d.1 = a) = some c) :
    Memory.read (Memory.ofCells space cells) a = c.2 := by
  induction cells with
  | nil => cases h
  | cons d cells ih =>
    obtain ⟨x, y⟩ := d
    rw [List.find?_cons] at h
    rw [Memory.ofCells]
    by_cases hx : x = a
    · subst hx
      simp only [decide_true] at h
      cases h
      rw [if_pos ha, Memory.read_write_same (Memory.ofCells_wf space cells)]
    · simp only [hx, decide_false] at h
      split
      · rw [Memory.read_write_other (Ne.symm hx)]
        exact ih h
      · exact ih h

/-- Settles O41: the entry is run at once, and the tables it brings are `Memory.ofCells` of their cells. -/
theorem resetRestoresResetValues : Obligations.ResetRestoresResetValues := by
  refine fun s u es hl he => ⟨?_, fun _ => rfl, fun space m => Memory.ofCells_self,
    fun space cells => ⟨fun a c => Memory.read_ofCells, Memory.ofCells_implemented space cells⟩, fun hn a => ⟨?_, ?_, ?_⟩⟩
  · rw [step_event hl he]
    rfl
  · rw [descImplemented_iff, (Config.legal_layout hl).2.2, Config.descBytes, Config.descIndexAt, hn, Nat.mul_comm]
  · rw [rxnameImplemented, decide_eq_true_eq, (Config.legal_layout hl).2.2, hn, Nat.mul_comm]
  · rw [paybufImplemented, decide_eq_true_eq, (Config.legal_layout hl).2.1]

/-- The tables are empty after a power-on reset. -/
theorem State.reset_memoryInv : State.reset.memoryInv :=
  ⟨⟨Memory.wf_nil, nofun⟩, ⟨Memory.wf_nil, nofun⟩, ⟨Memory.wf_nil, nofun⟩, Memory.wf_nil, nofun⟩

/-- Settles O42: the reset state evaluated. -/
theorem resetStateMeetsInvariants : Obligations.ResetStateMeetsInvariants :=
  ⟨rfl, rfl, rfl, rfl, rfl, rfl, fun _ => rfl, rfl, rfl, rfl, rfl, rfl, rfl, rfl, rfl, rfl, rfl, rfl, by decide, rfl, rfl,
    rfl, rfl, State.reset_memoryInv, rfl, rfl, rfl, rfl⟩

end Sys2Proof.Machine
